-- ==== Sys2Proof/Word.lean ====
section
/-! DEFINITION. The word types of the ZA6 (R9, R10) and the numbers of module parts (Table 1.1). -/

namespace Sys2Proof

/-- A byte is 8 bits (R10). -/
abbrev Byte := BitVec 8
/-- A half is 16 bits (R10). -/
abbrev Half := BitVec 16
/-- A word is 32 bits; every instruction word is one (R10). -/
abbrev Word := BitVec 32
/-- A double is 64 bits (R10). -/
abbrev Double := BitVec 64
/-- A row of the accumulator/vector file is 512 bytes (Table 1.4). -/
abbrev Row := BitVec 4096

/-- Bits [hi:lo] of a word as an unsigned integer (`bits` of Table 0.3). -/
def bits {w : Nat} (x : BitVec w) (hi lo : Nat) : Nat := (x.toNat >>> lo) % 2 ^ (hi + 1 - lo)

/-- Bit n of a word. -/
def bit {w : Nat} (x : BitVec w) (n : Nat) : Bool := x.getLsbD n

end Sys2Proof
end

