-- ==== Sys2Proof/Syntax.lean ====
section
/-! DEFINITION. The instructions: one constructor for each row of spec/opcode_table.json. The first
219 are words of the six streams, with their trailing words as arguments (R38); the last 100 are the
table's event rows (95_what_each_step_holds.md), whose arguments name the part concerned and carry
what comes from outside the machine (log 14). -/

namespace Sys2Proof

/-- The six streams of a hearth context (R18), in the order of the stream codes of Table 3.5. -/
inductive Stream where
  | vl | va | vs | m | d | c
  deriving DecidableEq, Repr

/-- A scalar register name s0-s31. -/
abbrev SReg := BitVec 5
/-- A capability register name c0-c15. -/
abbrev CReg := BitVec 4
/-- A predicate name p0-p7 or vp0-vp7. -/
abbrev PReg := BitVec 3
/-- A branch-target register name b0-b7. -/
abbrev BReg := BitVec 3
/-- A guard predicate p0-p3 (R48). -/
abbrev GReg := BitVec 2

/-- The next-address field NXT with its operand SQ (Table 2.4), where NXT = 0b00 requires SQ = 0. -/
inductive Nxt where
  | seq
  | jump (q : BReg)
  | call (q : BReg)
  | ret
  | endLoop (l : BitVec 2)
  deriving DecidableEq, Repr

/-- NXT and SQ of a word whose SQ is a rounding field under NXT = 0b00 (R51). -/
inductive FNxt where
  | seq (rnd : BitVec 3)
  | jump (q : BReg)
  | call (q : BReg)
  | ret
  | endLoop (l : BitVec 2)
  deriving DecidableEq, Repr

/-- NXT of the immediate-20 form, whose SQ is implied (Table 2.4). -/
inductive INxt where
  | seq | jump | ret | endInner
  deriving DecidableEq, Repr

/-- The second operand of a class-T instruction with its guard (Table 2.7). -/
inductive OpB where
  | reg (b : SReg) (g : GReg)
  | const (k : BitVec 7)
  | lit (w : Word) (g : GReg)
  | imm (i : BitVec 5) (g : GReg)
  deriving DecidableEq, Repr

/-- The address form of class LS (off8 and amode, Table 2.10). -/
inductive AMode where
  | off (i : BitVec 8)
  | idx (r : SReg)
  | lit (w : Word)
  | post (i : BitVec 8)
  deriving DecidableEq, Repr

/-- A vector source selector (Table 2.16). -/
inductive Src where
  | v (n : BitVec 6)
  | latch (n : BitVec 2)
  | sq (n : BitVec 3)
  | pushed | zero | one | lane
  deriving DecidableEq, Repr

/-- A read into, or a write from, a scalar register: the two accesses of a special register (R142). -/
inductive RegAccess where
  | get (d : SReg)
  | set (a : SReg)
  deriving DecidableEq, Repr

/-- A context bank: module-wide hearth index and bank (R16, Table 1.2). -/
structure Place where
  h : BitVec 7
  bank : Bool
  deriving DecidableEq, Repr

/-- The classes of pool engine (Table 1.3), in the order of the class codes of Table 12.1. -/
inductive EngineClass where
  | griddle | whisk | sieve | kettle | grater | stockpot
  deriving DecidableEq, Repr

/-- One pool engine: grove, class, index within the class (R21). -/
structure EngineId where
  g : Nat
  cls : EngineClass
  i : Nat
  deriving DecidableEq, Repr

/-- A fault unit (R392), with the classes of RETSVC (Table 18.2). -/
inductive FaultUnit where
  | hearth (h : Nat)
  | engine (e : EngineId)
  | pantryBank (g b : Nat)
  | clearingBank (b : Nat)
  | channelGroup (c : Nat)
  | ebithPort (p : Nat)
  | sensor (g k : Nat)
  deriving DecidableEq, Repr

/-- Where an uncorrectable error stands (R389). -/
inductive ErrSite where
  | granule (loc : Nat)
  | row (h r : Nat)
  | bank (p : Place)
  | store (p : Place) (str : Stream)
  deriving DecidableEq, Repr

/-- A retention element found lost by a parity scan (R324). -/
inductive LostElement where
  | engine (e : EngineId)
  | bank (p : Place)
  deriving DecidableEq, Repr

/-- The header of a host command as it arrives on a queue pair (Table 14.3). -/
structure CmdHeader where
  qp : Nat
  tag : Half
  ctx : Nat
  deriving DecidableEq, Repr

/-- The context record a CREATE_CTX carries (Table 14.1). -/
structure CtxBody where
  ctx : Nat
  priv : Bool
  strict : Bool
  otbase : Nat
  otlen : Nat
  hmask : BitVec 128
  pbanks : Nat
  emask : BitVec 48
  quota : List Nat
  save : Nat
  sigkeys : List (BitVec 384)
  deriving DecidableEq, Repr

/-- A grant-table entry (R353). -/
structure GrantBody where
  units : Nat
  boost : Bool
  minf : Nat
  maxp : Nat
  bb : Nat
  deriving DecidableEq, Repr

/-- A section of a code object: its words and their word kinds (Table 3.2, R81). -/
structure SectionImage where
  words : List Word
  kinds : List (BitVec 2)
  deriving DecidableEq, Repr

/-- A buffer entry of a code object (Table 3.4). `name` is its 16 bytes. -/
structure BufferEntry where
  name : List Byte
  size : Nat
  psc : Nat
  fmt : Nat
  level : Nat
  phase : Nat
  partner : Nat
  flags : Nat
  deriving DecidableEq, Repr

/-- A segment entry of a code object (Table 3.5). -/
structure SegmentEntry where
  stream : Nat
  levels : Nat
  len : Nat
  start : Nat
  eOut : Nat
  e2 : Nat
  e1 : Nat
  e0 : Nat
  sig : Word
  deriving DecidableEq, Repr

/-- A relocation record (Table 3.6). -/
structure RelocEntry where
  kind : Nat
  stream : Nat
  aux : Nat
  site : Nat
  value : Nat
  deriving DecidableEq, Repr

/-- A code object's byte image, read into its tables (Table 3.2). `reserved` lists the bytes of its
reserved fields in their order; `template` is the first word and the length in words of the first `.params`
template in source order, which no table of the image records (log 20). -/
structure CodeImage where
  magic : Word
  version : Nat
  flags : Nat
  slip : Nat
  entry : Nat
  sections : List SectionImage
  consts : List Word
  buffers : List BufferEntry
  segments : List SegmentEntry
  relocs : List RelocEntry
  template : Option (Nat × Nat)
  reserved : List Byte
  signature : List Byte
  deriving DecidableEq, Repr

/-- The source device and context that a remote access carries, and the Ebith port at which it arrives (R223, R367). -/
structure RemoteSource where
  dev : Nat
  ctx : Nat
  port : Nat
  deriving DecidableEq, Repr

/-- A remote access arriving over Ebith, at physical addresses (R264, R367); written data may carry poison (R389). -/
inductive RemoteAcc where
  | read (addr len : Nat)
  | write (addr : Nat) (data : List Byte) (poisoned : Bool)
  | stamp (addr : Nat) (v : Double)
  deriving DecidableEq, Repr

/-- One element of a reduce-copy reaching its target, with the poison it carries (R223, R251, R389). -/
structure ReduceElement where
  id : Word
  poisoned : Bool
  sequence : Nat
  addr : Nat
  fmt : BitVec 4
  rop : BitVec 4
  v : Double
  deriving DecidableEq, Repr

/-- A hold request for an exact span on this module (R313). -/
structure HoldReq where
  cls : Nat
  cmask : Nat
  lanes : Nat
  start : Nat
  dur : Nat
  handle : BitVec 32
  deriving DecidableEq, Repr

/-- One constructor for each row of spec/opcode_table.json (R57, R62, R66, R67 and the event rows). -/
inductive Instr where
  /-- R125: Adds two 64-bit integer operands, wrapping modulo 2^64. -/
  | add (n : Nxt) (d a : SReg) (b : OpB)
  /-- R125: Subtracts operand b from a, modulo 2^64. -/
  | sub (n : Nxt) (d a : SReg) (b : OpB)
  /-- R125: Writes the low 64 bits of the product. -/
  | mul (n : Nxt) (d a : SReg) (b : OpB)
  /-- R125: Writes bits 127:64 of the signed product. -/
  | mulh (n : Nxt) (d a : SReg) (b : OpB)
  /-- R125: Writes bits 127:64 of the unsigned product. -/
  | mulhU (n : Nxt) (d a : SReg) (b : OpB)
  /-- R126: Signed division truncated toward zero, with fixed borderline results and no trap. -/
  | div (n : Nxt) (d a : SReg) (b : OpB)
  /-- R126: Unsigned division, with fixed results for a zero divisor. -/
  | divU (n : Nxt) (d a : SReg) (b : OpB)
  /-- R126: Signed remainder taking the sign of a. -/
  | rem (n : Nxt) (d a : SReg) (b : OpB)
  /-- R126: Unsigned remainder. -/
  | remU (n : Nxt) (d a : SReg) (b : OpB)
  /-- R125: Bitwise AND. -/
  | and (n : Nxt) (d a : SReg) (b : OpB)
  /-- R125: Bitwise OR. -/
  | or (n : Nxt) (d a : SReg) (b : OpB)
  /-- R125: Bitwise XOR. -/
  | xor (n : Nxt) (d a : SReg) (b : OpB)
  /-- R125: a AND NOT b. -/
  | andn (n : Nxt) (d a : SReg) (b : OpB)
  /-- R125: Shifts left by bits 5:0 of b. -/
  | shl (n : Nxt) (d a : SReg) (b : OpB)
  /-- R125: Logical shift right by bits 5:0 of b. -/
  | shr (n : Nxt) (d a : SReg) (b : OpB)
  /-- R125: Arithmetic shift right by bits 5:0 of b. -/
  | sar (n : Nxt) (d a : SReg) (b : OpB)
  /-- R125: Signed minimum. -/
  | min (n : Nxt) (d a : SReg) (b : OpB)
  /-- R125: Signed maximum. -/
  | max (n : Nxt) (d a : SReg) (b : OpB)
  /-- R125: Unsigned minimum. -/
  | minU (n : Nxt) (d a : SReg) (b : OpB)
  /-- R125: Unsigned maximum. -/
  | maxU (n : Nxt) (d a : SReg) (b : OpB)
  /-- R125: Counts leading zero bits of a. -/
  | clz (n : Nxt) (g : GReg) (d a : SReg)
  /-- R125: Counts one bits of a. -/
  | popc (n : Nxt) (g : GReg) (d a : SReg)
  /-- R125: 32-bit add, sign-extended to 64 bits. -/
  | addw (n : Nxt) (d a : SReg) (b : OpB)
  /-- R127: Extracts a bit field of a described by the control value b. -/
  | bfx (n : Nxt) (d a : SReg) (b : OpB)
  /-- R130: FP32 addition rounded once in the selected mode. -/
  | fadd (n : FNxt) (d a : SReg) (b : OpB)
  /-- R130: FP32 subtraction rounded once. -/
  | fsub (n : FNxt) (d a : SReg) (b : OpB)
  /-- R130: FP32 multiplication rounded once. -/
  | fmul (n : FNxt) (d a : SReg) (b : OpB)
  /-- R130: FP32 division rounded once. -/
  | fdiv (n : FNxt) (d a : SReg) (b : OpB)
  /-- R131: Fused d×a+b with one rounding. -/
  | fma (n : FNxt) (d a : SReg) (b : OpB)
  /-- R131: Fused b−d×a with one rounding. -/
  | fnma (n : FNxt) (d a : SReg) (b : OpB)
  /-- R134: FP32 minimum with NaN and signed-zero ordering. -/
  | fmin (n : FNxt) (d a : SReg) (b : OpB)
  /-- R134: FP32 maximum with NaN and signed-zero ordering. -/
  | fmax (n : FNxt) (d a : SReg) (b : OpB)
  /-- R132: FP32 square root rounded once. -/
  | fsqrt (n : FNxt) (g : GReg) (d a : SReg)
  /-- R133: Clears the sign bit; NaN becomes canonical. -/
  | fabs (n : FNxt) (g : GReg) (d a : SReg)
  /-- R133: Inverts the sign bit; NaN becomes canonical. -/
  | fneg (n : FNxt) (g : GReg) (d a : SReg)
  /-- R135: Converts FP32 to INT64 with clamping and IV. -/
  | fcvtFi (n : FNxt) (g : GReg) (d a : SReg)
  /-- R135: Converts INT64 to FP32. -/
  | fcvtIf (n : FNxt) (g : GReg) (d a : SReg)
  /-- R136: Writes the one-hot class mask of a. -/
  | fclass (n : FNxt) (g : GReg) (d a : SReg)
  /-- R138: Sets a predicate when a equals b. -/
  | ceq (n : Nxt) (d : PReg) (a : SReg) (b : OpB)
  /-- R138: Sets a predicate when a differs from b. -/
  | cne (n : Nxt) (d : PReg) (a : SReg) (b : OpB)
  /-- R138: Signed less-than compare into a predicate. -/
  | clt (n : Nxt) (d : PReg) (a : SReg) (b : OpB)
  /-- R138: Signed less-or-equal compare into a predicate. -/
  | cle (n : Nxt) (d : PReg) (a : SReg) (b : OpB)
  /-- R138: Unsigned less-than compare. -/
  | cltU (n : Nxt) (d : PReg) (a : SReg) (b : OpB)
  /-- R138: Unsigned less-or-equal compare. -/
  | cleU (n : Nxt) (d : PReg) (a : SReg) (b : OpB)
  /-- R139: FP32 equality compare into a predicate. -/
  | fceq (n : FNxt) (d : PReg) (a : SReg) (b : OpB)
  /-- R139: FP32 less-than compare, IV on NaN. -/
  | fclt (n : FNxt) (d : PReg) (a : SReg) (b : OpB)
  /-- R139: FP32 less-or-equal compare, IV on NaN. -/
  | fcle (n : FNxt) (d : PReg) (a : SReg) (b : OpB)
  /-- R139: Sets a predicate when either operand is NaN. -/
  | fcun (n : Nxt) (d : PReg) (a : SReg) (b : OpB)
  /-- R140: Predicate AND. -/
  | pand (n : Nxt) (g : GReg) (d a b : PReg)
  /-- R140: Predicate OR. -/
  | por (n : Nxt) (g : GReg) (d a b : PReg)
  /-- R140: Predicate XOR. -/
  | pxor (n : Nxt) (g : GReg) (d a b : PReg)
  /-- R140: Predicate AND NOT. -/
  | pandn (n : Nxt) (g : GReg) (d a b : PReg)
  /-- R141: Selects s[a] or b by the guard predicate and always writes d. -/
  | sel (n : Nxt) (d a : SReg) (b : OpB)
  /-- R140: Sets a predicate when s[a] is non-zero. -/
  | pset (n : Nxt) (g : GReg) (d : PReg) (a : SReg)
  /-- R137: Writes an immediate-20 FP32 value to d. -/
  | fset (n : INxt) (d : SReg) (i : BitVec 20)
  /-- R137: Adds an immediate-20 FP32 value to d, to nearest even. -/
  | faddImm (n : INxt) (d : SReg) (i : BitVec 20)
  /-- R137: Multiplies d by an immediate-20 FP32 value. -/
  | fmulImm (n : INxt) (d : SReg) (i : BitVec 20)
  /-- R137: Maximum of d and an immediate-20 FP32 value. -/
  | fmaxImm (n : INxt) (d : SReg) (i : BitVec 20)
  /-- R128: Sets d to a sign-extended 20-bit immediate. -/
  | iset (n : INxt) (d : SReg) (i : BitVec 20)
  /-- R128: Adds a sign-extended 20-bit immediate to d. -/
  | iadd (n : INxt) (d : SReg) (i : BitVec 20)
  /-- R128: ANDs d with a sign-extended 20-bit immediate. -/
  | iand (n : INxt) (d : SReg) (i : BitVec 20)
  /-- R128: Shifts d left 20 bits and inserts an unsigned immediate. -/
  | ishi (n : INxt) (d : SReg) (i : BitVec 20)
  /-- R283: Writes a branch-target register from a literal word offset. -/
  | pbr (n : Nxt) (bt : BReg) (pr : PReg) (sn : Bool) (off : Word)
  /-- R283: Writes a branch-target register from a target held in s[a]. -/
  | pbrRegister (n : Nxt) (bt : BReg) (pr : PReg) (sn : Bool) (a : SReg)
  /-- R285: Transfers through a branch-target register when the named predicate and sense hold. -/
  | brx (bt : BReg) (pr : PReg) (sn : Bool)
  /-- R286: Activates a hardware loop level with an immediate count. -/
  | loop (n : Nxt) (lv : BitVec 2) (c : BitVec 12)
  /-- R286: Activates a hardware loop level with its count in s[a]. -/
  | loopRegister (n : Nxt) (lv : BitVec 2) (a : SReg)
  /-- R298: Begins the HALT bundle, waiting for the context to drain. -/
  | halt
  /-- R240: Waits for dispatched strands, then discards fetch, loop and strand buffers. -/
  | ifsync (n : Nxt)
  /-- R229: Loads a sign-extended byte through a capability. -/
  | ldb (n : Nxt) (d : SReg) (c : CReg) (m : AMode)
  /-- R229: Loads a zero-extended byte. -/
  | ldbz (n : Nxt) (d : SReg) (c : CReg) (m : AMode)
  /-- R229: Loads a sign-extended half. -/
  | ldh (n : Nxt) (d : SReg) (c : CReg) (m : AMode)
  /-- R229: Loads a zero-extended half. -/
  | ldhz (n : Nxt) (d : SReg) (c : CReg) (m : AMode)
  /-- R229: Loads a sign-extended word. -/
  | ldw (n : Nxt) (d : SReg) (c : CReg) (m : AMode)
  /-- R229: Loads a zero-extended word. -/
  | ldwz (n : Nxt) (d : SReg) (c : CReg) (m : AMode)
  /-- R229: Loads a double. -/
  | ldd (n : Nxt) (d : SReg) (c : CReg) (m : AMode)
  /-- R231: Loads a 16-byte capability together with its stored tag. -/
  | ldc (n : Nxt) (d : CReg) (c : CReg) (m : AMode)
  /-- R229: Stores a byte, clearing the granule tag. -/
  | stb (n : Nxt) (d : SReg) (c : CReg) (m : AMode)
  /-- R229: Stores a half. -/
  | sth (n : Nxt) (d : SReg) (c : CReg) (m : AMode)
  /-- R229: Stores a word. -/
  | stw (n : Nxt) (d : SReg) (c : CReg) (m : AMode)
  /-- R229: Stores a double. -/
  | std (n : Nxt) (d : SReg) (c : CReg) (m : AMode)
  /-- R231: Stores a capability and its tag as one access. -/
  | stc (n : Nxt) (d : CReg) (c : CReg) (m : AMode)
  /-- R232: Clearing atomic add returning the old value. -/
  | aadd (n : Nxt) (d a : SReg) (c : CReg) (o sc : BitVec 2) (w : Bool)
  /-- R232: Clearing atomic AND. -/
  | aand (n : Nxt) (d a : SReg) (c : CReg) (o sc : BitVec 2) (w : Bool)
  /-- R232: Clearing atomic OR. -/
  | aor (n : Nxt) (d a : SReg) (c : CReg) (o sc : BitVec 2) (w : Bool)
  /-- R232: Clearing atomic XOR. -/
  | axor (n : Nxt) (d a : SReg) (c : CReg) (o sc : BitVec 2) (w : Bool)
  /-- R232: Clearing atomic signed minimum. -/
  | amin (n : Nxt) (d a : SReg) (c : CReg) (o sc : BitVec 2) (w : Bool)
  /-- R232: Clearing atomic signed maximum. -/
  | amax (n : Nxt) (d a : SReg) (c : CReg) (o sc : BitVec 2) (w : Bool)
  /-- R232: Clearing atomic swap. -/
  | aswap (n : Nxt) (d a : SReg) (c : CReg) (o sc : BitVec 2) (w : Bool)
  /-- R233: Clearing atomic compare-and-swap. -/
  | acas (n : Nxt) (d a : SReg) (c : CReg) (o sc : BitVec 2) (w : Bool)
  /-- R233: Clearing atomic FP32 add. -/
  | afadd (n : Nxt) (d a : SReg) (c : CReg) (o sc : BitVec 2)
  /-- R235: Acquires a sync object at a scope. -/
  | acq (n : Nxt) (c : CReg) (sc : BitVec 2)
  /-- R235: Releases a sync object at a scope after its waits, incrementing RSEQ. -/
  | rel (n : Nxt) (c : CReg) (sc : BitVec 2)
  /-- R236: Re-binds a range of binding granules to another sync object. -/
  | bind (n : Nxt) (m : CReg) (a : SReg) (c : CReg) (sc : BitVec 2)
  /-- R237: Orders earlier accesses before later ones at a scope. -/
  | fence (n : Nxt) (sc : BitVec 2)
  /-- R238: Waits for a stream's timeline counter and acquires its operations. -/
  | tlwait (n : Nxt) (d : SReg) (str : BitVec 5)
  /-- R239: Reads a location until it reaches a threshold. -/
  | mwait (n : Nxt) (d a : SReg) (c : CReg)
  /-- R260: Copies a capability register with its tag. -/
  | cmov (n : Nxt) (x ca : CReg)
  /-- R260: Adds s[a] to a capability cursor. -/
  | cinc (n : Nxt) (x ca : CReg) (a : SReg)
  /-- R260: Sets a capability cursor from s[a]. -/
  | cset (n : Nxt) (x ca : CReg) (a : SReg)
  /-- R261: Narrows a capability window, checking rights and bounds. -/
  | cnarrow (n : Nxt) (x ca : CReg) (a : SReg) (f : BitVec 4)
  /-- R262: Clears rights of a capability. -/
  | cdrop (n : Nxt) (x ca : CReg) (a : SReg) (f : BitVec 4)
  /-- R263: Reads a capability field into a scalar register. -/
  | cget (n : Nxt) (x : SReg) (ca : CReg) (f : BitVec 4)
  /-- R263: Tests a capability into a predicate. -/
  | ctst (n : Nxt) (x : PReg) (ca : CReg) (a : SReg) (f : BitVec 4)
  /-- R290: Dispatches a strand named by a trailing descriptor to an engine stream queue. -/
  | disp (n : Nxt) (str : BitVec 3) (ps : SReg) (desc : Word) (cs : List Word)
  /-- R290: Dispatches a strand whose descriptor is held in s[ad]. -/
  | dispRegister (n : Nxt) (str : BitVec 3) (ps : SReg) (ad : SReg) (cs : List Word)
  /-- R292: Writes a shadow configuration register of an engine stream. -/
  | cfg (n : Nxt) (str : BitVec 3) (ls : BitVec 2) (idx : BitVec 8) (a : SReg)
  /-- R294: Control-stream put of tokens to a counter. -/
  | tokPut (n : Nxt) (tk : BitVec 4) (c : BitVec 8)
  /-- R294: Control-stream wait for and take of tokens. -/
  | tokGet (n : Nxt) (tk : BitVec 4) (c : BitVec 8)
  /-- R382: Waits, then commits the buffer phase and takes a checkpoint. -/
  | phase (n : Nxt)
  /-- R295: Registers a tile region and its full/empty bit. -/
  | tile (n : Nxt) (t : BitVec 4) (c : CReg) (fe : Bool)
  /-- R312: Submits a chain descriptor to a booking unit search and commits it. -/
  | book (n : Nxt) (d : SReg) (c : CReg) (a : SReg)
  /-- R313: Places holds for a cross-module chain. -/
  | reserve (n : Nxt) (d : SReg) (c : CReg) (a : SReg)
  /-- R313: Commits every hold of a handle. -/
  | confirm (n : Nxt) (d a : SReg)
  /-- R320: Releases holds or cancels a committed chain. -/
  | abandon (n : Nxt) (d a : SReg)
  /-- R314: Binds a booked step to a lease slot or the D stream. -/
  | lease (n : Nxt) (d a : SReg)
  /-- R321: Queues an open lease request for an engine. -/
  | leaseOpen (n : Nxt) (d a : SReg)
  /-- R315: Ends a leased step, engine to off. -/
  | unlease (n : Nxt) (d a : SReg)
  /-- R315: Ends a leased step, engine to retention. -/
  | unleaseRet (n : Nxt) (d a : SReg)
  /-- R335: Pushes a launch packet from a running unit after a release wait. -/
  | launch (n : Nxt) (d : SReg) (c : CReg) (a : SReg)
  /-- R344: Posts a ticket into its home grove's ready queue. -/
  | postQueued (n : Nxt) (d : SReg) (c : CReg)
  /-- R344: Posts a ticket parked on a dependency counter. -/
  | postParked (n : Nxt) (d : SReg) (c m : CReg)
  /-- R345: Decrements a dependency counter and releases its parked tickets at zero. -/
  | depdec (n : Nxt) (d : SReg) (c : CReg) (a : SReg)
  /-- R346: Cancels every launch of a graph. -/
  | cancelGraph (n : Nxt) (d a : SReg)
  /-- R346: Cancels every launch of a phase. -/
  | cancelPhase (n : Nxt) (d a : SReg)
  /-- R346: Cancels every launch of a job. -/
  | cancelJob (n : Nxt) (d a : SReg)
  /-- R346: Cancels one launch. -/
  | cancelLaunch (n : Nxt) (d a : SReg)
  /-- R275: Orders earlier writes before later walker reads at a scope. -/
  | tfenceW (n : Nxt) (sc : BitVec 2)
  /-- R276: Removes cached translations of a page range. -/
  | tlbinv (n : Nxt) (c : CReg) (a : SReg) (sc : BitVec 2) (b : SReg)
  /-- R277: Removes translations and waits for accesses through them. -/
  | shoot (n : Nxt) (c : CReg) (a : SReg) (sc : BitVec 2) (b : SReg)
  /-- R278: Moves a page to a new frame in six ordered steps. -/
  | remap (n : Nxt) (c : CReg) (a : SReg) (sc : BitVec 2) (b : SReg)
  /-- R142: Reads a special register into s[d]. -/
  | gets (n : Nxt) (d : SReg) (r : BitVec 10)
  /-- R143: Writes s[a] to a special register without behaviour of its own. -/
  | sets (n : Nxt) (a : SReg) (r : BitVec 10)
  /-- R375: Raises the software cause with a non-zero code. -/
  | trap (n : Nxt) (c : BitVec 8)
  /-- R375: trap 0: ends the handler, applies flushes and resumes all streams. -/
  | trapResume
  /-- R391: Arms a detector to report COUNT injected errors. -/
  | inject (n : Nxt) (a b : SReg)
  /-- R243: Strided vector load with conversion to the element type. -/
  | vl (vd : BitVec 6) (ag : BitVec 3) (fmt : BitVec 4) (vp : PReg)
  /-- R243: Gather load by lane indices. -/
  | vlG (vd : BitVec 6) (ag : BitVec 3) (fmt : BitVec 4) (ix : Src) (vp : PReg)
  /-- R243: Transposing block load. -/
  | vlT (vd : BitVec 6) (ag : BitVec 3) (fmt : BitVec 4) (vp : PReg)
  /-- R115: Bit-field extracting load by an extraction pattern. -/
  | vlBf (vd : BitVec 6) (ag : BitVec 3) (fmt : BitVec 4) (vp : PReg) (bf : BitVec 2)
  /-- R243: Broadcast load of one element to every lane. -/
  | vlBc (vd : BitVec 6) (ag : BitVec 3) (fmt : BitVec 4) (vp : PReg)
  /-- R243: Pops a stream-register entry into a row. -/
  | vlPop (vd : BitVec 6) (sq : BitVec 3) (fmt : BitVec 4) (vp : PReg)
  /-- R294: VL put of tokens after earlier VL operations complete. -/
  | tokPutVl (tk : BitVec 4) (c : BitVec 8)
  /-- R294: VL wait for tokens. -/
  | tokGetVl (tk : BitVec 4) (c : BitVec 8)
  /-- R161: Lane-wise add. -/
  | vadd (x : Bool) (vd : BitVec 6) (a b : Src) (vp : PReg) (ha hb : Bool)
  /-- R161: Lane-wise subtract. -/
  | vsub (x : Bool) (vd : BitVec 6) (a b : Src) (vp : PReg) (ha hb : Bool)
  /-- R161: Lane-wise multiply. -/
  | vmul (x : Bool) (vd : BitVec 6) (a b : Src) (vp : PReg) (ha hb : Bool)
  /-- R161: Lane-wise fused vd + A×B. -/
  | vfma (x : Bool) (vd : BitVec 6) (a b : Src) (vp : PReg) (ha hb : Bool)
  /-- R161: Lane-wise fused vd − A×B. -/
  | vfnma (x : Bool) (vd : BitVec 6) (a b : Src) (vp : PReg) (ha hb : Bool)
  /-- R163: Lane-wise minimum. -/
  | vmin (x : Bool) (vd : BitVec 6) (a b : Src) (vp : PReg) (ha hb : Bool)
  /-- R163: Lane-wise maximum. -/
  | vmax (x : Bool) (vd : BitVec 6) (a b : Src) (vp : PReg) (ha hb : Bool)
  /-- R163: Lane-wise absolute value. -/
  | vabs (x : Bool) (vd : BitVec 6) (a : Src) (vp : PReg) (ha : Bool)
  /-- R164: Lane-wise raw AND. -/
  | vand (x : Bool) (vd : BitVec 6) (a b : Src) (vp : PReg) (ha hb : Bool)
  /-- R164: Lane-wise raw OR. -/
  | vor (x : Bool) (vd : BitVec 6) (a b : Src) (vp : PReg) (ha hb : Bool)
  /-- R164: Lane-wise raw XOR. -/
  | vxor (x : Bool) (vd : BitVec 6) (a b : Src) (vp : PReg) (ha hb : Bool)
  /-- R164: Lane-wise shift left. -/
  | vshl (x : Bool) (vd : BitVec 6) (a b : Src) (vp : PReg) (ha hb : Bool)
  /-- R164: Lane-wise shift right. -/
  | vshr (x : Bool) (vd : BitVec 6) (a b : Src) (vp : PReg) (ha hb : Bool)
  /-- R165: Lane-wise equality compare into a lane predicate. -/
  | vceq (x : Bool) (d : PReg) (a b : Src) (vp : PReg) (ha hb : Bool)
  /-- R165: Lane-wise less-than compare into a lane predicate. -/
  | vclt (x : Bool) (d : PReg) (a b : Src) (vp : PReg) (ha hb : Bool)
  /-- R165: Lane-wise less-or-equal compare into a lane predicate. -/
  | vcle (x : Bool) (d : PReg) (a b : Src) (vp : PReg) (ha hb : Bool)
  /-- R166: Selects A or B per lane by the lane predicate, writing every lane. -/
  | vsel (x : Bool) (vd : BitVec 6) (a b : Src) (vp : PReg) (ha hb : Bool)
  /-- R167: Converts lanes to a target format by identity, grid or retype. -/
  | vcvt (x : Bool) (vd : BitVec 6) (a : Src) (fmt : BitVec 4) (rnd : BitVec 3) (vp : PReg) (ha : Bool)
  /-- R169: Correctly rounded 2^a per lane. -/
  | vexp2 (x : Bool) (vd : BitVec 6) (a : Src) (vp : PReg) (ha : Bool)
  /-- R169: Correctly rounded log2 a per lane. -/
  | vlog2 (x : Bool) (vd : BitVec 6) (a : Src) (vp : PReg) (ha : Bool)
  /-- R169: Correctly rounded reciprocal per lane. -/
  | vrcp (x : Bool) (vd : BitVec 6) (a : Src) (vp : PReg) (ha : Bool)
  /-- R169: Correctly rounded reciprocal square root per lane. -/
  | vrsq (x : Bool) (vd : BitVec 6) (a : Src) (vp : PReg) (ha : Bool)
  /-- R170: Pairwise-tree sum of enabled lanes written to every lane. -/
  | vrsum (x : Bool) (vd : BitVec 6) (a : Src) (vp : PReg) (ha : Bool)
  /-- R170: Tree maximum of enabled lanes. -/
  | vrmax (x : Bool) (vd : BitVec 6) (a : Src) (vp : PReg) (ha : Bool)
  /-- R170: Tree minimum of enabled lanes. -/
  | vrmin (x : Bool) (vd : BitVec 6) (a : Src) (vp : PReg) (ha : Bool)
  /-- R171: Inclusive prefix sum over enabled lanes. -/
  | vscan (x : Bool) (vd : BitVec 6) (a : Src) (vp : PReg) (ha : Bool)
  /-- R173: Permutes lanes of A by indices in B. -/
  | vperm (x : Bool) (vd : BitVec 6) (a b : Src) (vp : PReg) (ha hb : Bool)
  /-- R174: Writes the k best values and their lane indices. -/
  | vtopk (x : Bool) (vd : BitVec 6) (a : Src) (vp : PReg) (ha : Bool)
  /-- R175: Merges two top-k lists. -/
  | vtopkm (x : Bool) (vd a b : BitVec 6)
  /-- R168: Quantises with a carried residual into two rows. -/
  | vqres (x : Bool) (vd : BitVec 6) (a b : Src) (vp : PReg) (ha hb : Bool)
  /-- R172: Per-block absolute maximum and sum. -/
  | vbstat (x : Bool) (vd : BitVec 6) (a : Src) (vp : PReg) (ha : Bool)
  /-- R163: Copies lane bits unchanged. -/
  | vmov (x : Bool) (vd : BitVec 6) (a : Src) (vp : PReg) (ha : Bool)
  /-- R163: Clamps vd between A and B per lane. -/
  | vclamp (x : Bool) (vd : BitVec 6) (a b : Src) (vp : PReg) (ha hb : Bool)
  /-- R294: VA put of tokens. -/
  | tokPutVa (tk : BitVec 4) (c : BitVec 8)
  /-- R294: VA wait for tokens. -/
  | tokGetVa (tk : BitVec 4) (c : BitVec 8)
  /-- R245: Strided vector store with conversion. -/
  | vst (ag : BitVec 3) (fmt : BitVec 4) (a : Src) (vp : PReg)
  /-- R245: Scatter store by lane indices. -/
  | vstS (ag : BitVec 3) (fmt : BitVec 4) (a ix : Src) (vp : PReg)
  /-- R245: Pushes a row as raw bits to a stream register. -/
  | vpush (sq : BitVec 3) (fmt : BitVec 4) (a : Src) (vp : PReg)
  /-- R245: Stores a row read as 128 lanes of 32 bits. -/
  | vsta (ag : BitVec 3) (fmt : BitVec 4) (a : BitVec 6) (vp : PReg)
  /-- R294: VS put of tokens. -/
  | tokPutVs (tk : BitVec 4) (c : BitVec 8)
  /-- R294: VS wait for tokens. -/
  | tokGetVs (tk : BitVec 4) (c : BitVec 8)
  /-- R65: Sets the issue tick of the following engine command. -/
  | matAt (off : BitVec 18)
  /-- R187: Loads a B tile into the Griddle's pending buffer. -/
  | mlb (ls : BitVec 2) (tb : BitVec 4)
  /-- R186: Zeroes accumulator rows and closes the run. -/
  | mza (ls : BitVec 2) (acc : BitVec 8) (n : BitVec 7)
  /-- R186: Loads accumulator rows from a tile and closes the run. -/
  | mla (ls : BitVec 2) (acc : BitVec 8) (ta : BitVec 4) (n : BitVec 7)
  /-- R188: Zeroes rows and accumulates A×B, opening a run. -/
  | mmul (ls : BitVec 2) (acc : BitVec 8) (ta : BitVec 4) (n : BitVec 7)
  /-- R188: Accumulates A×B into rows, continuing or opening a run. -/
  | mmac (ls : BitVec 2) (acc : BitVec 8) (ta : BitVec 4) (n : BitVec 7)
  /-- R186: Closes the run and sets the promotion interval. -/
  | mprom (ls : BitVec 2) (n : BitVec 6)
  /-- R193: Holds a perturbation for the next multiply. -/
  | mpert (ls : BitVec 2) (row col : BitVec 7) (v : Word)
  /-- R194: Loads ternary weights into the Whisk's pending buffer. -/
  | wld (ls : BitVec 2) (tb : BitVec 4)
  /-- R194: Ternary sign-select multiply into rows. -/
  | wmul (ls : BitVec 2) (acc : BitVec 8) (ta : BitVec 4) (n : BitVec 7)
  /-- R194: Ternary multiply-accumulate into rows. -/
  | wmac (ls : BitVec 2) (acc : BitVec 8) (ta : BitVec 4) (n : BitVec 7)
  /-- R195: Scores key blocks against their summaries into the score store. -/
  | svscore (ls : BitVec 2) (ta tb : BitVec 4) (n : BitVec 8)
  /-- R196: Writes the forced and k best blocks as a selection tile. -/
  | svtopk (ls : BitVec 2) (tb : BitVec 4) (n : BitVec 8)
  /-- R197: Gathers the selected blocks into a tile. -/
  | svgath (ls : BitVec 2) (ta tb : BitVec 4)
  /-- R198: Writes e^x of tile rows to accumulator rows. -/
  | ktexp (ls : BitVec 2) (acc : BitVec 8) (ta : BitVec 4) (n : BitVec 7)
  /-- R199: Row softmax into accumulator rows. -/
  | ktsmax (ls : BitVec 2) (acc : BitVec 8) (ta : BitVec 4) (n : BitVec 7)
  /-- R200: Quantises elements of one tile into another. -/
  | gtqnt (ls : BitVec 2) (ta tb : BitVec 4) (n : BitVec 4)
  /-- R201: Writes BF16 max/min summaries of key blocks. -/
  | gtsum (ls : BitVec 2) (ta tb : BitVec 4) (n : BitVec 8)
  /-- R202: Combines two tiles element-wise by a reduction operator. -/
  | spred (ls : BitVec 2) (ta tb : BitVec 4) (n : BitVec 4)
  /-- R203: Broadcasts bytes to the partitions of named groves. -/
  | spbc (ls : BitVec 2) (ta : BitVec 4) (n : BitVec 8)
  /-- R294: M put of tokens. -/
  | tokPutM (tk : BitVec 4) (c : BitVec 8)
  /-- R294: M wait for tokens. -/
  | tokGetM (tk : BitVec 4) (c : BitVec 8)
  /-- R247: Sets one dimension of the copy descriptor. -/
  | dset (dim : BitVec 4) (side : Bool) (ext : BitVec 20) (stride : Option Word)
  /-- R248: Issues a Ladle copy, taking a D timeline number. -/
  | dgo (ags agd : BitVec 3) (nd sf df : BitVec 4)
  /-- R69: Sets the start tick of the next DGO. -/
  | cpyAt (tick : Word)
  /-- R250: Sets the multicast grove mask of the next DGO. -/
  | dmask (m : BitVec 16)
  /-- R251: Makes the next DGO a reduce-copy. -/
  | dred (rop : BitVec 4) (id : Word)
  /-- R252: Binds the next DGO's destination to a stream register. -/
  | dbind (sq ag : BitVec 3)
  /-- R253: Sets the stamp target of the next DGO. -/
  | dstamp (ag : BitVec 3)
  /-- R254: Records the next DGO in the fill record. -/
  | dfill
  /-- R255: Clears set-up and abandons waiting DGOs. -/
  | dcancel
  /-- R255: Sets rounding and saturation of the next DGO. -/
  | dcvt (rnd : BitVec 3) (sat : Bool)
  /-- R294: D put of tokens. -/
  | tokPutD (tk : BitVec 4) (c : BitVec 8)
  /-- R294: D wait for tokens. -/
  | tokGetD (tk : BitVec 4) (c : BitVec 8)
  /-- R378: SETS of $fans with ACT 0 makes a faulted bank ready to resume. -/
  | faultResume (n : Nxt) (a : SReg)
  /-- R379: SETS of $fans with ACT 1 kills the faulted unit. -/
  | faultTerminate (n : Nxt) (a : SReg)
  /-- R379: SETS of $fans with ACT 2 delivers the cause to the unit's handler. -/
  | faultDeliver (n : Nxt) (a : SReg)
  /-- R377: SETS of $fring sets the fault ring after ordered checks. -/
  | fringWrite (n : Nxt) (a : SReg)
  /-- R120: GETS or SETS of $bfr or $bfsel after waiting for earlier strands. -/
  | bfrAccess (n : Nxt) (sel : Bool) (x : RegAccess)
  /-- R106: GETS or SETS of $lfsrv or $lfsrd after waiting for VA or D strands. -/
  | lfsrAccess (n : Nxt) (copy : Bool) (x : RegAccess)
  /-- R182: GETS or SETS of $mstatN after waiting for M strands. -/
  | mstatAccess (n : Nxt) (slot : BitVec 2) (x : RegAccess)
  /-- R295: SETS of $tileN waits until no reader or writer is incomplete. -/
  | tileRegisterWrite (n : Nxt) (t : BitVec 4) (a : SReg)
  /-- R100: SETS of $flags replaces the sticky flags. -/
  | flagsWrite (n : Nxt) (a : SReg)
  /-- R285: SETS of $seq switches service and plain sequencing mode. -/
  | seqModeWrite (n : Nxt) (a : SReg)
  /-- R228: A memory access is performed, translated, or faults when performed. -/
  | accessPerform (p : Place) (str : Stream) (num : Nat)
  /-- R154: A VA result is written back and its number completes. -/
  | vaWriteback (p : Place) (num : Nat)
  /-- R244: A VL writes its row and its number completes. -/
  | vlRowWrite (p : Place) (num : Nat)
  /-- R291: A sequencer starts the next dispatch record with the shadow configuration. -/
  | strandStart (p : Place) (str : Stream)
  /-- R291: A strand's last pass issues; the Griddle run closes and the segment is compared. -/
  | strandEnd (p : Place) (str : Stream) (cycles : Nat)
  /-- R178: An engine command's writes are performed and its M number completes. -/
  | engineCommandComplete (p : Place) (num : Nat)
  /-- R65: An engine command issues at its MAT.AT tick. -/
  | stampedCommandIssue (p : Place)
  /-- R249: An issued DGO starts its granule writes at its tick or booked START. -/
  | copyStart (p : Place) (num : Nat)
  /-- R248: One granule write of a copy reads, converts and writes destination bytes. -/
  | granuleWrite (p : Place) (num : Nat)
  /-- R219: A copy's payload is performed, its stamp written and its number completes. -/
  | copyComplete (p : Place) (num : Nat)
  /-- R298: HALT retires after the drain, raises the halt line and frees the bank. -/
  | haltRetire (p : Place)
  /-- R299: The detector expires after 2^22 ticks without progress and traps. -/
  | stallDeadlock (p : Place)
  /-- R373: After the drain a class-U cause enters the unit's handler or kills. -/
  | trapDelivery (p : Place)
  /-- R376: After the drain a class-S fault is given an id, posted to the fault ring, and the bank switches. -/
  | faultRecordPost (p : Place)
  /-- R386: A class-P cause rolls the buffer phase back and re-issues fills. -/
  | rollback (p : Place)
  /-- R381: A unit is killed at its next PHASE or excused wait, failing its launch. -/
  | unitKill (p : Place)
  /-- R389: A correctable error is corrected in place and counted as an event. -/
  | correctableError (fu : FaultUnit)
  /-- R389: Memory ECC marks a granule or row poisoned. -/
  | uncorrectableError (fu : FaultUnit) (site : ErrSite)
  /-- R327: Each booking unit performs the ordered work of a slot boundary. -/
  | slotBoundary (bku : Nat)
  /-- R313: A hold expires 256 slots after placement and frees its slots. -/
  | holdExpiry (handle : BitVec 32)
  /-- R319: A step that ended early returns its remaining slots at the next boundary. -/
  | earlyFinish (handle : BitVec 32) (step : Nat)
  /-- R317: A step not ended at its last booked slot freezes dependents and extends or suspends. -/
  | stepLate (handle : BitVec 32) (step : Nat)
  /-- R317: When a late step ends its dependents are re-placed and a slip record posted. -/
  | slipEvent (handle : BitVec 32) (step : Nat)
  /-- R318: A suspended step's remainder reloads and restarts or abandons its held command. -/
  | remainderStart (handle : BitVec 32) (step : Nat)
  /-- R306: A booked step's prefix begins and its engine wakes and is zeroised. -/
  | bookedStepStart (handle : BitVec 32) (step : Nat)
  /-- R35: A committed channel-group or Ebith-port reservation runs at its booked slots. -/
  | reservationExecute (handle : BitVec 32) (step : Nat)
  /-- R321: Queued open-lease requests are granted engines at a slot boundary. -/
  | openLeaseGrant (g : Nat)
  /-- R322: An open lease is evicted by MAXD, a booking or the power limit. -/
  | openLeaseEviction (e : EngineId)
  /-- R306: An engine completes its wake and serves its lease. -/
  | engineAwake (e : EngineId) (lost : Bool)
  /-- R324: The Forester puts an idle grove into grove retention. -/
  | groveRetention (g : Nat) (enter : Bool) (lost : List LostElement)
  /-- R325: A new byte-budget interval starts and held accesses proceed. -/
  | budgetIntervalStart (g : Nat)
  /-- R326: A grove changes frequency at a slot boundary. -/
  | frequencyChange (g steps : Nat)
  /-- R395: Sensors are sampled every 2^16 ticks and judged suspect or not. -/
  | sensorSample (raw : List Int)
  /-- R395: A grove returns to its set frequency after 2^26 ticks of good readings. -/
  | safeFrequencyReturn (g : Nat)
  /-- R405: Input below 40 V holds every grove at 300 MHz until it returns. -/
  | supplyUndervoltage
  /-- R28: Module reset zeroes the time base and management registers. -/
  | moduleReset
  /-- R393: Life-of-part counters are written to flash every 2^36 ticks or at shutdown. -/
  | lifeRecordWrite
  /-- R394: Degradation and stress are read and end of life predicted. -/
  | wearRead (g d e : Nat)
  /-- R396: The test period expires and a test window is booked in the next grove. -/
  | testPeriod
  /-- R396: The booked test window runs stored vectors on the grove's engines and Ladles. -/
  | testWindow (g : Nat)
  /-- R397: A pass records last pass; a failure retires the grove and posts suspect notices. -/
  | testResult (g : Nat) (pass : Bool)
  /-- R334: The dispatcher serves the highest-priority pending queue. -/
  | queueServe
  /-- R333: A queue becomes or stops being resident, moving packets to or from its ring. -/
  | queueResidency (q : Nat) (resident : Bool)
  /-- R336: The dispatcher places a unit on a free context bank. -/
  | unitPlace (slot : Nat)
  /-- R343: A ticket from a ready queue is placed as a unit. -/
  | ticketPlace (g : Nat)
  /-- R339: The completion unit makes the completion write and counter increments. -/
  | launchCompletion (slot : Nat)
  /-- R340: Signatures of both copies are compared when both have halted. -/
  | runTwiceCompare (slot unit : Nat)
  /-- R350: A partition is freed after its launch and writers complete. -/
  | partitionFree (part : Nat)
  /-- R398: The watchdog stops the active dispatcher core and starts holding halt events. -/
  | handOver
  /-- R400: The standby core replays the journal and releases the holding buffer. -/
  | takeOver
  /-- R331: Host LAUNCH command checks and queues a packet. -/
  | launchCommand (hd : CmdHeader) (q : Nat) (pkt : List Double)
  /-- R355: Creates a context record, key and grant. -/
  | createCtx (hd : CmdHeader) (rec : CtxBody)
  /-- R355: Quiesces and destroys a context in six steps. -/
  | destroyCtx (hd : CmdHeader)
  /-- R353: Writes a context's grant-table entry. -/
  | setGrant (hd : CmdHeader) (gr : GrantBody)
  /-- R87: Installs, relocates and patches a code object or refuses it. -/
  | load (hd : CmdHeader) (img : CodeImage)
  /-- R362: Removes a code object unless a launch names it. -/
  | unload (hd : CmdHeader) (code : Nat)
  /-- R364: Creates an object with zero-filled frames and its sync object. -/
  | createObj (hd : CmdHeader) (entry : List Double)
  /-- R364: Retires an object, shoots its translations and frees its frames. -/
  | destroyObj (hd : CmdHeader) (oid : Nat)
  /-- R333: Creates a virtual launch queue on a ring. -/
  | createQueue (hd : CmdHeader) (q depth oid off : Nat)
  /-- R332: Deletes a virtual launch queue. -/
  | deleteQueue (hd : CmdHeader) (q : Nat)
  /-- R363: Host releases a named sync object at a scope. -/
  | release (hd : CmdHeader) (body : Double)
  /-- R357: Writes a synonym object entry in the recipient's object table. -/
  | grantCap (hd : CmdHeader) (owner oid recipient : Nat) (rights : BitVec 8)
  /-- R358: Retires a granted entry and shoots it at system scope. -/
  | revoke (hd : CmdHeader) (recipient oid : Nat)
  /-- R367: Adds an export-table entry for a remote device and context. -/
  | exportEntry (hd : CmdHeader) (dev rctx lo hi : Nat) (rights : BitVec 8)
  /-- R356: Frees a graph, phase or job identifier. -/
  | releaseIds (hd : CmdHeader) (level : BitVec 2) (id : Nat)
  /-- R369: Returns a signed attestation report. -/
  | attest (hd : CmdHeader) (nonce : List Byte)
  /-- R360: Registers a data window with a remote key. -/
  | window (hd : CmdHeader) (oid lo hi : Nat) (rights : BitVec 8)
  /-- R360: Host write through a data window, checked and translated. -/
  | rdmaWrite (qp rkey addr : Nat) (data : List Byte)
  /-- R361: Host read through a data window, acquiring on completion values. -/
  | rdmaRead (qp rkey addr len : Nat)
  /-- R365: A PTP message updates the host-time offset. -/
  | ptpMessage (port : Bool) (offset : Double) (err : BitVec 16) (lock : Bool)
  /-- R366: A flit is checked by CRC and sequence and retried when bad. -/
  | ebithFlitReceive (port : Nat) (linkSeq : Nat) (crcOk : Bool)
  /-- R366: After 16 failed replays a port is declared down. -/
  | ebithPortDown (port : Nat)
  /-- R367: An incoming remote access is checked against the export table. -/
  | remoteAccess (src : RemoteSource) (acc : RemoteAcc)
  /-- R223: A reduce-copy element is applied or discarded by its watermark. -/
  | reduceElementApply (src : RemoteSource) (el : ReduceElement)
  /-- R224: A release flag is accepted once after its data. -/
  | releaseFlagAccept (src : RemoteSource) (id : Word) (linkSeq addr : Nat) (v : Double)
  /-- R313: The chip BKU holds or refuses a remote hold request. -/
  | holdRequest (src : RemoteSource) (req : HoldReq)
  /-- R251: A watermark entry is freed 65,536 ticks after its copy completes. -/
  | watermarkFree (target : Nat) (dev ctx : Nat) (id : Word)
  /-- R397: A remote suspect notice is posted to the receiving mailbox. -/
  | remoteSuspectNotice (dev grove lastPass failTick : Nat)
  /-- R407: A management write to a register without behaviour of its own. -/
  | mgmtRegisterWrite (off : Nat) (v : Double)
  /-- R396: Writes the test period, ignoring values outside 30–40. -/
  | tper (v : Double)
  /-- R392: Returns a retired fault unit to service. -/
  | retsvc (v : Double)
  /-- R408: Advances the mailbox consumer count within range. -/
  | mbcons (v : Double)
  /-- R407: Reading CALD0 latches the selected calendar slot entry. -/
  | cald0
  /-- R405: The 48 V input returns to 40 V or above and the groves leave the 300 MHz hold. -/
  | inputReturn
  /-- R359: A RoCE v2 reliable-connected queue pair is connected and bound to one context or to the management role. -/
  | queuePairConnect (qp : Nat) (bound : Option Nat) (port : Bool) (mtu : Nat)
  /-- R359: A RoCE operation other than SEND, RDMA WRITE or RDMA READ, such as an RDMA atomic, is answered with the invalid-request NAK. -/
  | invalidRequest (qp : Nat)
  /-- R362: A SEND whose command code is not in Table 14.4 is answered with BADCMD. -/
  | unknownCommand (hd : CmdHeader) (cmd : Byte)
  /-- R313: The chip BKU of a remote module commits or releases the holds named by a CONFIRM or ABANDON from another module. -/
  | remoteHoldCommit (src : RemoteSource) (handle : BitVec 32) (commit : Bool)
  /-- R89: When a buffer's object moves to a new object id, the loader re-applies its CAPSLOT and OBJID records and releases the code sync object. -/
  | rePatch (code buf newOid : Nat)
  /-- R366: The module's time-base alignment error passes 8 ticks, so BOOK.X holds are refused, or it realigns and holds are accepted again. -/
  | timeBaseAlignment (exceeded : Bool)
  deriving DecidableEq, Repr

end Sys2Proof
end

