-- ==== Sys2Proof/WellFormed.lean ====
section
/-! DEFINITION. Which instructions an encoding can name: the residual conditions that the types of
Syntax do not already say. The decoder answers no other instruction, and the encoder gives back the
words of exactly these (R43, R50 to R55, R59 to R63, R66, R67). -/

namespace Sys2Proof

/-- A call names b0-b6, an end of loop level 0-2 (Table 2.4). -/
def Nxt.wf : Nxt → Bool
  | .call q => q != 7
  | .endLoop l => l != 3
  | .seq | .jump _ | .ret => true

/-- As `Nxt.wf`; a rounding code is one of Table 2.8 that is legal in C (R51). -/
def FNxt.wf : FNxt → Bool
  | .seq rnd => decide (rnd.toNat ≤ 4)
  | .call q => q != 7
  | .endLoop l => l != 3
  | .jump _ | .ret => true

/-- A source of a VL or VS word: no bypass latch (R60). -/
def Src.wfIndex : Src → Bool
  | .latch _ => false
  | .v _ | .sq _ | .pushed | .zero | .one | .lane => true

/-- A VA source and its hold bit: no hold on a stream register (R61). -/
def Src.wfHold (s : Src) (h : Bool) : Bool :=
  match s with
  | .sq _ => !h
  | .v _ | .latch _ | .pushed | .zero | .one | .lane => true

/-- The form of a loop-count word (R54). -/
def loopWordOk (w : Word) : Bool :=
  if bit w 31 then bits w 30 5 == 0 else bits w 30 24 == 0

/-- A stream code of Table 2.10, up to three loop-count words, each of its form (R54). -/
def wfDisp (str : BitVec 3) (cs : List Word) : Bool :=
  decide (str.toNat ≤ 4) && decide (cs.length ≤ 3) && cs.all loopWordOk

/-- The instructions that some words encode, and every event row. -/
def Instr.wf : Instr → Bool
  | .add n _ _ _ => n.wf
  | .sub n _ _ _ => n.wf
  | .mul n _ _ _ => n.wf
  | .mulh n _ _ _ => n.wf
  | .mulhU n _ _ _ => n.wf
  | .div n _ _ _ => n.wf
  | .divU n _ _ _ => n.wf
  | .rem n _ _ _ => n.wf
  | .remU n _ _ _ => n.wf
  | .and n _ _ _ => n.wf
  | .or n _ _ _ => n.wf
  | .xor n _ _ _ => n.wf
  | .andn n _ _ _ => n.wf
  | .shl n _ _ _ => n.wf
  | .shr n _ _ _ => n.wf
  | .sar n _ _ _ => n.wf
  | .min n _ _ _ => n.wf
  | .max n _ _ _ => n.wf
  | .minU n _ _ _ => n.wf
  | .maxU n _ _ _ => n.wf
  | .clz n _ _ _ => n.wf
  | .popc n _ _ _ => n.wf
  | .addw n _ _ _ => n.wf
  | .bfx n _ _ _ => n.wf
  | .fadd n _ _ _ => n.wf
  | .fsub n _ _ _ => n.wf
  | .fmul n _ _ _ => n.wf
  | .fdiv n _ _ _ => n.wf
  | .fma n _ _ _ => n.wf
  | .fnma n _ _ _ => n.wf
  | .fmin n _ _ _ => n.wf
  | .fmax n _ _ _ => n.wf
  | .fsqrt n _ _ _ => n.wf
  | .fabs n _ _ _ => n.wf
  | .fneg n _ _ _ => n.wf
  | .fcvtFi n _ _ _ => n.wf
  | .fcvtIf n _ _ _ => n.wf
  | .fclass n _ _ _ => n.wf
  | .ceq n _ _ _ => n.wf
  | .cne n _ _ _ => n.wf
  | .clt n _ _ _ => n.wf
  | .cle n _ _ _ => n.wf
  | .cltU n _ _ _ => n.wf
  | .cleU n _ _ _ => n.wf
  | .fceq n _ _ _ => n.wf
  | .fclt n _ _ _ => n.wf
  | .fcle n _ _ _ => n.wf
  | .fcun n _ _ _ => n.wf
  | .pand n _ _ _ _ => n.wf
  | .por n _ _ _ _ => n.wf
  | .pxor n _ _ _ _ => n.wf
  | .pandn n _ _ _ _ => n.wf
  | .sel n _ _ _ => n.wf
  | .pset n _ _ _ => n.wf
  | .fset _ _ _ => true
  | .faddImm _ _ _ => true
  | .fmulImm _ _ _ => true
  | .fmaxImm _ _ _ => true
  | .iset _ _ _ => true
  | .iadd _ _ _ => true
  | .iand _ _ _ => true
  | .ishi _ _ _ => true
  | .pbr n _ _ _ _ => n.wf
  | .pbrRegister n _ _ _ _ => n.wf
  | .brx _ _ _ => true
  | .loop n lv _ => n.wf && lv != 3
  | .loopRegister n lv _ => n.wf && lv != 3
  | .halt => true
  | .ifsync n => n.wf
  | .ldb n _ _ _ => n.wf
  | .ldbz n _ _ _ => n.wf
  | .ldh n _ _ _ => n.wf
  | .ldhz n _ _ _ => n.wf
  | .ldw n _ _ _ => n.wf
  | .ldwz n _ _ _ => n.wf
  | .ldd n _ _ _ => n.wf
  | .ldc n _ _ _ => n.wf
  | .stb n _ _ _ => n.wf
  | .sth n _ _ _ => n.wf
  | .stw n _ _ _ => n.wf
  | .std n _ _ _ => n.wf
  | .stc n _ _ _ => n.wf
  | .aadd n _ _ _ o sc _ => n.wf && (o != 0 || sc == 0)
  | .aand n _ _ _ o sc _ => n.wf && (o != 0 || sc == 0)
  | .aor n _ _ _ o sc _ => n.wf && (o != 0 || sc == 0)
  | .axor n _ _ _ o sc _ => n.wf && (o != 0 || sc == 0)
  | .amin n _ _ _ o sc _ => n.wf && (o != 0 || sc == 0)
  | .amax n _ _ _ o sc _ => n.wf && (o != 0 || sc == 0)
  | .aswap n _ _ _ o sc _ => n.wf && (o != 0 || sc == 0)
  | .acas n _ _ _ o sc _ => n.wf && (o != 0 || sc == 0)
  | .afadd n _ _ _ o sc => n.wf && (o != 0 || sc == 0)
  | .acq n _ _ => n.wf
  | .rel n _ _ => n.wf
  | .bind n _ _ _ _ => n.wf
  | .fence n _ => n.wf
  | .tlwait n _ str => n.wf && decide (str.toNat ≤ 4)
  | .mwait n _ _ _ => n.wf
  | .cmov n _ _ => n.wf
  | .cinc n _ _ _ => n.wf
  | .cset n _ _ _ => n.wf
  | .cnarrow n _ _ _ f => n.wf && decide (f.toNat ≤ 1)
  | .cdrop n _ _ _ _ => n.wf
  | .cget n _ _ f => n.wf && decide (f.toNat ≤ 9)
  | .ctst n _ _ a f => n.wf && decide (f.toNat ≤ 2) && (f != 0 || a == 0)
  | .disp n str _ _ cs => n.wf && wfDisp str cs
  | .dispRegister n str _ _ cs => n.wf && wfDisp str cs
  | .cfg n str ls _ _ => n.wf && decide (str.toNat ≤ 4) && (str == 3 || ls == 0)
  | .tokPut n _ _ => n.wf
  | .tokGet n _ _ => n.wf
  | .phase n => n.wf
  | .tile n _ _ _ => n.wf
  | .book n _ _ _ => n.wf
  | .reserve n _ _ _ => n.wf
  | .confirm n _ _ => n.wf
  | .abandon n _ _ => n.wf
  | .lease n _ _ => n.wf
  | .leaseOpen n _ _ => n.wf
  | .unlease n _ _ => n.wf
  | .unleaseRet n _ _ => n.wf
  | .launch n _ _ _ => n.wf
  | .postQueued n _ _ => n.wf
  | .postParked n _ _ _ => n.wf
  | .depdec n _ _ _ => n.wf
  | .cancelGraph n _ _ => n.wf
  | .cancelPhase n _ _ => n.wf
  | .cancelJob n _ _ => n.wf
  | .cancelLaunch n _ _ => n.wf
  | .tfenceW n _ => n.wf
  | .tlbinv n _ _ _ _ => n.wf
  | .shoot n _ _ _ _ => n.wf
  | .remap n _ _ sc _ => n.wf && decide (2 ≤ sc.toNat)
  | .gets n _ _ => n.wf
  | .sets n _ _ => n.wf
  | .trap n c => n.wf && c != 0
  | .trapResume => true
  | .inject n _ _ => n.wf
  | .vl _ _ _ _ => true
  | .vlG _ _ _ ix _ => ix.wfIndex
  | .vlT _ _ _ _ => true
  | .vlBf _ _ _ _ _ => true
  | .vlBc _ _ _ _ => true
  | .vlPop _ _ _ _ => true
  | .tokPutVl _ _ => true
  | .tokGetVl _ _ => true
  | .vadd _ _ a b _ ha hb => a.wfHold ha && b.wfHold hb
  | .vsub _ _ a b _ ha hb => a.wfHold ha && b.wfHold hb
  | .vmul _ _ a b _ ha hb => a.wfHold ha && b.wfHold hb
  | .vfma _ _ a b _ ha hb => a.wfHold ha && b.wfHold hb
  | .vfnma _ _ a b _ ha hb => a.wfHold ha && b.wfHold hb
  | .vmin _ _ a b _ ha hb => a.wfHold ha && b.wfHold hb
  | .vmax _ _ a b _ ha hb => a.wfHold ha && b.wfHold hb
  | .vabs _ _ a _ ha => a.wfHold ha
  | .vand _ _ a b _ ha hb => a.wfHold ha && b.wfHold hb
  | .vor _ _ a b _ ha hb => a.wfHold ha && b.wfHold hb
  | .vxor _ _ a b _ ha hb => a.wfHold ha && b.wfHold hb
  | .vshl _ _ a b _ ha hb => a.wfHold ha && b.wfHold hb
  | .vshr _ _ a b _ ha hb => a.wfHold ha && b.wfHold hb
  | .vceq _ _ a b _ ha hb => a.wfHold ha && b.wfHold hb
  | .vclt _ _ a b _ ha hb => a.wfHold ha && b.wfHold hb
  | .vcle _ _ a b _ ha hb => a.wfHold ha && b.wfHold hb
  | .vsel _ _ a b _ ha hb => a.wfHold ha && b.wfHold hb
  | .vcvt _ _ a fmt rnd _ ha => a.wfHold ha && fmt != 0 && decide (rnd.toNat ≤ 5)
  | .vexp2 _ _ a _ ha => a.wfHold ha
  | .vlog2 _ _ a _ ha => a.wfHold ha
  | .vrcp _ _ a _ ha => a.wfHold ha
  | .vrsq _ _ a _ ha => a.wfHold ha
  | .vrsum _ _ a _ ha => a.wfHold ha
  | .vrmax _ _ a _ ha => a.wfHold ha
  | .vrmin _ _ a _ ha => a.wfHold ha
  | .vscan _ _ a _ ha => a.wfHold ha
  | .vperm _ _ a b _ ha hb => a.wfHold ha && b.wfHold hb
  | .vtopk _ _ a _ ha => a.wfHold ha
  | .vtopkm _ _ _ _ => true
  | .vqres _ _ a b _ ha hb => a.wfHold ha && b.wfHold hb
  | .vbstat _ _ a _ ha => a.wfHold ha
  | .vmov _ _ a _ ha => a.wfHold ha
  | .vclamp _ _ a b _ ha hb => a.wfHold ha && b.wfHold hb
  | .tokPutVa _ _ => true
  | .tokGetVa _ _ => true
  | .vst _ _ a _ => a.wfIndex
  | .vstS _ _ a ix _ => a.wfIndex && ix.wfIndex
  | .vpush _ _ a _ => a.wfIndex
  | .vsta _ _ _ _ => true
  | .tokPutVs _ _ => true
  | .tokGetVs _ _ => true
  | .matAt _ => true
  | .mlb _ _ => true
  | .mza _ _ _ => true
  | .mla _ _ _ _ => true
  | .mmul _ _ _ _ => true
  | .mmac _ _ _ _ => true
  | .mprom _ _ => true
  | .mpert _ _ _ _ => true
  | .wld _ _ => true
  | .wmul _ _ _ _ => true
  | .wmac _ _ _ _ => true
  | .svscore _ _ _ _ => true
  | .svtopk _ _ _ => true
  | .svgath _ _ _ => true
  | .ktexp _ _ _ _ => true
  | .ktsmax _ _ _ _ => true
  | .gtqnt _ _ _ _ => true
  | .gtsum _ _ _ _ => true
  | .spred _ _ _ _ => true
  | .spbc _ _ _ => true
  | .tokPutM _ _ => true
  | .tokGetM _ _ => true
  | .dset dim _ _ _ => decide (dim.toNat ≤ 9)
  | .dgo _ _ nd _ _ => decide (nd.toNat ≤ 9)
  | .cpyAt _ => true
  | .dmask _ => true
  | .dred rop _ => decide (rop.toNat ≤ 5)
  | .dbind _ _ => true
  | .dstamp _ => true
  | .dfill => true
  | .dcancel => true
  | .dcvt rnd _ => decide (rnd.toNat ≤ 5)
  | .tokPutD _ _ => true
  | .tokGetD _ _ => true
  | .faultResume n _ => n.wf
  | .faultTerminate n _ => n.wf
  | .faultDeliver n _ => n.wf
  | .fringWrite n _ => n.wf
  | .bfrAccess n _ _ => n.wf
  | .lfsrAccess n _ _ => n.wf
  | .mstatAccess n _ _ => n.wf
  | .tileRegisterWrite n _ _ => n.wf
  | .flagsWrite n _ => n.wf
  | .seqModeWrite n _ => n.wf
  | .accessPerform _ _ _ => true
  | .vaWriteback _ _ => true
  | .vlRowWrite _ _ => true
  | .strandStart _ _ => true
  | .strandEnd _ _ _ => true
  | .engineCommandComplete _ _ => true
  | .stampedCommandIssue _ => true
  | .copyStart _ _ => true
  | .granuleWrite _ _ => true
  | .copyComplete _ _ => true
  | .haltRetire _ => true
  | .stallDeadlock _ => true
  | .trapDelivery _ => true
  | .faultRecordPost _ => true
  | .rollback _ => true
  | .unitKill _ => true
  | .correctableError _ => true
  | .uncorrectableError _ _ => true
  | .slotBoundary _ => true
  | .holdExpiry _ => true
  | .earlyFinish _ _ => true
  | .stepLate _ _ => true
  | .slipEvent _ _ => true
  | .remainderStart _ _ => true
  | .bookedStepStart _ _ => true
  | .reservationExecute _ _ => true
  | .openLeaseGrant _ => true
  | .openLeaseEviction _ => true
  | .engineAwake _ _ => true
  | .groveRetention _ _ _ => true
  | .budgetIntervalStart _ => true
  | .frequencyChange _ _ => true
  | .sensorSample _ => true
  | .safeFrequencyReturn _ => true
  | .supplyUndervoltage => true
  | .moduleReset => true
  | .lifeRecordWrite => true
  | .wearRead _ _ _ => true
  | .testPeriod => true
  | .testWindow _ => true
  | .testResult _ _ => true
  | .queueServe => true
  | .queueResidency _ _ => true
  | .unitPlace _ => true
  | .ticketPlace _ => true
  | .launchCompletion _ => true
  | .runTwiceCompare _ _ => true
  | .partitionFree _ => true
  | .handOver => true
  | .takeOver => true
  | .launchCommand _ _ _ => true
  | .createCtx _ _ => true
  | .destroyCtx _ => true
  | .setGrant _ _ => true
  | .load _ _ => true
  | .unload _ _ => true
  | .createObj _ _ => true
  | .destroyObj _ _ => true
  | .createQueue _ _ _ _ _ => true
  | .deleteQueue _ _ => true
  | .release _ _ => true
  | .grantCap _ _ _ _ _ => true
  | .revoke _ _ _ => true
  | .exportEntry _ _ _ _ _ _ => true
  | .releaseIds _ _ _ => true
  | .attest _ _ => true
  | .window _ _ _ _ _ => true
  | .rdmaWrite _ _ _ _ => true
  | .rdmaRead _ _ _ _ => true
  | .ptpMessage _ _ _ _ => true
  | .ebithFlitReceive _ _ _ => true
  | .ebithPortDown _ => true
  | .remoteAccess _ _ => true
  | .reduceElementApply _ _ => true
  | .releaseFlagAccept _ _ _ _ _ => true
  | .holdRequest _ _ => true
  | .watermarkFree _ _ _ _ => true
  | .remoteSuspectNotice _ _ _ _ => true
  | .mgmtRegisterWrite _ _ => true
  | .tper _ => true
  | .retsvc _ => true
  | .mbcons _ => true
  | .cald0 => true
  | .inputReturn => true
  | .queuePairConnect _ _ _ _ => true
  | .invalidRequest _ => true
  | .unknownCommand _ _ => true
  | .remoteHoldCommit _ _ _ => true
  | .rePatch _ _ _ => true
  | .timeBaseAlignment _ => true

end Sys2Proof
end

