-- ==== Sys2Proof/Decode.lean ====
section
/-! DEFINITION. Decoding (chapter 02): the words of one instruction, its trailing words with it, to an
`Instr` or the trap of R39 items 3 and 4; then the encoder, written from the same tables. The word-kind
check and the plain-mode checks, which come first, need the unit and stand in Machine/Step's fetch;
the privilege check stands in the meanings. -/

namespace Sys2Proof

/-- The two traps a decoder raises from the words alone (Table 2.2). -/
inductive DecErr where
  | illegal
  | reserved
  deriving DecidableEq, Repr

abbrev Dec := Except DecErr Instr

/-- A decoder of one opcode: the first word, then the trailing words. -/
abbrev DecFn := Word → List Word → Dec

/-- The field of `len` bits whose lowest is bit `lo`. -/
def fld (w : Word) (lo len : Nat) : BitVec len := w.extractLsb' lo len
/-- A bit as a one-bit field. -/
def flag (b : Bool) : BitVec 1 := BitVec.ofBool b
/-- The reserved-field trap when a field breaks its rule (R39 item 4). -/
def need (ok : Bool) (i : Instr) : Dec := if ok then .ok i else .error .reserved
/-- An opcode that Table 2.13, 2.17, 2.20 or 2.21 leaves unassigned. -/
def ill : DecFn := fun _ _ => .error .illegal

/-! ## The control stream -/

def opOf (w : Word) : BitVec 7 := fld w 19 7

/-- NXT and SQ (Table 2.4); none is the illegal-instruction trap. -/
def nxtOf (w : Word) : Option Nxt :=
  let q := fld w 26 3
  match (fld w 30 2).toNat with
  | 0 => if q = 0 then some .seq else none
  | 1 => some (.jump q)
  | 2 => some (if q = 7 then .ret else .call q)
  | _ => if q.toNat ≤ 2 then some (.endLoop (q.truncate 2)) else none

/-- NXT and SQ where R51 makes SQ a rounding field. -/
def fnxtOf (w : Word) : Option FNxt :=
  let q := fld w 26 3
  match (fld w 30 2).toNat with
  | 0 => some (.seq q)
  | 1 => some (.jump q)
  | 2 => some (if q = 7 then .ret else .call q)
  | _ => if q.toNat ≤ 2 then some (.endLoop (q.truncate 2)) else none

/-- Run a decoder with its NXT, or raise the illegal-instruction trap (R39 item 3 comes first). -/
def withNxt (w : Word) (k : Nxt → Dec) : Dec :=
  match nxtOf w with
  | some n => k n
  | none => .error .illegal

/-- As `withNxt`; a rounding code outside Table 2.8 is a reserved-field trap. -/
def withFNxt (w : Word) (k : FNxt → Dec) : Dec :=
  match fnxtOf w with
  | some n => if n.wf then k n else .error .reserved
  | none => .error .illegal

/-- The first trailing word; a missing one is the illegal-instruction trap of R38. -/
def withLit (tr : List Word) (k : Word → Dec) : Dec :=
  match tr with
  | l :: _ => k l
  | [] => .error .illegal

/-- The second operand of class T (Table 2.7). -/
def withB (w : Word) (tr : List Word) (k : OpB → Dec) : Dec :=
  let b : BitVec 5 := fld w 4 5
  let g : GReg := fld w 2 2
  match (fld w 0 2).toNat with
  | 0 => k (.reg b g)
  | 1 => k (.const (b ++ g))
  | 2 => if b = 0 then withLit tr fun l => k (.lit l g) else .error .reserved
  | _ => k (.imm b g)

def decT (mk : Nxt → SReg → SReg → OpB → Instr) : DecFn := fun w tr =>
  withNxt w fun n => withB w tr fun b => .ok (mk n (fld w 14 5) (fld w 9 5) b)
def decT1 (mk : Nxt → GReg → SReg → SReg → Instr) : DecFn := fun w _ =>
  withNxt w fun n => need (fld w 4 5 == 0 && fld w 0 2 == 0) (mk n (fld w 2 2) (fld w 14 5) (fld w 9 5))
def decF (mk : FNxt → SReg → SReg → OpB → Instr) : DecFn := fun w tr =>
  withFNxt w fun n => withB w tr fun b => .ok (mk n (fld w 14 5) (fld w 9 5) b)
def decF1 (mk : FNxt → GReg → SReg → SReg → Instr) : DecFn := fun w _ =>
  withFNxt w fun n => need (fld w 4 5 == 0 && fld w 0 2 == 0) (mk n (fld w 2 2) (fld w 14 5) (fld w 9 5))
/-- A compare: d names a predicate (R50). -/
def decP (mk : Nxt → PReg → SReg → OpB → Instr) : DecFn := fun w tr =>
  withNxt w fun n => withB w tr fun b => need (fld w 17 2 == 0) (mk n (fld w 14 3) (fld w 9 5) b)
def decFP (mk : FNxt → PReg → SReg → OpB → Instr) : DecFn := fun w tr =>
  withFNxt w fun n => withB w tr fun b => need (fld w 17 2 == 0) (mk n (fld w 14 3) (fld w 9 5) b)
def decPP (mk : Nxt → GReg → PReg → PReg → PReg → Instr) : DecFn := fun w _ =>
  withNxt w fun n => need (fld w 0 2 == 0 && fld w 17 2 == 0 && fld w 12 2 == 0 && fld w 7 2 == 0)
    (mk n (fld w 2 2) (fld w 14 3) (fld w 9 3) (fld w 4 3))
def decPset : DecFn := fun w _ =>
  withNxt w fun n => need (fld w 0 2 == 0 && fld w 4 5 == 0 && fld w 17 2 == 0)
    (.pset n (fld w 2 2) (fld w 14 3) (fld w 9 5))
/-- PBR: ts = 0 takes a trailing offset and needs a = 0 (Table 2.10). -/
def decPbr : DecFn := fun w tr =>
  withNxt w fun n =>
    if bit w 11 then
      need (fld w 0 6 == 0) (.pbrRegister n (fld w 16 3) (fld w 13 3) (bit w 12) (fld w 6 5))
    else
      if fld w 0 11 = 0 then withLit tr fun l => .ok (.pbr n (fld w 16 3) (fld w 13 3) (bit w 12) l)
      else .error .reserved
/-- BRX must carry NXT = 0b00 (R45). -/
def decBrx : DecFn := fun w _ =>
  if nxtOf w = some .seq then need (fld w 0 12 == 0) (.brx (fld w 16 3) (fld w 13 3) (bit w 12))
  else .error .illegal
def decLoop : DecFn := fun w _ =>
  withNxt w fun n =>
    if bit w 16 then need (fld w 0 11 == 0 && fld w 17 2 != 3) (.loopRegister n (fld w 17 2) (fld w 11 5))
    else need (fld w 0 4 == 0 && fld w 17 2 != 3) (.loop n (fld w 17 2) (fld w 4 12))
/-- HALT must carry NXT = 0b00 (R45). -/
def decHalt : DecFn := fun w _ =>
  if nxtOf w = some .seq then need (fld w 0 19 == 0) .halt else .error .illegal
def decBare (mk : Nxt → Instr) : DecFn := fun w _ =>
  withNxt w fun n => need (fld w 0 19 == 0) (mk n)

/-- The address form of class LS (Table 2.10). -/
def withMode (w : Word) (tr : List Word) (k : AMode → Dec) : Dec :=
  let o : BitVec 8 := fld w 2 8
  match (fld w 0 2).toNat with
  | 0 => k (.off o)
  | 1 => if fld w 7 3 = 0 then k (.idx (fld w 2 5)) else .error .reserved
  | 2 => if o = 0 then withLit tr fun l => k (.lit l) else .error .reserved
  | _ => k (.post o)

def decLs (mk : Nxt → SReg → CReg → AMode → Instr) : DecFn := fun w tr =>
  withNxt w fun n => withMode w tr fun m => .ok (mk n (fld w 14 5) (fld w 10 4) m)
def decLsc (mk : Nxt → CReg → CReg → AMode → Instr) : DecFn := fun w tr =>
  withNxt w fun n => withMode w tr fun m => need (!bit w 18) (mk n (fld w 14 4) (fld w 10 4) m)
/-- A plain data atomic has sc = 0 (R232). -/
def decAtom (mk : Nxt → SReg → SReg → CReg → BitVec 2 → BitVec 2 → Bool → Instr) : DecFn := fun w _ =>
  withNxt w fun n => need (fld w 3 2 != 0 || fld w 1 2 == 0)
    (mk n (fld w 14 5) (fld w 9 5) (fld w 5 4) (fld w 3 2) (fld w 1 2) (bit w 0))
def decAfadd : DecFn := fun w _ =>
  withNxt w fun n => need (bit w 0 && (fld w 3 2 != 0 || fld w 1 2 == 0))
    (.afadd n (fld w 14 5) (fld w 9 5) (fld w 5 4) (fld w 3 2) (fld w 1 2))
def decAcq (mk : Nxt → CReg → BitVec 2 → Instr) : DecFn := fun w _ =>
  withNxt w fun n => need (fld w 9 10 == 0 && fld w 3 2 == 0 && !bit w 0) (mk n (fld w 5 4) (fld w 1 2))
def decBind : DecFn := fun w _ =>
  withNxt w fun n => need (!bit w 18 && fld w 3 2 == 0 && !bit w 0)
    (.bind n (fld w 14 4) (fld w 9 5) (fld w 5 4) (fld w 1 2))
def decFence : DecFn := fun w _ =>
  withNxt w fun n => need (fld w 3 16 == 0 && !bit w 0) (.fence n (fld w 1 2))
def decTlwait : DecFn := fun w _ =>
  withNxt w fun n => need (fld w 0 9 == 0 && decide ((fld w 9 5).toNat ≤ 4)) (.tlwait n (fld w 14 5) (fld w 9 5))
def decMwait : DecFn := fun w _ =>
  withNxt w fun n => need (fld w 0 5 == 0) (.mwait n (fld w 14 5) (fld w 9 5) (fld w 5 4))
def decCmov : DecFn := fun w _ =>
  withNxt w fun n => need (fld w 0 10 == 0 && !bit w 18) (.cmov n (fld w 14 4) (fld w 10 4))
def decCinc (mk : Nxt → CReg → CReg → SReg → Instr) : DecFn := fun w _ =>
  withNxt w fun n => need (fld w 0 5 == 0 && !bit w 18) (mk n (fld w 14 4) (fld w 10 4) (fld w 5 5))
def decCnarrow : DecFn := fun w _ =>
  withNxt w fun n => need (!bit w 0 && !bit w 18 && decide ((fld w 1 4).toNat ≤ 1))
    (.cnarrow n (fld w 14 4) (fld w 10 4) (fld w 5 5) (fld w 1 4))
def decCdrop : DecFn := fun w _ =>
  withNxt w fun n => need (!bit w 0 && !bit w 18) (.cdrop n (fld w 14 4) (fld w 10 4) (fld w 5 5) (fld w 1 4))
def decCget : DecFn := fun w _ =>
  withNxt w fun n => need (!bit w 0 && fld w 5 5 == 0 && decide ((fld w 1 4).toNat ≤ 9))
    (.cget n (fld w 14 5) (fld w 10 4) (fld w 1 4))
def decCtst : DecFn := fun w _ =>
  withNxt w fun n => need (!bit w 0 && fld w 17 2 == 0 && decide ((fld w 1 4).toNat ≤ 2) &&
      (fld w 1 4 != 0 || fld w 5 5 == 0))
    (.ctst n (fld w 14 3) (fld w 10 4) (fld w 5 5) (fld w 1 4))

/-- DISP: the descriptor when A = 0, then nl loop-count words (R54). -/
def decDisp : DecFn := fun w tr =>
  withNxt w fun n =>
    let str : BitVec 3 := fld w 16 3
    let nl := (fld w 9 2).toNat
    if bit w 8 then
      if tr.length < nl then .error .illegal
      else need (fld w 0 3 == 0 && wfDisp str (tr.take nl))
        (.dispRegister n str (fld w 11 5) (fld w 3 5) (tr.take nl))
    else
      match tr with
      | [] => .error .illegal
      | desc :: cs =>
        if cs.length < nl then .error .illegal
        else need (fld w 0 8 == 0 && wfDisp str (cs.take nl)) (.disp n str (fld w 11 5) desc (cs.take nl))
def decCfg : DecFn := fun w _ =>
  withNxt w fun n => need (!bit w 0 && decide ((fld w 16 3).toNat ≤ 4) && (fld w 16 3 == 3 || fld w 14 2 == 0))
    (.cfg n (fld w 16 3) (fld w 14 2) (fld w 6 8) (fld w 1 5))
def decTok (mk : Nxt → BitVec 4 → BitVec 8 → Instr) : DecFn := fun w _ =>
  withNxt w fun n => need (fld w 0 7 == 0) (mk n (fld w 15 4) (fld w 7 8))
def decTile : DecFn := fun w _ =>
  withNxt w fun n => need (fld w 0 10 == 0) (.tile n (fld w 15 4) (fld w 11 4) (bit w 10))

/-- A sub-operation of class BK: it names a capability, or its c field is zero (Tables 12.6, 13.3). -/
inductive BkSub where
  | c (mk : Nxt → SReg → CReg → SReg → Instr)
  | a (mk : Nxt → SReg → SReg → Instr)

/-- Class BK by its sub field (Table 2.11). -/
def decBk (subs : List BkSub) : DecFn := fun w _ =>
  withNxt w fun n =>
    match subs[(fld w 2 3).toNat]? with
    | some (.c mk) => need (fld w 0 2 == 0) (mk n (fld w 14 5) (fld w 10 4) (fld w 5 5))
    | some (.a mk) => need (fld w 0 2 == 0 && fld w 10 4 == 0) (mk n (fld w 14 5) (fld w 5 5))
    | none => .error .reserved
/-- POST: a = 0 is queued, a = 0b1_0000 + M parked (R344). -/
def decPost : DecFn := fun w _ =>
  withNxt w fun n =>
    if bit w 9 then need (fld w 0 5 == 0) (.postParked n (fld w 14 5) (fld w 10 4) (fld w 5 4))
    else need (fld w 0 5 == 0 && fld w 5 4 == 0) (.postQueued n (fld w 14 5) (fld w 10 4))
def decTfence : DecFn := fun w _ =>
  withNxt w fun n => need (fld w 10 9 == 0 && fld w 0 8 == 0) (.tfenceW n (fld w 8 2))
def decTn (mk : Nxt → CReg → SReg → BitVec 2 → SReg → Instr) : DecFn := fun w _ =>
  withNxt w fun n => need (fld w 0 3 == 0) (mk n (fld w 15 4) (fld w 10 5) (fld w 8 2) (fld w 3 5))
/-- REMAP takes device or system scope (R278). -/
def decRemap : DecFn := fun w _ =>
  withNxt w fun n => need (fld w 0 3 == 0 && bit w 9) (.remap n (fld w 15 4) (fld w 10 5) (fld w 8 2) (fld w 3 5))
def decSr (mk : Nxt → SReg → BitVec 10 → Instr) : DecFn := fun w _ =>
  withNxt w fun n => need (fld w 0 4 == 0) (mk n (fld w 14 5) (fld w 4 10))
/-- TRAP; code 0 is `trap 0`, which must carry NXT = 0b00 (R375). -/
def decTrap : DecFn := fun w _ =>
  withNxt w fun n =>
    if fld w 11 8 = 0 then
      if n = .seq then need (fld w 0 11 == 0) .trapResume else .error .illegal
    else need (fld w 0 11 == 0) (.trap n (fld w 11 8))
def decInject : DecFn := fun w _ =>
  withNxt w fun n => need (fld w 0 9 == 0) (.inject n (fld w 14 5) (fld w 9 5))

/-- The control-stream opcode map, OP = 0x00 onward (Table 2.13). -/
def opcodesC : List DecFn :=
  [decT .add, decT .sub, decT .mul, decT .mulh, decT .mulhU, decT .div, decT .divU, decT .rem] ++
  [decT .remU, decT .and, decT .or, decT .xor, decT .andn, decT .shl, decT .shr, decT .sar] ++
  [decT .min, decT .max, decT .minU, decT .maxU, decT1 .clz, decT1 .popc, decT .addw, decT .bfx] ++
  [decF .fadd, decF .fsub, decF .fmul, decF .fdiv, decF .fma, decF .fnma, decF .fmin, decF .fmax] ++
  [decF1 .fsqrt, decF1 .fabs, decF1 .fneg, decF1 .fcvtFi, decF1 .fcvtIf, decF1 .fclass, ill, ill] ++
  [decP .ceq, decP .cne, decP .clt, decP .cle, decP .cltU, decP .cleU, decFP .fceq, decFP .fclt] ++
  [decFP .fcle, decP .fcun, decPP .pand, decPP .por, decPP .pxor, decPP .pandn, decT .sel, decPset] ++
  [decPbr, decBrx, decLoop, decHalt, decBare .ifsync, ill, ill, ill] ++
  [decLs .ldb, decLs .ldbz, decLs .ldh, decLs .ldhz, decLs .ldw, decLs .ldwz, decLs .ldd, decLsc .ldc] ++
  [decLs .stb, decLs .sth, decLs .stw, decLs .std, decLsc .stc, ill, ill, ill] ++
  [decAtom .aadd, decAtom .aand, decAtom .aor, decAtom .axor, decAtom .amin, decAtom .amax, decAtom .aswap, decAtom .acas] ++
  [decAfadd, decAcq .acq, decAcq .rel, decBind, decFence, decTlwait, decMwait, ill] ++
  [decCmov, decCinc .cinc, decCinc .cset, decCnarrow, decCdrop, decCget, decCtst, ill] ++
  [decDisp, decCfg, decTok .tokPut, decTok .tokGet, decBare .phase, decTile, ill, ill] ++
  [decBk [.c .book], decBk [.c .reserve, .a .confirm, .a .abandon], decBk [.a .lease, .a .leaseOpen], decBk [.a .unlease, .a .unleaseRet], decBk [.c .launch], decPost, decBk [.c .depdec], decBk [.a .cancelGraph, .a .cancelPhase, .a .cancelJob, .a .cancelLaunch]] ++
  [decTfence, decTn .tlbinv, decTn .shoot, decRemap, decSr .gets, decSr .sets, decTrap, decInject]

/-- The immediate-20 operations (Table 2.5). -/
def opcodesI : List (INxt → SReg → BitVec 20 → Instr) :=
  [.fset, .faddImm, .fmulImm, .fmaxImm, .iset, .iadd, .iand, .ishi]

/-- NXT of the immediate-20 form (Table 2.4). -/
def inxtOf (w : Word) : INxt :=
  match (fld w 30 2).toNat with
  | 0 => .seq
  | 1 => .jump
  | 2 => .ret
  | _ => .endInner

def decodeC : DecFn := fun w tr =>
  if bit w 29 then
    match opcodesI[(fld w 26 3).toNat]? with
    | some mk => need (!bit w 0) (mk (inxtOf w) (fld w 21 5) (fld w 1 20))
    | none => .error .illegal
  else
    match opcodesC[(opOf w).toNat]? with
    | some f => f w tr
    | none => .error .illegal

/-! ## The engine streams -/

def opE (w : Word) : BitVec 6 := fld w 26 6

/-- A source selector (Table 2.16); none is a value not listed. -/
def srcOf (x : BitVec 7) : Option Src :=
  let n := x.toNat
  if n < 64 then some (.v (x.truncate 6))
  else if n < 68 then some (.latch (x.truncate 2))
  else if n < 80 then none
  else if n < 88 then some (.sq (x.truncate 3))
  else if n = 0x60 then some .pushed
  else if n = 0x70 then some .zero
  else if n = 0x71 then some .one
  else if n = 0x72 then some .lane
  else none

def Src.code : Src → BitVec 7
  | .v n => n.zeroExtend 7
  | .latch n => 0x10#5 ++ n
  | .sq n => 0xA#4 ++ n
  | .pushed => 0x60
  | .zero => 0x70
  | .one => 0x71
  | .lane => 0x72

/-- Decode a selector that must satisfy `ok`. -/
def withSrc (x : BitVec 7) (ok : Src → Bool) (k : Src → Dec) : Dec :=
  match srcOf x with
  | some s => if ok s then k s else .error .reserved
  | none => .error .reserved

def decEtok (mk : BitVec 4 → BitVec 8 → Instr) : DecFn := fun w _ =>
  need (fld w 0 14 == 0) (mk (fld w 22 4) (fld w 14 8))

def decVl (mk : BitVec 6 → BitVec 3 → BitVec 4 → PReg → Instr) : DecFn := fun w _ =>
  need (!bit w 25 && fld w 5 7 == 0 && fld w 0 2 == 0) (mk (fld w 19 6) (fld w 16 3) (fld w 12 4) (fld w 2 3))
def decVlg : DecFn := fun w _ =>
  withSrc (fld w 5 7) Src.wfIndex fun ix =>
    need (!bit w 25 && fld w 0 2 == 0) (.vlG (fld w 19 6) (fld w 16 3) (fld w 12 4) ix (fld w 2 3))
def decVlbf : DecFn := fun w _ =>
  need (!bit w 25 && fld w 5 7 == 0) (.vlBf (fld w 19 6) (fld w 16 3) (fld w 12 4) (fld w 2 3) (fld w 0 2))

def decVa2 (mk : Bool → BitVec 6 → Src → Src → PReg → Bool → Bool → Instr) : DecFn := fun w _ =>
  withSrc (fld w 12 7) (·.wfHold (bit w 1)) fun a => withSrc (fld w 5 7) (·.wfHold (bit w 0)) fun b =>
    .ok (mk (bit w 25) (fld w 19 6) a b (fld w 2 3) (bit w 1) (bit w 0))
/-- A one-source form has Source B = 0 and HB = 0 (R60). -/
def decVa1 (mk : Bool → BitVec 6 → Src → PReg → Bool → Instr) : DecFn := fun w _ =>
  withSrc (fld w 12 7) (·.wfHold (bit w 1)) fun a =>
    need (fld w 5 7 == 0 && !bit w 0) (mk (bit w 25) (fld w 19 6) a (fld w 2 3) (bit w 1))
/-- A compare names a lane predicate in vd[21:19] (R59). -/
def decVac (mk : Bool → PReg → Src → Src → PReg → Bool → Bool → Instr) : DecFn := fun w _ =>
  withSrc (fld w 12 7) (·.wfHold (bit w 1)) fun a => withSrc (fld w 5 7) (·.wfHold (bit w 0)) fun b =>
    need (fld w 22 3 == 0) (mk (bit w 25) (fld w 19 3) a b (fld w 2 3) (bit w 1) (bit w 0))
/-- VCVT: target format and rounding code in Source B (R62). -/
def decVcvt : DecFn := fun w _ =>
  withSrc (fld w 12 7) (·.wfHold (bit w 1)) fun a =>
    need (fld w 8 4 != 0 && decide ((fld w 5 3).toNat ≤ 5) && !bit w 0)
      (.vcvt (bit w 25) (fld w 19 6) a (fld w 8 4) (fld w 5 3) (fld w 2 3) (bit w 1))
/-- VTOPKM names rows in both sources (Table 6.2). -/
def decVtopkm : DecFn := fun w _ =>
  need (!bit w 18 && !bit w 11 && fld w 0 5 == 0) (.vtopkm (bit w 25) (fld w 19 6) (fld w 12 6) (fld w 5 6))

def decVst (mk : BitVec 3 → BitVec 4 → Src → PReg → Instr) : DecFn := fun w _ =>
  withSrc (fld w 12 7) Src.wfIndex fun a =>
    need (fld w 5 7 == 0 && fld w 0 2 == 0) (mk (fld w 23 3) (fld w 19 4) a (fld w 2 3))
def decVsts : DecFn := fun w _ =>
  withSrc (fld w 12 7) Src.wfIndex fun a => withSrc (fld w 5 7) Src.wfIndex fun ix =>
    need (fld w 0 2 == 0) (.vstS (fld w 23 3) (fld w 19 4) a ix (fld w 2 3))
/-- VSTA stores an accumulator row: Source A names v0-v63 (R246). -/
def decVsta : DecFn := fun w _ =>
  need (!bit w 18 && fld w 5 7 == 0 && fld w 0 2 == 0) (.vsta (fld w 23 3) (fld w 19 4) (fld w 12 6) (fld w 2 3))

def decMatAt : DecFn := fun w _ => need (fld w 18 8 == 0) (.matAt (fld w 0 18))
/-- Fields that Table 2.20 does not list for an opcode are zero: in `decM`, each of acc, ta, tb and the
high bits of n that the opcode leaves unused. -/
def decMtb (mk : BitVec 2 → BitVec 4 → Instr) : DecFn := fun w _ =>
  need (fld w 12 12 == 0 && fld w 0 8 == 0) (mk (fld w 24 2) (fld w 8 4))
def decMza : DecFn := fun w _ =>
  need (fld w 7 9 == 0) (.mza (fld w 24 2) (fld w 16 8) (fld w 0 7))
def decMacc (mk : BitVec 2 → BitVec 8 → BitVec 4 → BitVec 7 → Instr) : DecFn := fun w _ =>
  need (fld w 7 5 == 0) (mk (fld w 24 2) (fld w 16 8) (fld w 12 4) (fld w 0 7))
def decMprom : DecFn := fun w _ => need (fld w 6 18 == 0) (.mprom (fld w 24 2) (fld w 0 6))
def decMpert : DecFn := fun w tr =>
  if fld w 0 10 = 0 then withLit tr fun v => .ok (.mpert (fld w 24 2) (fld w 17 7) (fld w 10 7) v)
  else .error .reserved
def decMtt (mk : BitVec 2 → BitVec 4 → BitVec 4 → BitVec 8 → Instr) : DecFn := fun w _ =>
  need (fld w 16 8 == 0) (mk (fld w 24 2) (fld w 12 4) (fld w 8 4) (fld w 0 8))
def decMtt4 (mk : BitVec 2 → BitVec 4 → BitVec 4 → BitVec 4 → Instr) : DecFn := fun w _ =>
  need (fld w 16 8 == 0 && fld w 4 4 == 0) (mk (fld w 24 2) (fld w 12 4) (fld w 8 4) (fld w 0 4))
def decSvtopk : DecFn := fun w _ => need (fld w 12 12 == 0) (.svtopk (fld w 24 2) (fld w 8 4) (fld w 0 8))
def decSvgath : DecFn := fun w _ =>
  need (fld w 16 8 == 0 && fld w 0 8 == 0) (.svgath (fld w 24 2) (fld w 12 4) (fld w 8 4))
def decSpbc : DecFn := fun w _ =>
  need (fld w 16 8 == 0 && fld w 8 4 == 0) (.spbc (fld w 24 2) (fld w 12 4) (fld w 0 8))

def decDset : DecFn := fun w tr =>
  if (fld w 22 4).toNat ≤ 9 then
    if bit w 20 then withLit tr fun l => .ok (.dset (fld w 22 4) (bit w 21) (fld w 0 20) (some l))
    else .ok (.dset (fld w 22 4) (bit w 21) (fld w 0 20) none)
  else .error .reserved
def decDgo : DecFn := fun w _ =>
  need (fld w 0 8 == 0 && decide ((fld w 16 4).toNat ≤ 9))
    (.dgo (fld w 23 3) (fld w 20 3) (fld w 16 4) (fld w 12 4) (fld w 8 4))
def decCpyAt : DecFn := fun w tr =>
  if fld w 0 26 = 0 then withLit tr fun l => .ok (.cpyAt l) else .error .reserved
def decDmask : DecFn := fun w _ => need (fld w 16 10 == 0) (.dmask (fld w 0 16))
def decDred : DecFn := fun w tr =>
  if fld w 0 22 = 0 ∧ (fld w 22 4).toNat ≤ 5 then withLit tr fun l => .ok (.dred (fld w 22 4) l)
  else .error .reserved
def decDbind : DecFn := fun w _ => need (fld w 0 20 == 0) (.dbind (fld w 23 3) (fld w 20 3))
def decDstamp : DecFn := fun w _ => need (fld w 0 23 == 0) (.dstamp (fld w 23 3))
def decDbare (i : Instr) : DecFn := fun w _ => need (fld w 0 26 == 0) i
def decDcvt : DecFn := fun w _ =>
  need (fld w 0 22 == 0 && decide ((fld w 23 3).toNat ≤ 5)) (.dcvt (fld w 23 3) (bit w 22))

/-- VL opcodes 0x00 to 0x0F (Table 2.17). -/
def opcodesVl : List DecFn :=
  [decVl .vl, decVlg, decVl .vlT, decVlbf, decVl .vlBc, decVl .vlPop, decEtok .tokPutVl, decEtok .tokGetVl] ++
  [ill, ill, ill, ill, ill, ill, ill, ill]
/-- VA opcodes 0x10 to 0x37 (Table 2.17). -/
def opcodesVa : List DecFn :=
  [decVa2 .vadd, decVa2 .vsub, decVa2 .vmul, decVa2 .vfma, decVa2 .vfnma, decVa2 .vmin, decVa2 .vmax, decVa1 .vabs] ++
  [decVa2 .vand, decVa2 .vor, decVa2 .vxor, decVa2 .vshl, decVa2 .vshr, decVac .vceq, decVac .vclt, decVac .vcle] ++
  [decVa2 .vsel, decVcvt, decVa1 .vexp2, decVa1 .vlog2, decVa1 .vrcp, decVa1 .vrsq, decVa1 .vrsum, decVa1 .vrmax] ++
  [decVa1 .vrmin, decVa1 .vscan, decVa2 .vperm, decVa1 .vtopk, decVtopkm, decVa2 .vqres, decVa1 .vbstat, decVa1 .vmov] ++
  [decVa2 .vclamp, ill, ill, ill, ill, ill, decEtok .tokPutVa, decEtok .tokGetVa]
/-- VS opcodes 0x38 to 0x3F (Table 2.17). -/
def opcodesVs : List DecFn :=
  [decVst .vst, decVsts, decVst .vpush, decVsta, ill, ill, decEtok .tokPutVs, decEtok .tokGetVs]
/-- M opcodes 0x00 to 0x17; the rest are unassigned (Table 2.20). -/
def opcodesM : List DecFn :=
  [decMatAt, decMtb .mlb, decMza, decMacc .mla, decMacc .mmul, decMacc .mmac, decMprom, decMpert] ++
  [decMtb .wld, decMacc .wmul, decMacc .wmac, decMtt .svscore, decSvtopk, decSvgath, decMacc .ktexp, decMacc .ktsmax] ++
  [decMtt4 .gtqnt, decMtt .gtsum, decMtt4 .spred, decSpbc, decEtok .tokPutM, decEtok .tokGetM, ill, ill]
/-- D opcodes 0x00 to 0x0F; the rest are unassigned (Table 2.21). -/
def opcodesD : List DecFn :=
  [decDset, decDgo, decCpyAt, decDmask, decDred, decDbind, decDstamp, decDbare .dfill] ++
  [decDbare .dcancel, decDcvt, decEtok .tokPutD, decEtok .tokGetD, ill, ill, ill, ill]

/-- An opcode map whose first row has opcode `base`; a word outside the stream's range is illegal (R59). -/
def decodeE (table : List DecFn) (base : Nat) : DecFn := fun w tr =>
  let op := (opE w).toNat
  if op < base then .error .illegal
  else
    match table[op - base]? with
    | some f => f w tr
    | none => .error .illegal

/-- The decoder of a stream: the words of an instruction, first word first (R39 items 3 and 4). -/
def decode (str : Stream) (ws : List Word) : Dec :=
  match ws with
  | [] => .error .illegal
  | w :: tr =>
    match str with
    | .c => decodeC w tr
    | .vl => decodeE opcodesVl 0 w tr
    | .va => decodeE opcodesVa 0x10 w tr
    | .vs => decodeE opcodesVs 0x38 w tr
    | .m => decodeE opcodesM 0 w tr
    | .d => decodeE opcodesD 0 w tr

/-- How many trailing words the first word of an instruction announces (R38): bmode 0b10 of a class-T
instruction that takes a second operand, PBR with ts = 0, amode 0b10, DISP's descriptor and loop counts,
MPERT, DSET with L = 1, CPY.AT and DRED. An unassigned opcode announces none. -/
def trailing (str : Stream) (w : Word) : Nat :=
  match str with
  | .c =>
    let op := (opOf w).toNat
    if bit w 29 then 0
    else if op < 0x38 then
      if fld w 0 2 = 2 ∧ ¬ (op = 0x14 ∨ op = 0x15 ∨ (0x20 ≤ op ∧ op < 0x28) ∨ (0x32 ≤ op ∧ op < 0x36) ∨ op = 0x37)
      then 1 else 0
    else if op = 0x38 then (if bit w 11 then 0 else 1)
    else if 0x40 ≤ op ∧ op < 0x4D then (if fld w 0 2 = 2 then 1 else 0)
    else if op = 0x68 then (if bit w 8 then 0 else 1) + (fld w 9 2).toNat
    else 0
  | .vl | .va | .vs => 0
  | .m => if opE w = 7 then 1 else 0
  | .d => if opE w = 2 ∨ opE w = 4 ∨ (opE w = 0 ∧ bit w 20 = true) then 1 else 0

/-! ## The encoder -/

def Nxt.hi : Nxt → BitVec 2
  | .seq => 0 | .jump _ => 1 | .call _ => 2 | .ret => 2 | .endLoop _ => 3
def Nxt.sq : Nxt → BitVec 3
  | .seq => 0 | .jump q => q | .call q => q | .ret => 7 | .endLoop l => l.zeroExtend 3
def FNxt.hi : FNxt → BitVec 2
  | .seq _ => 0 | .jump _ => 1 | .call _ => 2 | .ret => 2 | .endLoop _ => 3
def FNxt.sq : FNxt → BitVec 3
  | .seq r => r | .jump q => q | .call q => q | .ret => 7 | .endLoop l => l.zeroExtend 3
def INxt.hi : INxt → BitVec 2
  | .seq => 0 | .jump => 1 | .ret => 2 | .endInner => 3

/-- The OP layout of Table 2.3. -/
def wordC (n : BitVec 2) (q : BitVec 3) (op : BitVec 7) (body : BitVec 19) : Word := n ++ 0#1 ++ q ++ op ++ body
/-- Class T (Table 2.6). -/
def wordT (n : BitVec 2) (q : BitVec 3) (op : BitVec 7) (d a b : BitVec 5) (g m : BitVec 2) : Word :=
  wordC n q op (d ++ a ++ b ++ g ++ m)
/-- The immediate-20 layout of Table 2.3. -/
def wordI (n : INxt) (iop : BitVec 3) (d : SReg) (i : BitVec 20) : Word := n.hi ++ 1#1 ++ iop ++ d ++ i ++ 0#1

def OpB.words (n : BitVec 2) (q : BitVec 3) (op : BitVec 7) (d a : BitVec 5) : OpB → List Word
  | .reg b g => [wordT n q op d a b g 0]
  | .const k => [wordT n q op d a (k.extractLsb' 2 5) (k.extractLsb' 0 2) 1]
  | .lit w g => [wordT n q op d a 0 g 2, w]
  | .imm i g => [wordT n q op d a i g 3]

def encT (n : Nxt) (op : BitVec 7) (d a : BitVec 5) (b : OpB) : List Word := b.words n.hi n.sq op d a
def encF (n : FNxt) (op : BitVec 7) (d a : BitVec 5) (b : OpB) : List Word := b.words n.hi n.sq op d a
def encT1 (n : Nxt) (op : BitVec 7) (g : GReg) (d a : BitVec 5) : List Word := [wordT n.hi n.sq op d a 0 g 0]
def encF1 (n : FNxt) (op : BitVec 7) (g : GReg) (d a : BitVec 5) : List Word := [wordT n.hi n.sq op d a 0 g 0]
/-- Class LS (Table 2.9). -/
def encLs (n : Nxt) (op : BitVec 7) (d : BitVec 5) (c : CReg) (m : AMode) : List Word :=
  match m with
  | .off o => [wordC n.hi n.sq op (d ++ c ++ o ++ 0#2)]
  | .idx r => [wordC n.hi n.sq op (d ++ c ++ 0#3 ++ r ++ 1#2)]
  | .lit w => [wordC n.hi n.sq op (d ++ c ++ 0#8 ++ 2#2), w]
  | .post o => [wordC n.hi n.sq op (d ++ c ++ o ++ 3#2)]
/-- Class AS. -/
def wordAs (n : Nxt) (op : BitVec 7) (d a : BitVec 5) (c : CReg) (o sc : BitVec 2) (w : Bool) : Word :=
  wordC n.hi n.sq op (d ++ a ++ c ++ o ++ sc ++ flag w)
/-- Class CP. -/
def wordCp (n : Nxt) (op : BitVec 7) (x : BitVec 5) (ca : CReg) (a : SReg) (f : BitVec 4) : Word :=
  wordC n.hi n.sq op (x ++ ca ++ a ++ f ++ 0#1)
/-- DISP of class DS. -/
def wordDisp (n : Nxt) (str : BitVec 3) (ps : SReg) (nl : Nat) (a : Bool) (ad : SReg) : Word :=
  wordC n.hi n.sq 0x68 (str ++ ps ++ BitVec.ofNat 2 nl ++ flag a ++ ad ++ 0#3)
/-- Class BK. -/
def wordBk (n : Nxt) (op : BitVec 7) (d : SReg) (c : CReg) (a : SReg) (sub : BitVec 3) : Word :=
  wordC n.hi n.sq op (d ++ c ++ a ++ sub ++ 0#2)
/-- Class TN. -/
def wordTn (n : Nxt) (op : BitVec 7) (c : CReg) (a : SReg) (sc : BitVec 2) (b : SReg) : Word :=
  wordC n.hi n.sq op (c ++ a ++ sc ++ b ++ 0#3)
/-- An engine-stream word: the opcode and 26 bits. -/
def wordE (op : BitVec 6) (body : BitVec 26) : Word := op ++ body
/-- TOK.PUT and TOK.GET of an engine stream (R70). -/
def wordEtok (op : BitVec 6) (tk : BitVec 4) (c : BitVec 8) : Word := wordE op (tk ++ c ++ 0#14)
/-- The VL layout of Table 2.15. -/
def wordVl (op vd : BitVec 6) (ag : BitVec 3) (fmt : BitVec 4) (i : BitVec 7) (vp : PReg) (bf : BitVec 2) : Word :=
  wordE op (0#1 ++ vd ++ ag ++ fmt ++ i ++ vp ++ bf)
/-- The VA layout of Table 2.15. -/
def wordVa (op : BitVec 6) (x : Bool) (vd : BitVec 6) (a b : BitVec 7) (vp : PReg) (ha hb : Bool) : Word :=
  wordE op (flag x ++ vd ++ a ++ b ++ vp ++ flag ha ++ flag hb)
/-- The VS layout of Table 2.15. -/
def wordVs (op : BitVec 6) (ag : BitVec 3) (fmt : BitVec 4) (a i : BitVec 7) (vp : PReg) : Word :=
  wordE op (ag ++ fmt ++ a ++ i ++ vp ++ 0#2)
/-- The engine-command layout of Table 2.19. -/
def wordM (op : BitVec 6) (ls : BitVec 2) (acc : BitVec 8) (ta tb : BitVec 4) (n : BitVec 8) : Word :=
  wordE op (ls ++ acc ++ ta ++ tb ++ n)

/-- The words of an instruction; none for an event row, and none for the rows of chapters 04 to 15 that
are a GETS or SETS of one register, whose words are those of GETS and SETS. -/
def encode : Instr → List Word
  | .add n d a b => encT n 0x00 d a b
  | .sub n d a b => encT n 0x01 d a b
  | .mul n d a b => encT n 0x02 d a b
  | .mulh n d a b => encT n 0x03 d a b
  | .mulhU n d a b => encT n 0x04 d a b
  | .div n d a b => encT n 0x05 d a b
  | .divU n d a b => encT n 0x06 d a b
  | .rem n d a b => encT n 0x07 d a b
  | .remU n d a b => encT n 0x08 d a b
  | .and n d a b => encT n 0x09 d a b
  | .or n d a b => encT n 0x0A d a b
  | .xor n d a b => encT n 0x0B d a b
  | .andn n d a b => encT n 0x0C d a b
  | .shl n d a b => encT n 0x0D d a b
  | .shr n d a b => encT n 0x0E d a b
  | .sar n d a b => encT n 0x0F d a b
  | .min n d a b => encT n 0x10 d a b
  | .max n d a b => encT n 0x11 d a b
  | .minU n d a b => encT n 0x12 d a b
  | .maxU n d a b => encT n 0x13 d a b
  | .clz n g d a => encT1 n 0x14 g d a
  | .popc n g d a => encT1 n 0x15 g d a
  | .addw n d a b => encT n 0x16 d a b
  | .bfx n d a b => encT n 0x17 d a b
  | .fadd n d a b => encF n 0x18 d a b
  | .fsub n d a b => encF n 0x19 d a b
  | .fmul n d a b => encF n 0x1A d a b
  | .fdiv n d a b => encF n 0x1B d a b
  | .fma n d a b => encF n 0x1C d a b
  | .fnma n d a b => encF n 0x1D d a b
  | .fmin n d a b => encF n 0x1E d a b
  | .fmax n d a b => encF n 0x1F d a b
  | .fsqrt n g d a => encF1 n 0x20 g d a
  | .fabs n g d a => encF1 n 0x21 g d a
  | .fneg n g d a => encF1 n 0x22 g d a
  | .fcvtFi n g d a => encF1 n 0x23 g d a
  | .fcvtIf n g d a => encF1 n 0x24 g d a
  | .fclass n g d a => encF1 n 0x25 g d a
  | .ceq n d a b => encT n 0x28 (d.zeroExtend 5) a b
  | .cne n d a b => encT n 0x29 (d.zeroExtend 5) a b
  | .clt n d a b => encT n 0x2A (d.zeroExtend 5) a b
  | .cle n d a b => encT n 0x2B (d.zeroExtend 5) a b
  | .cltU n d a b => encT n 0x2C (d.zeroExtend 5) a b
  | .cleU n d a b => encT n 0x2D (d.zeroExtend 5) a b
  | .fceq n d a b => encF n 0x2E (d.zeroExtend 5) a b
  | .fclt n d a b => encF n 0x2F (d.zeroExtend 5) a b
  | .fcle n d a b => encF n 0x30 (d.zeroExtend 5) a b
  | .fcun n d a b => encT n 0x31 (d.zeroExtend 5) a b
  | .pand n g d a b => [wordT n.hi n.sq 0x32 (d.zeroExtend 5) (a.zeroExtend 5) (b.zeroExtend 5) g 0]
  | .por n g d a b => [wordT n.hi n.sq 0x33 (d.zeroExtend 5) (a.zeroExtend 5) (b.zeroExtend 5) g 0]
  | .pxor n g d a b => [wordT n.hi n.sq 0x34 (d.zeroExtend 5) (a.zeroExtend 5) (b.zeroExtend 5) g 0]
  | .pandn n g d a b => [wordT n.hi n.sq 0x35 (d.zeroExtend 5) (a.zeroExtend 5) (b.zeroExtend 5) g 0]
  | .sel n d a b => encT n 0x36 d a b
  | .pset n g d a => encT1 n 0x37 g (d.zeroExtend 5) a
  | .fset n d i => [wordI n 0 d i]
  | .faddImm n d i => [wordI n 1 d i]
  | .fmulImm n d i => [wordI n 2 d i]
  | .fmaxImm n d i => [wordI n 3 d i]
  | .iset n d i => [wordI n 4 d i]
  | .iadd n d i => [wordI n 5 d i]
  | .iand n d i => [wordI n 6 d i]
  | .ishi n d i => [wordI n 7 d i]
  | .pbr n bt pr sn off => [wordC n.hi n.sq 0x38 (bt ++ pr ++ flag sn ++ 0#12), off]
  | .pbrRegister n bt pr sn a => [wordC n.hi n.sq 0x38 (bt ++ pr ++ flag sn ++ 1#1 ++ a ++ 0#6)]
  | .brx bt pr sn => [wordC 0 0 0x39 (bt ++ pr ++ flag sn ++ 0#12)]
  | .loop n lv c => [wordC n.hi n.sq 0x3A (lv ++ 0#1 ++ c ++ 0#4)]
  | .loopRegister n lv a => [wordC n.hi n.sq 0x3A (lv ++ 1#1 ++ a ++ 0#11)]
  | .halt => [wordC 0 0 0x3B 0#19]
  | .ifsync n => [wordC n.hi n.sq 0x3C 0#19]
  | .ldb n d c m => encLs n 0x40 d c m
  | .ldbz n d c m => encLs n 0x41 d c m
  | .ldh n d c m => encLs n 0x42 d c m
  | .ldhz n d c m => encLs n 0x43 d c m
  | .ldw n d c m => encLs n 0x44 d c m
  | .ldwz n d c m => encLs n 0x45 d c m
  | .ldd n d c m => encLs n 0x46 d c m
  | .ldc n d c m => encLs n 0x47 (d.zeroExtend 5) c m
  | .stb n d c m => encLs n 0x48 d c m
  | .sth n d c m => encLs n 0x49 d c m
  | .stw n d c m => encLs n 0x4A d c m
  | .std n d c m => encLs n 0x4B d c m
  | .stc n d c m => encLs n 0x4C (d.zeroExtend 5) c m
  | .aadd n d a c o sc w => [wordAs n 0x50 d a c o sc w]
  | .aand n d a c o sc w => [wordAs n 0x51 d a c o sc w]
  | .aor n d a c o sc w => [wordAs n 0x52 d a c o sc w]
  | .axor n d a c o sc w => [wordAs n 0x53 d a c o sc w]
  | .amin n d a c o sc w => [wordAs n 0x54 d a c o sc w]
  | .amax n d a c o sc w => [wordAs n 0x55 d a c o sc w]
  | .aswap n d a c o sc w => [wordAs n 0x56 d a c o sc w]
  | .acas n d a c o sc w => [wordAs n 0x57 d a c o sc w]
  | .afadd n d a c o sc => [wordAs n 0x58 d a c o sc true]
  | .acq n c sc => [wordAs n 0x59 0 0 c 0 sc false]
  | .rel n c sc => [wordAs n 0x5A 0 0 c 0 sc false]
  | .bind n m a c sc => [wordAs n 0x5B (m.zeroExtend 5) a c 0 sc false]
  | .fence n sc => [wordAs n 0x5C 0 0 0 0 sc false]
  | .tlwait n d str => [wordAs n 0x5D d str 0 0 0 false]
  | .mwait n d a c => [wordAs n 0x5E d a c 0 0 false]
  | .cmov n x ca => [wordCp n 0x60 (x.zeroExtend 5) ca 0 0]
  | .cinc n x ca a => [wordCp n 0x61 (x.zeroExtend 5) ca a 0]
  | .cset n x ca a => [wordCp n 0x62 (x.zeroExtend 5) ca a 0]
  | .cnarrow n x ca a f => [wordCp n 0x63 (x.zeroExtend 5) ca a f]
  | .cdrop n x ca a f => [wordCp n 0x64 (x.zeroExtend 5) ca a f]
  | .cget n x ca f => [wordCp n 0x65 x ca 0 f]
  | .ctst n x ca a f => [wordCp n 0x66 (x.zeroExtend 5) ca a f]
  | .disp n str ps desc cs => wordDisp n str ps cs.length false 0 :: desc :: cs
  | .dispRegister n str ps ad cs => wordDisp n str ps cs.length true ad :: cs
  | .cfg n str ls idx a => [wordC n.hi n.sq 0x69 (str ++ ls ++ idx ++ a ++ 0#1)]
  | .tokPut n tk c => [wordC n.hi n.sq 0x6A (tk ++ c ++ 0#7)]
  | .tokGet n tk c => [wordC n.hi n.sq 0x6B (tk ++ c ++ 0#7)]
  | .phase n => [wordC n.hi n.sq 0x6C 0#19]
  | .tile n t c fe => [wordC n.hi n.sq 0x6D (t ++ c ++ flag fe ++ 0#10)]
  | .book n d c a => [wordBk n 0x70 d c a 0]
  | .reserve n d c a => [wordBk n 0x71 d c a 0]
  | .confirm n d a => [wordBk n 0x71 d 0 a 1]
  | .abandon n d a => [wordBk n 0x71 d 0 a 2]
  | .lease n d a => [wordBk n 0x72 d 0 a 0]
  | .leaseOpen n d a => [wordBk n 0x72 d 0 a 1]
  | .unlease n d a => [wordBk n 0x73 d 0 a 0]
  | .unleaseRet n d a => [wordBk n 0x73 d 0 a 1]
  | .launch n d c a => [wordBk n 0x74 d c a 0]
  | .postQueued n d c => [wordBk n 0x75 d c 0 0]
  | .postParked n d c m => [wordBk n 0x75 d c (1#1 ++ m) 0]
  | .depdec n d c a => [wordBk n 0x76 d c a 0]
  | .cancelGraph n d a => [wordBk n 0x77 d 0 a 0]
  | .cancelPhase n d a => [wordBk n 0x77 d 0 a 1]
  | .cancelJob n d a => [wordBk n 0x77 d 0 a 2]
  | .cancelLaunch n d a => [wordBk n 0x77 d 0 a 3]
  | .tfenceW n sc => [wordTn n 0x78 0 0 sc 0]
  | .tlbinv n c a sc b => [wordTn n 0x79 c a sc b]
  | .shoot n c a sc b => [wordTn n 0x7A c a sc b]
  | .remap n c a sc b => [wordTn n 0x7B c a sc b]
  | .gets n d r => [wordC n.hi n.sq 0x7C (d ++ r ++ 0#4)]
  | .sets n a r => [wordC n.hi n.sq 0x7D (a ++ r ++ 0#4)]
  | .trap n c => [wordC n.hi n.sq 0x7E (c ++ 0#11)]
  | .trapResume => [wordC 0 0 0x7E 0#19]
  | .inject n a b => [wordC n.hi n.sq 0x7F (a ++ b ++ 0#9)]
  | .vl vd ag fmt vp => [wordVl 0x00 vd ag fmt 0 vp 0]
  | .vlG vd ag fmt ix vp => [wordVl 0x01 vd ag fmt ix.code vp 0]
  | .vlT vd ag fmt vp => [wordVl 0x02 vd ag fmt 0 vp 0]
  | .vlBf vd ag fmt vp bf => [wordVl 0x03 vd ag fmt 0 vp bf]
  | .vlBc vd ag fmt vp => [wordVl 0x04 vd ag fmt 0 vp 0]
  | .vlPop vd sq fmt vp => [wordVl 0x05 vd sq fmt 0 vp 0]
  | .tokPutVl tk c => [wordEtok 0x06 tk c]
  | .tokGetVl tk c => [wordEtok 0x07 tk c]
  | .vadd x vd a b vp ha hb => [wordVa 0x10 x vd a.code b.code vp ha hb]
  | .vsub x vd a b vp ha hb => [wordVa 0x11 x vd a.code b.code vp ha hb]
  | .vmul x vd a b vp ha hb => [wordVa 0x12 x vd a.code b.code vp ha hb]
  | .vfma x vd a b vp ha hb => [wordVa 0x13 x vd a.code b.code vp ha hb]
  | .vfnma x vd a b vp ha hb => [wordVa 0x14 x vd a.code b.code vp ha hb]
  | .vmin x vd a b vp ha hb => [wordVa 0x15 x vd a.code b.code vp ha hb]
  | .vmax x vd a b vp ha hb => [wordVa 0x16 x vd a.code b.code vp ha hb]
  | .vabs x vd a vp ha => [wordVa 0x17 x vd a.code 0 vp ha false]
  | .vand x vd a b vp ha hb => [wordVa 0x18 x vd a.code b.code vp ha hb]
  | .vor x vd a b vp ha hb => [wordVa 0x19 x vd a.code b.code vp ha hb]
  | .vxor x vd a b vp ha hb => [wordVa 0x1A x vd a.code b.code vp ha hb]
  | .vshl x vd a b vp ha hb => [wordVa 0x1B x vd a.code b.code vp ha hb]
  | .vshr x vd a b vp ha hb => [wordVa 0x1C x vd a.code b.code vp ha hb]
  | .vceq x d a b vp ha hb => [wordVa 0x1D x (d.zeroExtend 6) a.code b.code vp ha hb]
  | .vclt x d a b vp ha hb => [wordVa 0x1E x (d.zeroExtend 6) a.code b.code vp ha hb]
  | .vcle x d a b vp ha hb => [wordVa 0x1F x (d.zeroExtend 6) a.code b.code vp ha hb]
  | .vsel x vd a b vp ha hb => [wordVa 0x20 x vd a.code b.code vp ha hb]
  | .vcvt x vd a fmt rnd vp ha => [wordVa 0x21 x vd a.code (fmt ++ rnd) vp ha false]
  | .vexp2 x vd a vp ha => [wordVa 0x22 x vd a.code 0 vp ha false]
  | .vlog2 x vd a vp ha => [wordVa 0x23 x vd a.code 0 vp ha false]
  | .vrcp x vd a vp ha => [wordVa 0x24 x vd a.code 0 vp ha false]
  | .vrsq x vd a vp ha => [wordVa 0x25 x vd a.code 0 vp ha false]
  | .vrsum x vd a vp ha => [wordVa 0x26 x vd a.code 0 vp ha false]
  | .vrmax x vd a vp ha => [wordVa 0x27 x vd a.code 0 vp ha false]
  | .vrmin x vd a vp ha => [wordVa 0x28 x vd a.code 0 vp ha false]
  | .vscan x vd a vp ha => [wordVa 0x29 x vd a.code 0 vp ha false]
  | .vperm x vd a b vp ha hb => [wordVa 0x2A x vd a.code b.code vp ha hb]
  | .vtopk x vd a vp ha => [wordVa 0x2B x vd a.code 0 vp ha false]
  | .vtopkm x vd a b => [wordVa 0x2C x vd (a.zeroExtend 7) (b.zeroExtend 7) 0 false false]
  | .vqres x vd a b vp ha hb => [wordVa 0x2D x vd a.code b.code vp ha hb]
  | .vbstat x vd a vp ha => [wordVa 0x2E x vd a.code 0 vp ha false]
  | .vmov x vd a vp ha => [wordVa 0x2F x vd a.code 0 vp ha false]
  | .vclamp x vd a b vp ha hb => [wordVa 0x30 x vd a.code b.code vp ha hb]
  | .tokPutVa tk c => [wordEtok 0x36 tk c]
  | .tokGetVa tk c => [wordEtok 0x37 tk c]
  | .vst ag fmt a vp => [wordVs 0x38 ag fmt a.code 0 vp]
  | .vstS ag fmt a ix vp => [wordVs 0x39 ag fmt a.code ix.code vp]
  | .vpush sq fmt a vp => [wordVs 0x3A sq fmt a.code 0 vp]
  | .vsta ag fmt a vp => [wordVs 0x3B ag fmt (a.zeroExtend 7) 0 vp]
  | .tokPutVs tk c => [wordEtok 0x3E tk c]
  | .tokGetVs tk c => [wordEtok 0x3F tk c]
  | .matAt off => [0#6 ++ 0#8 ++ off]
  | .mlb ls tb => [wordM 0x01 ls 0 0 tb 0]
  | .mza ls acc n => [wordM 0x02 ls acc 0 0 (n.zeroExtend 8)]
  | .mla ls acc ta n => [wordM 0x03 ls acc ta 0 (n.zeroExtend 8)]
  | .mmul ls acc ta n => [wordM 0x04 ls acc ta 0 (n.zeroExtend 8)]
  | .mmac ls acc ta n => [wordM 0x05 ls acc ta 0 (n.zeroExtend 8)]
  | .mprom ls n => [wordM 0x06 ls 0 0 0 (n.zeroExtend 8)]
  | .mpert ls row col v => [0x07#6 ++ ls ++ row ++ col ++ 0#10, v]
  | .wld ls tb => [wordM 0x08 ls 0 0 tb 0]
  | .wmul ls acc ta n => [wordM 0x09 ls acc ta 0 (n.zeroExtend 8)]
  | .wmac ls acc ta n => [wordM 0x0A ls acc ta 0 (n.zeroExtend 8)]
  | .svscore ls ta tb n => [wordM 0x0B ls 0 ta tb n]
  | .svtopk ls tb n => [wordM 0x0C ls 0 0 tb n]
  | .svgath ls ta tb => [wordM 0x0D ls 0 ta tb 0]
  | .ktexp ls acc ta n => [wordM 0x0E ls acc ta 0 (n.zeroExtend 8)]
  | .ktsmax ls acc ta n => [wordM 0x0F ls acc ta 0 (n.zeroExtend 8)]
  | .gtqnt ls ta tb n => [wordM 0x10 ls 0 ta tb (n.zeroExtend 8)]
  | .gtsum ls ta tb n => [wordM 0x11 ls 0 ta tb n]
  | .spred ls ta tb n => [wordM 0x12 ls 0 ta tb (n.zeroExtend 8)]
  | .spbc ls ta n => [wordM 0x13 ls 0 ta 0 n]
  | .tokPutM tk c => [wordEtok 0x14 tk c]
  | .tokGetM tk c => [wordEtok 0x15 tk c]
  | .dset dim side ext stride =>
      match stride with
      | none => [0#6 ++ dim ++ flag side ++ 0#1 ++ ext]
      | some st => [0#6 ++ dim ++ flag side ++ 1#1 ++ ext, st]
  | .dgo ags agd nd sf df => [wordE 0x01 (ags ++ agd ++ nd ++ sf ++ df ++ 0#8)]
  | .cpyAt tick => [wordE 0x02 0#26, tick]
  | .dmask m => [wordE 0x03 (0#10 ++ m)]
  | .dred rop id => [wordE 0x04 (rop ++ 0#22), id]
  | .dbind sq ag => [wordE 0x05 (sq ++ ag ++ 0#20)]
  | .dstamp ag => [wordE 0x06 (ag ++ 0#23)]
  | .dfill => [wordE 0x07 0#26]
  | .dcancel => [wordE 0x08 0#26]
  | .dcvt rnd sat => [wordE 0x09 (rnd ++ flag sat ++ 0#22)]
  | .tokPutD tk c => [wordEtok 0x0A tk c]
  | .tokGetD tk c => [wordEtok 0x0B tk c]
  | .faultResume _ _ => []
  | .faultTerminate _ _ => []
  | .faultDeliver _ _ => []
  | .fringWrite _ _ => []
  | .bfrAccess _ _ _ => []
  | .lfsrAccess _ _ _ => []
  | .mstatAccess _ _ _ => []
  | .tileRegisterWrite _ _ _ => []
  | .flagsWrite _ _ => []
  | .seqModeWrite _ _ => []
  | .accessPerform _ _ _ => []
  | .vaWriteback _ _ => []
  | .vlRowWrite _ _ => []
  | .strandStart _ _ => []
  | .strandEnd _ _ _ => []
  | .engineCommandComplete _ _ => []
  | .stampedCommandIssue _ => []
  | .copyStart _ _ => []
  | .granuleWrite _ _ => []
  | .copyComplete _ _ => []
  | .haltRetire _ => []
  | .stallDeadlock _ => []
  | .trapDelivery _ => []
  | .faultRecordPost _ => []
  | .rollback _ => []
  | .unitKill _ => []
  | .correctableError _ => []
  | .uncorrectableError _ _ => []
  | .slotBoundary _ => []
  | .holdExpiry _ => []
  | .earlyFinish _ _ => []
  | .stepLate _ _ => []
  | .slipEvent _ _ => []
  | .remainderStart _ _ => []
  | .bookedStepStart _ _ => []
  | .reservationExecute _ _ => []
  | .openLeaseGrant _ => []
  | .openLeaseEviction _ => []
  | .engineAwake _ _ => []
  | .groveRetention _ _ _ => []
  | .budgetIntervalStart _ => []
  | .frequencyChange _ _ => []
  | .sensorSample _ => []
  | .safeFrequencyReturn _ => []
  | .supplyUndervoltage => []
  | .moduleReset => []
  | .lifeRecordWrite => []
  | .wearRead _ _ _ => []
  | .testPeriod => []
  | .testWindow _ => []
  | .testResult _ _ => []
  | .queueServe => []
  | .queueResidency _ _ => []
  | .unitPlace _ => []
  | .ticketPlace _ => []
  | .launchCompletion _ => []
  | .runTwiceCompare _ _ => []
  | .partitionFree _ => []
  | .handOver => []
  | .takeOver => []
  | .launchCommand _ _ _ => []
  | .createCtx _ _ => []
  | .destroyCtx _ => []
  | .setGrant _ _ => []
  | .load _ _ => []
  | .unload _ _ => []
  | .createObj _ _ => []
  | .destroyObj _ _ => []
  | .createQueue _ _ _ _ _ => []
  | .deleteQueue _ _ => []
  | .release _ _ => []
  | .grantCap _ _ _ _ _ => []
  | .revoke _ _ _ => []
  | .exportEntry _ _ _ _ _ _ => []
  | .releaseIds _ _ _ => []
  | .attest _ _ => []
  | .window _ _ _ _ _ => []
  | .rdmaWrite _ _ _ _ => []
  | .rdmaRead _ _ _ _ => []
  | .ptpMessage _ _ _ _ => []
  | .ebithFlitReceive _ _ _ => []
  | .ebithPortDown _ => []
  | .remoteAccess _ _ => []
  | .reduceElementApply _ _ => []
  | .releaseFlagAccept _ _ _ _ _ => []
  | .holdRequest _ _ => []
  | .watermarkFree _ _ _ _ => []
  | .remoteSuspectNotice _ _ _ _ => []
  | .mgmtRegisterWrite _ _ => []
  | .tper _ => []
  | .retsvc _ => []
  | .mbcons _ => []
  | .cald0 => []
  | .inputReturn => []
  | .queuePairConnect _ _ _ _ => []
  | .invalidRequest _ => []
  | .unknownCommand _ _ => []
  | .remoteHoldCommit _ _ _ => []
  | .rePatch _ _ _ => []
  | .timeBaseAlignment _ => []

/-- The stream whose words encode the instruction; none as for `encode`. -/
def Instr.stream : Instr → Option Stream
  | .add .. => some .c
  | .sub .. => some .c
  | .mul .. => some .c
  | .mulh .. => some .c
  | .mulhU .. => some .c
  | .div .. => some .c
  | .divU .. => some .c
  | .rem .. => some .c
  | .remU .. => some .c
  | .and .. => some .c
  | .or .. => some .c
  | .xor .. => some .c
  | .andn .. => some .c
  | .shl .. => some .c
  | .shr .. => some .c
  | .sar .. => some .c
  | .min .. => some .c
  | .max .. => some .c
  | .minU .. => some .c
  | .maxU .. => some .c
  | .clz .. => some .c
  | .popc .. => some .c
  | .addw .. => some .c
  | .bfx .. => some .c
  | .fadd .. => some .c
  | .fsub .. => some .c
  | .fmul .. => some .c
  | .fdiv .. => some .c
  | .fma .. => some .c
  | .fnma .. => some .c
  | .fmin .. => some .c
  | .fmax .. => some .c
  | .fsqrt .. => some .c
  | .fabs .. => some .c
  | .fneg .. => some .c
  | .fcvtFi .. => some .c
  | .fcvtIf .. => some .c
  | .fclass .. => some .c
  | .ceq .. => some .c
  | .cne .. => some .c
  | .clt .. => some .c
  | .cle .. => some .c
  | .cltU .. => some .c
  | .cleU .. => some .c
  | .fceq .. => some .c
  | .fclt .. => some .c
  | .fcle .. => some .c
  | .fcun .. => some .c
  | .pand .. => some .c
  | .por .. => some .c
  | .pxor .. => some .c
  | .pandn .. => some .c
  | .sel .. => some .c
  | .pset .. => some .c
  | .fset .. => some .c
  | .faddImm .. => some .c
  | .fmulImm .. => some .c
  | .fmaxImm .. => some .c
  | .iset .. => some .c
  | .iadd .. => some .c
  | .iand .. => some .c
  | .ishi .. => some .c
  | .pbr .. => some .c
  | .pbrRegister .. => some .c
  | .brx .. => some .c
  | .loop .. => some .c
  | .loopRegister .. => some .c
  | .halt => some .c
  | .ifsync .. => some .c
  | .ldb .. => some .c
  | .ldbz .. => some .c
  | .ldh .. => some .c
  | .ldhz .. => some .c
  | .ldw .. => some .c
  | .ldwz .. => some .c
  | .ldd .. => some .c
  | .ldc .. => some .c
  | .stb .. => some .c
  | .sth .. => some .c
  | .stw .. => some .c
  | .std .. => some .c
  | .stc .. => some .c
  | .aadd .. => some .c
  | .aand .. => some .c
  | .aor .. => some .c
  | .axor .. => some .c
  | .amin .. => some .c
  | .amax .. => some .c
  | .aswap .. => some .c
  | .acas .. => some .c
  | .afadd .. => some .c
  | .acq .. => some .c
  | .rel .. => some .c
  | .bind .. => some .c
  | .fence .. => some .c
  | .tlwait .. => some .c
  | .mwait .. => some .c
  | .cmov .. => some .c
  | .cinc .. => some .c
  | .cset .. => some .c
  | .cnarrow .. => some .c
  | .cdrop .. => some .c
  | .cget .. => some .c
  | .ctst .. => some .c
  | .disp .. => some .c
  | .dispRegister .. => some .c
  | .cfg .. => some .c
  | .tokPut .. => some .c
  | .tokGet .. => some .c
  | .phase .. => some .c
  | .tile .. => some .c
  | .book .. => some .c
  | .reserve .. => some .c
  | .confirm .. => some .c
  | .abandon .. => some .c
  | .lease .. => some .c
  | .leaseOpen .. => some .c
  | .unlease .. => some .c
  | .unleaseRet .. => some .c
  | .launch .. => some .c
  | .postQueued .. => some .c
  | .postParked .. => some .c
  | .depdec .. => some .c
  | .cancelGraph .. => some .c
  | .cancelPhase .. => some .c
  | .cancelJob .. => some .c
  | .cancelLaunch .. => some .c
  | .tfenceW .. => some .c
  | .tlbinv .. => some .c
  | .shoot .. => some .c
  | .remap .. => some .c
  | .gets .. => some .c
  | .sets .. => some .c
  | .trap .. => some .c
  | .trapResume => some .c
  | .inject .. => some .c
  | .vl .. => some .vl
  | .vlG .. => some .vl
  | .vlT .. => some .vl
  | .vlBf .. => some .vl
  | .vlBc .. => some .vl
  | .vlPop .. => some .vl
  | .tokPutVl .. => some .vl
  | .tokGetVl .. => some .vl
  | .vadd .. => some .va
  | .vsub .. => some .va
  | .vmul .. => some .va
  | .vfma .. => some .va
  | .vfnma .. => some .va
  | .vmin .. => some .va
  | .vmax .. => some .va
  | .vabs .. => some .va
  | .vand .. => some .va
  | .vor .. => some .va
  | .vxor .. => some .va
  | .vshl .. => some .va
  | .vshr .. => some .va
  | .vceq .. => some .va
  | .vclt .. => some .va
  | .vcle .. => some .va
  | .vsel .. => some .va
  | .vcvt .. => some .va
  | .vexp2 .. => some .va
  | .vlog2 .. => some .va
  | .vrcp .. => some .va
  | .vrsq .. => some .va
  | .vrsum .. => some .va
  | .vrmax .. => some .va
  | .vrmin .. => some .va
  | .vscan .. => some .va
  | .vperm .. => some .va
  | .vtopk .. => some .va
  | .vtopkm .. => some .va
  | .vqres .. => some .va
  | .vbstat .. => some .va
  | .vmov .. => some .va
  | .vclamp .. => some .va
  | .tokPutVa .. => some .va
  | .tokGetVa .. => some .va
  | .vst .. => some .vs
  | .vstS .. => some .vs
  | .vpush .. => some .vs
  | .vsta .. => some .vs
  | .tokPutVs .. => some .vs
  | .tokGetVs .. => some .vs
  | .matAt .. => some .m
  | .mlb .. => some .m
  | .mza .. => some .m
  | .mla .. => some .m
  | .mmul .. => some .m
  | .mmac .. => some .m
  | .mprom .. => some .m
  | .mpert .. => some .m
  | .wld .. => some .m
  | .wmul .. => some .m
  | .wmac .. => some .m
  | .svscore .. => some .m
  | .svtopk .. => some .m
  | .svgath .. => some .m
  | .ktexp .. => some .m
  | .ktsmax .. => some .m
  | .gtqnt .. => some .m
  | .gtsum .. => some .m
  | .spred .. => some .m
  | .spbc .. => some .m
  | .tokPutM .. => some .m
  | .tokGetM .. => some .m
  | .dset .. => some .d
  | .dgo .. => some .d
  | .cpyAt .. => some .d
  | .dmask .. => some .d
  | .dred .. => some .d
  | .dbind .. => some .d
  | .dstamp .. => some .d
  | .dfill => some .d
  | .dcancel => some .d
  | .dcvt .. => some .d
  | .tokPutD .. => some .d
  | .tokGetD .. => some .d
  | .faultResume .. => none
  | .faultTerminate .. => none
  | .faultDeliver .. => none
  | .fringWrite .. => none
  | .bfrAccess .. => none
  | .lfsrAccess .. => none
  | .mstatAccess .. => none
  | .tileRegisterWrite .. => none
  | .flagsWrite .. => none
  | .seqModeWrite .. => none
  | .accessPerform .. => none
  | .vaWriteback .. => none
  | .vlRowWrite .. => none
  | .strandStart .. => none
  | .strandEnd .. => none
  | .engineCommandComplete .. => none
  | .stampedCommandIssue .. => none
  | .copyStart .. => none
  | .granuleWrite .. => none
  | .copyComplete .. => none
  | .haltRetire .. => none
  | .stallDeadlock .. => none
  | .trapDelivery .. => none
  | .faultRecordPost .. => none
  | .rollback .. => none
  | .unitKill .. => none
  | .correctableError .. => none
  | .uncorrectableError .. => none
  | .slotBoundary .. => none
  | .holdExpiry .. => none
  | .earlyFinish .. => none
  | .stepLate .. => none
  | .slipEvent .. => none
  | .remainderStart .. => none
  | .bookedStepStart .. => none
  | .reservationExecute .. => none
  | .openLeaseGrant .. => none
  | .openLeaseEviction .. => none
  | .engineAwake .. => none
  | .groveRetention .. => none
  | .budgetIntervalStart .. => none
  | .frequencyChange .. => none
  | .sensorSample .. => none
  | .safeFrequencyReturn .. => none
  | .supplyUndervoltage => none
  | .moduleReset => none
  | .lifeRecordWrite => none
  | .wearRead .. => none
  | .testPeriod => none
  | .testWindow .. => none
  | .testResult .. => none
  | .queueServe => none
  | .queueResidency .. => none
  | .unitPlace .. => none
  | .ticketPlace .. => none
  | .launchCompletion .. => none
  | .runTwiceCompare .. => none
  | .partitionFree .. => none
  | .handOver => none
  | .takeOver => none
  | .launchCommand .. => none
  | .createCtx .. => none
  | .destroyCtx .. => none
  | .setGrant .. => none
  | .load .. => none
  | .unload .. => none
  | .createObj .. => none
  | .destroyObj .. => none
  | .createQueue .. => none
  | .deleteQueue .. => none
  | .release .. => none
  | .grantCap .. => none
  | .revoke .. => none
  | .exportEntry .. => none
  | .releaseIds .. => none
  | .attest .. => none
  | .window .. => none
  | .rdmaWrite .. => none
  | .rdmaRead .. => none
  | .ptpMessage .. => none
  | .ebithFlitReceive .. => none
  | .ebithPortDown .. => none
  | .remoteAccess .. => none
  | .reduceElementApply .. => none
  | .releaseFlagAccept .. => none
  | .holdRequest .. => none
  | .watermarkFree .. => none
  | .remoteSuspectNotice .. => none
  | .mgmtRegisterWrite .. => none
  | .tper .. => none
  | .retsvc .. => none
  | .mbcons .. => none
  | .cald0 => none
  | .inputReturn => none
  | .queuePairConnect .. => none
  | .invalidRequest .. => none
  | .unknownCommand .. => none
  | .remoteHoldCommit .. => none
  | .rePatch .. => none
  | .timeBaseAlignment .. => none

/-! ## The host's table question -/

/-- The streams in the order in which a table word is tried. One word can stand for a different
instruction in each stream, and the table numbers rows without a stream (log 16). -/
def tableStreams (w : Word) : List Stream :=
  if fld w 30 2 = 0 then [.c, .vl, .m, .d] else [.vs, .m, .va, .c]

/-- The stream and instruction of the first stream of `strs` whose decoder accepts the words. -/
def firstDecode (ws : List Word) : List Stream → Option (Stream × Instr)
  | [] => none
  | s :: rest =>
    match decode s ws with
    | .ok i => some (s, i)
    | .error _ => firstDecode ws rest

/-- A table word with as many zero trailing words as an instruction can have. -/
def tableWords (w : Nat) : List Word := BitVec.ofNat 32 w :: List.replicate 4 0

def decodeTableWord (nbits w : Nat) : Option Instr :=
  if nbits = 32 then (firstDecode (tableWords w) (tableStreams (BitVec.ofNat 32 w))).map (·.2) else none

end Sys2Proof
end

