-- ==== Sys2Proof/Machine/Flags.lean ====
section
/-! DEFINITION. The exception flags (R98, R99, Table 4.3) and the rounding modes (R101, Table 2.8). The
rules that set a flag stand beside each computation, in Machine/Fp.lean. -/

namespace Sys2Proof.Machine

/-- The six flags in the order of $flags (Table 4.4). -/
abbrev Flags := BitVec 6

namespace Fl
/-- Inexact. -/
def nx : Flags := 1
/-- Underflow. -/
def uf : Flags := 2
/-- Overflow. -/
def of : Flags := 4
/-- Division by zero. -/
def dz : Flags := 8
/-- Invalid. -/
def iv : Flags := 16
/-- A reserved T2 code was read. -/
def tr : Flags := 32
/-- The flag when the condition holds. -/
def only (c : Bool) (f : Flags) : Flags := if c then f else 0
end Fl

/-- Rounding modes (Table 2.8). -/
inductive Rnd where
  | rne | rtz | rdn | rup | rna | sr
  deriving DecidableEq, Repr

/-- A rounding code; the codes 0b110 and 0b111 never reach a rounding (R51). -/
def Rnd.ofCode (c : BitVec 3) : Rnd :=
  match c.toNat with
  | 0 => .rne
  | 1 => .rtz
  | 2 => .rdn
  | 3 => .rup
  | 4 => .rna
  | _ => .sr

/-- OR-ing flags into $flags (R98). -/
def orFlags (old : Double) (f : Flags) : Double := old ||| f.zeroExtend 64

end Sys2Proof.Machine
end

