-- ==== Sys2Proof/Machine/Fp.lean ====
section
/-! DEFINITION. Element formats, rounding and exact arithmetic (chapter 04; Tables 5.4 to 5.6). A value is
held exactly, as sign, magnitude and binary exponent, and rounded once. Results that are no dyadic
number are held to many more bits than any target with a sticky last bit (log 13). -/

namespace Sys2Proof.Machine

/-- The value of an element: NaN, an infinity, or (−1)^s × m × 2^e; m = 0 is a signed zero. -/
inductive Val where
  | nan
  | inf (s : Bool)
  | fin (s : Bool) (m : Nat) (e : Int)
  deriving DecidableEq, Repr

/-- A floating-point format (Table 4.1). -/
structure FFmt where
  e : Nat
  m : Nat
  bias : Nat
  /-- infinities and NaNs at the all-ones exponent -/
  ieee : Bool
  /-- NaN only at S.1111.111 (E4M3) -/
  e4m3 : Bool
  deriving DecidableEq, Repr

/-- The element formats of Table 2.18; code 0 is `raw`, 32 bits moved unchanged. -/
inductive Fmt where
  | raw
  | flt (f : FFmt)
  | int (w : Nat) (signed : Bool)
  | t2
  deriving DecidableEq, Repr

def fp32 : FFmt := ⟨8, 23, 127, true, false⟩
def fp16 : FFmt := ⟨5, 10, 15, true, false⟩
def bf16 : FFmt := ⟨8, 7, 127, true, false⟩
def e4m3 : FFmt := ⟨4, 3, 7, false, true⟩
def e5m2 : FFmt := ⟨5, 2, 15, true, false⟩
def e2m3 : FFmt := ⟨2, 3, 1, false, false⟩
def e3m2 : FFmt := ⟨3, 2, 3, false, false⟩
def e2m1 : FFmt := ⟨2, 1, 1, false, false⟩

/-- Element-format codes (Table 2.18, R63). -/
def Fmt.ofCode (c : Nat) : Fmt :=
  match c with
  | 1 => .flt fp32
  | 2 => .flt fp16
  | 3 => .flt bf16
  | 4 => .flt e4m3
  | 5 => .flt e5m2
  | 6 => .flt e2m3
  | 7 => .flt e3m2
  | 8 => .flt e2m1
  | 9 => .int 4 true
  | 10 => .int 8 true
  | 11 => .int 8 false
  | 12 => .int 16 true
  | 13 => .int 32 true
  | 14 => .t2
  | 15 => .int 64 true
  | _ => .raw

def FFmt.width (f : FFmt) : Nat := 1 + f.e + f.m

/-- Bits of an element. -/
def Fmt.width : Fmt → Nat
  | .raw => 32
  | .flt f => f.width
  | .int w _ => w
  | .t2 => 2

/-- An integer or ternary format: its values convert by the last row of Table 4.7. -/
def Fmt.isInt : Fmt → Bool
  | .int .. | .t2 => true
  | .raw | .flt _ => false

/-- Narrower than a byte, or FP6: packed as one bit stream (R114). -/
def Fmt.packed (f : Fmt) : Bool := f.width % 8 != 0

def FFmt.maxE (f : FFmt) : Nat := 2 ^ f.e - 1
/-- The code of the largest finite magnitude (Table 4.1). -/
def FFmt.large (f : FFmt) : Nat :=
  if f.ieee then (f.maxE - 1) * 2 ^ f.m + (2 ^ f.m - 1)
  else if f.e4m3 then 0x7E
  else 2 ^ (f.e + f.m) - 1
/-- The code of positive infinity in a format that has one. -/
def FFmt.infCode (f : FFmt) : Nat := f.maxE * 2 ^ f.m
/-- The canonical NaN (Table 4.2). -/
def FFmt.nanCode (f : FFmt) : Nat :=
  if f.ieee then f.infCode + 2 ^ (f.m - 1) else 0x7F
def FFmt.hasNan (f : FFmt) : Bool := f.ieee || f.e4m3
def FFmt.signBit (f : FFmt) (s : Bool) : Nat := if s then 2 ^ (f.e + f.m) else 0

/-- The value of a floating-point code (R93, R94). -/
def FFmt.decode (f : FFmt) (x : Nat) : Val :=
  let s := x.testBit (f.e + f.m)
  let ex := (x >>> f.m) % 2 ^ f.e
  let fr := x % 2 ^ f.m
  if f.ieee && ex == f.maxE then (if fr == 0 then .inf s else .nan)
  else if f.e4m3 && ex == 15 && fr == 7 then .nan
  else if ex == 0 then .fin s fr (1 - (f.bias : Int) - f.m)
  else .fin s (fr + 2 ^ f.m) ((ex : Int) - f.bias - f.m)

/-- A two's-complement reading of the low w bits. -/
def sextNat (x w : Nat) : Int :=
  let y := x % 2 ^ w
  if w ≠ 0 ∧ y ≥ 2 ^ (w - 1) then (y : Int) - 2 ^ w else y

/-- An integer as a value; zero is +0. -/
def Val.ofInt (i : Int) : Val := .fin (decide (i < 0)) i.natAbs 0

/-- The value of an element and the TR flag of a reserved T2 code (R97). -/
def Fmt.decode (f : Fmt) (x : Nat) : Val × Flags :=
  match f with
  | .flt f => (f.decode x, 0)
  | .int w sg => (.ofInt (if sg then sextNat x w else (x % 2 ^ w : Nat)), 0)
  | .t2 =>
    match x % 4 with
    | 1 => (.fin false 1 0, 0)
    | 3 => (.fin true 1 0, 0)
    | 2 => (.fin false 0 0, Fl.tr)
    | _ => (.fin false 0 0, 0)
  | .raw => (.fin false (x % 2 ^ 32) 0, 0)

/-- m × 2^e to a multiple of 2^q: the quotient, and whether it is inexact (R101, R103). r is the value
taken from the generator under .sr. -/
def quant (s : Bool) (m : Nat) (e q : Int) (mode : Rnd) (r : Nat) : Nat × Bool :=
  if q ≤ e then (m <<< (e - q).toNat, false)
  else
    let k := (q - e).toNat
    let n := m >>> k
    let rem := m % 2 ^ k
    if rem = 0 then (n, false)
    else
      let half := 2 ^ (k - 1)
      let up := match mode with
        | .rne => decide (rem > half) || (rem == half && n % 2 == 1)
        | .rna => decide (rem ≥ half)
        | .rtz => false
        | .rdn => s
        | .rup => !s
        | .sr => decide ((rem <<< 32) >>> k + r ≥ 2 ^ 32)
      (if up then n + 1 else n, true)

/-- The delivered code on overflow (Table 4.5). -/
def FFmt.overflow (f : FFmt) (s : Bool) (mode : Rnd) (sat : Bool) : Nat :=
  let big := f.signBit s + f.large
  let inf := f.signBit s + f.infCode
  if !f.ieee || sat then big
  else match mode with
    | .rtz => big
    | .rdn => if s then inf else big
    | .rup => if s then big else inf
    | .rne | .rna | .sr => inf

/-- Round (−1)^s × m × 2^e to a format, with NX, UF and OF (R101, R102, Table 4.3). Tiny is judged on the
value rounded with unbounded exponent. -/
def FFmt.round (f : FFmt) (s : Bool) (m : Nat) (e : Int) (mode : Rnd) (sat : Bool) (r : Nat) : Nat × Flags :=
  if m = 0 then (f.signBit s, 0)
  else
    let emin : Int := 1 - (f.bias : Int)
    let ee : Int := (m.log2 : Int) + e
    let q : Int := (if ee < emin then emin else ee) - f.m
    let (n0, inexact) := quant s m e q mode r
    let (n, q) := if n0 ≥ 2 ^ (f.m + 1) then (n0 / 2, q + 1) else (n0, q)
    let tiny := decide (ee < emin) &&
      decide ((quant s m e (ee - f.m) mode r).1 < 2 ^ ((emin - ee).toNat + f.m))
    let fl := Fl.only inexact Fl.nx ||| Fl.only (inexact && tiny) Fl.uf
    let code := if n < 2 ^ f.m then n else (q + f.m + f.bias).toNat * 2 ^ f.m + (n - 2 ^ f.m)
    if code > f.large then (f.overflow s mode sat, fl ||| Fl.of ||| Fl.nx)
    else (f.signBit s + code, fl)

/-- A value to a floating-point format (Table 4.7). -/
def FFmt.encode (f : FFmt) (v : Val) (mode : Rnd) (sat : Bool) (r : Nat) : Nat × Flags :=
  match v with
  | .nan => if f.hasNan then (f.nanCode, 0) else (0, Fl.iv)
  | .inf s =>
    if f.ieee && !sat then (f.signBit s + f.infCode, 0) else (f.signBit s + f.large, Fl.of)
  | .fin s m e => f.round s m e mode sat r

/-- The two's-complement code of an integer in w bits. -/
def intCode (i : Int) (w : Nat) : Nat := (i % 2 ^ w).toNat

/-- A value to an integer range: the clamped integer and its flags (Table 4.7). `fromInt` says that the
source is an integer format, whose clamping sets OF instead of IV. -/
def encodeInt (lo hi : Int) (v : Val) (mode : Rnd) (fromInt : Bool) (r : Nat) : Int × Flags :=
  match v with
  | .nan => (0, Fl.iv)
  | .inf s => (if s then lo else hi, Fl.iv)
  | .fin s m e =>
    let (n, inexact) := quant s m e 0 mode r
    let i : Int := if s then -n else n
    let clamp := if fromInt then Fl.of else Fl.iv
    if i < lo then (lo, clamp)
    else if i > hi then (hi, clamp)
    else (i, Fl.only inexact Fl.nx)

/-- A value to an element of a format (R107, R108). -/
def Fmt.encode (f : Fmt) (v : Val) (mode : Rnd) (sat fromInt : Bool) (r : Nat) : Nat × Flags :=
  match f with
  | .flt f => f.encode v mode sat r
  | .int w sg =>
    let (i, fl) := if sg then encodeInt (-(2 ^ (w - 1))) (2 ^ (w - 1) - 1) v mode fromInt r
      else encodeInt 0 (2 ^ w - 1) v mode fromInt r
    (intCode i w, fl)
  | .t2 =>
    let (i, fl) := encodeInt (-1) 1 v mode fromInt r
    (intCode i 2, fl)
  | .raw => (match v with | .fin _ m _ => m | _ => 0, 0)

/-- Conversion of an element (R108); equal formats and raw elements move unchanged (R109, R119). -/
def convert (src dst : Fmt) (x : Nat) (mode : Rnd) (sat : Bool) (r : Nat) : Nat × Flags :=
  if src = dst ∨ src = .raw ∨ dst = .raw then (x % 2 ^ dst.width, 0)
  else
    let (v, f1) := src.decode x
    let (y, f2) := dst.encode v mode sat src.isInt r
    (y, f1 ||| f2)

/-- One step of a generator (R104). -/
def lfsrStep (s : Word) : Word :=
  let n := bit s 31 ^^ bit s 21 ^^ bit s 1 ^^ bit s 0
  (s <<< 1) ||| (if n then 1 else 0)

/-! ## Exact arithmetic on values -/

namespace Val

def neg : Val → Val
  | .nan => .nan
  | .inf s => .inf !s
  | .fin s m e => .fin (!s) m e

def abs : Val → Val
  | .nan => .nan
  | .inf _ => .inf false
  | .fin _ m e => .fin false m e

def isNan : Val → Bool
  | .nan => true
  | .inf _ | .fin .. => false

def isZero : Val → Bool
  | .fin _ m _ => m == 0
  | .nan | .inf _ => false

/-- The signed magnitude scaled to exponent q, for q at or below the value's own. -/
def scaled (s : Bool) (m : Nat) (e q : Int) : Int :=
  let n : Int := (m <<< (e - q).toNat : Nat)
  if s then -n else n

/-- The sum of two finite values, exact; an exact zero takes its sign from Table 5.4. -/
def addFin (sa : Bool) (ma : Nat) (ea : Int) (sb : Bool) (mb : Nat) (eb : Int) (mode : Rnd) : Val :=
  if ma = 0 ∧ mb = 0 ∧ sa = sb then .fin sa 0 0
  else
    let q := if ea ≤ eb then ea else eb
    let t := scaled sa ma ea q + scaled sb mb eb q
    if t = 0 then .fin (mode == .rdn) 0 0 else .fin (decide (t < 0)) t.natAbs q

/-- a + b with the cases of Table 5.4. -/
def add (a b : Val) (mode : Rnd) : Val × Flags :=
  match a, b with
  | .nan, _ => (.nan, 0)
  | _, .nan => (.nan, 0)
  | .inf s, .inf t => if s = t then (.inf s, 0) else (.nan, Fl.iv)
  | .inf s, .fin .. => (.inf s, 0)
  | .fin .., .inf t => (.inf t, 0)
  | .fin sa ma ea, .fin sb mb eb => (addFin sa ma ea sb mb eb mode, 0)

/-- a × b, exact, with the cases of Table 5.4. -/
def mul (a b : Val) : Val × Flags :=
  match a, b with
  | .nan, _ => (.nan, 0)
  | _, .nan => (.nan, 0)
  | .inf s, .inf t => (.inf (s ^^ t), 0)
  | .inf s, .fin t m _ => if m = 0 then (.nan, Fl.iv) else (.inf (s ^^ t), 0)
  | .fin s m _, .inf t => if m = 0 then (.nan, Fl.iv) else (.inf (s ^^ t), 0)
  | .fin sa ma ea, .fin sb mb eb => (.fin (sa ^^ sb) (ma * mb) (ea + eb), 0)

/-- d × a + b with the product exact (Table 5.5): 0 × ∞ is invalid whatever b. -/
def fma (d a b : Val) (mode : Rnd) : Val × Flags :=
  match d, a with
  | .inf _, .fin _ 0 _ => (.nan, Fl.iv)
  | .fin _ 0 _, .inf _ => (.nan, Fl.iv)
  | _, _ => add (mul d a).1 b mode

/-- m × 2^e as a quotient of naturals to 80 bits and a sticky bit. -/
def quot (s : Bool) (ma : Nat) (ea : Int) (mb : Nat) (eb : Int) : Val :=
  let k := 80 + mb.log2 + 1
  let n := ma <<< k
  let q := n / mb
  let e := ea - eb - k
  if n % mb = 0 then .fin s q e else .fin s (2 * q + 1) (e - 1)

/-- a ÷ b with the cases of Table 5.4. -/
def div (a b : Val) : Val × Flags :=
  match a, b with
  | .nan, _ => (.nan, 0)
  | _, .nan => (.nan, 0)
  | .inf _, .inf _ => (.nan, Fl.iv)
  | .inf s, .fin t _ _ => (.inf (s ^^ t), 0)
  | .fin s _ _, .inf t => (.fin (s ^^ t) 0 0, 0)
  | .fin sa ma ea, .fin sb mb eb =>
    if mb = 0 then (if ma = 0 then (.nan, Fl.iv) else (.inf (sa ^^ sb), Fl.dz))
    else if ma = 0 then (.fin (sa ^^ sb) 0 0, 0)
    else (quot (sa ^^ sb) ma ea mb eb, 0)

/-- a < b; false when either is NaN. Zeros of both signs are equal. -/
def lt (a b : Val) : Bool :=
  match a, b with
  | .nan, _ => false
  | _, .nan => false
  | .inf s, .inf t => s && !t
  | .inf s, .fin .. => s
  | .fin .., .inf t => !t
  | .fin sa ma ea, .fin sb mb eb =>
    let q := if ea ≤ eb then ea else eb
    decide (scaled sa ma ea q < scaled sb mb eb q)

/-- a = b numerically; false when either is NaN. -/
def eq (a b : Val) : Bool := !a.isNan && !b.isNan && !lt a b && !lt b a

/-- The order of R134: numeric, with −0 below +0. -/
def ltZ (a b : Val) : Bool :=
  match a, b with
  | .fin sa 0 _, .fin sb 0 _ => sa && !sb
  | _, _ => lt a b

end Val

/-- The largest y with y × y ≤ n, found bit by bit from bit k − 1 down. -/
def isqrtBits (n : Nat) : Nat → Nat → Nat
  | 0, acc => acc
  | k + 1, acc =>
    let t := acc + 2 ^ k
    isqrtBits n k (if t * t ≤ n then t else acc)
def isqrt (n : Nat) : Nat := isqrtBits n (n.log2 / 2 + 1) 0

/-- √(m × 2^e) to 80 bits and a sticky bit. -/
def sqrtFin (m : Nat) (e : Int) : Val :=
  let (m, e) := if e % 2 = 0 then (m, e) else (2 * m, e - 1)
  let n := m <<< 160
  let r := isqrt n
  let e' := e / 2 - 80
  if r * r = n then .fin false r e' else .fin false (2 * r + 1) (e' - 1)

/-- The cases of FSQRT (R132). -/
def Val.sqrt : Val → Val × Flags
  | .nan => (.nan, 0)
  | .inf s => if s then (.nan, Fl.iv) else (.inf false, 0)
  | .fin s m e => if m = 0 then (.fin s 0 0, 0) else if s then (.nan, Fl.iv) else (sqrtFin m e, 0)

/-! ## 2^x, log2 x and e^x

Fixed point with `fixP` fraction bits; the truncation errors stay far below the sticky bit. -/

def fixP : Nat := 320

/-- y^k / k! summed for k below the fuel, all in fixed point. -/
def expSeries (y : Nat) : Nat → Nat → Nat → Nat → Nat
  | 0, _, _, acc => acc
  | fuel + 1, k, term, acc => expSeries y fuel (k + 1) ((term * y) >>> fixP / (k + 1)) (acc + term)
/-- e^y for 0 ≤ y < 1. -/
def expFix (y : Nat) : Nat := expSeries y 80 0 (2 ^ fixP) 0

/-- Σ 1 / (k × 2^k) for k = 1 to the fuel, which is ln 2. -/
def ln2Series : Nat → Nat → Nat → Nat
  | 0, _, acc => acc
  | fuel + 1, k, acc => ln2Series fuel (k + 1) (acc + 2 ^ (fixP - k) / k)
def ln2Fix : Nat := ln2Series 319 1 0

/-- 2^(x / 2^fixP) for an integer x, with a sticky last bit. -/
def pow2Fix (x : Int) : Val :=
  let n := x / 2 ^ fixP
  let f := (x % 2 ^ fixP).toNat
  if f = 0 then .fin false 1 n
  else .fin false (2 * expFix ((f * ln2Fix) >>> fixP) + 1) (n - fixP - 1)

/-- A dyadic number in fixed point; exact while its exponent is −fixP or more, else toward −∞. -/
def toFix (s : Bool) (m : Nat) (e : Int) : Int :=
  let i : Int := if s then -m else m
  if e + fixP ≥ 0 then i * 2 ^ (e + fixP).toNat else i / 2 ^ (-(e + fixP)).toNat

/-- A magnitude no result format can hold, as any larger exponent overflows (and any smaller vanishes). -/
def hugeExp : Int := 2000

/-- 2^a for a finite non-zero a: beyond ±2,000 every format overflows or rounds to its extreme, and a
magnitude below 2^−200 gives 1 plus or minus a sticky bit. -/
def exp2Fin (s : Bool) (m : Nat) (e : Int) : Val :=
  let ee : Int := (m.log2 : Int) + e
  if ee ≥ 11 then .fin false 1 (if s then -hugeExp else hugeExp)
  else if ee < -200 then (if s then .fin false (2 ^ 220 - 1) (-220) else .fin false (2 ^ 220 + 1) (-220))
  else pow2Fix (toFix s m e)

/-- e^a for a finite non-zero a, through 2^(a / ln 2). -/
def expEFin (s : Bool) (m : Nat) (e : Int) : Val :=
  let ee : Int := (m.log2 : Int) + e
  if ee ≥ 11 then .fin false 1 (if s then -hugeExp else hugeExp)
  else if ee < -200 then (if s then .fin false (2 ^ 220 - 1) (-220) else .fin false (2 ^ 220 + 1) (-220))
  else
    let x := toFix s m e
    let n := x / ln2Fix
    let y := (x % ln2Fix).toNat
    .fin false (2 * expFix y + 1) (n - fixP - 1)

/-- Binary digits of log2 z for z in [1, 2) held with `fixP` fraction bits, by repeated squaring. -/
def log2Digits : Nat → Nat → Nat → Nat
  | 0, _, acc => acc
  | fuel + 1, z, acc =>
    let z2 := (z * z) >>> fixP
    if z2 ≥ 2 ^ (fixP + 1) then log2Digits fuel (z2 / 2) (2 * acc + 1) else log2Digits fuel z2 (2 * acc)

/-- log2 of m × 2^e for m > 0: exact for a power of two, else 128 fraction digits and a sticky bit. -/
def log2Fin (m : Nat) (e : Int) : Val :=
  let l := m.log2
  let i : Int := l + e
  if m = 2 ^ l then .ofInt i
  else
    let z := if l ≤ fixP then m <<< (fixP - l) else m >>> (l - fixP)
    let v : Int := 2 * (i * 2 ^ 128 + log2Digits 128 z 0) + 1
    .fin (decide (v < 0)) v.natAbs (-129)

/-! ## Block-scaled formats -/

/-- The exponent of the largest element (R112). -/
def b48Emax (code : Nat) : Int :=
  match code with
  | 4 => 8
  | 5 => 15
  | 6 => 2
  | 7 => 4
  | 8 => 2
  | _ => 6
/-- The six element formats of R110. -/
def b48Code (code : Nat) : Bool := (4 ≤ code && code ≤ 8) || code == 10

/-- The value of a B48 element under its scale (R110): under 0xFF all of them are NaN, an E5M2 infinity too (log 102). -/
def b48Value (f : Fmt) (x scale : Nat) : Val :=
  if scale = 255 then .nan
  else match (f.decode x).1 with
    | .nan => .nan
    | .inf s => .inf s
    | .fin s m e => .fin s m (e + scale - 127)

/-- The exponent of the top bit of the largest magnitude, none when every value is zero. -/
def topExp : List Val → Option Int
  | [] => none
  | .fin _ m e :: r =>
    let t := topExp r
    if m = 0 then t
    else
      let x : Int := (m.log2 : Int) + e
      match t with
      | none => some x
      | some y => some (if x < y then y else x)
  | _ :: r => topExp r

/-- Codes with their formats, `fmt` for all where `fmts` names none. -/
def withFmts {α : Type} (fmt : Nat) (fmts : List Nat) (l : List α) : List (Nat × α) :=
  if fmts.isEmpty then l.map fun x => (fmt, x) else List.zip fmts l

/-- Encoding one block (R112): the codes, the scale and the flags; rs are the generator values of .sr. Where the block's elements lie in banks
of unlike formats, `fmts` holds each one's, and `code` is that of the first, which fixes the scale (log 83). -/
def b48Encode (code : Nat) (fmts : List Nat) (vs : List Val) (mode : Rnd) (rs : List Nat) : List Nat × Nat × Flags :=
  if vs.any (fun v => match v with | .fin .. => false | .nan | .inf _ => true) then
    (vs.map fun _ => 0, 255, Fl.iv)
  else match topExp vs with
    | none => ((withFmts code fmts vs).map fun e => ((Fmt.ofCode e.1).encode e.2 .rne true false 0).1, 127, 0)
    | some t =>
      let x0 := t - b48Emax code
      let x : Int := if x0 < -127 then -127 else if x0 > 127 then 127 else x0
      let rows := ((withFmts code fmts vs).zip (rs ++ List.replicate vs.length 0)).map fun (e, r) =>
        match e.2 with
        | .fin s m y => (Fmt.ofCode e.1).encode (.fin s m (y - x)) mode true false r
        | v => (Fmt.ofCode e.1).encode v mode true false r
      (rows.map (·.1), (x + 127).toNat, rows.foldl (fun a p => a ||| p.2) 0)

/-! ## FP32 in the control stream -/

def f32Val (x : Word) : Val := fp32.decode x.toNat
def f32Round (v : Val) (mode : Rnd) : Word × Flags :=
  let (c, f) := fp32.encode v mode false 0
  (BitVec.ofNat 32 c, f)
/-- Round the exact result of an operation with its operand-case flags (R129). -/
def f32Of (r : Val × Flags) (mode : Rnd) : Word × Flags :=
  let (c, f) := f32Round r.1 mode
  (c, r.2 ||| f)

def f32Nan : Word := 0x7FC00000

/-- FMIN and FMAX on codes of one format (R134): `less` picks the smaller. -/
def minMaxCode (f : FFmt) (less : Bool) (a b : Nat) : Nat :=
  let va := f.decode a
  let vb := f.decode b
  if va.isNan && vb.isNan then f.nanCode
  else if va.isNan then b
  else if vb.isNan then a
  else if less then (if Val.ltZ vb va then b else a)
  else (if Val.ltZ va vb then b else a)

def f32MinMax (less : Bool) (a b : Word) : Word := BitVec.ofNat 32 (minMaxCode fp32 less a.toNat b.toNat)

/-- FABS and FNEG (R133): only the sign bit changes, and a NaN becomes canonical. -/
def f32Sign (clear : Bool) (a : Word) : Word :=
  if (f32Val a).isNan then f32Nan
  else if clear then a &&& 0x7FFFFFFF else a ^^^ 0x80000000

/-- The class mask (Table 5.6). -/
def f32Class (a : Word) : Nat :=
  match f32Val a with
  | .nan => 2 ^ 8
  | .inf s => if s then 2 ^ 0 else 2 ^ 7
  | .fin s m e =>
    if m = 0 then (if s then 2 ^ 3 else 2 ^ 4)
    else if m < 2 ^ 23 ∧ e = -149 then (if s then 2 ^ 2 else 2 ^ 5)
    else (if s then 2 ^ 1 else 2 ^ 6)

/-- FCVT.FI (R135). -/
def f32ToInt (a : Word) (mode : Rnd) : Double × Flags :=
  let (i, f) := encodeInt (-(2 ^ 63)) (2 ^ 63 - 1) (f32Val a) mode false 0
  (BitVec.ofInt 64 i, f)

end Sys2Proof.Machine
end

