-- ==== Sys2Proof/Config.lean ====
section
/-! DEFINITION. What the machine leaves open: free values with no body, which no proof can see, and the
functions of an implementation (signatures, the key generator). Each is named in a log entry. -/

namespace Sys2Proof.Config

/-- The n-th free choice among the enabled turns (log 1). -/
opaque choice : Nat → Nat
/-- The n-th free word: a value the spec leaves unspecified (log 3). -/
opaque freeWord : Nat → Nat
/-- By how many grove cycles the n-th control segment's observed count departs from its expected one: the model holds no timing (R85, log 7). -/
opaque segmentOff : Nat → Nat
/-- The n-th AES-256-XTS key that the module's random generator draws: 512 bits, which no interface reads (R347, log 8). -/
opaque drawnKey : Nat → BitVec 512
/-- Whether an SLH-DSA-SHA2-192s signature verifies under a public key (Table 3.8, log 9). -/
opaque sigVerifies : (key : BitVec 384) → (body : List Byte) → (sig : List Byte) → Bool
/-- The SLH-DSA-SHA2-192s signature of a report under the device key (R369, log 9). -/
opaque deviceSign : List Byte → List Byte
/-- The measurements of the boot ROM, the Forester firmware and the dispatcher firmware (Table 14.6, log 9). -/
opaque romHash : BitVec 256
opaque foresterHash : BitVec 256
opaque dispatcherHash : BitVec 256
/-- The module's 48-byte SLH-DSA-SHA2-192s public key (R368, log 9). -/
opaque devicePublicKey : BitVec 384
/-- The device identifier, 18 bits (R36, log 9). -/
opaque deviceId : BitVec 18
/-- The local channel group of an HBM address within its stack: the spec gives no map (log 23). -/
opaque channelGroup : Nat → Nat
/-- Whether an Ebith port reaches a device: the cabling of the modules (R366, log 85). -/
opaque reaches : (port : Nat) → (dev : Nat) → Bool

end Sys2Proof.Config
end

