-- ==== Sys2Proof/Machine/Bytes.lean ====
section
/-! DEFINITION. Bytes, numbers and fields of numbers (R9, R230). -/

namespace Sys2Proof.Machine

/-- The unsigned value of little-endian bytes (R9). -/
def leNat (bs : List Byte) : Nat := bs.foldr (fun b n => b.toNat + 256 * n) 0

/-- The low `k` bytes of a number, least first (R9). -/
def leBytes : Nat → Nat → List Byte
  | 0, _ => []
  | k + 1, v => BitVec.ofNat 8 v :: leBytes k (v / 256)

/-- A field of a number, bits [hi:lo]. -/
def nbits (v hi lo : Nat) : Nat := v / 2 ^ lo % 2 ^ (hi + 1 - lo)

/-- A number with its field [lo, lo + w) replaced. -/
def putBits (v lo w x : Nat) : Nat := v - nbits v (lo + w - 1) lo * 2 ^ lo + x % 2 ^ w * 2 ^ lo

/-- The signed value of the low `w` bits. -/
def sxt (w v : Nat) : Int := if v % 2 ^ w < 2 ^ (w - 1) then ((v % 2 ^ w : Nat) : Int) else ((v % 2 ^ w : Nat) : Int) - 2 ^ w

/-- Offsets are taken modulo 2^48 (R230). -/
def off48 (i : Int) : Nat := (i % 2 ^ 48).toNat

end Sys2Proof.Machine
end

