-- ==== Sys2Proof/Machine/Crypto.lean ====
section
/-! DEFINITION. The cryptography that the spec names by its standard: AES-256-XTS (IEEE 1619) of one granule (R268) and SHA-256
(R369). The computations are those of the standards (log 8, log 9). -/

namespace Sys2Proof.Machine

def xorBytes (a b : List Byte) : List Byte := List.zipWith (· ^^^ ·) a b

/-! ## AES-256 -/

/-- The substitution box, 16 bytes a row, the first byte highest. -/
def sboxRows : List Nat :=
  [0x637c777bf26b6fc53001672bfed7ab76, 0xca82c97dfa5947f0add4a2af9ca472c0,
   0xb7fd9326363ff7cc34a5e5f171d83115, 0x04c723c31896059a071280e2eb27b275,
   0x09832c1a1b6e5aa0523bd6b329e32f84, 0x53d100ed20fcb15b6acbbe394a4c58cf,
   0xd0efaafb434d338545f9027f503c9fa8, 0x51a3408f929d38f5bcb6da2110fff3d2,
   0xcd0c13ec5f974417c4a77e3d645d1973, 0x60814fdc222a908846eeb814de5e0bdb,
   0xe0323a0a4906245cc2d3ac629195e479, 0xe7c8376d8dd54ea96c56f4ea657aae08,
   0xba78252e1ca6b4c6e8dd741f4bbd8b8a, 0x703eb5664803f60e613557b986c11d9e,
   0xe1f8981169d98e949b1e87e9ce5528df, 0x8ca1890dbfe6426841992d0fb054bb16]

def invSboxRows : List Nat :=
  [0x52096ad53036a538bf40a39e81f3d7fb, 0x7ce339829b2fff87348e4344c4dee9cb,
   0x547b9432a6c2233dee4c950b42fac34e, 0x082ea16628d924b2765ba2496d8bd125,
   0x72f8f66486689816d4a45ccc5d65b692, 0x6c704850fdedb9da5e154657a78d9d84,
   0x90d8ab008cbcd30af7e45805b8b34506, 0xd02c1e8fca3f0f02c1afbd0301138a6b,
   0x3a9111414f67dcea97f2cfcef0b4e673, 0x96ac7422e7ad3585e2f937e81c75df6e,
   0x47f11a711d29c5896fb7620eaa18be1b, 0xfc563e4bc6d279209adbc0fe78cd5af4,
   0x1fdda8338807c731b11210592780ec5f, 0x60517fa919b54a0d2de57a9f93c99cef,
   0xa0e03b4dae2af5b0c8ebbb3c83539961, 0x172b047eba77d626e169146355210c7d]

def boxOf (rows : List Nat) (b : Byte) : Byte := BitVec.ofNat 8 (rows.getD (b.toNat / 16) 0 / 256 ^ (15 - b.toNat % 16))

/-- Twice a byte, modulo the polynomial 0x11B. -/
def gfDouble (b : Byte) : Byte := (b <<< 1) ^^^ (if b.msb then 0x1b else 0)

/-- A byte times a constant below 16. -/
def gfTimes (n : Nat) (b : Byte) : Byte :=
  let d := gfDouble b
  (if n.testBit 0 then b else 0) ^^^ (if n.testBit 1 then d else 0) ^^^ (if n.testBit 2 then gfDouble d else 0) ^^^
    if n.testBit 3 then gfDouble (gfDouble d) else 0

/-- The four columns of a block, or the four words of a round key. -/
def columns (s : List Byte) : List (List Byte) := (List.range 4).map fun c => (s.drop (4 * c)).take 4

/-- Every column times the circulant matrix whose first row is `m`. -/
def mixColumns (m : List Nat) (s : List Byte) : List Byte :=
  (columns s).flatMap fun c => (List.range 4).map fun r => (c.mapIdx fun i b => gfTimes (m.getD ((i + 4 - r) % 4) 0) b).foldl (· ^^^ ·) 0

/-- Row r of the block turned left by r × `n` columns. -/
def shiftRows (n : Nat) (s : List Byte) : List Byte := (List.range 16).map fun i => s.getD (i % 4 + 4 * ((i / 4 + n * (i % 4)) % 4)) 0

/-- The eight words after the eight words `ws` of the key schedule, a word of which is four bytes; `prev` is the word before. -/
def nextKeyWords (rc : Byte) : Nat → List Byte → List (List Byte) → List (List Byte)
  | _, _, [] => []
  | i, prev, w :: ws =>
    let t := if i = 0 then xorBytes ((prev.drop 1 ++ prev.take 1).map (boxOf sboxRows)) [rc, 0, 0, 0]
      else if i = 4 then prev.map (boxOf sboxRows) else prev
    let x := xorBytes w t
    x :: nextKeyWords rc (i + 1) x ws

def keyWords (ws : List (List Byte)) : List Byte → List (List Byte)
  | [] => ws
  | rc :: r => ws ++ keyWords (nextKeyWords rc 0 (ws.getLastD []) ws) r

/-- The fifteen round keys of a 32-byte key. -/
def roundKeys (key : List Byte) : List (List Byte) :=
  let ws := keyWords (columns (key.take 16) ++ columns (key.drop 16)) [0x01, 0x02, 0x04, 0x08, 0x10, 0x20, 0x40]
  (List.range 15).map fun i => ((ws.drop (4 * i)).take 4).flatten

def aesEncrypt (ks : List (List Byte)) (b : List Byte) : List Byte :=
  let sub := fun (s : List Byte) => shiftRows 1 (s.map (boxOf sboxRows))
  let mid := ((ks.drop 1).take 13).foldl (fun s k => xorBytes (mixColumns [2, 3, 1, 1] (sub s)) k) (xorBytes b (ks.getD 0 []))
  xorBytes (sub mid) (ks.getD 14 [])

def aesDecrypt (ks : List (List Byte)) (b : List Byte) : List Byte :=
  let sub := fun (s : List Byte) => (shiftRows 3 s).map (boxOf invSboxRows)
  let mid := ((ks.drop 1).take 13).reverse.foldl (fun s k => mixColumns [14, 11, 13, 9] (xorBytes (sub s) k)) (xorBytes b (ks.getD 14 []))
  xorBytes (sub mid) (ks.getD 0 [])

/-! ## XTS over one granule (R268) -/

/-- The next block's tweak. -/
def nextTweak (t : BitVec 128) : BitVec 128 := (t <<< 1) ^^^ (if t.msb then 0x87 else 0)

/-- `n` blocks, each between its tweak. -/
def xtsBlocks (f : List Byte → List Byte) : Nat → BitVec 128 → List Byte → List Byte
  | 0, _, _ => []
  | n + 1, t, bs =>
    let tb := leBytes 16 t.toNat
    xorBytes (f (xorBytes (bs.take 16) tb)) tb ++ xtsBlocks f n (nextTweak t) (bs.drop 16)

/-- The first tweak of the granule at an address: the address under the key's second half. -/
def firstTweak (key : List Byte) (addr : Nat) : BitVec 128 :=
  BitVec.ofNat 128 (leNat (aesEncrypt (roundKeys (key.drop 32)) (leBytes 16 addr)))

def xtsEncrypt (key : List Byte) (addr : Nat) (bs : List Byte) : List Byte :=
  xtsBlocks (aesEncrypt (roundKeys (key.take 32))) 4 (firstTweak key addr) bs

def xtsDecrypt (key : List Byte) (addr : Nat) (bs : List Byte) : List Byte :=
  xtsBlocks (aesDecrypt (roundKeys (key.take 32))) 4 (firstTweak key addr) bs

/-! ## SHA-256 -/

/-- The round constants, eight words a number, the first word highest. -/
def shaRows : List Nat :=
  [0x428a2f9871374491b5c0fbcfe9b5dba53956c25b59f111f1923f82a4ab1c5ed5,
   0xd807aa9812835b01243185be550c7dc372be5d7480deb1fe9bdc06a7c19bf174,
   0xe49b69c1efbe47860fc19dc6240ca1cc2de92c6f4a7484aa5cb0a9dc76f988da,
   0x983e5152a831c66db00327c8bf597fc7c6e00bf3d5a7914706ca635114292967,
   0x27b70a852e1b21384d2c6dfc53380d13650a7354766a0abb81c2c92e92722c85,
   0xa2bfe8a1a81a664bc24b8b70c76c51a3d192e819d6990624f40e3585106aa070,
   0x19a4c1161e376c082748774c34b0bcb5391c0cb34ed8aa4a5b9cca4f682e6ff3,
   0x748f82ee78a5636f84c878148cc7020890befffaa4506cebbef9a3f7c67178f2]

def shaK (i : Nat) : Word := BitVec.ofNat 32 (shaRows.getD (i / 8) 0 / 2 ^ (32 * (7 - i % 8)))

/-- Big-endian bytes as a number. -/
def beNat (bs : List Byte) : Nat := bs.foldl (fun n b => 256 * n + b.toNat) 0

/-- The words that follow the 16 words of a block, which the list holds latest first. -/
def shaSchedule : Nat → List Word → List Word
  | 0, ws => ws
  | n + 1, ws =>
    let w := fun i => ws.getD i 0
    let s0 := (w 14).rotateRight 7 ^^^ (w 14).rotateRight 18 ^^^ (w 14) >>> 3
    let s1 := (w 1).rotateRight 17 ^^^ (w 1).rotateRight 19 ^^^ (w 1) >>> 10
    shaSchedule n ((w 15 + s0 + w 6 + s1) :: ws)

/-- One round on the eight words a to h. -/
def shaRound (v : List Word) (k w : Word) : List Word :=
  let x := fun i => v.getD i 0
  let s1 := (x 4).rotateRight 6 ^^^ (x 4).rotateRight 11 ^^^ (x 4).rotateRight 25
  let t1 := x 7 + s1 + ((x 4 &&& x 5) ^^^ (~~~(x 4) &&& x 6)) + k + w
  let s0 := (x 0).rotateRight 2 ^^^ (x 0).rotateRight 13 ^^^ (x 0).rotateRight 22
  let t2 := s0 + ((x 0 &&& x 1) ^^^ (x 0 &&& x 2) ^^^ (x 1 &&& x 2))
  [t1 + t2, x 0, x 1, x 2, x 3 + t1, x 4, x 5, x 6]

/-- One block of 64 bytes. -/
def shaBlock (h : List Word) (b : List Byte) : List Word :=
  let ws := (List.range 16).map fun i => BitVec.ofNat 32 (beNat ((b.drop (4 * i)).take 4))
  let v := ((shaSchedule 48 ws.reverse).reverse.mapIdx fun i w => (i, w)).foldl (fun v e => shaRound v (shaK e.1) e.2) h
  List.zipWith (· + ·) h v

/-- `n` blocks. -/
def shaBlocks : Nat → List Word → List Byte → List Word
  | 0, h, _ => h
  | n + 1, h, bs => shaBlocks n (shaBlock h (bs.take 64)) (bs.drop 64)

/-- The digest, whose first byte is the highest. -/
def sha256 (bs : List Byte) : BitVec 256 :=
  let n := bs.length
  let padded := bs ++ 0x80 :: List.replicate ((119 - n % 64) % 64) 0 ++ (leBytes 8 (8 * n)).reverse
  let start := (List.range 8).map fun i => BitVec.ofNat 32 (0x6a09e667bb67ae853c6ef372a54ff53a510e527f9b05688c1f83d9ab5be0cd19 / 2 ^ (32 * (7 - i)))
  BitVec.ofNat 256 ((shaBlocks (padded.length / 64) start padded).foldl (fun a w => a * 2 ^ 32 + w.toNat) 0)

end Sys2Proof.Machine
end

