-- ==== Sys2Proof/Machine/Tab.lean ====
section
/-! DEFINITION. Sparse tables: lists of (key, value) with strictly rising keys. `Tab.set` takes a default and
never lists it, so equal tables are equal lists. -/

namespace Sys2Proof.Machine

abbrev Tab (α : Type) := List (Nat × α)

namespace Tab
variable {α : Type}

def get? (t : Tab α) (k : Nat) : Option α :=
  match t with
  | [] => none
  | (j, v) :: r => if j = k then some v else get? r k

/-- Insert or replace, keeping the keys rising. -/
def put (t : Tab α) (k : Nat) (v : α) : Tab α :=
  match t with
  | [] => [(k, v)]
  | (j, w) :: r => if k < j then (k, v) :: (j, w) :: r else if k = j then (k, v) :: r else (j, w) :: put r k v

def del (t : Tab α) (k : Nat) : Tab α :=
  match t with
  | [] => []
  | (j, w) :: r => if j = k then r else (j, w) :: del r k

/-- The value at a key, or the default of an unlisted key. -/
def getD (d : α) (t : Tab α) (k : Nat) : α := (t.get? k).getD d

/-- Set a key of a table whose unlisted keys read `d`. -/
def set [DecidableEq α] (d : α) (t : Tab α) (k : Nat) (v : α) : Tab α :=
  if v = d then t.del k else t.put k v

/-- Change the value at a key, if it is listed. -/
def upd (t : Tab α) (k : Nat) (f : α → α) : Tab α :=
  match t with
  | [] => []
  | (j, v) :: r => if j = k then (j, f v) :: r else (j, v) :: upd r k f

def has (t : Tab α) (k : Nat) : Bool := (t.get? k).isSome

/-- The least key from `k` on that is not listed; `fuel` bounds the search. -/
def fresh (t : Tab α) : Nat → Nat → Nat
  | 0, k => k
  | n + 1, k => if t.has k then fresh t n (k + 1) else k

/-! Step functions: the value at k is that of the greatest key not above k, `d` below them all. -/

def step (d : α) (t : Tab α) (k : Nat) : α :=
  match t with
  | [] => d
  | (j, v) :: r => if k < j then d else step v r k

/-- Give [lo, hi) the value v, with no entry that repeats the value before it. -/
def stepSet [DecidableEq α] (d : α) (t : Tab α) (lo hi : Nat) (v : α) : Tab α :=
  let before := t.filter fun e => e.1 < lo
  if hi ≤ lo then t
  else before ++ (if step d before lo = v then [] else [(lo, v)]) ++ (if step d t hi = v then [] else [(hi, step d t hi)]) ++
    t.filter fun e => hi < e.1

/-- Keys strictly rise, starting above `lo` (`none`: anywhere). -/
def risingFrom : Option Nat → Tab α → Bool
  | _, [] => true
  | lo, (k, _) :: r => (match lo with | none => true | some l => decide (l < k)) && risingFrom (some k) r

end Tab

/-! Sets of numbers, as lists that strictly rise. -/

abbrev NSet := List Nat

namespace NSet

def ins (l : NSet) (k : Nat) : NSet :=
  match l with
  | [] => [k]
  | j :: r => if k < j then k :: j :: r else if k = j then j :: r else j :: ins r k

def del (l : NSet) (k : Nat) : NSet :=
  match l with
  | [] => []
  | j :: r => if j = k then r else j :: del r k

def has (l : NSet) (k : Nat) : Bool := l.elem k

/-- The numbers strictly rise, starting above `lo` (`none`: anywhere). -/
def risingFrom : Option Nat → NSet → Bool
  | _, [] => true
  | lo, k :: r => (match lo with | none => true | some l => decide (l < k)) && risingFrom (some k) r

end NSet
end Sys2Proof.Machine
end

