-- ==== Sys2Proof/Machine/State.lean ====
section
/-! DEFINITION. The state of the module as plain data: everything the spec gives the machine, listed with
its rule and reset value in INVENTORY.md. Keys: a unit on a bank stands at 2h + bank, a
unit switched out at a pre-emption point (R338) at 256 more or a multiple of it; a row stands at 192h + r, a
hearth's part at h, a grove's at g. -/

namespace Sys2Proof.Machine

/-! ## Stops -/

/-- Why a step stops with a fault. -/
inductive Fault where
  /-- A word of a stream is executed while no unit stands at `cur`: no event of the spec. Raised by the
  control-word and engine-word skeletons (Machine/Ops.lean). Safe: no claim holds of such a state. -/
  | noIssuer
  deriving DecidableEq, Repr

/-- Why a step is refused. -/
inductive Refusal where
  /-- An arm of exec that has no meaning yet. Raised by Dispatch alone. Safe. -/
  | notModelled (mnemonic : String)
  deriving DecidableEq, Repr

/-! ## Registers of a unit -/

/-- A capability with its tag (R256, Table 10.1). -/
structure Cap where
  tag : Bool
  v : BitVec 128
  deriving DecidableEq, Repr

/-- A branch-target register (R282). -/
structure BTarget where
  valid : Bool
  target : Nat
  pr : PReg
  sn : Bool
  deriving DecidableEq, Repr

/-- A hardware loop level with the report of its last run ($lc, R286, Table 11.4). -/
structure LoopLevel where
  active : Bool
  start : Nat
  count : Nat
  iter : Nat
  deriving DecidableEq, Repr

/-- The registers a checkpoint keeps (Table 15.6, first rows). `pc` is the control stream's position. -/
structure Regs where
  s : Vector Double 32
  p : Vector Bool 8
  vp : Vector (BitVec 256) 8
  b : Vector BTarget 8
  ret : List Nat
  loops : Vector LoopLevel 3
  c : Vector Cap 16
  pc : Nat
  /-- $seq.MODE: true is plain mode -/
  plain : Bool
  flags : Double
  lfsrv : Word
  lfsrd : Word
  bfsel : Nat
  tvec : Double
  tres : Double
  deriving DecidableEq, Repr

/-- One value per stream. -/
structure Six (α : Type) where
  vl : α
  va : α
  vs : α
  m : α
  d : α
  c : α
  deriving DecidableEq, Repr

/-- A token counter and the streams whose GETs wait on it, in issue order (R294). -/
structure Tok where
  count : Nat
  order : List Stream
  deriving DecidableEq, Repr

/-- A tile register with its region's capability (R295, Table 11.4). -/
structure Tile where
  f : Bool
  reads : Nat
  remain : Nat
  reg : Bool
  cap : Cap
  deriving DecidableEq, Repr

/-- One dimension of one side of the D descriptor; no stride is dense (R247). -/
structure Dim where
  extent : Nat
  stride : Option Word
  deriving DecidableEq, Repr

/-- The rest of what a checkpoint keeps: timelines, tokens, tiles, configuration sets, D descriptor
(Table 15.6). Sets list only registers that differ from their reset value. -/
structure Coupling where
  issued : Six Nat
  tok : Vector Tok 16
  tile : Vector Tile 16
  cfg : Six (Tab Word)
  mcfg : Vector (Tab Word) 4
  mactive : Vector (Tab Word) 4
  dims : Tab Dim
  deriving DecidableEq, Repr

/-- An entry of a phase's fill record (R388): the copy with its addresses as resolved at issue, the objects by ROLE (R383). -/
structure CopyDesc where
  src : Cap
  dst : Cap
  srcOid : Nat
  dstOid : Nat
  srcA : Nat
  dstA : Nat
  srcDims : List Dim
  dstDims : List Dim
  nd : Nat
  sf : Nat
  df : Nat
  mask : BitVec 16
  red : Option (Nat × Word)
  bind : Option Nat
  stamp : Option (Cap × Nat)
  cvt : Option (BitVec 3 × Bool)
  lfsr : Word
  deriving DecidableEq, Repr

/-- A checkpoint (R382). -/
structure Ckpt where
  regs : Regs
  cpl : Coupling
  deriving DecidableEq, Repr

/-! ## Sequencers and operations in flight -/

/-- A dispatch record (R290): start and length of the strand, its loop counts (level 0 first), the
pushed value and the capability registers as the DISP found them (R242). -/
structure DispRec where
  start : Nat
  len : Nat
  counts : List Nat
  push : Double
  caps : Vector Cap 16
  deriving DecidableEq, Repr

/-- A running strand: its record, the words fetched into the strand store with their kinds, the offset
of the next unissued word, the pass, generator uses in this level-0 iteration, the configuration it
runs with, and whether its segment is still compared (R85, R291, R242, R148). -/
structure Strand where
  rcd : DispRec
  store : List (Word × BitVec 2)
  off : Nat
  pass : Nat
  uses : Vector Nat 8
  cfg : Tab Word
  seg : Bool
  deriving DecidableEq, Repr

/-- The sequencer of an engine stream: dispatch queue and running strand. `ending` says that the last
word of the last pass has issued and the strand's end has not been processed. -/
structure Seqr where
  queue : List DispRec
  run : Option Strand
  ending : Bool
  deriving DecidableEq, Repr

/-- One element that a vector load reads: its lane, its bit offset in the object, its width, and whether it is
sign-extended (R115). -/
structure Elem where
  lane : Nat
  bit : Nat
  w : Nat
  sx : Bool
  deriving DecidableEq, Repr

/-- Bits to write: at a bit offset in the object, or at a partition offset (a B48 scale byte). -/
structure BitWrite where
  inPart : Bool
  bit : Nat
  w : Nat
  v : Nat
  deriving DecidableEq, Repr

/-- A VL in flight (R243): what it reads and in which format code, the row and lanes it writes, and the row
once read. -/
structure VlOp where
  cap : Cap
  code : Nat
  els : List Elem
  row : Nat
  ety : Nat
  mask : BitVec 256
  value : Option Row
  deriving DecidableEq, Repr

/-- A VA result waiting for its write-back (R154): rows with the lanes to write, and predicates. -/
structure VaOp where
  rows : List (Nat × Row × BitVec 256 × Nat)
  preds : List (Nat × BitVec 256)
  deriving DecidableEq, Repr

/-- A VS store in flight (R245). -/
structure VsOp where
  cap : Cap
  writes : List BitWrite
  deriving DecidableEq, Repr

/-- An engine command (Table 2.20) with its operands as they are meant: `n` is the count of rows, blocks or
selections, `fmt` a format code. -/
inductive MCmd where
  | mlb (tb : Nat)
  | mza (acc n : Nat)
  | mla (acc ta n : Nat)
  | mmul (acc ta n : Nat)
  | mmac (acc ta n : Nat)
  | mprom (i : Nat)
  | mpert (row col : Nat) (v : Word)
  | wld (tb : Nat)
  | wmul (acc ta n : Nat)
  | wmac (acc ta n : Nat)
  | svscore (ta tb n : Nat)
  | svtopk (tb n : Nat)
  | svgath (ta tb : Nat)
  | ktexp (acc ta n : Nat)
  | ktsmax (acc ta n : Nat)
  | gtqnt (ta tb fmt : Nat)
  | gtsum (ta tb n : Nat)
  | spred (ta tb op : Nat)
  | spbc (ta n : Nat)
  deriving DecidableEq, Repr

/-- An engine command in flight (R178): its slot and engine, the capability that SVGATH reads through, the rows read
when it started (R180), and the next byte of SVGATH or SPBC, or 1 for an MMAC suspended in a run that held unpromoted
windows (R318). -/
structure MOp where
  cmd : MCmd
  slot : Nat
  eng : EngineId
  cap : Cap
  rows : List Row
  next : Nat
  deriving DecidableEq, Repr

/-- A copy in flight (R248, R249): its descriptor, the tick it waits for, whether it has started, its next
element, the B48 block being written with its codes, scale and poison mark, the generator of a re-issued fill,
and whether the fill record holds it or a rollback re-issued it. -/
structure DOp where
  desc : CopyDesc
  startAt : Option Int
  started : Bool
  next : Nat
  block : Option (Nat × List Nat × Nat × Option (FaultUnit × Bool))
  lfsr : Option Word
  fill : Bool
  refill : Bool
  deriving DecidableEq, Repr

/-- What an operation in flight does. -/
inductive OpBody where
  | vl (o : VlOp)
  | va (o : VaOp)
  | vs (o : VsOp)
  | m (o : MOp)
  | d (o : DOp)
  deriving DecidableEq, Repr

/-- Poison consumed: its level (KIND of cause 0x31), the unit that marked it, and whether it was injected. -/
structure Poison where
  lvl : Nat
  fu : FaultUnit
  inj : Bool
  deriving DecidableEq, Repr

/-- An operation that has issued and not completed: stream, timeline number, word index, flags so far, the tiles it
reads and those it writes (R296), the poison it consumed with the unit that marked it (R389), and whether it is
held at a fault until the answer (R221, R228). -/
structure Op where
  str : Stream
  num : Nat
  word : Nat
  flags : Flags
  readsT : List Nat
  writesT : List Nat
  poison : Option Poison
  held : Bool
  body : OpBody
  deriving DecidableEq, Repr

/-- A parked store (R220): stream, capability, page, bytes by bit writes, and a tag to store for STC. -/
structure Parked where
  str : Stream
  num : Nat
  cap : Cap
  page : Nat
  pc : Nat
  writes : List BitWrite
  stc : Option Bool
  deriving DecidableEq, Repr

/-- One-shot set-up of the next DGO (R68). -/
structure DSetup where
  mask : Option (BitVec 16)
  red : Option (Nat × Word)
  bind : Option (Nat × Nat)
  stamp : Option (Cap × Nat)
  fill : Bool
  cvt : Option (BitVec 3 × Bool)
  at_ : Option Int
  deriving DecidableEq, Repr

/-- The producer of a stream register (R297): VS, with whether the strand that pushed last has ended, or D. -/
inductive Producer where
  | vs (ended : Bool)
  | d
  deriving DecidableEq, Repr

/-- A stream register: arrived entries, the part of an entry still arriving, and its producer. -/
structure SqReg where
  entries : List Row
  part : List Byte
  producer : Option Producer
  deriving DecidableEq, Repr

/-- Why a stream waits (R85, R299). -/
inductive WaitKind where
  | token | tile | streamReg | issueTick | mwait
  | memory | timeline | strands | engine | replay | queueFull | drain | control | answer
  deriving DecidableEq, Repr

/-- A REMAP between its ordered events: the last that it has performed, the address of the page's PTE, and the old frame with its key
index (R278). -/
structure Remap where
  step : Nat
  pte : Nat
  old : Nat
  key : Nat
  /-- The page shift, and for an object of level 3 its device. -/
  sh : Nat
  dev : Option Nat
  /-- A and D as they stood after step 2. -/
  ad : Nat
  deriving DecidableEq, Repr

/-- A cause as it is raised (R370, R371): code, stream, KIND, and what the frame and the fault record
report. `resume` is where a software or control cause resumes; `inj` marks an injected report (R391). -/
structure Cause where
  code : Nat
  str : Stream
  kind : Nat
  word : Nat
  wkind : Nat
  tcode : Nat
  off : Nat
  oid : Nat
  wr : Bool
  rem : Bool
  num : Nat
  resume : Nat
  refill : Bool
  inj : Bool
  deriving DecidableEq, Repr

/-- The trap frame (Table 15.3), whole registers. -/
structure Frame where
  tcause : Double
  tword : Double
  taddr : Double
  tobj : Double
  tnum : Double
  tmode : Double
  tpc : List Double
  tfid : Double
  deriving DecidableEq, Repr

/-- The answer to a served fault (R378, R379). -/
inductive Answer where
  | resume | terminate | deliver
  deriving DecidableEq, Repr

/-- A served fault that a bank waits on (R376): its id, whether its record has been posted, and its answer. -/
structure Served where
  cause : Cause
  fid : Nat
  posted : Bool
  answer : Option Answer
  deriving DecidableEq, Repr

/-- A rollback under way (R386): the cause and the fills still to re-issue. -/
structure Roll where
  cause : Cause
  refills : List CopyDesc
  running : Bool
  deriving DecidableEq, Repr

/-- The running segment of the control stream (R85, R86). -/
structure CSeg where
  entry : Nat
  crc : Word
  deriving DecidableEq, Repr

/-- A loop body in the loop buffer: its level, start and words with their kinds (R288). -/
structure LoopBody where
  level : Nat
  start : Nat
  words : List (Word × BitVec 2)
  deriving DecidableEq, Repr

/-- A capture in progress: level, start and the words issued so far, by word index (R288). -/
structure Capture where
  level : Nat
  start : Nat
  words : Tab (Word × BitVec 2)
  deriving DecidableEq, Repr

/-- What a lease slot (or the Ladle) holds (R314, R321 to R323). `start` is S of R65. An open lease ends at
slot `ends`, and has the effective priority and order of its grant (R322). `load` is the tile region of the slot's last
MLB or WLD (R318). -/
structure LeaseSlot where
  eng : EngineId
  handle : BitVec 32
  step : Nat
  isOpen : Bool
  evicted : Bool
  start : Nat
  ends : Nat
  prio : Nat
  order : Nat
  load : Option Cap
  deriving DecidableEq, Repr

/-- The M status of a slot (Table 7.2). -/
structure MStat where
  accovf : Bool
  ovfm : Nat
  chkf : Bool
  pdisc : Bool
  deriving DecidableEq, Repr

/-- A unit on a context bank. `prio` and `since` are its priority and the tick of its placement. `retained` says of each lease slot that its last lease ended in retention
(R323); `puts` holds the engine streams' TOK.PUTs that wait for earlier operations: stream, last number, counter
and count (R218); `words` counts the control words that have issued;
`owed` lists causes that a fault answer delivers to the handler, with their fault ids (R379). -/
structure Unit where
  lid : Nat
  slot : Nat
  index : Nat
  ctx : Nat
  copy : Nat
  ticket : Option Nat
  prio : Nat
  since : Nat
  code : Nat
  r : Regs
  cpl : Coupling
  bksel : Nat
  hsel : Nat
  psplit : Nat
  tnctx : Nat
  mstat : Vector MStat 4
  seqr : Six Seqr
  latches : List Row
  opbuf : List (Src × Nat)
  groupSwitch : Bool
  matAt : Option (BitVec 18)
  /-- The REMAP in progress (R278). -/
  remap : Option Remap
  /-- The closes by ended M strands still to come: the number of a strand's last engine command, and the lease slots whose runs it
  closes (R189). -/
  closing : List (Nat × List Nat)
  setup : DSetup
  ops : List Op
  puts : List (Stream × Nat × Nat × Nat)
  replay : List Parked
  pos : Six Nat
  sq : Vector SqReg 8
  leases : Vector (Option LeaseSlot) 4
  retained : BitVec 4
  ladle : Option LeaseSlot
  bkslip : Double
  written : BitVec 192
  role : Bool
  count : Nat
  sealed : Bool
  retry : Nat
  ckpt : Ckpt
  fills : List CopyDesc
  building : List CopyDesc
  inh : Bool
  frame : Frame
  cause : Option Cause
  cause2 : Option Cause
  served : Option Served
  owed : List (Cause × Nat)
  roll : Option Roll
  killed : Option Cause
  cancelled : Bool
  halting : Bool
  sig : Double
  waits : Six (Option WaitKind)
  progress : Nat
  cseg : Option CSeg
  body : Option LoopBody
  capts : List Capture
  words : Nat
  deriving DecidableEq, Repr

/-! ## Memory and translation -/

/-- What an 8-byte word held before a unit stored over it, which walkers may still read (R272): the unit, and the hearths whose walkers may. -/
structure OldWord where
  addr : Nat
  val : Nat
  who : Nat × Nat × Nat
  hearths : BitVec 128
  deriving DecidableEq, Repr

/-- A cached translation (R270): its page, frame, page shift, KEY and PLAIN, level, device, object size,
where its PTE stands, and whether it has set A and D. -/
structure TlbEntry where
  ctx : Nat
  oid : Nat
  page : Nat
  fa : Nat
  sh : Nat
  key : Nat
  lvl : Nat
  dev : Nat
  size : Nat
  pte : Nat
  a : Bool
  d : Bool
  deriving DecidableEq, Repr

/-- A Pantry partition (R350): launch identifier, context, grove, banks, and the bank format registers that are not
0. -/
structure Partition where
  lid : Nat
  ctx : Nat
  grove : Nat
  banks : List Nat
  bfr : Tab Double
  deriving DecidableEq, Repr

/-- A binding other than an object's own (R213): context, object, granule, sync object. -/
structure Binding where
  ctx : Nat
  oid : Nat
  gran : Nat
  sync : Nat
  deriving DecidableEq, Repr

/-- An applied-sequence watermark of a target (R223, R251). -/
structure WMark where
  target : Nat
  dev : Nat
  ctx : Nat
  id : Word
  seq : Nat
  doneAt : Option Nat
  deriving DecidableEq, Repr

/-! ## Contexts and code -/

/-- A code area of a context: its object, where its words stand in memory, how many are used, and where the word-kind map of its words
stands in memory (R81, R87, R226). -/
structure Area where
  oid : Nat
  base : Nat
  used : Nat
  map : Nat
  deriving DecidableEq, Repr

/-- A context record with its key, grant, code areas and latest slip (R347, R348, R353, Table 12.9). `bb` is the byte
budget in force in the present budget interval (R33). A quiescing record names the queue pair whose DESTROY_CTX waits. -/
structure CtxRec where
  quiescing : Option Nat
  body : CtxBody
  key : Nat
  grant : GrantBody
  bb : Nat
  areas : Six Area
  deriving DecidableEq, Repr

/-- An installed code object (R78 to R90). -/
structure Code where
  ctx : Nat
  bases : Six Nat
  counts : Six Nat
  consts : List Word
  buffers : List (BufferEntry × Nat)
  segments : List SegmentEntry
  relocs : List RelocEntry
  template : Option (Nat × Nat)
  entry : Nat
  slip : Nat
  priv : Bool
  syncOid : Nat
  sync : Nat
  pneed : Nat
  digest : BitVec 256
  order : Nat
  deriving DecidableEq, Repr

/-- A queue pair (R359): its binding, port and MTU. -/
structure QPair where
  bound : Option Nat
  port : Bool
  mtu : Nat
  deriving DecidableEq, Repr

/-- A data window (R360). -/
structure WindowRec where
  ctx : Nat
  oid : Nat
  lo : Nat
  hi : Nat
  rights : BitVec 8
  deriving DecidableEq, Repr

/-- An entry of the table of remote accesses allowed in (R367). -/
structure ExportRec where
  ctx : Nat
  dev : Nat
  rctx : Nat
  lo : Nat
  hi : Nat
  rights : BitVec 8
  deriving DecidableEq, Repr

/-- An entry that GRANT_CAP made: its owner's object, and the most rights the recipient's capabilities to it carry (R357). -/
structure GrantRec where
  owner : Nat
  oid : Nat
  recipient : Nat
  roid : Nat
  rights : BitVec 8
  deriving DecidableEq, Repr

/-- Memory that the control plane gave to an object, or to a context's sync object (R364). -/
structure Alloc where
  size : Nat
  ctx : Nat
  oid : Nat
  deriving DecidableEq, Repr

/-- What the module sends to a host queue pair: an answer (Table 14.3), read data, an acknowledgement, or
a NAK for an invalid request or a remote access error (R359, R360). -/
inductive Reply where
  | answer (qp : Nat) (cmd status : Nat) (tag : Half) (ctx : Nat) (result : List Double)
  | bytes (qp : Nat) (data : List Byte)
  | ack (qp : Nat)
  | nakInvalid (qp : Nat)
  | nakAccess (qp : Nat)
  deriving DecidableEq, Repr

/-- What the module sends over Ebith: the reads, granule writes, reduce elements and stamps of its own copies, each through a port and
each stamp with its own sequence number (R224), hold requests and commits, the suspect notice, and replies to what it received. -/
inductive Sent where
  | read (dev port ctx addr len : Nat)
  | write (dev port ctx addr : Nat) (data : List (Nat × Byte)) (poisoned : Bool)
  | reduce (dev port ctx : Nat) (el : ReduceElement)
  | stamp (dev port ctx addr linkSeq : Nat) (v : Double)
  | hold (dev : Nat) (req : HoldReq)
  | commit (dev : Nat) (handle : BitVec 32) (ok : Bool)
  | suspect (dev grove lastPass failTick : Nat)
  | accessDone (dev : Nat) (data : List Byte) (poisoned : Bool)
  | reduceDone (dev ctx : Nat) (id : Word) (seq : Nat) (fl : Flags)
  | accessRefused (dev : Nat)
  | holdReply (dev : Nat) (index : Option Nat) (handle : BitVec 32)
  | retry (port seq : Nat)
  deriving DecidableEq, Repr

/-! ## Launches and tickets -/

/-- An accepted packet in a queue: launch identifier, packet, hand-over set, acceptance tick, and the queue
index it stands at (R331 to R333). -/
structure QEntry where
  lid : Nat
  pkt : List Double
  hov : List Nat
  tick : Nat
  deriving DecidableEq, Repr

/-- A virtual launch queue (R332, R333). `entries` are its packets from HEAD on; while the queue is not
resident the packets themselves are read from the ring. -/
structure Queue where
  ctx : Nat
  depth : Nat
  oid : Nat
  off : Nat
  resident : Bool
  head : Nat
  entries : List QEntry
  deriving DecidableEq, Repr

/-- STATE of a launch line (R399). -/
inductive JState where
  | free | taking | placing | allPlaced
  deriving DecidableEq, Repr

/-- A halted copy of a run-twice unit: unit index, copy, hearth and signature (R340). -/
structure CopySig where
  index : Nat
  copy : Nat
  hearth : Nat
  sig : Double
  deriving DecidableEq, Repr

/-- A launch slot with its journal line and completion counts (R329, R339, R398, R399). -/
structure Launch where
  lid : Nat
  ctx : Nat
  pkt : List Double
  hov : List Nat
  tick : Nat
  queue : Nat
  headIdx : Nat
  jstate : JState
  next : Nat
  placed : Nat
  retired : Nat
  ticketsOpen : Nat
  allPlaced : Bool
  failed : Bool
  cancelled : Bool
  sigs : List CopySig
  groves : BitVec 16
  deriving DecidableEq, Repr

/-- A graph, phase or job identifier: owner, the identifier above it, completion counter (R27, R331). -/
structure Ident where
  owner : Nat
  parent : Nat
  counter : Double
  deriving DecidableEq, Repr

/-- A ticket on the Rail (R341 to R344): launch slot, poster's unit index, entry, priority, parameters,
grove, sync objects to acquire, posting tick, and the grove it belongs to. -/
structure Ticket where
  slot : Nat
  index : Nat
  entry : Nat
  prio : Nat
  xs : List Double
  home : Nat
  syncs : List Nat
  tick : Nat
  deriving DecidableEq, Repr

/-! ## Bookings, leases and engines -/

/-- State of a booked step ($bkinfo.STATE). -/
inductive StepState where
  | held | committed | frozen | running | late | suspended | ended | cancelled
  deriving DecidableEq, Repr

/-- The remainder of a suspended step (R318): first reload slot, reload slots, START and slots. -/
structure Remainder where
  pfx : Nat
  reload : Nat
  start : Nat
  dur : Nat
  deriving DecidableEq, Repr

/-- A step of a chain: its descriptor fields (Table 12.3), its placement, its state, extension slots, the
slot it ended in, its remainder, intrusion counts of causes 1 to 6, and the lease bound to it. -/
structure BStep where
  cls : Nat
  mov : Bool
  ret : Bool
  rem : Bool
  lanes : Nat
  cmask : Nat
  dur : Nat
  marg : Nat
  gap : Nat
  lag : Option Nat
  rld : Nat
  dev : Nat
  ridx : Nat
  /-- The lanes of a class-7 step, slot by slot from START. -/
  laneMasks : List Nat
  pfx : Nat
  start : Nat
  st : StepState
  ext : List Nat
  endSlot : Option Nat
  rmd : Option Remainder
  wasSusp : Bool
  intr : List Nat
  lease : Option (Nat × Nat)
  heldAt : Nat
  handleRem : BitVec 32
  deriving DecidableEq, Repr

/-- A chain of a booking table (R303, R305). `g` is the grove of the hearth that booked it, `who` the
launch, unit and copy. -/
structure Chain where
  handle : BitVec 32
  ctx : Nat
  g : Nat
  who : Nat × Nat × Nat
  orph : Bool
  pers : Bool
  prio : Nat
  lead : Nat
  dep : Option (BitVec 32 × Nat)
  /-- The slot in which the step depended on ended, once its entry is freed. -/
  depEnd : Option Nat
  dgap : Nat
  age : Nat
  test : Bool
  remote : Option Nat
  steps : List BStep
  deriving DecidableEq, Repr

/-- An open-lease request: queued, or granted with its engine and the STATE it reports (R321, R323). -/
structure OpenReq where
  g : Nat
  cls : Nat
  key : Nat
  ls : Nat
  prio : Nat
  emask : Nat
  maxd : Nat
  tick : Nat
  order : Nat
  granted : Option (EngineId × Nat)
  deriving DecidableEq, Repr

/-- Power state of a pool engine (R23); `waking` ends at a tick, `keep` says that its state survives. -/
inductive Power where
  | off
  | retention
  | waking (until_ : Nat) (keep : Bool)
  | awake
  deriving DecidableEq, Repr

/-- A B tile held by a Griddle: codes, scales and formats of its 49,152 elements (R187). `fmts` holds the format of each element where its
banks differ in it (R118); with none, `fmt` is that of all. -/
structure BTile where
  fmt : Nat
  fmts : List Nat
  b48 : Bool
  elems : List Nat
  scales : List Nat
  deriving DecidableEq, Repr

/-- The window of an element (R188): its alignment exponent, its sum, and the special value as FP32 bits. -/
structure Win where
  x : Option Int
  w : Int
  special : Option Nat
  deriving DecidableEq, Repr

/-- An open run of a Griddle (R180, R188, R189): its rows, whether it is of the integer family, the blocks since
the last promotion, the values it holds for its rows, and the windows that hold anything, at 128 × row + column. -/
structure Run where
  acc : Nat
  rows : Nat
  int : Bool
  blocks : Nat
  vals : List Row
  wins : Tab Win
  deriving DecidableEq, Repr

/-- The internal state of an engine (Table 7.7). `interval` is I − 1. -/
structure EngMem where
  bAct : Option BTile
  bPend : Option BTile
  wAct : Option (List Nat)
  wPend : Option (List Nat)
  interval : Nat
  run : Option Run
  pert : Option (Nat × Nat × Word)
  scores : List Nat
  resid : Tab Nat
  deriving DecidableEq, Repr

/-- A pool engine: power state, whether zeroised, the context it served last, the lease it serves, the lease slot
whose state it retains, and its internal state (R23, R308, R321, R323). -/
structure Engine where
  power : Power
  zero : Bool
  ctx : Option Nat
  key : Option (Nat × Nat)
  retains : Option (Nat × Nat)
  /-- It wakes from retention: its parity scan comes when it is awake (R324). -/
  scan : Bool
  mem : EngMem
  deriving DecidableEq, Repr

/-! ## Groves, Forester and management -/

/-- A grove: frequency in 25 MHz units, holds of the Forester, byte-budget use, grove retention, suspect
history and launch log (R325, R326, R395, R397). -/
structure Grove where
  freq : Nat
  lowered : Nat
  safe : Bool
  hot : Bool
  calmSince : Option Nat
  coolSince : Option Nat
  used : Nat
  retention : Bool
  retired : Bool
  log : List Nat
  logOvf : Bool
  logFrozen : Bool
  dests : List Nat
  lastPass : Nat
  window : Option Nat
  wantTest : Bool
  deriving DecidableEq, Repr

/-- A sensor of a grove (R395, Table 18.2): raw reading, value in use, suspect, permanently suspect, passes
in a row, and the readings and neighbour medians of the last 1,024 samples, newest first. -/
structure Sensor where
  raw : Int
  val : Int
  susp : Bool
  perm : Bool
  passes : Nat
  hist : List (Int × Option Int)
  deriving DecidableEq, Repr

/-- Wear of a grove (R394): degradation, stress, end of life, and earlier readings with their ticks. -/
structure Wear where
  d : Nat
  e : Nat
  eol : Nat
  hist : List (Nat × Nat × Nat)
  deriving DecidableEq, Repr

/-- An event record before it is posted: TYPE, SRC, INJ, MORE and the payload (Table 18.4). -/
structure MailRec where
  ty : Nat
  src : Nat
  inj : Bool
  more : Bool
  p0 : Nat
  p1 : Nat
  deriving DecidableEq, Repr

/-- The event mailbox (R408): counts, the mark of a dropped record, and the records by slot. Beside them the groups that
became ready in tick `tick`, by ascending SRC, and the counts and the mark before the first of them (`before`). -/
structure Mailbox where
  prod : Nat
  cons : Nat
  lost : Nat
  ovf : Bool
  recs : Tab (List Double)
  tick : Nat
  before : Nat × Nat × Bool
  ready : List (List MailRec)
  deriving DecidableEq, Repr

/-- Management registers written from outside (Table 18.2) and the latched calendar entry. -/
structure Mgmt where
  gsel : Nat
  tper : Nat
  ptpctl : Bool
  calsel : Nat
  cald : BitVec 88
  lopsel : Nat
  slogsel : Nat
  deriving DecidableEq, Repr

/-- An Ebith port (R366): down, next link sequence, failed replays in a row. -/
structure Port where
  down : Bool
  seq : Nat
  fails : Nat
  deriving DecidableEq, Repr

/-- Served faults and their ring (R376, R377): $fring, records posted, answers, the unanswered fault ids
with their banks, the next id. -/
structure FaultRing where
  fring : Double
  prod : Nat
  ans : Nat
  open_ : List (Nat × Nat)
  nextFid : Nat
  deriving DecidableEq, Repr

/-- The dispatcher (R398 to R400): standby in charge, holding, held halt events (slot, signature, ticket unit),
serve line. -/
structure Disp where
  standby : Bool
  holding : Bool
  held : List (Nat × CopySig × Bool)
  serve : Option Nat
  deriving DecidableEq, Repr

/-- A turn of an agent: a stream's word, a row of the table's events, an error report that the Forester
takes (unit, whether uncorrectable, whether injected, level), or one tick of the time base. -/
inductive Turn where
  | issue (h : BitVec 7) (bank : Bool) (str : Stream)
  | event (i : Instr)
  | report (fu : FaultUnit) (unc inj : Bool) (lvl : Nat)
  | tick
  deriving DecidableEq, Repr

/-- The module. -/
structure State where
  -- the model's own
  agenda : List Turn
  cur : Nat × Stream
  free : Nat
  waiting : List (Instr × Nat)
  part : Option Nat
  allocs : Tab Alloc
  nextKey : Nat
  nextOrder : Nat
  -- time and memory
  time : Nat
  mem : Tab Byte
  tags : NSet
  gkeys : Tab Nat
  poison : Tab (FaultUnit × Bool)
  rowPoison : Tab (FaultUnit × Bool)
  syncs : NSet
  binds : List Binding
  parks : Tab (List Nat)
  watermarks : List WMark
  tlb1 : Tab (List TlbEntry)
  tlb2 : Tab (List TlbEntry)
  objCache : List (Nat × Nat × List Double)
  /-- What walkers may still read in place of stored words, in the order of the stores (R272). -/
  older : List OldWord
  /-- The granules outside the Pantry that the turn under way has accessed, latest first; none between turns (R215, log 88). -/
  touched : List Nat
  rows : Tab Row
  partitions : Tab Partition
  -- contexts, code and the host
  ctxs : Tab CtxRec
  codes : Tab Code
  qpairs : Tab QPair
  windows : Tab WindowRec
  remoteIn : List ExportRec
  grants : List GrantRec
  replies : List Reply
  sent : List Sent
  -- launches and tickets
  queues : Tab Queue
  /-- The queues whose bit of the pending-kick bitmap is set, each with the tick of its setting (R334). -/
  kicks : Tab Nat
  launches : Tab Launch
  nextLid : Nat
  graphs : Tab Ident
  phases : Tab Ident
  jobs : Tab Ident
  tickets : Tab Ticket
  ready : Tab (List Nat)
  nextTicket : Nat
  -- hearths
  units : Tab Unit
  running : Tab Bool
  lastCtx : Tab Nat
  -- bookings and engines
  books : Tab Chain
  /-- Chains whose entries are freed and whose steps ended in the current slot: their slots return at its end (R319). -/
  closing : List Chain
  gens : Tab Nat
  openReqs : List OpenReq
  engines : Tab Engine
  groves : Tab Grove
  -- faults and management
  ring : FaultRing
  injarm : Nat
  arms : Tab Nat
  fuEvents : Tab (List Nat)
  retired : List Nat
  /-- The fault units that the address map has left out since the last module reset (R392). -/
  leftOut : List Nat
  life : Tab Nat
  lifeFlash : Tab Nat
  /-- Ticks of the part's life before the last module reset, kept in flash (R394). -/
  lifeTicks : Nat
  mailbox : Mailbox
  mgmt : Mgmt
  sensors : Tab Sensor
  wear : Tab Wear
  /-- The log of replaced readings, latest first: tick, sensor, replacement (R395). -/
  sensorLog : List (Nat × Nat × Int)
  testNext : Nat
  ptpoff : Double
  ptpstat : Double
  disp : Disp
  ports : Tab Port
  flagsIn : List (Nat × Nat × Word × Nat)
  /-- The cycle in which a Clearing bank, a booking unit or a token counter last served a request, and the highest place in its order served then
  (R16, R215, R294, R302). -/
  lastServed : Tab (Nat × Nat)
  misaligned : Bool
  lowSupply : Bool
  trip : Bool
  deriving DecidableEq, Repr

/-- No capability (R259). -/
def Cap.none : Cap := ⟨false, 0⟩

/-- The machine right after module reset: time 0, nothing placed, memory with nothing listed, and the
management registers at the resets of Table 18.2. Values the spec does not give are named in the log
entries 1 to 5, 17 and 18. -/
def State.reset : State :=
  { agenda := [], cur := (0, .c), free := 0, waiting := [], part := none, allocs := [],
    nextKey := 1, nextOrder := 0, time := 0, mem := [], tags := [], gkeys := [], poison := [], rowPoison := [],
    syncs := [], binds := [], parks := [], watermarks := [], tlb1 := [], tlb2 := [], objCache := [], older := [], touched := [], rows := [],
    partitions := [], ctxs := [], codes := [], qpairs := [], windows := [], remoteIn := [], grants := [], replies := [],
    sent := [], queues := [], kicks := [], launches := [], nextLid := 1, graphs := [], phases := [], jobs := [],
    tickets := [], ready := [], nextTicket := 1, units := [], running := [], lastCtx := [],
    books := [], closing := [], gens := [], openReqs := [], engines := [], groves := [],
    ring := { fring := 0, prod := 0, ans := 0, open_ := [], nextFid := 1 }, injarm := 0, arms := [],
    fuEvents := [], retired := [], leftOut := [], life := [], lifeFlash := [], lifeTicks := 0,
    mailbox := { prod := 0, cons := 0, lost := 0, ovf := false, recs := [], tick := 0, before := (0, 0, false), ready := [] },
    mgmt := { gsel := 0, tper := 35, ptpctl := false, calsel := 0, cald := 0, lopsel := 0, slogsel := 0 },
    sensors := [], wear := [], sensorLog := [], testNext := 0, ptpoff := 0, ptpstat := 0,
    disp := { standby := false, holding := false, held := [], serve := none }, ports := [], flagsIn := [],
    lastServed := [], misaligned := false, lowSupply := false, trip := false }

end Sys2Proof.Machine
end

