-- ==== Sys2Proof/Machine/Mem.lean ====
section
/-! DEFINITION. Memory: bytes, tags, keys and poison of the levels (chapter 08, R264, R268, R389), object
tables, page tables and TLBs (R265 to R273), sync objects and bindings (R212, R213). -/

namespace Sys2Proof.Machine

/-! ## Physical levels (R264) -/

def hbmTop : Nat := 0x9000000000
def clrBase : Nat := 0xF00000000000
def clrTop : Nat := 0xF00010000000
/-- Where partition 0 stands in `mem`; partitions are 2^26 apart. -/
def pantryBase : Nat := 2 ^ 48
def pantryAddr (p x : Nat) : Nat := pantryBase + p * 2 ^ 26 + x

/-- The level of a physical address: 0 HBM, 1 Clearing. -/
def physLvl (a : Nat) : Option Nat :=
  if a < hbmTop then some 0 else if clrBase ≤ a && a < clrTop then some 1 else none

def assigned (a : Nat) : Bool := (physLvl a).isSome

/-- KIND of an uncorrectable error at an address (Table 15.1): 1 Pantry, 2 Clearing, 3 HBM. -/
def poisonLevel (a : Nat) : Nat := if pantryBase ≤ a then 1 else if clrBase ≤ a then 2 else 3

/-! ## Reading -/

def State.byteAt (s : State) (a : Nat) : Byte := Tab.getD 0 s.mem a

def rawRead (s : State) (a n : Nat) : List Byte := (List.range n).map fun i => s.byteAt (a + i)

/-- The key that granule g is stored under: 0 for plain bytes. -/
def keyAt (s : State) (g : Nat) : Nat := Tab.step 0 s.gkeys g

/-- The 64 bytes of a key, of which the first half encrypts the data and the second the tweak (R268, R347). -/
def keyBytes (key : Nat) : List Byte := leBytes 64 (Config.drawnKey key).toNat

/-- A granule read under a key: the stored bytes as that key decrypts them (R268, log 8). -/
def granView (s : State) (g key : Nat) : List Byte :=
  let k0 := keyAt s g
  let raw := rawRead s (64 * g) 64
  if k0 = key then raw
  else
    let stored := if k0 = 0 then raw else xtsEncrypt (keyBytes k0) (64 * g) raw
    if key = 0 then stored else xtsDecrypt (keyBytes key) (64 * g) stored

def viewByte (s : State) (key a : Nat) : Byte :=
  if keyAt s (a / 64) = key then s.byteAt a else (granView s (a / 64) key).getD (a % 64) 0

def viewBytes (s : State) (key a n : Nat) : List Byte := (List.range n).map fun i => viewByte s key (a + i)

/-- A free byte (log 3). -/
def freeByte (i : Nat) : Byte := BitVec.ofNat 8 (Config.freeWord i)

/-- A consuming read: bytes of a poisoned granule are free values (R389). Answers the state with the free
values drawn, the bytes, and the first poison met. -/
def consume (s : State) (key a n : Nat) : State × List Byte × Option Poison :=
  let ps := (List.range n).filterMap fun i =>
    (s.poison.get? ((a + i) / 64)).map fun m => ({ lvl := poisonLevel (a + i), fu := m.1, inj := m.2 } : Poison)
  match ps.head? with
  | none => (s, viewBytes s key a n, none)
  | some p =>
    ({ s with free := s.free + n },
      (List.range n).map fun i =>
        if s.poison.has ((a + i) / 64) then freeByte (s.free + i) else viewByte s key (a + i),
      some p)

/-- A read of 8 plain bytes, as walkers and the control plane make them (R267, R268). -/
def rd8 (s : State) (a : Nat) : Nat := leNat (viewBytes s 0 a 8)

/-! ## Writing -/

/-- The turn accesses granule `g` (R215). -/
def touch (s : State) (g : Nat) : State :=
  if pantryBase ≤ 64 * g || s.touched.head? = some g then s else { s with touched := g :: s.touched }

/-- Set stored bytes of one granule in place. -/
def pokes (m : Tab Byte) : List (Nat × Byte) → Tab Byte
  | [] => m
  | (a, b) :: r => pokes (Tab.set 0 m a b) r

def ungrain (t : NSet) : List (Nat × Byte) → NSet
  | [] => t
  | (a, _) :: r => ungrain (t.del (a / 16)) r

/-- Write bytes of one granule under a key: the granule takes that key, the tags of the 16-byte granules
touched are cleared (R231), and a granule written whole loses its poison (R389). -/
def putBytes (s : State) (key : Nat) (ws : List (Nat × Byte)) : State :=
  match ws with
  | [] => s
  | (a, _) :: _ =>
    let g := a / 64
    let same := keyAt s g = key
    let base := if same then s.mem else pokes s.mem ((granView s g key).mapIdx fun i b => (64 * g + i, b))
    { touch s g with
      mem := pokes base ws
      gkeys := if same then s.gkeys else Tab.stepSet 0 s.gkeys g (g + 1) key
      tags := ungrain s.tags ws
      poison := if ws.length < 64 then s.poison else s.poison.del g }

/-- The runs of consecutive entries that lie in one granule. -/
def byGranule : List (Nat × Byte) → List (List (Nat × Byte))
  | [] => []
  | (a, b) :: r =>
    match byGranule r with
    | ((c, d) :: q) :: t => if c / 64 = a / 64 then ((a, b) :: (c, d) :: q) :: t else [(a, b)] :: ((c, d) :: q) :: t
    | t => [(a, b)] :: t

/-- Write bytes at any addresses of one level, granule by granule. -/
def putAll (s : State) (key : Nat) (ws : List (Nat × Byte)) : State :=
  (byGranule ws).foldl (fun s g => putBytes s key g) s

def writeBytes (s : State) (key a : Nat) (bs : List Byte) : State := putAll s key (bs.mapIdx fun i b => (a + i, b))

/-- Every granule of [lo, hi) becomes zeros under a key, with no tag and no poison (R350, R355). No walker reads what stood there before. -/
def zeroFill (s : State) (key lo hi : Nat) : State :=
  { s with
    older := s.older.filter fun o => !(lo ≤ o.addr && o.addr < hi)
    mem := s.mem.filter fun e => !(lo ≤ e.1 && e.1 < hi)
    tags := s.tags.filter fun t => !(lo ≤ 16 * t && 16 * t < hi)
    gkeys := Tab.stepSet 0 s.gkeys (lo / 64) (hi / 64) key
    poison := s.poison.filter fun e => !(lo ≤ 64 * e.1 && 64 * e.1 < hi) }

def wr8 (s : State) (a v : Nat) : State := writeBytes s 0 a (leBytes 8 v)

/-- Merge bit fields into bytes: each write is (address of byte 0, bit, width, value); the bytes not covered
keep what a read under the key returns (R245). -/
def mergeBits (s : State) (key : Nat) (acc : Tab Byte) : List (Nat × Nat × Nat × Nat) → Tab Byte
  | [] => acc
  | (a, bit, w, v) :: r =>
    let lo := bit / 8
    let n := (bit + w + 7) / 8 - lo
    let old := leNat ((List.range n).map fun i => Tab.getD (viewByte s key (a + lo + i)) acc (a + lo + i))
    let new := putBits old (bit % 8) w v
    mergeBits s key (((leBytes n new).mapIdx fun i b => (a + lo + i, b)).foldl (fun t e => Tab.put t e.1 e.2) acc) r

/-! ## Result signatures (R340) -/

/-- One bit of the ECMA-182 CRC, most significant bit first. -/
def crc64Bit (c : Nat) (b : Bool) : Nat :=
  let top := (c / 2 ^ 63 % 2 == 1) != b
  let sh := c * 2 % 2 ^ 64
  if top then sh ^^^ 0x42F0E1EBA9EA3693 else sh

def crc64Byte (c : Nat) (b : Byte) : Nat :=
  [7, 6, 5, 4, 3, 2, 1, 0].foldl (fun c i => crc64Bit c (b.getLsbD i)) c

def crc64 (bs : List Byte) : Nat := bs.foldl crc64Byte 0

/-- The address of a granule as a signature takes it: a Pantry granule is 2^63 plus the partition offset. -/
def sigAddr (g : Nat) : Nat := if pantryBase ≤ 64 * g then 2 ^ 63 + (64 * g - pantryBase) % 2 ^ 26 else 64 * g

/-- What a performed write of one granule adds. -/
def sigOf (ws : List (Nat × Byte)) : Nat :=
  match ws with
  | [] => 0
  | (a, _) :: _ =>
    let mask := ws.foldl (fun m e => m ||| 2 ^ (e.1 % 64)) 0
    let data := (List.range 64).map fun i => ((ws.find? fun e => e.1 % 64 = i).map (·.2)).getD 0
    crc64 (leBytes 8 (sigAddr (a / 64)) ++ leBytes 8 mask ++ data)

/-! ## Capabilities (R256, R257) -/

def Cap.oid (c : Cap) : Nat := bits c.v 127 104
def Cap.rights (c : Cap) : Nat := bits c.v 103 96
def Cap.base (c : Cap) : Nat := bits c.v 95 72
def Cap.len (c : Cap) : Nat := bits c.v 71 48
def Cap.cursor (c : Cap) : Nat := bits c.v 47 0

def Cap.mk' (tag : Bool) (oid rights base len cursor : Nat) : Cap :=
  ⟨tag, BitVec.ofNat 24 oid ++ BitVec.ofNat 8 rights ++ BitVec.ofNat 24 base ++ BitVec.ofNat 24 len ++
    BitVec.ofNat 48 cursor⟩

def Cap.withCursor (c : Cap) (x : Nat) : Cap :=
  ⟨c.tag, (c.v.extractLsb' 48 80) ++ BitVec.ofNat 48 x⟩

/-- Rights masks (Table 10.2). -/
def rR : Nat := 1
def rW : Nat := 2
def rX : Nat := 4
def rA : Nat := 8
def rC : Nat := 16
def rD : Nat := 32
def rF : Nat := 64

def hasRights (have_ need_ : Nat) : Bool := have_ &&& need_ == need_

/-- Checks 1 to 3 of R227: the KIND of the capability fault, if any. The footprint is [lo, hi). -/
def Cap.check (c : Cap) (need_ lo hi : Nat) : Option Nat :=
  if !c.tag then some 1
  else if !hasRights c.rights need_ then some 2
  else if lo < 65536 * c.base || 65536 * (c.base + c.len) < hi then some 3
  else Option.none

/-! ## Object tables (R265) -/

/-- An object-table entry, read into its fields; `bad` says that a reserved bit is set. -/
structure ObjE where
  st : Nat
  psc : Nat
  fmt : Nat
  lvl : Nat
  key : Nat
  dev : Nat
  plain : Bool
  size : Nat
  root : Nat
  sync : Nat
  bad : Bool
  deriving DecidableEq, Repr

/-- The fields of Table 10.5. SIZE has 40 bits: no entry holds 2^40 (log 93). -/
def objOf (d : List Double) : ObjE :=
  let w0 := (d.getD 0 0).toNat; let w1 := (d.getD 1 0).toNat
  let w2 := (d.getD 2 0).toNat; let w3 := (d.getD 3 0).toNat
  { st := nbits w0 1 0, psc := nbits w0 3 2, fmt := nbits w0 7 4, lvl := nbits w0 9 8, key := nbits w0 21 10,
    dev := nbits w0 39 22, plain := nbits w0 40 40 == 1, size := w1 % 2 ^ 40, root := nbits w2 47 0,
    sync := nbits w3 47 0,
    bad := nbits w0 63 41 != 0 || 2 ^ 40 ≤ w1 || nbits w2 63 48 != 0 || nbits w3 63 48 != 0 ||
      (d.drop 4).any (· != 0) }

def pageShift (psc : Nat) : Nat := 14 + 4 * psc

def ctxRec? (s : State) (ctx : Nat) : Option CtxRec := s.ctxs.get? ctx

/-- The entry as the object-entry cache or memory holds it; none beyond the table (R267). -/
def objDoubles (s : State) (ctx oid : Nat) : Option (List Double) :=
  match ctxRec? s ctx with
  | none => none
  | some r =>
    if r.body.otlen ≤ oid then none
    else
      match s.objCache.find? (fun e => e.1 = ctx && e.2.1 = oid) with
      | some e => some e.2.2
      | none => some ((List.range 8).map fun i => BitVec.ofNat 64 (rd8 s (r.body.otbase + 64 * oid + 8 * i)))

def objAt (s : State) (ctx oid : Nat) : Option ObjE := (objDoubles s ctx oid).map objOf

/-- The entry in memory, past the cache; the control plane reads it so. -/
def objMem (s : State) (ctx oid : Nat) : Option ObjE :=
  match ctxRec? s ctx with
  | none => none
  | some r =>
    if r.body.otlen ≤ oid then none
    else some (objOf ((List.range 8).map fun i => BitVec.ofNat 64 (rd8 s (r.body.otbase + 64 * oid + 8 * i))))

/-- An object is valid in a context's table when its entry has ST = 1. -/
def objValid (s : State) (ctx oid : Nat) : Option ObjE :=
  match objMem s ctx oid with
  | some e => if e.st = 1 then some e else none
  | none => none

/-- The number of the key that a key index names: the key drawn for that context, or a number of its own
for an index that no context holds (R347, log 8). -/
def keyNum (s : State) (idx : Nat) : Nat :=
  match ctxRec? s idx with
  | some r => r.key
  | none => 2 ^ 40 + idx

/-! ## Walks and TLBs (R266, R267, R270) -/

inductive Walk where
  | ok (e : TlbEntry)
  | pantry (e : ObjE)
  | fault (kind : Nat)
  | stall
  deriving DecidableEq, Repr

/-! ### Walker reads and the stores they need not see (R272) -/

/-- The values of a word that the walker of hearth `h` may still read beside its newest, oldest first. -/
def oldAt (s : State) (h a : Nat) : List OldWord := s.older.filter fun o => o.addr = a && o.hearths.getLsbD h

/-- The value is closed to the walkers of some hearths; one closed to all is forgotten. -/
def OldWord.close (o : OldWord) (m : BitVec 128) : List OldWord :=
  if o.hearths &&& ~~~m = 0 then [] else [{ o with hearths := o.hearths &&& ~~~m }]

/-- The walker of `h` has read a word: the `n` oldest values that stood open to it are so no longer (R209). -/
def closeFirst (h a : Nat) : Nat → List OldWord → List OldWord
  | 0, l => l
  | _ + 1, [] => []
  | n + 1, o :: r => if o.addr = a && o.hearths.getLsbD h then o.close (1 <<< h) ++ closeFirst h a n r else o :: closeFirst h a (n + 1) r

/-- A walker reads the newest value of a word from here on: it has read it by an atomic (R209, R273). -/
def seeNewest (s : State) (h a : Nat) : State :=
  if s.older.isEmpty then s else { s with older := closeFirst h a s.older.length s.older }

/-- A walker read of 8 bytes: of a hearth's walker, a value still open to it, freely chosen; of the control plane (`none`), the newest. -/
def walkerRead (s : State) (h : Option Nat) (a : Nat) : State × Nat :=
  match h with
  | none => (s, rd8 s a)
  | some h =>
    match oldAt s h a with
    | [] => (s, rd8 s a)
    | o :: l =>
      let i := Config.choice s.free % (l.length + 2)
      ({ s with free := s.free + 1, older := closeFirst h a i s.older }, (((o :: l)[i]?).map (·.val)).getD (rd8 s a))

def walkerReads (h : Option Nat) : List Nat → State → State × List Double
  | [], s => (s, [])
  | a :: r, s =>
    match walkerRead s h a with
    | (s, v) =>
      match walkerReads h r s with
      | (s, l) => (s, BitVec.ofNat 64 v :: l)

/-- The hearths of a scope around a hearth (Table 8.4). -/
def scopeHearths (h sc : Nat) : BitVec 128 :=
  if sc = 0 then 1 <<< h else if sc = 1 then 255 <<< (h / 8 * 8) else BitVec.allOnes 128

/-- TFENCE.W of a unit at a scope: its stores, and what they follow, are seen by every walker within it (R272, R275). -/
def fenceWalks (s : State) (who : Nat × Nat × Nat) (h sc : Nat) : State :=
  { s with older := (s.older.foldr (fun (o : OldWord) (acc : List OldWord × List Nat) =>
      let covered := if o.who = who then o.addr :: acc.2 else acc.2
      (if covered.elem o.addr then o.close (scopeHearths h sc) ++ acc.1 else o :: acc.1, covered)) ([], [])).1 }

/-- The entry as a walker reads it, from the object-entry cache or from memory. -/
def walkEntry (s : State) (h : Option Nat) (ctx oid : Nat) : State × Option (List Double) :=
  match ctxRec? s ctx with
  | none => (s, none)
  | some r =>
    if r.body.otlen ≤ oid then (s, none)
    else
      match s.objCache.find? (fun e => e.1 = ctx && e.2.1 = oid) with
      | some e => (s, some e.2.2)
      | none =>
        match walkerReads h ((List.range 8).map fun i => r.body.otbase + 64 * oid + 8 * i) s with
        | (s, d) => (s, some d)

/-- A walk of R267, of a hearth's walker or of the control plane; only a valid entry enters the object-entry cache. -/
def walkOf (h : Option Nat) (s : State) (ctx oid off : Nat) : State × Walk :=
  match walkEntry s h ctx oid with
  | (s, none) => (s, .fault 1)
  | (s, some d) =>
    let e := objOf d
    let cached := s.objCache.any (fun x => x.1 = ctx && x.2.1 = oid)
    let s := if e.st = 1 && !cached then { s with objCache := s.objCache ++ [(ctx, oid, d)] } else s
    if e.st = 0 || e.st = 3 then (s, .fault 2)
    else if e.st = 2 then (s, .stall)
    else if e.size ≤ off then (s, .fault 3)
    else if e.bad then (s, .fault 6)
    else if e.lvl = 2 then (s, .pantry e)
    else if !assigned e.root then (s, .fault 6)
    else
      let sh := pageShift e.psc
      let i := off / 2 ^ sh
      match walkerRead s h (e.root + 8 * (i / 2048)) with
      | (s, de) =>
      let leaf := nbits de 47 14 * 2 ^ 14
      if de % 2 = 0 then (s, .fault 4)
      else if nbits de 13 1 != 0 || nbits de 63 48 != 0 || !assigned leaf then (s, .fault 6)
      else
        let pa := leaf + 8 * (i % 2048)
        match walkerRead s h pa with
        | (s, pte) =>
        let fa := nbits pte 47 14 * 2 ^ 14
        if pte % 2 = 0 then (s, .fault 5)
        else if nbits pte 13 4 != 0 || nbits pte 63 48 != 0 || fa % 2 ^ sh != 0 || !assigned fa then (s, .fault 6)
        else if nbits pte 3 3 = 1 then (s, .stall)
        else
          (s, .ok { ctx := ctx, oid := oid, page := i, fa := fa, sh := sh,
                    key := if e.plain || e.lvl != 0 then 0 else keyNum s e.key,
                    lvl := e.lvl, dev := e.dev, size := e.size, pte := pa, a := false, d := false })

/-- A walk that reads the newest of every word. -/
def walk (s : State) (ctx oid off : Nat) : State × Walk := walkOf none s ctx oid off

def tlbHit (ctx oid off : Nat) (e : TlbEntry) : Bool := e.ctx = ctx && e.oid = oid && off / 2 ^ e.sh = e.page
def tlbSame (x e : TlbEntry) : Bool := x.ctx = e.ctx && x.oid = e.oid && x.page = e.page

/-- Insert an entry, the oldest leaving a full TLB (log 10). -/
def tlbPut (cap : Nat) (l : List TlbEntry) (e : TlbEntry) : List TlbEntry :=
  let l := l.filter fun x => !tlbSame x e
  (if l.length < cap then l else l.drop 1) ++ [e]

def tlbFill1 (s : State) (h : Nat) (e : TlbEntry) : State :=
  { s with tlb1 := s.tlb1.put h (tlbPut 512 (Tab.getD [] s.tlb1 h) e) }
def tlbFill2 (s : State) (g : Nat) (e : TlbEntry) : State :=
  { s with tlb2 := s.tlb2.put g (tlbPut 8192 (Tab.getD [] s.tlb2 g) e) }
/-- Keep the flags of an entry that a TLB still holds. -/
def tlbMark (s : State) (h : Nat) (e : TlbEntry) : State :=
  let f := fun (l : List TlbEntry) => l.map fun x => if tlbSame x e then e else x
  { s with tlb1 := s.tlb1.upd h f, tlb2 := s.tlb2.upd (h / 8) f }
def tlbDrop (s : State) (h : Nat) (e : TlbEntry) : State :=
  let f := fun (l : List TlbEntry) => l.filter fun x => !tlbSame x e
  { s with tlb1 := s.tlb1.upd h f, tlb2 := s.tlb2.upd (h / 8) f }

/-- The A or D update that precedes an access through an entry (R273): the new entry, or none when the
PTE no longer names the entry's frame and nothing is written. -/
def adUpdate (s : State) (e : TlbEntry) (wr : Bool) : Option (State × TlbEntry) :=
  if e.d || (e.a && !wr) then some (s, e)
  else
    let pte := rd8 s e.pte
    if pte % 2 = 1 && nbits pte 47 14 * 2 ^ 14 = e.fa && nbits pte 3 3 = 0 then
      some (wr8 s e.pte (pte ||| (if wr then 6 else 2)), { e with a := true, d := e.d || wr })
    else none

/-- Where an access goes. -/
inductive Tr where
  | phys (key pa : Nat)
  | pantry (e : ObjE) (x : Nat)
  | remote (dev pa : Nat)
  | fault (kind : Nat)
  | stall
  deriving DecidableEq, Repr

def trOf (e : TlbEntry) (off : Nat) : Tr :=
  let pa := e.fa + off % 2 ^ e.sh
  if e.lvl = 3 then .remote e.dev pa else .phys e.key pa

/-- Walk afresh, fill both TLBs and make the A or D update. -/
def translateMiss (s : State) (h ctx oid off : Nat) (wr : Bool) : State × Tr :=
  match walkOf (some h) s ctx oid off with
  | (s, .fault k) => (s, .fault k)
  | (s, .stall) => (s, .stall)
  | (s, .pantry e) => (s, .pantry e (64 * e.root + off))
  | (s, .ok e) =>
    match adUpdate (seeNewest s h e.pte) e wr with
    | none => (seeNewest s h e.pte, .stall)
    | some (s, e) => (tlbFill1 (tlbFill2 s (h / 8) e) h e, trOf e off)

/-- Use a cached entry: the size it holds, then its A and D (R271, R273). -/
def translateHit (s : State) (h : Nat) (e : TlbEntry) (off : Nat) (wr : Bool) : State × Tr :=
  if e.size ≤ off then (s, .fault 3)
  else
    match adUpdate s e wr with
    | some (s, e') => (tlbMark (if e.d || (e.a && !wr) then s else seeNewest s h e.pte) h e', trOf e' off)
    | none => translateMiss (tlbDrop (seeNewest s h e.pte) h e) h e.ctx e.oid off wr

/-- Translate one offset for an access of hearth `h` (R267, R270). -/
def translate (s : State) (h ctx oid off : Nat) (wr : Bool) : State × Tr :=
  match (Tab.getD [] s.tlb1 h).find? (tlbHit ctx oid off) with
  | some e => translateHit s h e off wr
  | none =>
    match (Tab.getD [] s.tlb2 (h / 8)).find? (tlbHit ctx oid off) with
    | some e => translateHit (tlbFill1 s h e) h e off wr
    | none => translateMiss s h ctx oid off wr

/-- Translate for the control plane and the host, which no TLB serves (R339, R342, R360). -/
def hostTranslate (s : State) (ctx oid off : Nat) (wr : Bool) : State × Tr :=
  match walk s ctx oid off with
  | (s, .fault k) => (s, .fault k)
  | (s, .stall) => (s, .stall)
  | (s, .pantry e) => (s, .pantry e (64 * e.root + off))
  | (s, .ok e) =>
    match adUpdate s e wr with
    | none => (s, .stall)
    | some (s, e) => (s, trOf e off)

/-! ## Removal of translations (R276, Table 10.9) -/

def inPages (ctx oid first count : Nat) (e : TlbEntry) : Bool :=
  e.ctx = ctx && e.oid = oid && (count = 0 || (first ≤ e.page && e.page < first + count))

/-- TLBINV's removal at a scope, for hearth `h`. -/
def tlbRemove (s : State) (h sc ctx oid first count : Nat) : State :=
  let f := fun (l : List TlbEntry) => l.filter fun e => !inPages ctx oid first count e
  let at1 := fun (j : Nat) => sc ≥ 2 || (if sc = 1 then j / 8 = h / 8 else j = h)
  { s with
    tlb1 := s.tlb1.map fun e => if at1 e.1 then (e.1, f e.2) else e
    tlb2 := s.tlb2.map fun e => if sc ≥ 2 || (sc = 1 && e.1 = h / 8) then (e.1, f e.2) else e
    objCache := if sc ≥ 2 then s.objCache.filter fun e => !(e.1 = ctx && e.2.1 = oid) else s.objCache }

/-- Every cached translation and entry of a context (R355 step 5). -/
def tlbRemoveCtx (s : State) (ctx : Nat) : State :=
  let f := fun (l : List TlbEntry) => l.filter fun e => e.ctx != ctx
  { s with tlb1 := s.tlb1.map fun e => (e.1, f e.2), tlb2 := s.tlb2.map fun e => (e.1, f e.2),
           objCache := s.objCache.filter fun e => e.1 != ctx }

/-! ## Sync objects and bindings (R212, R213) -/

def isSync (s : State) (pa : Nat) : Bool := s.syncs.has (pa / 64)

/-- A line that holds a live sync object. -/
def liveSync (s : State) (pa : Nat) : Bool := isSync s pa && nbits (rd8 s (pa / 64 * 64 + 8)) 13 12 = 1

def syncCtx (s : State) (pa : Nat) : Nat := nbits (rd8 s (pa / 64 * 64 + 8)) 11 0

/-- A release takes its place in the object's order (Table 8.3). -/
def syncRelease (s : State) (pa : Nat) : State :=
  if isSync s pa then wr8 s (pa / 64 * 64) ((rd8 s (pa / 64 * 64) + 1) % 2 ^ 64) else s

def syncRseq (s : State) (pa : Nat) : Nat := rd8 s (pa / 64 * 64)

/-- Reset a line as a sync object (Table 8.3). -/
def syncCreate (s : State) (pa ctx nbind : Nat) : State :=
  let l := pa / 64 * 64
  let s := writeBytes s 0 l (leBytes 8 0 ++ leBytes 4 (ctx + 2 ^ 12) ++ leBytes 4 nbind ++ leBytes 48 0)
  { s with syncs := s.syncs.ins (l / 64) }

/-- ST of a sync object to retired. -/
def syncRetire (s : State) (pa : Nat) : State :=
  if isSync s pa then
    let a := pa / 64 * 64 + 8
    wr8 s a (putBits (rd8 s a) 12 2 2)
  else s

def syncAddNbind (s : State) (pa : Nat) (f : Nat → Nat) : State :=
  if isSync s pa then
    let a := pa / 64 * 64 + 8
    wr8 s a (putBits (rd8 s a) 32 32 (f (nbits (rd8 s a) 63 32)))
  else s

/-- The sync object that binds a granule of an object (R213). -/
def syncOf (s : State) (ctx oid gran : Nat) : Option Nat :=
  match s.binds.find? (fun b => b.ctx = ctx && b.oid = oid && b.gran = gran) with
  | some b => some b.sync
  | none => (objMem s ctx oid).map (·.sync)

/-! ## Partitions (R350) -/

def bankBytes : Nat := 786432

/-- The partition of a launch in a grove, with its number. -/
def partOf (s : State) (lid g : Nat) : Option (Nat × Partition) :=
  s.partitions.find? fun e => e.2.lid = lid && e.2.grove = g

def Partition.bytes (p : Partition) : Nat := p.banks.length * bankBytes

end Sys2Proof.Machine
end

