-- ==== Sys2Proof/Machine/Cal.lean ====
section
/-! DEFINITION. The mailbox (R408), grants and power (R353), calendars computed from the booked chains
(R300 to R309), cancels, backfill and slips (R317 to R320), and the end of a lease (R308, R315, R322). -/

namespace Sys2Proof.Machine

/-! ## Time and the mailbox -/

def curSlot (s : State) : Nat := s.time / 64

/-- A record as it stands in its slot. The order of the payload's fields is the model's (log 21). -/
def MailRec.words (r : MailRec) (time : Nat) (ovf : Bool) : List Double :=
  [BitVec.ofNat 64 (r.ty + (if r.inj then 2 ^ 8 else 0) + (if ovf then 2 ^ 9 else 0) + (if r.more then 2 ^ 10 else 0) + r.src * 2 ^ 16),
   BitVec.ofNat 64 time, BitVec.ofNat 64 r.p0, BitVec.ofNat 64 r.p1]

/-- Free places of the mailbox. -/
def Mailbox.free (m : Mailbox) : Nat := 1024 - (m.prod + 2 ^ 32 - m.cons) % 2 ^ 32

/-- Post one record (R408). -/
def Mailbox.put (time : Nat) (m : Mailbox) (r : MailRec) : Mailbox :=
  { m with prod := (m.prod + 1) % 2 ^ 32, ovf := false, recs := m.recs.put (m.prod % 1024) (r.words time m.ovf) }

/-- Post a record group whole, or drop it whole when it does not fit (R34, R408). -/
def Mailbox.putGroup (time : Nat) (m : Mailbox) (g : List MailRec) : Mailbox :=
  if g.length ≤ m.free then g.foldl (Mailbox.put time) m else { m with lost := min (2 ^ 32 - 1) (m.lost + g.length), ovf := true }

/-- The SRC of a record group. -/
def groupSrc (g : List MailRec) : Nat := (g.head?.map (·.src)).getD 0

/-- Put a group after every group with a SRC no higher. -/
def insertGroup (g : List MailRec) : List (List MailRec) → List (List MailRec)
  | [] => [g]
  | x :: l => if groupSrc x ≤ groupSrc g then x :: insertGroup g l else g :: x :: l

/-- Post a group that becomes ready now: the groups of one tick stand in ascending SRC (R408). -/
def Mailbox.add (time : Nat) (m : Mailbox) (g : List MailRec) : Mailbox :=
  let m := if m.tick = time then m else { m with tick := time, before := (m.prod, m.lost, m.ovf), ready := [] }
  let ready := insertGroup g m.ready
  ready.foldl (Mailbox.putGroup time) { m with prod := m.before.1, lost := m.before.2.1, ovf := m.before.2.2, ready := ready }

/-- Post a record. -/
def post (s : State) (ty src : Nat) (inj : Bool) (p0 p1 : Nat) : State :=
  { s with mailbox := s.mailbox.add s.time [⟨ty, src, inj, false, p0, p1⟩] }

/-- Post a record group: a first record and its continuation. -/
def postGroup (s : State) (ty src : Nat) (p0 p1 q0 q1 : Nat) : State :=
  { s with mailbox := s.mailbox.add s.time [⟨ty, src, false, true, p0, p1⟩, ⟨0x0B, src, false, false, q0, q1⟩] }

/-! ## Parts and their numbers -/

def clsCode : EngineClass → Nat
  | .griddle => 0
  | .whisk => 1
  | .sieve => 2
  | .kettle => 3
  | .grater => 4
  | .stockpot => 5

def clsOf (n : Nat) : Option EngineClass :=
  [EngineClass.griddle, .whisk, .sieve, .kettle, .grater, .stockpot][n]?

/-- How many resources a class code has: per grove for 0 to 6, in the module for 7 and 8 (Table 12.1). -/
def classCount (c : Nat) : Nat := [16, 8, 4, 4, 2, 1, 8, 48, 48].getD c 0
/-- Power units of an awake engine (Table 1.3). -/
def classUnits (c : Nat) : Nat := [4, 3, 2, 1, 1, 2].getD c 0
/-- Slots of a wake from off, a wake from retention, and a zeroise (Table 12.5). -/
def offW (c : Nat) : Nat := [64, 32, 16, 8, 8, 16].getD c 0
def retW (c : Nat) : Nat := if c < 6 then 4 else 0
def zer (c : Nat) : Nat := [2, 2, 1, 1, 1, 1].getD c 0

def engKey (e : EngineId) : Nat := 128 * e.g + 16 * clsCode e.cls + e.i
def engSrc (e : EngineId) : Nat := 0x0100 + engKey e

/-- The class and index of a fault unit as RETSVC names them (Table 18.2). -/
def fuClass : FaultUnit → Nat
  | .hearth _ => 0
  | .engine _ => 1
  | .pantryBank _ _ => 2
  | .clearingBank _ => 3
  | .channelGroup _ => 4
  | .ebithPort _ => 5
  | .sensor _ _ => 6
def fuIndex : FaultUnit → Nat
  | .hearth h => h
  | .engine e => engKey e
  | .pantryBank g b => 64 * g + b
  | .clearingBank b => b
  | .channelGroup c => c
  | .ebithPort p => p
  | .sensor g k => 4 * g + k
def fuKey (f : FaultUnit) : Nat := 2048 * fuClass f + fuIndex f

def isRetired (s : State) (f : FaultUnit) : Bool := s.retired.elem (fuKey f)

/-- The mailbox source of a fault unit (Table 18.4). -/
def fuSrc : FaultUnit → Nat
  | .hearth h => h
  | .engine e => engSrc e
  | .ebithPort p => 0x0930 + p
  | .pantryBank _ _ | .clearingBank _ | .channelGroup _ | .sensor _ _ => 0x0A00

def EngMem.empty : EngMem :=
  { bAct := none, bPend := none, wAct := none, wPend := none, interval := 0, run := none,
    pert := none, scores := [], resid := [] }
/-- An engine that nothing has woken: off, with no internal state (R23). -/
def Engine.off : Engine := { power := .off, zero := false, ctx := none, key := none, retains := none, scan := false, mem := EngMem.empty }
def engAt (s : State) (e : EngineId) : Engine := Tab.getD Engine.off s.engines (engKey e)
def setEng (s : State) (e : EngineId) (x : Engine) : State := { s with engines := Tab.set Engine.off s.engines (engKey e) x }

/-- A grove at module reset: 700 MHz, nothing counted. -/
def Grove.initial : Grove :=
  { freq := 28, lowered := 0, safe := false, hot := false, calmSince := none, coolSince := none, used := 0,
    retention := false, retired := false, log := [], logOvf := false, logFrozen := false,
    dests := [], lastPass := 0, window := none, wantTest := false }
def groveAt (s : State) (g : Nat) : Grove := Tab.getD Grove.initial s.groves g
def updGrove (s : State) (g : Nat) (f : Grove → Grove) : State :=
  { s with groves := Tab.set Grove.initial s.groves g (f (groveAt s g)) }

/-! ## Grants and power (R353) -/

def grantOf (s : State) (ctx : Nat) : Option GrantBody := (ctxRec? s ctx).map (·.grant)
def grantUnits (s : State) (ctx : Nat) : Nat := ((grantOf s ctx).map (·.units)).getD 0

/-- A step that is neither ended nor cancelled. -/
def BStep.live (st : BStep) : Bool :=
  match st.st with
  | .ended | .cancelled => false
  | .held | .committed | .frozen | .running | .late | .suspended => true

/-- A step that runs. -/
def BStep.runs (st : BStep) : Bool := st.st == .running || st.st == .late

/-- The chains that hold slots: those of the booking tables, and those just freed. -/
def chainsOf (s : State) : List Chain := s.books.map (·.2) ++ s.closing

/-- The contexts with a unit or a booking in a grove; a unit keeps its context here until its bank is freed, so in-flight operations
are counted with it. Channel groups and ports lie in no grove. -/
def groveCtxs (s : State) (g : Nat) : List Nat :=
  (s.units.filter fun e => e.1 % 256 / 16 = g).map (·.2.ctx) ++
    ((chainsOf s).filter fun c => c.g = g && c.steps.any fun st => st.live && st.cls < 7).map (·.ctx)

/-- A grove's power limit PL (R353). -/
def powerLimit (s : State) (g : Nat) : Nat :=
  match groveCtxs s g with
  | [] => 28
  | cs => (cs.map (grantUnits s)).foldl max 0

/-- A grove's byte budget (R353). -/
def byteBudget (s : State) (g : Nat) : Nat :=
  match (groveCtxs s g).eraseDups with
  | [] => 2 ^ 24
  | cs => min (2 ^ 24) ((cs.map fun c => ((ctxRec? s c).map (·.bb)).getD 0).foldl (· + ·) 0)

/-! ## Calendars (R300, R301) -/

/-- The slots a step holds, as half-open intervals. -/
def BStep.spans (st : BStep) : List (Nat × Nat) :=
  match st.st with
  | .cancelled => []
  | .held | .committed | .frozen | .running | .late | .suspended | .ended =>
    (st.start - st.pfx, st.start + st.dur) :: st.ext.map (fun t => (t, t + 1)) ++
      (match st.rmd with
       | none => []
       | some r => [(r.start - r.reload - r.pfx, r.start + r.dur)])

def BStep.at (st : BStep) (t : Nat) : Bool := st.spans.any fun i => i.1 ≤ t && t < i.2

/-- The last slot a step holds. -/
def BStep.last (st : BStep) : Nat := (st.spans.map fun i => i.2 - 1).foldl max 0

/-- Whether a step of a chain lies on a resource of this module. -/
def onRes (c : Chain) (st : BStep) (cls g r : Nat) : Bool :=
  st.cls = cls && st.ridx = r && !st.rem && (7 ≤ cls || c.g = g)

def stepsOn (bs : List Chain) (cls g r : Nat) : List (Chain × BStep) :=
  bs.flatMap fun c => (c.steps.filter fun st => onRes c st cls g r).map fun st => (c, st)

/-- A grove's test window takes its 44 calendars for 192 slots (R396). -/
def inWindow (s : State) (g t : Nat) : Bool :=
  match (groveAt s g).window with
  | none => false
  | some w => w ≤ t && t < w + 192

/-- The lanes that a class-7 step takes in a slot. -/
def BStep.lanesIn (st : BStep) (t : Nat) : Nat := st.laneMasks.getD (t - st.start) 0

/-- Lanes of a channel group taken in a slot. -/
def lanesAt (bs : List Chain) (r t : Nat) : Nat :=
  ((stepsOn bs 7 0 r).filter fun e => e.2.at t).foldl (fun m e => m ||| e.2.lanesIn t) 0

/-- Power units of a grove taken in a slot by bookings that satisfy `p` (R301, R309). -/
def unitsAt (bs : List Chain) (g t : Nat) (p : Chain → Bool) : Nat :=
  ((bs.flatMap fun c =>
    if p c && c.g = g then (c.steps.filter fun st => st.cls < 6 && !st.rem && st.at t).map fun st => (st.cls, st.ridx)
    else []).eraseDups.map fun e => classUnits e.1).foldl (· + ·) 0

/-- USED of the grove power calendar. -/
def powerUsed (s : State) (bs : List Chain) (g t : Nat) : Nat :=
  unitsAt bs g t (fun _ => true) + if inWindow s g t then powerLimit s g else 0

/-- Slots of [a, b) that lie in the 64-slot window w. -/
def overlap (a b w : Nat) : Nat := min b (64 * w + 64) - max a (64 * w)

/-- What a slot of a step counts against a quota: L lanes are L/8 of a resource-slot, rounded up in each slot (R352, log 49). -/
def BStep.weight (st : BStep) : Nat := if st.cls = 7 then (st.lanes + 7) / 8 else 1

/-- Resource-slots of a class that a context holds in a window (R352). -/
def quotaUsed (bs : List Chain) (ctx cls w extra : Nat) : Nat :=
  (bs.flatMap fun c =>
    if c.ctx = ctx then
      (c.steps.filter fun st => st.cls = cls && !st.rem).flatMap fun st => st.spans.map fun i => overlap i.1 i.2 w * st.weight
    else []).foldl (· + ·) extra

def quotaOf (s : State) (ctx cls : Nat) : Nat := ((ctxRec? s ctx).map fun r => r.body.quota.getD cls 0).getD 0

/-- The resource is retired; no retirement of Table 15.9 takes a Ladle's calendar. -/
def resRetired (s : State) (cls g r : Nat) : Bool :=
  if cls = 6 then false
  else if cls = 7 then isRetired s (.channelGroup r)
  else if cls = 8 then isRetired s (.ebithPort r) || ((s.ports.get? r).map (·.down)).getD false
  else match clsOf cls with
    | some c => isRetired s (.engine ⟨g, c, r⟩)
    | none => true

def range' (a b : Nat) : List Nat := (List.range (b - a)).map (a + ·)

/-- fits of R309 for the slots [a, b] of a step on resource r. -/
def fits (s : State) (bs : List Chain) (cur ctx g : Nat) (st : BStep) (r a b : Nat) : Bool :=
  let cls := st.cls
  let q := quotaOf s ctx cls
  b ≤ cur + 4095 && !resRetired s cls g r &&
  (range' a (b + 1)).all (fun t =>
    (if cls = 7 then decide (((List.range 8).filter fun i => !(lanesAt bs r t).testBit i).length ≥ st.lanes)
     else !((stepsOn bs cls g r).any fun e => e.2.at t) && (8 ≤ cls || !inWindow s g t)) &&
    (6 ≤ cls || (decide (powerUsed s bs g t + classUnits cls ≤ powerLimit s g) &&
      decide (unitsAt bs g t (fun c => c.ctx = ctx) + classUnits cls ≤ grantUnits s ctx)))) &&
  (q = 0xFFFF || (range' (a / 64) (b / 64 + 1)).all fun w =>
    quotaUsed bs ctx cls w (overlap a (b + 1) w * st.weight) ≤ q)

/-- The bookings on a resource that end before a slot, as planned: the slot after the last, the owning context (none for a
test window, R396) and RET. -/
def planned (s : State) (bs : List Chain) (cls g r start : Nat) : List (Nat × Option Nat × Bool) :=
  ((stepsOn bs cls g r).flatMap fun e =>
    if e.2.live then (e.2.spans.filter fun i => i.2 ≤ start).map fun i => (i.2, some e.1.ctx, e.2.ret) else []) ++
  match (groveAt s g).window with
  | some w => if w + 192 ≤ start then [(w + 192, none, false)] else []
  | none => []

/-- The booking whose last slot is the latest. -/
def latest (l : List (Nat × Option Nat × Bool)) : Option (Nat × Option Nat × Bool) :=
  l.foldl (fun b e => match b with
    | none => some e
    | some x => if x.1 < e.1 then some e else some x) none

/-- pfx of R307. -/
def pfx (s : State) (bs : List Chain) (cls g r start ctx : Nat) : Nat :=
  match clsOf cls with
  | none => 0
  | some c =>
    match latest (planned s bs cls g r start) with
    | some (z, owner, ret) =>
      if z = start then (if owner = some ctx then 0 else zer cls)
      else if ret then retW cls + zer cls else offW cls
    | none =>
      match (engAt s ⟨g, c, r⟩).power with
      | .awake => zer cls
      | .retention => retW cls + zer cls
      | .off | .waking _ _ => offW cls

/-- The lanes a class-7 step takes in a slot: the lowest free ones. -/
def takeLanes (used n : Nat) : Nat :=
  (((List.range 8).filter fun i => !used.testBit i).take n).foldl (fun m i => m ||| 2 ^ i) 0

/-- The least START from `x` on at which a step fits on resource r, with its prefix. -/
def leastStart (s : State) (bs : List Chain) (cur ctx g t0 : Nat) (st : BStep) (r : Nat) : Nat → Nat → Option (Nat × Nat)
  | 0, _ => none
  | n + 1, x =>
    let p := pfx s bs st.cls g r x ctx
    if t0 + p ≤ x && fits s bs cur ctx g st r (x - p) (x + st.dur - 1) then some (x, p)
    else leastStart s bs cur ctx g t0 st r n (x + 1)

/-- The best resource of a step's candidates: the earliest start, ties to the lower index. -/
def bestPlace (s : State) (bs : List Chain) (cur ctx g t0 lb : Nat) (st : BStep) : Option (Nat × Nat × Nat) :=
  (List.range (classCount st.cls)).foldl (fun (best : Option (Nat × Nat × Nat)) r =>
    if st.cmask.testBit r then
      match leastStart s bs cur ctx g t0 st r (cur + 4096 - lb) lb with
      | none => best
      | some (x, p) =>
        match best with
        | none => some (r, x, p)
        | some (_, y, _) => if x < y then some (r, x, p) else best
    else best) none

/-- A step placed at resource r, START x, prefix p. -/
def BStep.placed (st : BStep) (bs : List Chain) (mark : StepState) (r x p : Nat) : BStep :=
  { st with ridx := r, start := x, pfx := p, st := mark, ext := [], rmd := none, endSlot := none,
            laneMasks := if st.cls = 7 then (range' x (x + st.dur)).map fun t => takeLanes (lanesAt bs r t) st.lanes else [] }

inductive Placed where
  | ok (steps : List BStep)
  | horizon
  | restart
  deriving DecidableEq, Repr

/-- Place the steps of a chain in order (the body of R309's loop). `tent` holds what is placed already.
A step on another module is placed at its lower bound (R313). -/
def placeSteps (s : State) (bs : List Chain) (cur t0 : Nat) (mark : StepState) (c : Chain) : Nat → List BStep → List BStep → Placed
  | _, [], tent => .ok tent
  | lb, st :: rest, tent =>
    if st.rem then
      if cur + 4095 < lb + st.dur - 1 then .horizon
      else placeSteps s bs cur t0 mark c (lb + st.dur + ((rest.head?.map (·.gap)).getD 0)) rest
        (tent ++ [{ st with start := lb, pfx := 0, st := mark }])
    else
      match bestPlace s ({ c with steps := tent } :: bs) cur c.ctx c.g t0 lb st with
      | none => .horizon
      | some (r, x, p) =>
        if tent != [] && (match st.lag with | some l => decide (l < x - lb) | none => false) then .restart
        else
          placeSteps s bs cur t0 mark c (x + st.dur + ((rest.head?.map (·.gap)).getD 0)) rest
            (tent ++ [st.placed ({ c with steps := tent } :: bs) mark r x p])

/-- The search of R309 from t0 on, with the attempts that another module refused, first to last. `accept` answers the hold requests of
an attempt (R313). -/
def searchFrom (s : State) (bs : List Chain) (cur : Nat) (mark : StepState) (c : Chain) (accept : Nat → Bool) :
    Nat → Nat → Option (List BStep) × List (Nat × List BStep)
  | 0, _ => (none, [])
  | n + 1, t0 =>
    match placeSteps s bs cur t0 mark c t0 c.steps [] with
    | .horizon => (none, [])
    | .restart => searchFrom s bs cur mark c accept n (t0 + 1)
    | .ok l =>
      if accept t0 then (some l, [])
      else
        match searchFrom s bs cur mark c accept n (t0 + 1) with
        | (r, l') => (r, (t0, l) :: l')

/-! ## Chains by handle (R305) -/

def chainKey (h : BitVec 32) : Nat := bits h 31 27 * 1024 + bits h 9 0

/-- The chain a handle names; none when the generation no longer matches. -/
def chainAt (s : State) (h : BitVec 32) : Option Chain :=
  match s.books.get? (chainKey h) with
  | some c => if c.handle = h then some c else none
  | none => none

def stepAt (s : State) (h : BitVec 32) (n : Nat) : Option BStep := (chainAt s h).bind fun c => c.steps[n]?

def updChain (s : State) (h : BitVec 32) (f : Chain → Chain) : State :=
  match chainAt s h with
  | some _ => { s with books := s.books.upd (chainKey h) f }
  | none => s

def updStep (s : State) (h : BitVec 32) (n : Nat) (f : BStep → BStep) : State :=
  updChain s h fun c => { c with steps := c.steps.mapIdx fun i st => if i = n then f st else st }

/-- The end of a step as its dependents see it. -/
def BStep.ending (st : BStep) : Nat := st.endSlot.getD st.last

/-- A late step that has ended and whose slip event is still to come; an empty intrusion list marks one whose event has
been served. -/
def BStep.slipOwed (st : BStep) : Bool :=
  st.st == .ended && !st.intr.isEmpty && st.cls < 7 && match st.endSlot with
    | some e => decide (st.start + st.dur ≤ e) && (st.wasSusp || !st.ext.isEmpty)
    | none => false

/-- What a chain keeps of a chain that it depends on when that one's entry is freed. -/
def Chain.forget (d c : Chain) : Chain :=
  match d.dep with
  | some (h, n) => if h = c.handle then { d with depEnd := (c.steps[n]?).map BStep.ending } else d
  | none => d

/-- Free an entry whose steps have all ended or been cancelled; its generation advances (R305). The slots after the one in
which a step ended return at that slot's end (R319); an entry whose slip event is still to come waits for it. -/
def sweepChain (s : State) (h : BitVec 32) : State :=
  match chainAt s h with
  | some c =>
    if c.steps.any fun st => st.live || st.slipOwed then s
    else
      { s with
        books := (s.books.del (chainKey h)).map fun d => (d.1, d.2.forget c),
        gens := Tab.set 0 s.gens (chainKey h) ((Tab.getD 0 s.gens (chainKey h) + 1) % 2 ^ 17),
        closing := if c.steps.any fun st => st.endSlot.any fun e => decide (curSlot s ≤ e) then s.closing ++ [c] else s.closing }
  | none => s

/-- The slots of the chains that a BKU freed in the slot before return. -/
def clearClosing (s : State) (bku : Nat) : State :=
  let stays := fun (c : Chain) => bits c.handle 31 27 != bku || c.steps.any fun st => st.endSlot.any fun e => decide (curSlot s ≤ e)
  { s with closing := s.closing.filter stays }

/-- The lowest free index of a booking table (R305). -/
def freeIndex (s : State) (bku : Nat) : Option Nat :=
  (List.range 1024).find? fun i => !s.books.has (bku * 1024 + i)

def mkHandle (s : State) (bku i : Nat) : BitVec 32 :=
  BitVec.ofNat 5 bku ++ BitVec.ofNat 17 (Tab.getD 0 s.gens (bku * 1024 + i)) ++ BitVec.ofNat 10 i

/-! ## Leases -/

def updUnit (s : State) (k : Nat) (f : Unit → Unit) : State := { s with units := s.units.upd k f }

/-- The committed bookings of an engine, remainders among them: first slot, START, prefix. -/
def bookingsOn (s : State) (e : EngineId) : List (Nat × Nat × Nat) :=
  ((stepsOn (chainsOf s) (clsCode e.cls) e.g e.i).filter fun x => x.2.live && x.2.st != .held).flatMap fun x =>
    (x.2.start - x.2.pfx, x.2.start, x.2.pfx) :: (match x.2.rmd with
      | some r => [(r.start - r.reload - r.pfx, r.start, r.pfx)]
      | none => [])

/-- Whether the next committed booking on an engine was given a prefix other than OFFW (R308). -/
def nextKeeps (s : State) (e : EngineId) : Bool :=
  let best := ((bookingsOn s e).filter fun x => curSlot s < x.1).foldl (fun (b : Option (Nat × Nat × Nat)) x =>
    match b with
    | none => some x
    | some y => if x.2.1 < y.2.1 then some x else some y) none
  match best with
  | some x => x.2.2 != offW (clsCode e.cls)
  | none => false

/-- An engine's lease ends: it goes off, or into retention when asked or when R308 keeps it. `who` is the
lease slot whose state it retains. -/
def engineEnd (s : State) (e : EngineId) (toRet : Bool) (who : Option (Nat × Nat)) : State :=
  if toRet || nextKeeps s e then
    setEng s e { engAt s e with power := .retention, key := none, retains := if toRet then who else none }
  else setEng s e Engine.off

/-- An engine loses its state (R204). -/
def loseState (s : State) (e : EngineId) : State := setEng s e { engAt s e with mem := EngMem.empty, ctx := none, retains := none }

/-- A tile whose read claim is returned (R322). -/
def Tile.unclaim (t : Tile) : Tile := if t.reads > 0 then { t with remain := t.remain + 1 } else t

def vmodify {α : Type} {n : Nat} (v : Vector α n) (i : Nat) (f : α → α) : Vector α n :=
  v.mapFinIdx fun j a _ => if j = i then f a else a

/-- The command in progress on a lease slot is abandoned: its number completes with nothing written, and
its read claims are returned (R322); the slot's shadow configuration swaps in (R181). -/
def dropMOps (u : Unit) (ls : Nat) : Unit :=
  let mine := u.ops.filter fun o => match o.body with
    | .m m => m.slot = ls
    | _ => false
  { u with
    ops := u.ops.filter fun o => match o.body with
      | .m m => m.slot != ls
      | _ => true
    cpl := { u.cpl with
      mactive := vmodify u.cpl.mactive ls fun _ => u.cpl.mcfg.toList.getD ls []
      tile := mine.foldl (fun t o => o.readsT.foldl (fun t i => vmodify t i Tile.unclaim) t) u.cpl.tile } }

/-- Evict what lease slot `ls` of the unit at `k` holds: the slot is marked evicted, and the state of an engine that serves it
is lost (R322). -/
def evictSlot (s : State) (k ls : Nat) : State :=
  match (s.units.get? k).bind fun u => u.leases[ls]?.join with
  | none => s
  | some l =>
    if l.evicted then s
    else
      let s := updUnit s k fun u =>
        let u := dropMOps u ls
        { u with leases := vmodify u.leases ls fun _ => some { l with evicted := true } }
      if (engAt s l.eng).key = some (k, ls) then engineEnd (loseState s l.eng) l.eng false none else s

/-- The lease slot that holds a step. -/
def leaseOfStep (s : State) (h : BitVec 32) (n : Nat) : Option (Nat × Nat) :=
  s.units.findSome? fun e =>
    (List.range 4).findSome? fun i =>
      match e.2.leases[i]?.join with
      | some l => if !l.evicted && !l.isOpen && l.handle = h && l.step = n then some (e.1, i) else none
      | none => none

/-- The unit whose D stream holds a Ladle step. -/
def ladleOfStep (s : State) (h : BitVec 32) (n : Nat) : Option Nat :=
  (s.units.find? fun e => match e.2.ladle with
    | some l => l.handle = h && l.step = n
    | none => false).map (·.1)

/-- The lease slot of a step names the engine on which the step stands (R314). -/
def rebindLease (s : State) (c : Chain) (st : BStep) : State :=
  match st.lease, clsOf st.cls with
  | some (k, ls), some cls => updUnit s k fun u => { u with leases := vmodify u.leases ls fun l => l.map fun l =>
      if l.isOpen || l.evicted then l else { l with eng := ⟨c.g, cls, st.ridx⟩, start := 64 * st.start } }
  | _, _ => s

/-- Put a step in its place, with its lease. -/
def moveStep (s : State) (c : Chain) (i : Nat) (st : BStep) : State := rebindLease (updStep s c.handle i fun _ => st) c st

/-- Release the lease of a cancelled step and mark its slot evicted (R320). -/
def dropLease (s : State) (h : BitVec 32) (n : Nat) : State :=
  let s := match leaseOfStep s h n with
    | some (k, ls) => evictSlot s k ls
    | none => s
  match ladleOfStep s h n with
  | some k => updUnit s k fun u => { u with ladle := none }
  | none => s

/-! ## Cancel, backfill and slip -/

/-- Whether a step proper has started: the work of the boundary of its START makes it run. -/
def BStep.started (st : BStep) : Bool :=
  match st.st with
  | .running | .late | .suspended | .ended => true
  | .committed | .held | .frozen | .cancelled => false

/-- Tell the modules of a chain's remote steps among `l` that they are cancelled (R313, R320). -/
def tellCancelled (s : State) (c : Chain) (l : List BStep) : State :=
  { s with sent := s.sent ++ (l.filter (·.rem)).map fun st => Sent.commit st.dev c.handle false }

/-- Cancel the steps `which` of a chain that have not started; the modules of remote ones are told (R320). -/
def cancelSteps (s : State) (h : BitVec 32) (which : Nat → Bool) : State :=
  match chainAt s h with
  | none => s
  | some c =>
    let ns := (List.range c.steps.length).filter fun i =>
      which i && (match c.steps[i]? with | some st => st.live && !st.started | none => false)
    let s := updChain s h fun c =>
      { c with steps := c.steps.mapIdx fun i st => if ns.elem i then { st with st := .cancelled } else st }
    ns.foldl (fun s i => dropLease s h i) (tellCancelled s c (ns.filterMap (c.steps[·]?)))

/-- Chains that depend on a cancelled step: cancelled in turn, or freed of the dependence under ORPH. A chain depends on one booked
before it, so the number of chains bounds the depth `n`. -/
def cancelDeps : Nat → State → BitVec 32 → State
  | 0, s, _ => s
  | n + 1, s, h =>
    (chainsOf s).foldl (fun s d =>
      match d.dep with
      | some (p, i) =>
        if p = h && (match stepAt s h i with | some st => decide (st.st = .cancelled) | none => false) then
          if d.orph then updChain s d.handle fun c => { c with dep := none }
          else
            let s := cancelSteps s d.handle fun _ => true
            let s := cancelDeps n s d.handle
            sweepChain (updChain s d.handle fun c => { c with dep := none }) d.handle
        else s
      | none => s) s

/-- The least slot a step may start its chain position at, by GAP or DGAP (R309, R319). -/
def lowerBound (s : State) (c : Chain) (i : Nat) (dflt : Nat) : Nat :=
  if i = 0 then
    match c.dep with
    | some (h, n) => match stepAt s h n with
      | some d => max dflt (d.ending + 1 + c.dgap)
      | none => match c.depEnd with
        | some e => max dflt (e + 1 + c.dgap)
        | none => dflt
    | none => dflt
  else
    match c.steps[i - 1]?, c.steps[i]? with
    | some p, some st => max dflt (p.ending + 1 + st.gap)
    | _, _ => dflt

/-- Whether a new placement keeps the LAG against the predecessor and the successor's GAP and LAG. -/
def keepsLags (c : Chain) (i : Nat) (start : Nat) : Bool :=
  match c.steps[i]? with
  | none => false
  | some st =>
    (match (if i = 0 then none else c.steps[i - 1]?), st.lag with
     | some p, some l => decide (start ≤ p.ending + 1 + st.gap + l)
     | _, _ => true) &&
    (match c.steps[i + 1]? with
     | some nx =>
       if nx.live then
         decide (start + st.dur + nx.gap ≤ nx.start) &&
         (match nx.lag with | some l => decide (nx.start ≤ start + st.dur + nx.gap + l) | none => true)
       else true
     | none => true)

/-- The first START in [x, ...] before the present one that a movable step may take, no slot of it below `floor`, where the
chain's DGAP lets it begin (R319). -/
def backfillAt (s : State) (bs : List Chain) (cur : Nat) (c : Chain) (i : Nat) (st : BStep) (floor : Nat) : Nat → Nat → Option (Nat × Nat × Nat)
  | 0, _ => none
  | n + 1, x =>
    if st.start ≤ x then none
    else
      let cand := (List.range (classCount st.cls)).findSome? fun r =>
        if st.cmask.testBit r then
          let p := pfx s bs st.cls c.g r x c.ctx
          if floor + p ≤ x && fits s bs cur c.ctx c.g st r (x - p) (x + st.dur - 1) && keepsLags c i x then some (r, p)
          else none
        else none
      match cand with
      | some (r, p) => some (r, x, p)
      | none => backfillAt s bs cur c i st floor n (x + 1)

def insertBy {α : Type} (le : α → α → Bool) (a : α) : List α → List α
  | [] => [a]
  | b :: r => if le a b then a :: b :: r else b :: insertBy le a r
/-- A stable sort. -/
def sortBy {α : Type} (le : α → α → Bool) (l : List α) : List α := l.foldr (insertBy le) []

/-- One backfill pass of a BKU (R319). -/
def backfill (s : State) (bku : Nat) : State :=
  let cur := curSlot s
  let cands := (chainsOf s).flatMap fun c =>
    if bits c.handle 31 27 = bku then
      ((List.range c.steps.length).filter fun i => match c.steps[i]? with
        | some st => decide (st.st = .committed) && st.mov && !st.rem && decide (st.cls < 7) && decide (cur < st.start - st.pfx)
        | none => false).map fun i => (c, i)
    else []
  let order := sortBy (fun (a b : Chain × Nat) =>
    decide (b.1.prio < a.1.prio) || (a.1.prio = b.1.prio &&
      (decide (a.1.age < b.1.age) || (a.1.age = b.1.age && decide (a.2 ≤ b.2))))) cands
  order.foldl (fun s e =>
    match chainAt s e.1.handle with
    | none => s
    | some c =>
      match c.steps[e.2]? with
      | none => s
      | some st =>
        let bs := (chainsOf (updStep s c.handle e.2 fun st => { st with st := .cancelled }))
        let lb := lowerBound s c e.2 (cur + 1)
        match backfillAt s bs cur c e.2 st (lowerBound s c 0 (cur + 1)) (st.start - lb) lb with
        | some (r, x, p) => moveStep s c e.2 (st.placed bs .committed r x p)
        | none => s) s

/-- Cancel what depends on the cancelled steps of a chain. -/
def cancelAll (s : State) (h : BitVec 32) : State := cancelDeps (chainsOf s).length s h

/-- A chain of `bku` has had steps cancelled or moved between two states. -/
def freedOn (s t : State) (bku : Nat) : Bool :=
  (chainsOf s).any fun c => bits c.handle 31 27 = bku && (match chainAt t c.handle with
    | some d => (List.zip c.steps d.steps).any fun x => x.1.live && (x.2.st == .cancelled || x.2.ridx != x.1.ridx || x.2.start != x.1.start)
    | none => c.steps.any BStep.live)

/-- A backfill pass of every BKU whose chains gave slots back between `s` and `t`. -/
def backfillFreed (s t : State) : State := ((List.range 17).filter (freedOn s t)).foldl backfill t

/-- ABANDON of a committed chain: it and what depends on it are cancelled, and every BKU that has slots back makes its pass (R320). -/
def abandonChain (s : State) (h : BitVec 32) : State :=
  backfillFreed s (sweepChain (cancelAll (cancelSteps s h fun _ => true) h) h)

/-- Every step of the chains that depend on a step of `h` from step `n` on, and recursively of those that depend on them; a chain
depends on one booked before it, so the number of chains bounds the depth. -/
def chainsAfter : Nat → State → BitVec 32 → Nat → List (BitVec 32 × Nat)
  | 0, _, _, _ => []
  | fuel + 1, s, h, n =>
    ((chainsOf s).filter fun d => match d.dep with
      | some (p, i) => p = h && n ≤ i
      | none => false).flatMap fun d => (List.range d.steps.length).map (fun i => (d.handle, i)) ++ chainsAfter fuel s d.handle 0

/-- D(X) for step `n` of a chain: the later steps of the chain, the chains that depend on step `n` or on those, and their dependents
(R317). -/
def dependents (s : State) (h : BitVec 32) (n : Nat) : List (BitVec 32 × Nat) :=
  match chainAt s h with
  | none => []
  | some c => ((range' (n + 1) c.steps.length).map fun i => (h, i)) ++ chainsAfter (chainsOf s).length s h n

/-- Fields of $bkslip (Table 12.9). -/
def slipWord (h : BitVec 32) (step size cause : Nat) (susp : Bool) : Nat :=
  cause + (if susp then 16 else 0) + step * 32 + size % 4096 * 2 ^ 8 + h.toNat * 2 ^ 32

/-- The cause with the largest intrusion count, ties to the lower code; 0 when none is recorded (R317). -/
def slipCause (intr : List Nat) : Nat :=
  let best := (intr.mapIdx fun i n => (i + 1, n)).foldl (fun (b : Nat × Nat) e => if b.2 < e.2 then e else b) (0, 0)
  best.1

/-- The source number of a BKU (Table 18.4). -/
def bkuSrc (bku : Nat) : Nat := if bku < 16 then 0x0900 + bku else 0x0910

/-- Count a life-of-part record; the counters saturate (R393). -/
def bumpLife (s : State) (i n : Nat) : State :=
  { s with life := Tab.set 0 s.life i (min (2 ^ 64 - 1) (Tab.getD 0 s.life i + n)) }

/-- Post the record of a slip and copy its fields into $bkslip of the context's units (R317). -/
def postSlip (s : State) (c : Chain) (n size : Nat) (susp : Bool) (cause : Nat) : State :=
  let w := slipWord c.handle n size cause susp
  let s := post s 0x02 (bkuSrc (bits c.handle 31 27)) false w 0
  let s := if 1 ≤ cause then bumpLife s (0x1C0 + cause) size else s
  { s with units := s.units.map fun e => (e.1, if e.2.ctx = c.ctx then { e.2 with bkslip := BitVec.ofNat 64 w } else e.2) }

/-- Where re-placing the steps of one chain stands: the state, the steps placed so far, and whether a LAG
could not be met (`restart`) or a step found no placement (`dead`). -/
structure Reseat where
  s : State
  done : List Nat
  restart : Bool
  dead : Option Nat
  deriving DecidableEq, Repr

/-- Book a remote step anew at START `x`: its module frees the old span and is asked for the new one. -/
def rebookRemote (s : State) (c : Chain) (mark : StepState) (i : Nat) (st : BStep) (x : Nat) : State :=
  let ask := Sent.hold st.dev { cls := st.cls, cmask := st.cmask, lanes := st.lanes, start := x, dur := st.dur, handle := c.handle }
  let s := updStep s c.handle i fun _ => { st with start := x, st := mark }
  { s with sent := s.sent ++ [.commit st.dev c.handle false, ask] ++ (if mark == .committed then [.commit st.dev c.handle true] else []) }

/-- Remove the booking of one dependent step and place it again after the slip that ended in slot `e`;
`lift` raises the lower bound of the chain's first re-placed step, and `mark` says whether the chain is held or committed (R317). A
step on another module is booked there anew at its lower bound (log 26). -/
def reseatStep (h : BitVec 32) (mark : StepState) (e lift : Nat) (acc : Reseat) (i : Nat) : Reseat :=
  if acc.restart || acc.dead.isSome then acc
  else
    match (chainAt acc.s h).bind fun c => (c.steps[i]?).map fun st => (c, st) with
    | none => acc
    | some (c, st) =>
      let s := updStep acc.s h i fun st => { st with st := .cancelled }
      let lb0 := lowerBound s c i (e + 1)
      let lb := lb0 + (if acc.done.isEmpty then lift else 0)
      if st.rem then { acc with s := rebookRemote s c mark i st lb, done := acc.done ++ [i] }
      else
      match bestPlace s (chainsOf s) e c.ctx c.g (e + 1) lb st with
      | none => { acc with s := s, dead := some i }
      | some (r, x, p) =>
        let prevLive := match (if i = 0 then none else c.steps[i - 1]?) with
          | some q => q.live
          | none => false
        let lagBad := match st.lag with
          | some l => prevLive && decide (lb0 + l < x)
          | none => false
        if lagBad then { acc with s := s, done := acc.done ++ [i], restart := true }
        else
          { acc with s := moveStep s c i (st.placed (chainsOf s) mark r x p), done := acc.done ++ [i] }

/-- Re-place steps of one chain in order, starting again one slot later when a LAG cannot be met; a step
with no placement within the horizon is cancelled with its own dependents (R317); a committed chain with no step left frees its entry (R305). -/
def reseatChain (h : BitVec 32) (mark : StepState) (e : Nat) (idxs : List Nat) : Nat → Nat → State → State
  | 0, _, s => s
  | fuel + 1, lift, s =>
    let r := idxs.foldl (reseatStep h mark e lift) { s := s, done := [], restart := false, dead := none }
    match r.dead with
    | some i =>
      let s := updChain r.s h fun c =>
        { c with steps := c.steps.mapIdx fun j st => if i ≤ j && idxs.elem j then { st with st := .cancelled } else st }
      let lost := idxs.filter (i ≤ ·)
      let gone := match chainAt s h with
        | some c => tellCancelled s c (lost.filterMap (c.steps[·]?))
        | none => s
      let s := cancelAll (lost.foldl (fun s j => dropLease s h j) gone) h
      if mark == .committed then sweepChain s h else s
    | none =>
      if r.restart then
        reseatChain h mark e idxs fuel (lift + 1)
          (r.done.foldl (fun s j => updStep s h j fun st => { st with st := .cancelled }) s)
      else r.s

/-- The slip event of a step that was late and ended in slot `e` (R317). -/
def slip (s : State) (h : BitVec 32) (n : Nat) : State :=
  match (chainAt s h).bind fun c => (c.steps[n]?).map fun st => (c, st) with
  | none => s
  | some (c, st) =>
    match st.endSlot with
    | none => s
    | some e =>
      let b := st.start + st.dur - 1
      let s := postSlip s c n (e - b) st.wasSusp (slipCause st.intr)
      let ds := (dependents s h n).filter fun x => match stepAt s x.1 x.2 with
        | some d => d.live && !d.started
        | none => false
      let groups := (ds.map (·.1)).eraseDups
      let orig : BitVec 32 → Nat := fun g => match (chainAt s g).bind fun c => c.steps[0]? with
        | some d => d.start - d.pfx
        | none => 0
      let later := sortBy (fun a b => decide (orig a < orig b) || (decide (orig a = orig b) && decide (a.toNat ≤ b.toNat)))
        (groups.filter (· != h))
      let s := ((if groups.elem h then [h] else []) ++ later).foldl (fun s g =>
        let held := (chainAt s g).any fun c => c.steps.any fun st => st.st == .held
        reseatChain g (if held then .held else .committed) e ((ds.filter fun x => x.1 = g).map (·.2)) 4096 0 s) s
      sweepChain s h

end Sys2Proof.Machine
end

