-- ==== Sys2Proof/Machine/Lnch.lean ====
section
/-! DEFINITION. Launches: packets and their acceptance (R329 to R334), the start of a unit (R87, R336),
what becomes of a launch (R339, R346, R381), and how a context bank is freed. -/

namespace Sys2Proof.Machine

/-! ## Objects as the control plane reaches them -/

/-- Bytes of an object of Clearing or HBM, read with no capability; none when a byte does not translate. -/
def objRead (s : State) (ctx oid off : Nat) : Nat → Option (List Byte)
  | 0 => some []
  | n + 1 =>
    match hostTranslate s ctx oid (off + n) false, objRead s ctx oid off n with
    | (_, .phys k pa), some bs => some (bs ++ [viewByte s k pa])
    | _, _ => none

/-- Write bytes of an object with no capability, as far as they translate. -/
def objWrite (s : State) (ctx oid off : Nat) : List Byte → State
  | [] => s
  | b :: r =>
    match hostTranslate s ctx oid off true with
    | (s', .phys k pa) => objWrite (putBytes s' k [(pa, b)]) ctx oid (off + 1) r
    | _ => objWrite s ctx oid (off + 1) r

def doublesOf (bs : List Byte) (n : Nat) : List Double :=
  (List.range n).map fun i => BitVec.ofNat 64 (leNat ((bs.drop (8 * i)).take 8))

/-! ## Packets (Table 13.1) -/

def pf (pkt : List Double) (i hi lo : Nat) : Nat := bits (pkt.getD i 0) hi lo

def pktCtx (p : List Double) : Nat := pf p 0 11 0
def pktPrio (p : List Double) : Nat := pf p 0 19 16
def pktTwice (p : List Double) : Bool := pf p 0 21 21 == 1
def pktMinf (p : List Double) : Nat := pf p 0 29 24
def pktCode (p : List Double) : Nat := pf p 1 15 0
def pktUnits (p : List Double) : Nat := pf p 2 23 0 + 1
def pktRows (p : List Double) : Nat := pf p 2 31 24 + 1
def pktGmask (p : List Double) : Nat := pf p 2 47 32
def pktGraph (p : List Double) : Nat := pf p 3 15 0
def pktPhase (p : List Double) : Nat := pf p 3 31 16
def pktJob (p : List Double) : Nat := pf p 3 47 32

/-- A reserved bit of the packet is set. -/
def pktReserved (p : List Double) : Bool :=
  pf p 0 15 12 != 0 || pf p 0 23 22 != 0 || pf p 0 31 30 != 0 || pf p 0 63 48 != 0 ||
  pf p 1 31 16 != 0 || pf p 1 63 56 != 0 || pf p 2 63 52 != 0 || pf p 3 63 48 != 0 ||
  pf p 4 31 25 != 0 || pf p 4 63 48 != 0 || pf p 5 63 48 != 0 || pf p 6 25 25 != 0 ||
  (List.range 8).any fun i => pf p (8 + i) 7 1 != 0 || pf p (8 + i) 63 56 != 0

/-- The hand-over entries that are valid: object and granule. -/
def pktHov (p : List Double) : List (Nat × Nat) :=
  (List.range 8).filterMap fun i =>
    if pf p (8 + i) 0 0 = 1 then some (pf p (8 + i) 55 32, pf p (8 + i) 31 8) else none

/-- The groves a launch may use: those of the context's allocation that GMASK allows (R336). -/
def allowedGroves (s : State) (ctx gmask : Nat) : List Nat :=
  match ctxRec? s ctx with
  | none => []
  | some r => (List.range 16).filter fun g =>
      (gmask = 0 || gmask.testBit g) && (List.range 8).any fun i => r.body.hmask.getLsbD (8 * g + i)

/-- The partition's bank count (R351); none when it breaks a limit. -/
def bankCount (s : State) (p : List Double) (c : Code) : Option Nat :=
  let nb := match pf p 2 51 48 with
    | 0 => ((List.range 7).map (2 ^ ·)).find? fun n => c.pneed ≤ n * bankBytes
    | k + 1 => if c.pneed ≤ 2 ^ k * bankBytes then some (2 ^ k) else none
  nb.filter fun n => decide (n ≤ ((ctxRec? s (pktCtx p)).map (·.body.pbanks)).getD 0)

/-- GRAPH, PHASE and JOB belong to the context and are bound as the packet says, where bound (R331). -/
def hierOk (s : State) (ctx : Nat) (p : List Double) : Bool :=
  (match s.graphs.get? (pktGraph p) with
   | some i => i.owner = ctx && i.parent = pktPhase p
   | none => true) &&
  (match s.phases.get? (pktPhase p) with
   | some i => i.owner = ctx && i.parent = pktJob p
   | none => true) &&
  (match s.jobs.get? (pktJob p) with
   | some i => i.owner = ctx
   | none => true)

/-- The acceptance checks of Table 13.2 on a packet pushed by `ctx` to the queue that `q` names; the
misaligned packet capability of LAUNCH is `badAlign`, and a packet taken from a ring skips QFULL. -/
def acceptCode (s : State) (ctx : Nat) (p : List Double) (q : Nat) (badAlign ring : Bool) : Nat :=
  let mf := pktMinf p
  if badAlign || pktReserved p || pktRows p > 192 || (1 ≤ mf && mf ≤ 11) || mf > 38 || pf p 2 51 48 > 7 then 0x20
  else if pktCtx p != ctx then 0x2A
  else
    match s.queues.get? q with
    | none => 0x24
    | some qu =>
      if qu.ctx != ctx then 0x24
      else
        match grantOf s ctx with
        | none => 0x21
        | some gr =>
          let boost := pf p 0 20 20 == 1
          if pf p 0 47 32 > gr.maxp || mf > gr.minf || (boost && !gr.boost) || (mf > 28 && !boost) then 0x21
          else
            match s.codes.get? (pktCode p) with
            | none => 0x22
            | some c =>
              if c.ctx != ctx || (pf p 1 55 32 != 0xFFFFFF && c.counts.c ≤ pf p 1 55 32) then 0x22
              else if !hierOk s ctx p then 0x23
              else if (pktHov p).any (fun h => match objValid s ctx h.1 with
                | some e => decide (e.size ≤ 65536 * h.2)
                | none => true) then 0x26
              else if pf p 6 24 24 = 1 && (match objValid s ctx (pf p 6 23 0) with
                | some e => decide (1 < e.lvl) || decide (e.size < pf p 6 63 26 * 8 + 8)
                | none => true) then 0x2B
              else
                let gs := allowedGroves s ctx (pktGmask p)
                if gs.isEmpty || (pktTwice p && gs.length < 2) || (bankCount s p c).isNone then 0x27
                else if !ring && qu.depth ≤ qu.entries.length then 0x25
                else 0

/-- The hand-over set as the bindings stand (R330). -/
def handOver (s : State) (ctx : Nat) (p : List Double) : List Nat :=
  ((pktHov p).filterMap fun h => syncOf s ctx h.1 h.2).eraseDups

/-- Bind GRAPH to PHASE to JOB at the first accepted launch that names them (R331). -/
def bindIds (s : State) (ctx : Nat) (p : List Double) : State :=
  let add := fun (t : Tab Ident) (k parent : Nat) =>
    if t.has k then t else t.put k { owner := ctx, parent := parent, counter := 0 }
  { s with graphs := add s.graphs (pktGraph p) (pktPhase p)
           phases := add s.phases (pktPhase p) (pktJob p)
           jobs := add s.jobs (pktJob p) 0 }

/-- HEAD and TAIL, and the packets, of a ring in the context's memory (R333). -/
def ringPut (s : State) (q : Queue) (k : Nat) (p : List Double) : State :=
  let s := objWrite s q.ctx q.oid (q.off + 64 + 128 * (k % q.depth)) (p.flatMap fun d => leBytes 8 d.toNat)
  objWrite s q.ctx q.oid (q.off + 4) (leBytes 4 ((k + 1) % 2 ^ 32))

/-- Accept a packet: it takes the next launch identifier, enters the queue, and the queue's bit is set
after it (R331, R334). -/
def pushPacket (s : State) (ctx : Nat) (p : List Double) (q : Nat) : State × Nat :=
  let lid := s.nextLid
  let hov := handOver s ctx p
  let s := hov.foldl syncRelease s
  let s := bindIds s ctx p
  let s := match s.queues.get? q with
    | some qu => if qu.resident then s else ringPut s qu (qu.head + qu.entries.length) p
    | none => s
  ({ s with
      nextLid := (lid + 1) % 2 ^ 32
      queues := s.queues.upd q fun qu => { qu with entries := qu.entries ++ [{ lid := lid, pkt := p, hov := hov, tick := s.time }] }
      kicks := if s.kicks.has q then s.kicks else s.kicks.put q s.time }, lid)

/-! ## What becomes of a launch -/

def launchAt (s : State) (slot : Nat) : Option Launch := s.launches.get? slot
def updLaunch (s : State) (slot : Nat) (f : Launch → Launch) : State := { s with launches := s.launches.upd slot f }

/-- The outstanding count (R339). -/
def Launch.outstanding (l : Launch) : Nat := l.placed - l.retired + l.ticketsOpen

/-- Free the slot of a failed or cancelled launch once nothing is outstanding; a failed one posts FAILED
(R346, R381). -/
def settle (s : State) (slot : Nat) : State :=
  match launchAt s slot with
  | none => s
  | some l =>
    if (l.failed || l.cancelled) && l.outstanding = 0 then
      let s := { s with launches := s.launches.del slot }
      if l.failed then post s 0x07 0x0920 false l.lid 0 else s
    else s

/-- Discard the queued and parked tickets of a launch (R346, R381). -/
def dropTickets (s : State) (slot : Nat) : State :=
  let mine := (s.tickets.filter fun t => t.2.slot = slot).map (·.1)
  let s := { s with
    tickets := s.tickets.filter fun t => t.2.slot != slot
    ready := s.ready.map fun e => (e.1, e.2.filter fun t => !mine.elem t)
    parks := (s.parks.map fun e => (e.1, e.2.filter fun t => !mine.elem t)).filter fun e => !e.2.isEmpty }
  updLaunch s slot fun l => { l with ticketsOpen := l.ticketsOpen - mine.length }

/-- A launch fails (R381). -/
def failLaunch (s : State) (slot : Nat) : State :=
  settle (dropTickets (updLaunch s slot fun l => { l with failed := true }) slot) slot

/-! ## The start of a unit -/

def Six.all {α : Type} (a : α) : Six α := ⟨a, a, a, a, a, a⟩

def Six.get {α : Type} (x : Six α) (t : Stream) : α :=
  match t with
  | .vl => x.vl
  | .va => x.va
  | .vs => x.vs
  | .m => x.m
  | .d => x.d
  | .c => x.c

def Six.set {α : Type} (x : Six α) (t : Stream) (a : α) : Six α :=
  match t with
  | .vl => { x with vl := a }
  | .va => { x with va := a }
  | .vs => { x with vs := a }
  | .m => { x with m := a }
  | .d => { x with d := a }
  | .c => { x with c := a }

def Seqr.idle : Seqr := { queue := [], run := none, ending := false }
def LoopLevel.initial : LoopLevel := { active := false, start := 0, count := 0, iter := 0 }
def BTarget.none : BTarget := { valid := false, target := 0, pr := 0, sn := false }
def Tile.initial : Tile := { f := false, reads := 0, remain := 0, reg := false, cap := Cap.none }
def Frame.initial : Frame :=
  { tcause := 0, tword := 0, taddr := 0, tobj := 0, tnum := 0, tmode := 0, tpc := [0, 0, 0, 0, 0], tfid := 0 }
def DSetup.none : DSetup :=
  { mask := Option.none, red := Option.none, bind := Option.none, stamp := Option.none, fill := false,
    cvt := Option.none, at_ := Option.none }
def MStat.initial : MStat := { accovf := false, ovfm := 0, chkf := false, pdisc := false }
def SqReg.empty : SqReg := { entries := [], part := [], producer := none }

def Area.none : Area := { oid := 0, base := 0, used := 0, map := 0 }

/-- The kind of word w of a code area, as the area's map in memory holds it under the context's key (R81, R226). -/
def kindAt (s : State) (key : Nat) (a : Area) (w : Nat) : BitVec 2 :=
  BitVec.ofNat 2 ((viewByte s key (a.map + w / 4)).toNat / 4 ^ (w % 4))

/-- c15 at unit start (R87, R401); an object with no pool word takes its first granule (log 22). -/
def poolCap (s : State) (key : Nat) (a : Area) (base count : Nat) : Cap :=
  let ws := (range' base (base + count)).filter fun w => kindAt s key a w = 2
  let lo := ws.headD base / 16384
  let hi := ws.getLastD base / 16384
  Cap.mk' true a.oid rR lo (hi + 1 - lo) 0

/-- A read-only capability to bytes [off, off + n) of an object: the smallest run of granules (R330), up to the largest window; untagged when no
window holds its first byte (R256, log 92). -/
def runCap (oid off n : Nat) : Cap :=
  let lo := off / 65536
  if 2 ^ 24 ≤ lo then Cap.none
  else Cap.mk' true oid rR lo (min (2 ^ 24 - 1) (min (2 ^ 24) ((off + n - 1) / 65536 + 1) - lo)) off

/-- The most rights that a context's capabilities to an object carry (R357). -/
def rightsLimit (s : State) (ctx oid : Nat) : Nat :=
  match s.grants.find? fun g => g.recipient = ctx && g.roid = oid with
  | some g => g.rights.toNat
  | none => 255

/-- A capability with no right beyond a grant's. -/
def Cap.within (c : Cap) (s : State) (ctx : Nat) : Cap := Cap.mk' c.tag c.oid (c.rights &&& rightsLimit s ctx c.oid) c.base c.len c.cursor

/-- c14 at unit start (R87, R330, R357). -/
def paramCap (s : State) (ctx : Nat) (p : List Double) (c : Code) (a : Area) : Cap :=
  if pf p 4 24 24 = 1 then (runCap (pf p 4 23 0) (pf p 5 47 0) (pf p 4 47 32 + 1)).within s ctx
  else
    match c.template with
    | some (w, n) => runCap a.oid (4 * (c.bases.c + w)) (4 * n)
    | none => Cap.none

/-- The registers of a unit at its start (R87, R99, R105, R259, R282, R341). -/
def startRegs (entry : Nat) (xs : List Double) (c13 c14 c15 : Cap) : Regs :=
  { s := (Vector.replicate 32 (0 : Double)).mapFinIdx fun i _ _ => if 1 ≤ i then xs.getD (i - 1) 0 else 0
    p := Vector.replicate 8 false
    vp := Vector.replicate 8 0
    b := Vector.replicate 8 BTarget.none
    ret := []
    loops := Vector.replicate 3 LoopLevel.initial
    c := (Vector.replicate 16 Cap.none).mapFinIdx fun i a _ => if i = 13 then c13 else if i = 14 then c14 else if i = 15 then c15 else a
    pc := entry % 2 ^ 24, plain := false, flags := 0, lfsrv := 1, lfsrd := 1, bfsel := 0, tvec := 0, tres := 0 }

/-- Timelines, tokens, tiles, configuration sets and D descriptor at unit start. -/
def startCoupling (slip : Nat) : Coupling :=
  { issued := Six.all 0, tok := Vector.replicate 16 { count := 0, order := [] }, tile := Vector.replicate 16 Tile.initial
    cfg := { Six.all [] with va := [(8, BitVec.ofNat 32 slip)] }
    mcfg := Vector.replicate 4 [], mactive := Vector.replicate 4 [], dims := [] }

/-- A unit that has just started. -/
def startUnit (lid slot index ctx copy : Nat) (ticket : Option Nat) (prio code : Nat) (r : Regs) (cpl : Coupling) (time : Nat) : Unit :=
  { lid := lid, slot := slot, index := index, ctx := ctx, copy := copy, ticket := ticket, prio := prio, since := time, code := code, r := r, cpl := cpl
    bksel := 0, hsel := 0, psplit := 0, tnctx := ctx
    mstat := Vector.replicate 4 MStat.initial
    seqr := Six.all Seqr.idle, latches := [], opbuf := [], groupSwitch := false, matAt := none, remap := none, closing := [], setup := DSetup.none
    ops := [], puts := [], replay := [], pos := Six.all 0, sq := Vector.replicate 8 SqReg.empty
    leases := Vector.replicate 4 none, retained := 0, ladle := none, bkslip := 0, written := 0, role := false, count := 0, sealed := false
    retry := 0, ckpt := { regs := r, cpl := cpl }, fills := [], building := [], inh := false, frame := Frame.initial
    cause := none, cause2 := none, served := none, owed := [], roll := none, killed := none, cancelled := false, halting := false
    sig := 0, waits := Six.all none, progress := time, cseg := none, body := none, capts := [], words := 0 }

/-- Zero the rows that a bank's unit covers (R349). -/
def clearRows (s : State) (h : Nat) (bank : Bool) (rows : Nat) : State :=
  let lo := 192 * h + if bank then 192 - rows else 0
  { s with rows := s.rows.filter fun e => !(lo ≤ e.1 && e.1 < lo + rows)
           rowPoison := s.rowPoison.filter fun e => !(lo ≤ e.1 && e.1 < lo + rows) }

/-- Only units of this context have left rows that a unit of the bank at `k` may cover: a unit of 192 rows covers those of both banks (R349, R354). -/
def ownRows (s : State) (k ctx : Nat) : Bool := s.lastCtx.get? k = some ctx && (s.lastCtx.get? (k ^^^ 1)).all (· = ctx)

def runningBank (s : State) (h : Nat) : Bool := Tab.getD false s.running h

/-- A unit that may issue: it lives, and no served fault of it is unanswered (R19, R376). -/
def Unit.ready (u : Unit) : Bool :=
  u.killed.isNone && match u.served with
  | none => true
  | some v => v.answer.isSome

/-- A unit whose bank stops running: its segments are abandoned (R85). -/
def Unit.leaveSegments (u : Unit) : Unit :=
  let off := fun (q : Seqr) => { q with run := q.run.map fun r => { r with seg := false } }
  { u with cseg := none
           seqr := { vl := off u.seqr.vl, va := off u.seqr.va, vs := off u.seqr.vs, m := off u.seqr.m, d := off u.seqr.d, c := u.seqr.c } }

/-- The hearth runs a bank from now on: a switch is a group switch for the unit that runs (R152), and the segments of the unit that
stops are abandoned (R85). A bank that runs already keeps running. -/
def runBank (s : State) (h : Nat) (bank : Bool) : State :=
  if runningBank s h = bank then s
  else
    let k := 2 * h + if bank then 1 else 0
    { s with running := Tab.set false s.running h bank
             units := (s.units.upd k fun u => { u with groupSwitch := true }).upd (k ^^^ 1) Unit.leaveSegments }

/-- Switch hearth `h` away from a bank, when the other bank holds a unit that is ready (R19). -/
def switchFrom (s : State) (h : Nat) (bank : Bool) : State :=
  match s.units.get? (2 * h + if bank then 0 else 1) with
  | some o => if o.ready then runBank s h (!bank) else s
  | none => s

/-- A bank that a unit has come to runs, unless the other bank holds a unit that is ready (R19, R376). -/
def joinBank (s : State) (h : Nat) (bank : Bool) : State :=
  if (s.units.get? (2 * h + if bank then 0 else 1)).any Unit.ready then s else runBank s h bank

/-- Start a unit of the launch in `slot` on bank `bank` of hearth `h` (R336, R341, R349). -/
def placeUnit (s : State) (slot h : Nat) (bank : Bool) (index copy : Nat) (ticket : Option (Nat × Ticket)) : State :=
  match launchAt s slot with
  | none => s
  | some l =>
    match s.codes.get? (pktCode l.pkt), ctxRec? s l.ctx with
    | some c, some r =>
      let a := r.areas.c
      let e := pf l.pkt 1 55 32
      let entry := match ticket with
        | some (_, t) => t.entry
        | none => c.bases.c + if e = 0xFFFFFF then c.entry else e
      let xs := match ticket with
        | some (_, t) => t.xs
        | none => []
      let regs := startRegs entry xs (Cap.mk' true c.syncOid (rR + rA) 0 1 0) (paramCap s l.ctx l.pkt c a)
        (poolCap s r.key a c.bases.c c.counts.c)
      let k := 2 * h + if bank then 1 else 0
      let prio := match ticket with
        | some (_, t) => t.prio
        | none => pktPrio l.pkt
      let u := startUnit l.lid slot index l.ctx copy (ticket.map (·.1)) prio (pktCode l.pkt) regs (startCoupling c.slip) s.time
      let s := if ownRows s k l.ctx then s else clearRows s h bank (pktRows l.pkt)
      let g := h / 8
      let s := updGrove s g fun gr =>
        if gr.logFrozen || gr.log.elem l.lid then gr
        else if gr.log.length < 4096 then { gr with log := gr.log ++ [l.lid] } else { gr with logOvf := true }
      joinBank { s with
        units := s.units.put k u
        lastCtx := s.lastCtx.put k l.ctx
        launches := s.launches.upd slot fun l => { l with groves := l.groves ||| BitVec.ofNat 16 (2 ^ g) } } h bank
    | _, _ => s

/-! ## Freeing a bank -/

/-- The step that a booked lease serves ends in this slot (R315). -/
def endStep (s : State) (h : BitVec 32) (n : Nat) : State :=
  sweepChain (updStep s h n fun st => if st.live then { st with st := .ended, endSlot := some (curSlot s), lease := none } else st) h

/-- Whether a step asked for retention (RET). -/
def stepRet (s : State) (h : BitVec 32) (n : Nat) : Bool := ((stepAt s h n).map (·.ret)).getD false

/-- Release lease slot `ls` of the unit at `k`: a booked step ends, and the engine that serves it goes off or into
retention (R308, R315). -/
def releaseSlot (s : State) (k ls : Nat) (toRet : Bool) : State :=
  match (s.units.get? k).bind fun u => u.leases[ls]?.join with
  | none => s
  | some l =>
    if l.evicted then s
    else
      let ret := toRet || (!l.isOpen && stepRet s l.handle l.step)
      let s := if l.isOpen then s else endStep s l.handle l.step
      let s := if (engAt s l.eng).key = some (k, ls) then engineEnd s l.eng ret (if ret then some (k, ls) else none) else s
      updUnit s k fun u =>
        { u with leases := vmodify u.leases ls fun _ => none
                 retained := BitVec.ofNat 4 (putBits u.retained.toNat ls 1 (if ret then 1 else 0)) }

/-- Release the Ladle step bound to the unit's D stream. -/
def releaseLadle (s : State) (k : Nat) : State :=
  match (s.units.get? k).bind (·.ladle) with
  | none => s
  | some l => updUnit (endStep s l.handle l.step) k fun u => { u with ladle := none }

def releaseAll (s : State) (k : Nat) : State :=
  releaseLadle ([0, 1, 2, 3].foldl (fun s ls => releaseSlot s k ls false) s) k

/-- An operation of a lease is in flight: a command of slot `ls`, or a copy of the Ladle for none. -/
def Unit.serving (u : Unit) (ls : Option Nat) : Bool := u.ops.any fun o => match o.body with
  | .m m => ls = some m.slot
  | .d _ => ls.isNone
  | .vl _ | .va _ | .vs _ => false

/-- Release the leases that nothing in flight uses; the others serve what has issued first (R381). -/
def releaseIdle (s : State) (k : Nat) : State :=
  match s.units.get? k with
  | none => s
  | some u =>
    let s := ([0, 1, 2, 3].filter fun ls => !u.serving (some ls)).foldl (fun s ls => releaseSlot s k ls false) s
    if u.serving none then s else releaseLadle s k

/-- Who books in a unit's name: launch, unit, and its copy or ticket. -/
def Unit.who (u : Unit) : Nat × Nat × Nat := (u.lid, u.index, u.copy + 2 * u.ticket.getD 0)

/-- A chain's running steps that no unit has leased end with the unit that booked them (log 31). -/
def endUnleased (s : State) (c : Chain) : State :=
  (List.range c.steps.length).foldl (fun s i => match c.steps[i]? with
    | some st => if st.runs && st.lease.isNone && st.cls < 7 then endStep s c.handle i else s
    | none => s) s

/-- Abandon the chains a unit booked, those with PERS only when `pers` (R298, R320, R346). -/
def abandonOf (s : State) (u : Unit) (pers : Bool) : State :=
  ((chainsOf s).filter fun c => c.who = u.who && (pers || !c.pers)).foldl (fun s c => abandonChain (endUnleased s c) c.handle) s

/-- Open requests that a unit queued. -/
def dropRequests (s : State) (k : Nat) : State := { s with openReqs := s.openReqs.filter fun r => r.key != k }

/-- A launch's unit or ticket unit retires in the completion unit (R339). -/
def retireUnit (s : State) (slot : Nat) (ticket : Bool) : State :=
  settle (updLaunch s slot fun l =>
    if ticket then { l with ticketsOpen := l.ticketsOpen - 1 } else { l with retired := l.retired + 1 }) slot

/-- Remove the unit at `k` from its bank; the hearth switches to the other bank (R19). -/
def clearBank (s : State) (k : Nat) : State :=
  let s := { s with units := s.units.del k, engines := s.engines.map fun e =>
    (e.1, { e.2 with retains := e.2.retains.filter fun r => r.1 != k }) }
  switchFrom s (k / 2) (k % 2 == 1)

/-- The halt event of a unit reaches the completion unit: a run-twice copy leaves its signature there, any
other unit retires (R339, R340). -/
def completeHalt (s : State) (slot : Nat) (c : CopySig) (ticket : Bool) : State :=
  match launchAt s slot with
  | none => s
  | some l =>
    if pktTwice l.pkt && !ticket then updLaunch s slot fun l => { l with sigs := l.sigs ++ [c] }
    else retireUnit s slot ticket

/-- A unit's halt event: held in the buffer from a hand-over until the standby acknowledges (R398). -/
def haltEvent (s : State) (slot : Nat) (c : CopySig) (ticket : Bool) : State :=
  if s.disp.holding then { s with disp := { s.disp with held := s.disp.held ++ [(slot, c, ticket)] } }
  else completeHalt s slot c ticket

/-- Free the bank of a killed unit whose operations have completed, with the leases that served them (R381). Its launch's outstanding count
falls. -/
def freeKilled (s : State) (k : Nat) : State :=
  match s.units.get? k with
  | none => s
  | some u =>
    if u.killed.isSome && u.ops.isEmpty && u.remap.isNone then
      haltEvent (clearBank (releaseAll s k) k) u.slot ⟨u.index, u.copy, k / 2, u.sig⟩ u.ticket.isSome
    else s

/-- An operation that a drain leaves and a kill discards: one held at a fault, a copy that waits for its tick, or a VS
store whose remaining pages are parked (R249, R372). -/
def Op.discards (o : Op) : Bool :=
  o.held || match o.body with
  | .d x => !x.started
  | .vs x => x.writes.isEmpty
  | .vl _ | .va _ | .m _ => false

/-- Payload of a fault record in the mailbox: FID and CAUSE, KIND and CTX (Table 18.4, log 21). -/
def faultPayload (fid code kind ctx : Nat) : Nat × Nat := (fid + code * 2 ^ 32, kind + ctx * 2 ^ 16)

/-- Kill the unit at `k` (R381): its streams stop, its parked stores and held copies are discarded, its chains
abandoned and its leases released, those that serve an operation in flight when it has completed; a queued request is withdrawn (log 28). Its
launch fails, unless it is cancelled. -/
def killUnit (s : State) (k : Nat) (c : Cause) (pers : Bool) : State :=
  match s.units.get? k with
  | none => s
  | some u =>
    let s := bumpLife s 0x1F1 1
    let s := if c.code = 0 then s
      else
        let pl := faultPayload 0 c.code c.kind u.ctx
        post s 0x01 (k / 2) c.inj pl.1 pl.2
    let s := updUnit s k fun u =>
      { u with killed := some c, cause := none, cause2 := none, served := none, owed := [], roll := none, replay := [],
               halting := false, ops := u.ops.filter fun o => !o.discards }
    let s := { s with ring := match u.served with
      | some v => { s.ring with open_ := s.ring.open_.filter fun e => e.1 != v.fid }
      | none => s.ring }
    let s := abandonOf s u pers
    let s := releaseIdle (dropRequests s k) k
    let s := if u.cancelled then s else failLaunch s u.slot
    freeKilled s k

/-! ## Cancel (R346) -/

/-- A wait that R85 excuses. -/
def excused : Option WaitKind → Bool
  | some .token | some .tile | some .streamReg | some .issueTick | some .mwait | some .memory | some .replay | some .answer => true
  | some .timeline | some .strands | some .engine | some .queueFull | some .drain | some .control | none => false

/-- The launches of a scope: level 0 graph, 1 phase, 2 job, 3 launch; a launch already complete is gone. -/
def inScope (ctx lvl id : Nat) (lid c : Nat) (p : List Double) : Bool :=
  c = ctx && (if lvl = 0 then pktGraph p = id else if lvl = 1 then pktPhase p = id else if lvl = 2 then pktJob p = id else lid = id)

/-- The packet in a slot of a ring, as memory holds it; what does not translate reads as zeros (log 34). -/
def ringPacket (s : State) (q : Queue) (k : Nat) : List Double :=
  match objRead s q.ctx q.oid (q.off + 64 + 128 * (k % q.depth)) 128 with
  | some bs => doublesOf bs 16
  | none => List.replicate 16 0

/-- Write a queue's packets and counts into its ring (R333). -/
def ringSync (s : State) (q : Queue) : State :=
  let s := (List.range q.entries.length).foldl (fun s i =>
    match q.entries[i]? with
    | some e => ringPut s q (q.head + i) e.pkt
    | none => s) s
  objWrite s q.ctx q.oid q.off (leBytes 4 q.head ++ leBytes 4 ((q.head + q.entries.length) % 2 ^ 32))

/-- A ring's queue without some of its packets, the others as the ring holds them. -/
def Queue.without (q : Queue) (s : State) (gone : QEntry → Bool) : Queue :=
  { q with entries := (q.entries.mapIdx fun i e => (e, ringPacket s q (q.head + i))).filterMap fun e =>
      if gone e.1 then none else some { e.1 with pkt := e.2 } }

/-- Cancel every launch of the scope: its packets and tickets are discarded, no further unit is placed, and
its running units are marked for a kill at their next PHASE or excused wait. Answers how many have not completed, those cancelled or failed before
among them. -/
def cancelScope (s : State) (p : Nat → Nat → List Double → Bool) : State × Nat :=
  let hit := fun (l : Launch) => p l.lid l.ctx l.pkt
  let slots := (s.launches.filter fun e => hit e.2 && !e.2.cancelled).map (·.1)
  let lids := ((s.launches.filter fun e => hit e.2).map fun e => e.2.lid) ++
    s.queues.flatMap fun q => (q.2.entries.filter fun e => p e.lid q.2.ctx e.pkt).map (·.lid)
  let gone := fun (q : Queue) (e : QEntry) => p e.lid q.ctx e.pkt
  let rings := s.queues.filter fun q => !q.2.resident && q.2.entries.any (gone q.2)
  let s := rings.foldl (fun s q => ringSync s (q.2.without s (gone q.2))) s
  let s := { s with
    queues := s.queues.map fun q => (q.1, { q.2 with entries := q.2.entries.filter fun e => !gone q.2 e })
    units := s.units.map fun e => if slots.elem e.2.slot then (e.1, { e.2 with cancelled := true }) else e }
  let s := slots.foldl (fun s slot =>
    settle (dropTickets (updLaunch s slot fun l => { l with cancelled := true }) slot) slot) s
  (s, lids.eraseDups.length)

end Sys2Proof.Machine
end

