-- ==== Sys2Proof/Machine/Ops.lean ====
section
/-! DEFINITION. The named operations over registers, and the shared course of a word: the next address
(R43, R44, R284 to R287), causes, their raising and delivery (R370 to R375), the completion of an operation
(R217, R296), fault units (R392), and the skeletons of a control word and of an engine word. -/

namespace Sys2Proof.Machine

abbrev Out := Host.Outcome State Fault Refusal

/-! ## Registers (R48, R50, R158, R259) -/

def Unit.sreg (u : Unit) (i : SReg) : Double := if i = 0 then 0 else u.r.s[i.toNat]'i.isLt
/-- A write to s0 is discarded (R50). -/
def Unit.setS (u : Unit) (i : SReg) (v : Double) : Unit :=
  if i = 0 then u else { u with r := { u.r with s := u.r.s.set i.toNat v i.isLt } }
/-- p0 reads 1. -/
def Unit.preg (u : Unit) (i : PReg) : Bool := i = 0 || u.r.p[i.toNat]'i.isLt
/-- A write to p0 is discarded. -/
def Unit.setP (u : Unit) (i : PReg) (v : Bool) : Unit :=
  if i = 0 then u else { u with r := { u.r with p := u.r.p.set i.toNat v i.isLt } }
def Unit.guard (u : Unit) (g : GReg) : Bool := u.preg (g.zeroExtend 3)
/-- vp0 enables all lanes. -/
def Unit.vpreg (u : Unit) (i : PReg) : BitVec 256 := if i = 0 then BitVec.allOnes 256 else u.r.vp[i.toNat]'i.isLt
def Unit.setVp (u : Unit) (i : PReg) (v : BitVec 256) : Unit :=
  if i = 0 then u else { u with r := { u.r with vp := u.r.vp.set i.toNat v i.isLt } }
def Unit.creg (u : Unit) (i : CReg) : Cap := u.r.c[i.toNat]'i.isLt
def Unit.setC (u : Unit) (i : CReg) (v : Cap) : Unit :=
  { u with r := { u.r with c := u.r.c.set i.toNat v i.isLt } }
def Unit.breg (u : Unit) (i : BReg) : BTarget := u.r.b[i.toNat]'i.isLt
def Unit.setB (u : Unit) (i : BReg) (v : BTarget) : Unit :=
  { u with r := { u.r with b := u.r.b.set i.toNat v i.isLt } }
def Unit.level (u : Unit) (l : Nat) : LoopLevel := u.r.loops.toList.getD l LoopLevel.initial
def Unit.setLevel (u : Unit) (l : Nat) (v : LoopLevel) : Unit :=
  { u with r := { u.r with loops := vmodify u.r.loops l fun _ => v } }
def Unit.addFlags (u : Unit) (f : Flags) : Unit := { u with r := { u.r with flags := orFlags u.r.flags f } }
def Unit.setPc (u : Unit) (pc : Nat) : Unit := { u with r := { u.r with pc := pc % 2 ^ 24 } }
def Unit.tokAt (u : Unit) (i : Nat) : Tok := u.cpl.tok.toList.getD i ⟨0, []⟩
def Unit.setTok (u : Unit) (i : Nat) (t : Tok) : Unit :=
  { u with cpl := { u.cpl with tok := vmodify u.cpl.tok i fun _ => t } }
def Unit.tileAt (u : Unit) (i : Nat) : Tile := u.cpl.tile.toList.getD i Tile.initial
def Unit.setTile (u : Unit) (i : Nat) (t : Tile) : Unit :=
  { u with cpl := { u.cpl with tile := vmodify u.cpl.tile i fun _ => t } }
def Unit.setWait (u : Unit) (str : Stream) (w : Option WaitKind) : Unit := { u with waits := u.waits.set str w }
def putUnit (s : State) (k : Nat) (u : Unit) : State := { s with units := s.units.put k u }

/-- The context of a unit has privilege. -/
def privileged (s : State) (u : Unit) : Bool := ((ctxRec? s u.ctx).map (·.body.priv)).getD false

/-- The unit's code object. -/
def codeOf (s : State) (u : Unit) : Option Code := s.codes.get? u.code

/-- A unit of a run-twice launch (R340). -/
def isTwice (s : State) (u : Unit) : Bool :=
  u.ticket.isNone && ((launchAt s u.slot).map fun l => pktTwice l.pkt).getD false

/-- The accumulator rows of a unit, and the rows added to an index it names (R337). -/
def unitRows (s : State) (u : Unit) : Nat := ((launchAt s u.slot).map fun l => pktRows l.pkt).getD 192
def rowBase (s : State) (k : Nat) (u : Unit) : Nat :=
  192 * (k / 2) + if k % 2 = 1 then 192 - unitRows s u else 0

/-! ## The next address (R43, R44, R284, R287) -/

inductive NextAct where
  | seq
  | jump (q : BReg)
  | call (q : BReg)
  | ret
  | endLoop (l : Nat)
  | endInner
  deriving DecidableEq, Repr

def actOf : Nxt → NextAct
  | .seq => .seq
  | .jump q => .jump q
  | .call q => .call q
  | .ret => .ret
  | .endLoop l => .endLoop l.toNat
def factOf : FNxt → NextAct
  | .seq _ => .seq
  | .jump q => .jump q
  | .call q => .call q
  | .ret => .ret
  | .endLoop l => .endLoop l.toNat
def iactOf : INxt → NextAct
  | .seq => .seq
  | .jump => .jump 0
  | .ret => .ret
  | .endInner => .endInner

/-- Levels below `l` are abandoned. -/
def Unit.abandonBelow (u : Unit) (l : Nat) : Unit :=
  { u with r := { u.r with loops := u.r.loops.mapFinIdx fun j x _ => if j < l then { x with active := false } else x } }

/-- The end of loop level `l` (R287); none when the level is not active. -/
def Unit.endLevel (u : Unit) (next l : Nat) : Option Unit :=
  let v := u.level l
  if v.active then
    let u := u.abandonBelow l
    let i := v.iter + 1
    if i < v.count then some ((u.setLevel l { v with iter := i }).setPc v.start)
    else some ((u.setLevel l { v with iter := i, active := false }).setPc next)
  else none

/-- The innermost active level. -/
def Unit.innermost (u : Unit) : Option Nat := [0, 1, 2].find? fun l => (u.level l).active

/-- The next-address action of a word of `len` words, after the word's own effect; none is the sequencing
trap (R44, R284). -/
def Unit.next (u : Unit) (len : Nat) (n : NextAct) : Option Unit :=
  let after := (u.r.pc + len) % 2 ^ 24
  match n with
  | .seq => some (u.setPc after)
  | .jump q =>
    let b := u.breg q
    if !b.valid then none else some (u.setPc (if u.preg b.pr != b.sn then b.target else after))
  | .call q =>
    let b := u.breg q
    if !b.valid || 16 ≤ u.r.ret.length then none
    else some ({ u with r := { u.r with ret := after :: u.r.ret } }.setPc b.target)
  | .ret =>
    match u.r.ret with
    | [] => none
    | a :: rest => some ({ u with r := { u.r with ret := rest } }.setPc a)
  | .endLoop l => u.endLevel after l
  | .endInner =>
    match u.innermost with
    | some l => u.endLevel after l
    | none => none

/-! ## Timelines (R217) -/

/-- The number up to which every operation of a stream has completed. -/
def Unit.done (u : Unit) (str : Stream) : Nat :=
  ((u.ops.filter fun o => o.str = str).map fun o => o.num - 1).foldl min (u.cpl.issued.get str)

/-- A control word whose visible step has begun has still to end: a REMAP, or a LEASE.OPEN whose request has left the hearth (R372). -/
def underWay (s : State) (k : Nat) (u : Unit) : Bool := u.remap.isSome || s.openReqs.any fun r => r.key = k

/-- Nothing of a unit is in flight but what does not end by itself: copies held at a fault, or not started (R372). -/
def Unit.drained (u : Unit) (s : State) (k : Nat) : Bool := !underWay s k u && u.ops.all Op.discards

/-! ## Stream registers (R297) -/

def Unit.sqAt (u : Unit) (i : Nat) : SqReg := u.sq.toList.getD i SqReg.empty
def Unit.setSq (u : Unit) (i : Nat) (x : SqReg) : Unit := { u with sq := vmodify u.sq i fun _ => x }

/-- The producer is released when the register is empty and its producer has no push outstanding: of D, when no bound copy is in flight. -/
def Unit.freeProducer (u : Unit) (i : Nat) : Unit :=
  let x := u.sqAt i
  let outstanding := match x.producer with
    | some (.vs ended) => !ended
    | some .d => u.ops.any fun o => match o.body with
      | .d x => x.desc.bind = some i
      | .vl _ | .va _ | .vs _ | .m _ => false
    | none => false
  if x.entries.isEmpty && x.part.isEmpty && !outstanding then u.setSq i { x with producer := none } else u

/-- The VS strand has ended: it has no push outstanding. -/
def Unit.endPushes (u : Unit) (i : Nat) : Unit :=
  let x := u.sqAt i
  Unit.freeProducer (match x.producer with
    | some (.vs _) => u.setSq i { x with producer := some (.vs true) }
    | some .d | none => u) i

/-! ## Causes (R370, R371) -/

/-- The access that a cause names: object, offset, write, remote. -/
structure Acc where
  oid : Nat
  off : Nat
  wr : Bool
  rem : Bool
  deriving DecidableEq, Repr

def Acc.none : Acc := ⟨0, 0, false, false⟩

/-- Classes of Table 15.1. -/
inductive CauseClass where
  | u | s | p | k
  deriving DecidableEq, Repr

def classOf (code : Nat) : CauseClass :=
  if code < 0x20 then .u else if code < 0x30 then .s else if code < 0x38 then .p else .k

/-- A cause of the control word at the unit's pc. -/
def causeC (u : Unit) (code kind : Nat) (a : Acc) : Cause :=
  { code := code, str := .c, kind := kind, word := u.r.pc, wkind := 0, tcode := 0, off := a.off, oid := a.oid, wr := a.wr,
    rem := a.rem, num := 0, resume := u.r.pc, refill := false, inj := false }

/-- The word index a strand stands at. -/
def strandWord (u : Unit) (str : Stream) : Nat :=
  match (u.seqr.get str).run with
  | some r => r.rcd.start + r.off
  | none => 0

/-- A cause of an engine stream. -/
def causeE (u : Unit) (str : Stream) (code kind num : Nat) (a : Acc) : Cause :=
  { code := code, str := str, kind := kind, word := strandWord u str, wkind := 0, tcode := 0, off := a.off, oid := a.oid,
    wr := a.wr, rem := a.rem, num := num, resume := u.r.pc, refill := false, inj := false }

/-- A cause of an operation in flight. -/
def causeO (u : Unit) (o : Op) (code kind : Nat) (a : Acc) : Cause := { causeE u o.str code kind o.num a with word := o.word }

def streamCode : Stream → Nat
  | .vl => 0
  | .va => 1
  | .vs => 2
  | .m => 3
  | .d => 4
  | .c => 5

def streamOf (n : Nat) : Option Stream := [Stream.vl, .va, .vs, .m, .d, .c][n]?

/-- $tpc of a stream (Table 15.3). -/
def tpcWord (q : Seqr) : Double :=
  match q.run, q.queue with
  | some r, _ => BitVec.ofNat 64 (r.rcd.start + r.off * 2 ^ 24 + r.pass * 2 ^ 32 + if q.ending then 0 else 2 ^ 56)
  | none, d :: _ => BitVec.ofNat 64 d.start
  | none, [] => 0

/-- What the end of a drain leaves: latches and operand buffer emptied, segments abandoned (Table 15.2), and no GET
waits for a token.  -/
def Unit.endDrain (u : Unit) : Unit :=
  { u.leaveSegments with
    latches := [], opbuf := [], groupSwitch := true
    cpl := { u.cpl with tok := u.cpl.tok.map fun t => { t with order := [] } } }

/-- The frame of a cause (R373, Table 15.3). INH stands in the unit. -/
def frameOf (u : Unit) (c : Cause) (fid : Nat) : Frame :=
  { tcause := BitVec.ofNat 64 (c.code + streamCode c.str * 2 ^ 8 + c.kind * 2 ^ 12 + ((u.cause2.map (·.code)).getD 0) * 2 ^ 16)
    tword := BitVec.ofNat 64 (c.word % 2 ^ 24 + c.wkind * 2 ^ 24 + c.tcode * 2 ^ 26)
    taddr := BitVec.ofNat 64 (c.off % 2 ^ 48)
    tobj := BitVec.ofNat 64 (c.oid % 2 ^ 24 + (if c.wr then 2 ^ 24 else 0) + if c.rem then 2 ^ 25 else 0)
    tnum := BitVec.ofNat 64 c.num
    tmode := if u.r.plain then 1 else 0
    tpc := [tpcWord u.seqr.vl, tpcWord u.seqr.va, tpcWord u.seqr.vs, tpcWord u.seqr.m, tpcWord u.seqr.d]
    tfid := BitVec.ofNat 64 fid }

/-- The double-trap cause, KIND 1 in a handler and 2 with no handler enabled (R373). -/
def doubleTrap (u : Unit) (c : Cause) : Cause := { c with code := 0x39, kind := if u.inh then 1 else 2 }

/-- The unit as its handler's first word finds it (R373). -/
def Unit.enter (u : Unit) (c : Cause) (fid : Nat) : Unit :=
  let u := { u with frame := frameOf u c fid, cause := none, inh := true, halting := false, waits := Six.all none }.endDrain
  let resume := if c.str = .c then c.resume else u.r.pc
  { u with r := { u.r with plain := true, tres := BitVec.ofNat 64 (resume % 2 ^ 24) } }.setPc (bits u.r.tvec 23 0)

/-- TAKING A TRAP: a cause of class U whose drain has finished enters the unit's handler, or kills (R373). -/
def deliverTrap (s : State) (k : Nat) (c : Cause) (fid : Nat) : State :=
  match s.units.get? k with
  | none => s
  | some u =>
    if bit u.r.tvec 24 && !u.inh then putUnit s k (u.enter c fid)
    else killUnit s k (doubleTrap u c) false

/-! ## Fault units (R392, Tables 15.9, 18.3) -/

/-- Cancel the steps booked on a retired resource, as ABANDON does (R300). -/
def cancelOn (s : State) (cls g r : Nat) : State :=
  (chainsOf s).foldl (fun s c =>
    let hit := fun (i : Nat) => match c.steps[i]? with
      | some st => onRes c st cls g r
      | none => false
    if (List.range c.steps.length).any hit then
      backfillFreed s (sweepChain (cancelAll (cancelSteps s c.handle hit) c.handle) c.handle)
    else s) s

/-- Declare an Ebith port down (R366). -/
def portDown (s : State) (p : Nat) : State :=
  let x := (s.ports.get? p).getD { down := false, seq := 0, fails := 0 }
  { s with ports := s.ports.put p { x with down := true } }

/-- Retire a lasting fault unit (Table 15.9). -/
def retire (s : State) (f : FaultUnit) : State :=
  if isRetired s f then s
  else
    let s := { s with retired := NSet.ins s.retired (fuKey f), lifeFlash := Tab.set 0 s.lifeFlash (2 ^ 16 + fuKey f) 1 }
    let s := bumpLife s 0x1F3 1
    let s := post s 0x06 (fuSrc f) false (fuClass f + fuIndex f * 2 ^ 8) 0
    match f with
    | .engine e => cancelOn s (clsCode e.cls) e.g e.i
    | .channelGroup c => cancelOn s 7 0 c
    | .ebithPort p => portDown (cancelOn s 8 0 p) p
    | .sensor g i => { s with sensors := s.sensors.upd (4 * g + i) fun x => { x with perm := true, susp := true } }
    | .hearth _ | .pantryBank _ _ | .clearingBank _ => s

/-- One event of a fault unit: it is retired when its event two before lies less than 2^26 ticks back. -/
def countEvent (s : State) (f : FaultUnit) : State :=
  let old := Tab.getD [] s.fuEvents (fuKey f)
  let s := { s with fuEvents := s.fuEvents.put (fuKey f) ((s.time :: old).take 3) }
  match old[1]? with
  | some t => if s.time - t < 2 ^ 26 then retire s f else s
  | none => s

/-! ## Raising (R370 to R372, R386, R388) -/

/-- A class-P cause that a sealed phase, or three rollbacks, turn into the unrecoverable-phase cause. -/
def unrecoverable (u : Unit) (c : Cause) : Option Cause :=
  if u.sealed then some { c with code := 0x23, kind := 1 }
  else if u.retry = 3 then some { c with code := 0x23, kind := 2 }
  else none

/-- Record a cause of class U or S: the unit drains, and a second cause is kept as CAUSE2 (R372). A class-U
cause with nothing in flight is delivered at once. During a rollback only a re-issued fill raises one (R386, R388). -/
def raiseUS (s : State) (k : Nat) (u : Unit) (c : Cause) : State :=
  if (u.roll.isSome && !c.refill) || u.served.isSome then s
  else
    match u.cause with
    | some _ =>
      match u.cause2 with
      | some _ => s
      | none => putUnit s k { u with cause2 := some c }
    | none =>
      if classOf c.code = .u && u.drained s k then deliverTrap s k c 0
      else putUnit s k { u with cause := some c }

/-- RAISING A CAUSE at the unit at `k` (R370, R372): a killed unit's causes are discarded, with what they park or hold (R381). -/
def raise (s : State) (k : Nat) (c : Cause) : State :=
  match s.units.get? k with
  | none => s
  | some u =>
    if u.killed.isSome then putUnit s k { u with ops := u.ops.filter (fun o => !o.discards), replay := [] }
    else
      match classOf c.code with
      | .u | .s => raiseUS s k u c
      | .k => killUnit s k c false
      | .p =>
        match unrecoverable u c with
        | some c' => raiseUS s k u c'
        | none =>
          if u.roll.isSome || u.served.isSome then s
          else putUnit s k { u with roll := some { cause := c, refills := u.fills, running := false }, cause := none, cause2 := none }

/-- Whether a detector is armed to report; the report is taken from its remaining count (R391). -/
def injected (s : State) (det : Nat) : State × Bool :=
  match s.arms.get? det with
  | some (n + 1) => ({ s with arms := Tab.set 0 s.arms det n }, true)
  | _ => (s, false)

/-! ## Tokens of engine streams (R218, R294) -/

/-- Add to a token counter; past 65,535 is the operand-range trap of the stream. -/
def tokAdd (s : State) (k : Nat) (str : Stream) (tk n : Nat) : State :=
  match s.units.get? k with
  | none => s
  | some u =>
    let t := u.tokAt tk
    if 65535 < t.count + n then
      raise s k (if str = .c then causeC u 0x07 0 Acc.none else causeE u str 0x07 0 0 Acc.none)
    else putUnit s k (u.setTok tk { t with count := t.count + n })

/-- Perform the TOK.PUTs whose stream has completed every earlier operation. -/
def flushPuts (s : State) (k : Nat) : State :=
  match s.units.get? k with
  | none => s
  | some u =>
    let ready := fun (p : Stream × Nat × Nat × Nat) => p.2.1 ≤ u.done p.1
    let s := putUnit s k { u with puts := u.puts.filter fun p => !ready p }
    (u.puts.filter ready).foldl (fun s p => tokAdd s k p.1 p.2.2.1 p.2.2.2) s

/-! ## Tiles and completion (R217, R296) -/

/-- What the completion of a reader of tile `t` does, `left` being the operations still incomplete. -/
def Tile.readDone (x : Tile) (others : Bool) : Tile :=
  if x.reads > 0 && x.remain = 0 && !others then { x with f := false, remain := x.reads } else x

def tilesDone (u : Unit) (o : Op) (left : List Op) : Unit :=
  let u := o.readsT.foldl (fun u t =>
    u.setTile t ((u.tileAt t).readDone (left.any fun p => p.readsT.elem t))) u
  o.writesT.foldl (fun u t =>
    if left.any fun p => p.writesT.elem t then u else u.setTile t { u.tileAt t with f := true }) u

/-- A detection attributed to a fault unit is one event of it (R392, Table 18.3); k is 0, 1 and 2 for the causes 0x30,
0x31 and 0x38. -/
def detection (s : State) (f : FaultUnit) (k : Nat) : State := bumpLife (countEvent s f) (0x180 + 8 * fuClass f + k) 1

/-- What the detection of consumed poison counts: an event of the unit that marked it (R389). -/
def poisonEvent (s : State) (p : Poison) : State := detection s p.fu 1

def countPoison (s : State) : Option Poison → State
  | some p => poisonEvent s p
  | none => s

/-- The class-P detection of consumed poison, at the completion of operation `num` (R389). -/
def detectPoison (s : State) (k : Nat) (o : Op) : State :=
  match o.poison, s.units.get? k with
  | some p, some u => raise (poisonEvent s p) k { causeO u o 0x31 p.lvl Acc.none with inj := p.inj }
  | _, _ => s

/-- An operation completes: its flags reach $flags, its tiles change, its number completes, and waiting
TOK.PUTs follow; a killed unit's bank is freed with its last operation (R381). -/
def completeOp (s : State) (k : Nat) (o : Op) : State :=
  match s.units.get? k with
  | none => s
  | some u =>
    let left := u.ops.filter fun p => !(p.str = o.str && p.num = o.num)
    let u := { (tilesDone u o left).addFlags o.flags with ops := left, progress := s.time }
    freeKilled (flushPuts (detectPoison (putUnit s k u) k o) k) k

def findOp (u : Unit) (str : Stream) (num : Nat) : Option Op := u.ops.find? fun o => o.str = str && o.num = num
def Unit.setOp (u : Unit) (o : Op) : Unit :=
  { u with ops := u.ops.map fun p => if p.str = o.str && p.num = o.num then o else p }

/-! ## The skeleton of a control word -/

/-- What a word does: an effect, a trap with no effect of the unit, a cause beside its effect (a store
parked by R220, a read that consumed poison by R389), a wait, or a state of its own, to which no
next-address action is added (a kill, the end of a handler). -/
inductive Res where
  | ok (s : State) (u : Unit)
  | trap (s : State) (code kind : Nat) (a : Acc)
  | soft (code : BitVec 8)
  | okRaise (s : State) (u : Unit) (code kind : Nat) (a : Acc) (p : Option Poison)
  | wait (s : State) (u : Unit) (w : WaitKind)
  | whole (s : State)

/-- The unit after a word has issued. -/
def Unit.issuedAt (u : Unit) (str : Stream) (time : Nat) : Unit :=
  { u.setWait str none with progress := time, words := u.words + if str = .c then 1 else 0 }

/-- The course of a control word at unit `k` after its effect (R44, R371, R375). A word whose next-address action fails its check neither
waits nor makes an access: its sequencing trap comes before a wait and before an access's served fault. The traps of R39 item 6 come before
it (log 78). -/
def courseC (s0 : State) (k : Nat) (u0 : Unit) (n : NextAct) (len : Nat) : Res → State
  | .ok s u =>
    match u.next len n with
    | some u' => putUnit s k (u'.issuedAt .c s.time)
    | none => raise s0 k (causeC u0 0x04 0 Acc.none)
  | .trap s code kind a =>
    if classOf code = .s && (u0.next len n).isNone then raise s0 k (causeC u0 0x04 0 Acc.none) else raise s k (causeC u0 code kind a)
  | .soft code =>
    raise s0 k { causeC u0 0x14 (code.toNat % 16) Acc.none with tcode := code.toNat, resume := u0.r.pc + len }
  | .okRaise s u code kind a p =>
    match u.next len n with
    | some u' =>
      raise (countPoison (putUnit s k (u'.issuedAt .c s.time)) p) k
        { causeC u0 code kind a with inj := (p.map (·.inj)).getD false }
    | none => raise s0 k (causeC u0 0x04 0 Acc.none)
  | .wait s u w => if (u0.next len n).isNone then raise s0 k (causeC u0 0x04 0 Acc.none) else putUnit s k (u.setWait .c (some w))
  | .whole s => s

/-- A control word of `len` words with next-address action `n` and effect `f`, executed at `cur`. In plain
mode any action but the next sequential word is the sequencing trap (R45). -/
def ctl (s : State) (n : NextAct) (len : Nat) (f : State → Unit → Res) : Out :=
  match s.units.get? s.cur.1 with
  | none => .fault .noIssuer
  | some u =>
    if u.r.plain && n != .seq then .next (raise s s.cur.1 (causeC u 0x04 0 Acc.none))
    else .next (courseC s s.cur.1 u n len (f s u))

/-- A guarded effect: with the guard false, nothing but the next-address action (R44). -/
def guarded (g : GReg) (f : State → Unit → Res) (s : State) (u : Unit) : Res := if u.guard g then f s u else .ok s u

/-- A privileged effect (R39 item 5). -/
def priv (f : State → Unit → Res) (s : State) (u : Unit) : Res :=
  if privileged s u then f s u else .trap s 0x05 0 Acc.none

/-! ## The skeleton of an engine word -/

/-- Total passes of a strand (R291). -/
def DispRec.passes (d : DispRec) : Nat := d.counts.foldl (· * ·) 1

/-- The sequencer after a word of `len` words has issued. -/
def Seqr.advance (q : Seqr) (len : Nat) : Seqr :=
  match q.run with
  | none => q
  | some r =>
    if r.off + len < r.rcd.len then { q with run := some { r with off := r.off + len } }
    else if r.pass + 1 < r.rcd.passes then
      { q with run := some { r with off := 0, pass := r.pass + 1, uses := Vector.replicate 8 0 } }
    else { q with run := some { r with off := r.off + len }, ending := true }

/-- The course of an engine word after its effect. -/
def courseE (s0 : State) (k : Nat) (str : Stream) (u0 : Unit) (len : Nat) : Res → State
  | .ok s u => putUnit s k ({ u with seqr := u.seqr.set str ((u.seqr.get str).advance len) }.issuedAt str s.time)
  | .trap s code kind a => raise s k (causeE u0 str code kind 0 a)
  | .soft _ => s0
  | .okRaise s u code kind a p =>
    raise (countPoison (putUnit s k ({ u with seqr := u.seqr.set str ((u.seqr.get str).advance len) }.issuedAt str s.time)) p) k
      { causeE u0 str code kind (u.cpl.issued.get str) a with inj := (p.map (·.inj)).getD false }
  | .wait s u w => putUnit s k (u.setWait str (some w))
  | .whole s => s

/-- A word of an engine stream, executed at `cur`, of a strand that runs. -/
def eng (s : State) (str : Stream) (len : Nat) (f : State → Unit → Strand → Res) : Out :=
  match s.units.get? s.cur.1 with
  | none => .fault .noIssuer
  | some u =>
    match (u.seqr.get str).run with
    | none => .fault .noIssuer
    | some r => .next (courseE s s.cur.1 str u len (f s u r))

end Sys2Proof.Machine
end

