-- ==== Sys2Proof/Machine/Operands.lean ====
section
/-! DEFINITION. The operand forms of the control stream: class T (R48, R49, R121, R122), rounding (R51), the
immediate-20 value (R46), and the address forms of class LS (R230). -/

namespace Sys2Proof.Machine

/-! ## Class T -/

/-- The guard of a class-T word; a constant-bank operand forces p0 (Table 2.7). -/
def opGuard : OpB → GReg
  | .reg _ g => g
  | .const _ => 0
  | .lit _ g => g
  | .imm _ g => g

/-- Words of a class-T instruction: one, or two with a literal. -/
def opLen : OpB → Nat
  | .lit _ _ => 2
  | .reg _ _ | .const _ | .imm _ _ => 1

/-- A word of the constant bank (R87). -/
def constWord (s : State) (u : Unit) (k : BitVec 7) : Word := ((codeOf s u).map fun c => c.consts.getD k.toNat 0).getD 0

/-- A 32-bit operand as an integer operand: zero-extended by the unsigned instructions (R122). -/
def extWord (zx : Bool) (w : Word) : Double := if zx then w.zeroExtend 64 else w.signExtend 64

/-- Operand b of an integer instruction. -/
def intB (s : State) (u : Unit) (zx : Bool) : OpB → Double
  | .reg b _ => u.sreg b
  | .const k => extWord zx (constWord s u k)
  | .lit w _ => extWord zx w
  | .imm i _ => i.signExtend 64

/-- Bits [31:0] of a scalar register as FP32 (R121). -/
def Unit.freg (u : Unit) (i : SReg) : Word := (u.sreg i).truncate 32

/-- Operand b of an FP32 instruction; the 5-bit immediate is converted exactly (R49). -/
def fpB (s : State) (u : Unit) : OpB → Word
  | .reg b _ => u.freg b
  | .const k => constWord s u k
  | .lit w _ => w
  | .imm i _ => (f32Round (Val.ofInt i.toInt) .rne).1

/-- Write an FP32 result: bits [63:32] become 0 (R121). -/
def Unit.setF (u : Unit) (d : SReg) (v : Word) : Unit := u.setS d (v.zeroExtend 64)

/-- The rounding mode of a word (R51). -/
def rndOf : FNxt → Rnd
  | .seq r => Rnd.ofCode r
  | .jump _ | .call _ | .ret | .endLoop _ => .rne

/-- F of the immediate-20 float forms (R46). -/
def immF (i : BitVec 20) : Word := i ++ 0#12

/-! ## Class LS -/

/-- Words of a class-LS instruction. -/
def modeLen : AMode → Nat
  | .lit _ => 2
  | .off _ | .idx _ | .post _ => 1

/-- The offset of an access of n bytes through a capability (R230). -/
def modeOffset (u : Unit) (c : Cap) (n : Nat) : AMode → Nat
  | .off i => off48 (c.cursor + i.toInt * n)
  | .idx r => off48 (c.cursor + (u.sreg r).toInt * n)
  | .lit w => off48 (c.cursor + w.toInt)
  | .post _ => c.cursor

/-- The post-increment of a completed access: the new cursor of register c (R230). -/
def Unit.advance (u : Unit) (c : CReg) (cursor n : Nat) : AMode → Unit
  | .post i => u.setC c ((u.creg c).withCursor (off48 (cursor + i.toInt * n)))
  | .off _ | .idx _ | .lit _ => u

end Sys2Proof.Machine
end

