-- ==== Sys2Proof/Machine/Access.lean ====
section
/-! DEFINITION. What every access shares: its checks (R227), parked pages (R220), the byte budget (R325), memory
errors (R389, R391), bank format registers (R116 to R118) and phase roles (R383). -/

namespace Sys2Proof.Machine

/-! ## Levels, pages and banks -/

/-- The level of an object that has an entry in use. -/
def levelOf (s : State) (ctx oid : Nat) : Option Nat :=
  match objAt s ctx oid with
  | some e => if e.st = 1 || e.st = 2 then some e.lvl else none
  | none => none

/-- The page shift of an object, the least one for an object with no entry. -/
def shiftOf (s : State) (ctx oid : Nat) : Nat :=
  match objAt s ctx oid with
  | some e => pageShift e.psc
  | none => 14

def pageNo (s : State) (ctx oid off : Nat) : Nat := off / 2 ^ shiftOf s ctx oid

/-- The register of a logical bank (R116); SWZ stands in bank 0 and the others mirror it. -/
def Partition.reg (p : Partition) (lb : Nat) : Nat :=
  putBits (Tab.getD 0 p.bfr lb).toNat 5 3 (bits (Tab.getD 0 p.bfr 0) 7 5)

/-- The logical bank of a partition offset (R117). -/
def Partition.bankOf (p : Partition) (x : Nat) : Nat :=
  let k := p.banks.length.log2
  let lo := nbits x (5 + k) 6
  if bits (Tab.getD 0 p.bfr 0) 7 5 = 1 then lo ^^^ nbits x (5 + 2 * k) (6 + k) else lo

/-- The n-th of the units of a range that the address map holds: all of them, unless some are left out (R392, log 82). -/
def State.mapped (s : State) (cls first count n : Nat) : Nat :=
  if s.leftOut.isEmpty then first + n % count
  else
    let l := ((List.range count).map (first + ·)).filter fun i => !s.leftOut.elem (2048 * cls + i)
    l.getD (n % l.length) first

/-- The Clearing bank of an address. -/
def State.clrBank (s : State) (a : Nat) : Nat := s.mapped 3 0 1024 ((a - clrBase) / 64)

/-- The fault unit of an address of `mem`: its Pantry bank, Clearing bank or channel group. The local
group within a stack is open (log 23). -/
def fuOf (s : State) (a : Nat) : FaultUnit :=
  if pantryBase ≤ a then
    match s.partitions.get? ((a - pantryBase) / 2 ^ 26) with
    | some p => .pantryBank p.grove (p.banks.getD (p.bankOf ((a - pantryBase) % 2 ^ 26)) 0)
    | none => .pantryBank 0 0
  else if clrBase ≤ a then .clearingBank (s.clrBank a)
  else .channelGroup (s.mapped 4 (4 * (a / (48 * 2 ^ 30))) 4 (Config.channelGroup a))

/-! ## Who is served first in one cycle (R16, R215, R294, R302, R321) -/

/-- Token counter tk of the unit at `k`, whose GETs of one grove cycle are taken in the order of their streams. -/
def tokenPort (k tk : Nat) : Nat := 2048 + 16 * k + tk

/-- Stream register sq of the unit at `k`, whose pops of one grove cycle are taken in the order VL, VA, VS (R297). -/
def sqPort (k sq : Nat) : Nat := 6144 + 8 * k + sq

/-- The cycle of a resource: that of Clearing bank b is the tick; grove g's booking unit, 1024 + g, the token counters and the stream registers run
on the grove's clock, and the chip's booking unit, 1040, on the time base. -/
def serveCycle (s : State) (r : Nat) : Nat :=
  if 6144 ≤ r then s.time * (groveAt s ((r - 6144) / 128 % 16)).freq / 28
  else if 2048 ≤ r then s.time * (groveAt s ((r - 2048) / 256 % 16)).freq / 28
  else if 1024 ≤ r && r < 1040 then s.time * (groveAt s (r - 1024)).freq / 28 else s.time

/-- A request may be served: none later in the order has been served in this cycle. The order is hearth h at h, the Ladle of hearth h at 128 + h,
Ebith port p at 256 + p (R16, log 88). -/
def mayServe (s : State) (i r : Nat) : Bool :=
  match s.lastServed.get? r with
  | some (c, j) => c != serveCycle s r || j ≤ i
  | none => true

/-- Requests of place `i` are served. -/
def noteServed (s : State) (i : Nat) (rs : List Nat) : State :=
  { s with lastServed := rs.foldl (fun t r => t.put r (serveCycle s r, i)) s.lastServed }

/-- The Clearing bank of an address, if it lies in the Clearing. -/
def bankAt (s : State) (a : Nat) : Option Nat := if physLvl a = some 1 then some (s.clrBank a) else none

/-! ## Errors of memory -/

/-- An armed detector's name for a memory bank (Table 15.8); `unc` for the uncorrectable one. -/
def eccDet (f : FaultUnit) (unc : Bool) : Nat :=
  let c := if unc then 0 else 1
  match f with
  | .pantryBank g b => 2 + c + 16 * g + 256 * b
  | .clearingBank b => 4 + c + 256 * b
  | .channelGroup g => 6 + c + 256 * g
  | .hearth _ | .engine _ | .ebithPort _ | .sensor _ _ => 2 ^ 64

/-- A read of one granule meets its bank's armed detectors (R391): an uncorrectable report marks the
granule poisoned. The Forester takes each report as a turn of its own. -/
def eccRead (s : State) (gran : Nat) : State :=
  let s := touch s gran
  if s.arms.isEmpty then s
  else
    let fu := fuOf s (64 * gran)
    let lvl := poisonLevel (64 * gran)
    let s := match injected s (eccDet fu true) with
      | (s, true) => { s with poison := s.poison.put gran (fu, true), agenda := .report fu true true lvl :: s.agenda }
      | (s, false) => s
    match injected s (eccDet fu false) with
    | (s, true) => { s with agenda := .report fu false true lvl :: s.agenda }
    | (s, false) => s

/-- A consuming read of bytes within one granule, past the bank's detectors (R389, R391). -/
def readIn (s : State) (key pa n : Nat) : State × List Byte × Option Poison := consume (eccRead s (pa / 64)) key pa n

/-- What a report of a memory error does (R389, R392, R393): an event of the unit, a count and a record. An uncorrectable error found in the
parts that hold data counts as one of cause 0x31; one in a bank or a store counts with its detection. -/
def takeReport (s : State) (fu : FaultUnit) (unc inj : Bool) (lvl : Nat) : State :=
  let s := countEvent s fu
  let w := fuClass fu + fuIndex fu * 2 ^ 8
  if unc then post (if 1 ≤ lvl && lvl ≤ 4 then bumpLife s (0x181 + 8 * fuClass fu) 1 else s) 0x05 (fuSrc fu) inj w lvl
  else post (bumpLife s (0x110 + fuClass fu) 1) 0x04 (fuSrc fu) inj w lvl

/-! ## The byte budget (R325) -/

/-- The budget of a grove is spent: its accesses are held. -/
def spent (s : State) (g : Nat) : Bool := decide (byteBudget s g ≤ (groveAt s g).used)
/-- Count granules moved for a grove. -/
def charge (s : State) (g n : Nat) : State := updGrove s g fun x => { x with used := x.used + n }

/-! ## Phase pairs (R383) -/

/-- The buffer of a code object that an object id names. -/
def bufferOf (c : Code) (oid : Nat) : Option BufferEntry := (c.buffers.find? fun b => b.2 = oid).map (·.1)

/-- The other half of a phase pair, with whether `oid` is the half named second; none for any other object. -/
def pairOf (c : Code) (oid : Nat) : Option (Nat × Bool) :=
  match bufferOf c oid with
  | some b => if b.phase = 0 then none else (c.buffers[b.partner]?).map fun p => (p.2, b.phase == 2)
  | none => none

/-- The object whose region an access through `oid` reaches by the unit's ROLE. -/
def roleOid (s : State) (u : Unit) (oid : Nat) : Nat :=
  if u.role then
    match (codeOf s u).bind fun c => pairOf c oid with
    | some (p, _) => p
    | none => oid
  else oid

/-! ## Checks and parked pages -/

/-- The access that a cause names. -/
def accOf (s : State) (u : Unit) (c : Cap) (off : Nat) (wr : Bool) : Acc :=
  ⟨c.oid, off, wr, levelOf s u.ctx c.oid == some 3⟩

/-- Checks 1 to 5 of R227 on n bytes at `off`: the code and KIND of the first that fails. -/
def accCheck (s : State) (u : Unit) (c : Cap) (need_ off n align : Nat) (lv : List Nat) : Option (Nat × Nat) :=
  match c.check need_ off (off + n) with
  | some k => some (0x0A, k)
  | none =>
    if off % align != 0 then some (0x0B, 0)
    else match levelOf s u.ctx c.oid with
      | some l => if lv.elem l then none else some (0x0C, 0)
      | none => none

/-- A store to this page is parked (R220). -/
def parkedOn (s : State) (u : Unit) (oid off : Nat) : Bool :=
  u.replay.any fun p => p.cap.oid = oid && p.page = pageNo s u.ctx oid off

def firstSome {α : Type} : List (Option α) → Option α
  | [] => none
  | some a :: _ => some a
  | none :: r => firstSome r

/-! ## Scalar accesses (R227 to R233) -/

/-- Ordering waits shared by every scalar read: a parked store to the page, then the byte budget; then the
translation, of the first byte alone (log 103). Answers the key and address to `f`. -/
def scalarReach (s : State) (k : Nat) (u : Unit) (c : Cap) (off : Nat) (wr : Bool) (f : State → Nat → Nat → Res) : Res :=
  if parkedOn s u c.oid off || spent s (k / 16) then .wait s u .memory
  else
    match translate s (k / 2) u.ctx c.oid off wr with
    | (s, .phys key pa) => f (charge s (k / 16) 1) key pa
    | (s, .fault kind) => .trap s 0x20 kind (accOf s u c off wr)
    | (s, .stall) => .wait s u .memory
    | (s, .pantry _ _) | (s, .remote _ _) => .trap s 0x0C 0 (accOf s u c off wr)

/-- An effect whose read met poison raises the detection beside it (R389). -/
def okPoison (s : State) (u : Unit) (p : Option Poison) : Res :=
  match p with
  | none => .ok s u
  | some q => .okRaise s u 0x31 q.lvl Acc.none p

/-- A load of n bytes: its checks, then the bytes with their address (R227, R228). -/
def scalarLoad (s : State) (k : Nat) (u : Unit) (c : Cap) (off n : Nat) (f : State → List Byte → Nat → Option Poison → Res) : Res :=
  match accCheck s u c rR off n n [0, 1] with
  | some (code, kind) => .trap s code kind (accOf s u c off false)
  | none =>
    scalarReach s k u c off false fun s key pa =>
      match readIn s key pa n with
      | (s, bs, p) => f s bs pa p

/-- A word that seals the phase at its issue (R385) seals it also when the access that it issues faults. -/
def sealing (k : Nat) : Res → Res
  | .trap s code kind a => .trap (if classOf code = .s then updUnit s k fun u => { u with sealed := true } else s) code kind a
  | r => r

/-- The bit writes of bytes at an offset. -/
def bytesAt (off : Nat) (bs : List Byte) : List BitWrite := bs.mapIdx fun i b => ⟨false, 8 * (off + i), 8, b.toNat⟩

/-- Park a store at the end of the replay queue; a full queue stalls it (R220). -/
def parkStore (s : State) (u : Unit) (p : Parked) (f : Unit → Res) : Res :=
  if 32 ≤ u.replay.length then .wait s u .memory else f { u with replay := u.replay ++ [p] }

/-- A store of bytes: its checks, then the write, or parking when its translation faults or an older store
to the page is parked. `tag` is the tag that STC stores (R231). `f` is the rest of the effect. -/
def scalarStore (s : State) (k : Nat) (u : Unit) (c : Cap) (need_ off : Nat) (bs : List Byte) (tag : Option Bool) (f : Unit → Unit) : Res :=
  let n := bs.length
  let a := accOf s u c off true
  match accCheck s u c need_ off n n [0, 1] with
  | some (code, kind) => .trap s code kind a
  | none =>
    let p : Parked := { str := .c, num := 0, cap := c, page := pageNo s u.ctx c.oid off, pc := u.r.pc,
                        writes := bytesAt off bs, stc := tag }
    if parkedOn s u c.oid off then parkStore s u p fun u => .ok s (f u)
    else if spent s (k / 16) then .wait s u .memory
    else
      match translate s (k / 2) u.ctx c.oid off true with
      | (s, .phys key pa) =>
        if isSync s pa then .trap s 0x0D 0 a
        else
          let s := putBytes (charge s (k / 16) 1) key (bs.mapIdx fun i b => (pa + i, b))
          let s := if tag = some true then { s with tags := s.tags.ins (pa / 16) } else s
          .ok s { f u with sig := if isTwice s u then
                    BitVec.ofNat 64 (u.sig.toNat + sigOf (bs.mapIdx fun i b => (pa + i, b))) else u.sig }
      | (s, .fault kind) => parkStore s u p fun u => .okRaise s (f u) 0x20 kind a none
      | (s, .stall) => .wait s u .memory
      | (s, .pantry _ _) | (s, .remote _ _) => .trap s 0x0C 0 a

/-! ## Accesses by any stream -/

/-- Where an access of a unit goes in `mem`. -/
inductive Reach where
  | at (key a : Nat)
  | remote (dev pa : Nat)
  | fault (kind : Nat)
  | stall
  deriving DecidableEq, Repr

/-- The hearth and grove of a unit's key. -/
def hearthOf (k : Nat) : Nat := k % 256 / 2
def groveOf (k : Nat) : Nat := k % 256 / 16

/-- Reach byte `off` of an object: in the Pantry through the partition of the unit's launch in its grove (R267, R350). A missing
partition is a translation fault of KIND 2 (log 24). -/
def reachObj (s : State) (k : Nat) (u : Unit) (oid off : Nat) (wr : Bool) : State × Reach :=
  match translate s (hearthOf k) u.ctx oid off wr with
  | (s, .phys key pa) => (s, .at key pa)
  | (s, .remote dev pa) => (s, .remote dev pa)
  | (s, .fault kind) => (s, .fault kind)
  | (s, .stall) => (s, .stall)
  | (s, .pantry _ x) =>
    match partOf s u.lid (groveOf k) with
    | some (p, _) => (s, .at 0 (pantryAddr p x))
    | none => (s, .fault 2)

/-- Reach byte `off` of the object that the unit at `k` sees by ROLE (R383). -/
def reach (s : State) (k : Nat) (u : Unit) (oid off : Nat) (wr : Bool) : State × Reach := reachObj s k u (roleOid s u oid) off wr

/-- Reach the bytes from `off` to `last` of one page of an object: each has to lie below the object's size (R267). -/
def reachObjTo (s : State) (k : Nat) (u : Unit) (oid off last : Nat) (wr : Bool) : State × Reach :=
  match reachObj s k u oid off wr with
  | (s, .at key a) =>
    if last ≤ off then (s, .at key a)
    else
      match reachObj s k u oid last wr with
      | (s, .at _ _) => (s, .at key a)
      | x => x
  | (s, .remote dev pa) =>
    if last ≤ off then (s, .remote dev pa)
    else
      match reachObj s k u oid last wr with
      | (s, .remote _ _) => (s, .remote dev pa)
      | x => x
  | x => x

def reachTo (s : State) (k : Nat) (u : Unit) (oid off last : Nat) (wr : Bool) : State × Reach := reachObjTo s k u (roleOid s u oid) off last wr

/-! ## Other modules (R366, R367) -/

/-- The export table allows a source a right on bytes [a, a + n). -/
def allowsIn (s : State) (src : RemoteSource) (need_ a n : Nat) : Bool :=
  s.remoteIn.any fun x => x.dev = src.dev && x.rctx = src.ctx && hasRights x.rights.toNat need_ && x.lo ≤ a && a + n ≤ x.hi

/-- An access of n bytes, `d` on from a place of an object that names this module as its device: it goes to this module's own memory, as plain
bytes, where the export table allows it (R367, log 95). -/
def home (s : State) (u : Unit) (need_ d n : Nat) : Reach → Reach
  | .remote dev pa => if dev = Config.deviceId.toNat && allowsIn s ⟨dev, u.ctx, 0⟩ need_ (pa + d) n then .at 0 pa else .remote dev pa
  | r => r

/-- The port through which a context's traffic reaches a device: one of its EMASK that is up. -/
def portFor (s : State) (ctx dev : Nat) : Option Nat :=
  let em := ((ctxRec? s ctx).map fun r => r.body.emask.toNat).getD 0
  (List.range 48).find? fun p => em.testBit p && !((s.ports.get? p).any (·.down)) && Config.reaches p dev

/-- The other module that holds an object. -/
def deviceOf (s : State) (u : Unit) (oid : Nat) : Option Nat :=
  match objAt s u.ctx oid with
  | some e => if e.lvl = 3 && e.dev != Config.deviceId.toNat then some e.dev else none
  | none => none

/-- An object that no port reaches: an access to it is the remote-access fault at issue (R367). -/
def barred (s : State) (u : Unit) (oid : Nat) : Bool := (deviceOf s u oid).any fun d => (portFor s u.ctx d).isNone

/-- Send traffic of a unit to a device, which the grove's destination bitmap keeps (R397). -/
def sendRemote (s : State) (k dev : Nat) (x : Sent) : State :=
  { updGrove s (groveOf k) fun g => { g with dests := if g.dests.elem dev then g.dests else g.dests ++ [dev] } with sent := s.sent ++ [x] }

/-- What the module that an access goes to makes of it: it performs and acknowledges it, or refuses it (R367). Another's export table is not this
module's, so its answer is free, taken in the event that performs the access (log 85); this module refuses what is not `home`. -/
def remoteAnswer (s : State) (dev : Nat) : State × Bool :=
  if dev = Config.deviceId.toNat then (s, false) else ({ s with free := s.free + 1 }, Config.freeWord s.free % 2 = 0)

/-- A write enters the signature of a run-twice copy (R340). -/
def addSig (s : State) (k : Nat) (ws : List (Nat × Byte)) : State :=
  updUnit s k fun u =>
    if isTwice s u then
      { u with sig := BitVec.ofNat 64 (((byGranule ws).map sigOf).foldl (· + ·) u.sig.toNat) }
    else u

/-- What performing the writes of one page came to. -/
inductive Perf where
  | done
  | fault (kind : Nat)
  | trap (code : Nat)
  | stall
  deriving DecidableEq, Repr

/-- Perform bit writes that lie in one page of an object: whole, or not at all; answers what came to memory. Writes at a
partition offset are scale bytes of the unit's partition (R118). `stc` is the tag of an STC (R231). -/
def storeBytes (s : State) (k : Nat) (u : Unit) (oid : Nat) (ws : List BitWrite) (stc : Option Bool) : State × Perf × List (Nat × Byte) :=
  let own := ws.filter (!·.inPart)
  match own.head? with
  | none => (s, .done, [])
  | some w0 =>
    let off0 := w0.bit / 8
    let sh := 2 ^ shiftOf s u.ctx oid
    match reachTo s k u oid off0 ((own.map fun w => (w.bit + w.w - 1) / 8).foldl max off0) true with
    | (s, .fault kind) => (s, .fault kind, [])
    | (s, .stall) => (s, .stall, [])
    | (s, .remote _ _) => (s, .trap 0x0C, [])
    | (s, .at key a) =>
      let part := match partOf s u.lid (groveOf k) with
        | some (p, _) => pantryAddr p 0
        | none => pantryAddr 0 0
      let m := mergeBits s key [] (own.map fun w => (a - off0 % sh + w.bit / 8 % sh, w.bit % 8, w.w, w.v))
      let m := mergeBits s 0 m ((ws.filter (·.inPart)).map fun w => (part + w.bit / 8, w.bit % 8, w.w, w.v))
      if m.any fun e => isSync s e.1 then (s, .trap 0x0D, [])
      else
        let s := putAll (charge s (groveOf k) (byGranule m).length) key m
        (if stc = some true then { s with tags := s.tags.ins (a / 16) } else s, .done, m)

/-- A unit's store to one page (R220, R245); what it writes enters its signature (R340). -/
def storePage (s : State) (k : Nat) (u : Unit) (oid : Nat) (ws : List BitWrite) (stc : Option Bool) : State × Perf :=
  match storeBytes s k u oid ws stc with
  | (s, .done, m) => (addSig s k m, .done)
  | (s, p, _) => (s, p)

end Sys2Proof.Machine
end

