-- ==== Sys2Proof/Machine/Place.lean ====
section
/-! DEFINITION. Free banks, waiting work and pre-emption (R19, R336 to R338, R343, R378). -/

namespace Sys2Proof.Machine

/-- The rows of the unit at `k`, 0 for a free bank. -/
def rowsAt (s : State) (k : Nat) : Nat := ((s.units.get? k).map (unitRows s)).getD 0

/-- A bank that a unit of the context may take, by its rows (R336, R337). -/
def bankFree (s : State) (ctx rows k : Nat) : Bool :=
  !s.units.has k && rows + rowsAt s (k ^^^ 1) ≤ 192 &&
  (((ctxRec? s ctx).map fun r => r.body.hmask.getLsbD (k / 2)).getD false) &&
  !isRetired s (.hearth (k / 2)) && !(groveAt s (k / 16)).retired

/-- The lowest free bank in the groves that `p` allows. -/
def freeBank (s : State) (ctx rows : Nat) (p : Nat → Bool) : Option Nat :=
  (List.range 256).find? fun k => p (k / 16) && bankFree s ctx rows k

/-- Work that waits for a bank of a grove: a launch's next unit, a ticket, or a unit switched out. -/
inductive Work where
  | launch (slot : Nat)
  | ticket (t : Nat)
  | saved (key : Nat)
  deriving DecidableEq, Repr

/-- What a piece of waiting work asks for: context, rows, priority and age. -/
structure Claim where
  work : Work
  ctx : Nat
  rows : Nat
  prio : Nat
  tick : Nat
  deriving DecidableEq, Repr

/-- A launch still places units. -/
def Launch.placing (l : Launch) : Bool := decide (l.jstate = .placing) && !l.failed && !l.cancelled

/-- The head of a ready queue: the highest priority, earliest entry among equals (R343). -/
def readyHead (s : State) (g : Nat) : Option (Nat × Ticket) :=
  ((Tab.getD [] s.ready g).filterMap fun n => (s.tickets.get? n).map fun t => (n, t)).foldl
    (fun best e => match best with
      | none => some e
      | some b => if b.2.prio < e.2.prio then some e else some b) none

/-- A launch that another launch of the same queue keeps back: launches of one queue start in order (R336). Queue indices count modulo 2^32,
and a queue holds far fewer than 2^31 packets. -/
def Launch.waitsTurn (l : Launch) (s : State) : Bool :=
  s.launches.any fun e => e.2.queue = l.queue && e.2.ctx = l.ctx && !e.2.allPlaced && !e.2.failed && !e.2.cancelled &&
    (let d := (l.headIdx + 2 ^ 32 - e.2.headIdx) % 2 ^ 32; 1 ≤ d && d < 2 ^ 31)

/-- The work that waits in grove g. -/
def claims (s : State) (g : Nat) : List Claim :=
  (s.launches.filterMap fun e =>
    if e.2.placing && e.2.placed < pktUnits e.2.pkt && !e.2.waitsTurn s && (allowedGroves s e.2.ctx (pktGmask e.2.pkt)).elem g then
      some ⟨.launch e.1, e.2.ctx, pktRows e.2.pkt, pktPrio e.2.pkt, e.2.tick⟩
    else none) ++
  (match readyHead s g with
   | some (n, t) => match launchAt s t.slot with
     | some l => [⟨.ticket n, l.ctx, pktRows l.pkt, t.prio, t.tick⟩]
     | none => []
   | none => []) ++
  s.units.filterMap fun e =>
    if 256 ≤ e.1 && e.1 % 256 / 16 = g then
      some ⟨.saved e.1, e.2.ctx, unitRows s e.2, e.2.prio, ((launchAt s e.2.slot).map (·.tick)).getD 0⟩
    else none

/-- The claim served first: highest priority, then the earlier tick. -/
def bestClaim (cs : List Claim) : Option Claim :=
  cs.foldl (fun best c => match best with
    | none => some c
    | some b => if b.prio < c.prio || (b.prio = c.prio && c.tick < b.tick) then some c else some b) none

/-! ## Pre-emption (R338) -/

/-- The lowest-priority unit running in a grove, the latest placed among equals. -/
def victim (s : State) (g : Nat) : Option (Nat × Unit) :=
  (s.units.filter fun e => e.1 < 256 && e.1 / 16 = g && e.2.killed.isNone).foldl
    (fun best e => match best with
      | none => some e
      | some b => if e.2.prio < b.2.prio || (e.2.prio = b.2.prio && b.2.since ≤ e.2.since) then some e else some b) none

/-- The unit at `k` is to switch out at its pre-emption point: its hearth is retired (Table 15.9), or waiting
work that finds no free bank in the grove has a priority four or more above this, the victim's. -/
def switchesOut (s : State) (k : Nat) : Bool :=
  isRetired s (.hearth (k / 2)) ||
  match victim s (k / 16) with
  | some (j, u) => j = k && (claims s (k / 16)).any fun c =>
      u.prio + 4 ≤ c.prio && (freeBank s c.ctx c.rows fun g => g = k / 16).isNone
  | none => false

/-- Move the unit at key `j` to key `k`, with what names it. -/
def moveUnit (s : State) (j k : Nat) : State :=
  let go := fun (p : Nat × Nat) => if p.1 = j then (k, p.2) else p
  match s.units.get? j with
  | none => s
  | some u =>
    { s with
      units := (s.units.del j).put k { u.leaveSegments with progress := s.time, groupSwitch := true }
      engines := s.engines.map fun e => (e.1, { e.2 with key := e.2.key.map go, retains := e.2.retains.map go })
      openReqs := s.openReqs.map fun r => if r.key = j then { r with key := k } else r
      books := s.books.map fun c => (c.1, { c.2 with steps := c.2.steps.map fun st => { st with lease := st.lease.map go } }) }

/-- Where the bank of the unit saved under a key stands: 512 bytes for each key, from SAVE of its context on (Table 14.1, log 81). -/
def saveAt (s : State) (u : Unit) (key : Nat) : Option Nat :=
  ((ctxRec? s u.ctx).map fun r => r.body.save + 512 * (key - 256)).filter fun a => assigned a && assigned (a + 511)

/-- The scalar and capability registers, as the save area holds them. -/
def bankImage (u : Unit) : List Byte := (u.r.s.toList.flatMap fun x => leBytes 8 x.toNat) ++ u.r.c.toList.flatMap fun c => leBytes 16 c.v.toNat

/-- A context bank is saved to its context's save area. -/
def saveBank (s : State) (key : Nat) : State :=
  match s.units.get? key with
  | none => s
  | some u =>
    match saveAt s u key with
    | some a => writeBytes s 0 a (bankImage u)
    | none => s

/-- A context bank is read back from the save area; the tags of its capabilities are kept apart from it. -/
def loadBank (s : State) (key : Nat) : State :=
  match s.units.get? key with
  | none => s
  | some u =>
    match saveAt s u key with
    | some a => putUnit s key { u with r := { u.r with
        s := (Vector.replicate 32 (0 : Double)).mapFinIdx fun i _ _ => BitVec.ofNat 64 (rd8 s (a + 8 * i))
        c := u.r.c.mapFinIdx fun i c _ => ⟨c.tag, BitVec.ofNat 128 (rd8 s (a + 256 + 16 * i) + 2 ^ 64 * rd8 s (a + 264 + 16 * i))⟩ } }
    | none => s

/-- Switch the unit at `k` out: its bank is saved, its partition stays, and its hearth turns to the other
bank (R19, R222, R338). -/
def switchOut (s : State) (k : Nat) : State :=
  let j := ((List.range 1024).find? fun n => !s.units.has (256 * (n + 1) + k)).getD 0
  switchFrom (saveBank (moveUnit s k (256 * (j + 1) + k)) (256 * (j + 1) + k)) (k / 2) (k % 2 == 1)

/-- What happens at a pre-emption point: the unit switches out, or its hearth turns back to a bank whose
served fault has been answered (R378). -/
def atPreemption (s : State) (k : Nat) : State :=
  if switchesOut s k then switchOut s k
  else
    match s.units.get? (k ^^^ 1) with
    | some o => if (o.served.bind (·.answer)).isSome then switchFrom s (k / 2) (k % 2 == 1) else s
    | none => s

/-- Switch a saved unit back in on bank `k`, whose rows are zeroed when a unit of another context was the last there (R349). -/
def switchIn (s : State) (j k : Nat) : State :=
  match s.units.get? j with
  | none => s
  | some u =>
    let s := if ownRows s k u.ctx then s else clearRows s (k / 2) (k % 2 == 1) (unitRows s u)
    joinBank (moveUnit (loadBank { s with lastCtx := s.lastCtx.put k u.ctx } j) j k) (k / 2) (k % 2 == 1)

end Sys2Proof.Machine
end

