-- ==== Sys2Proof/Machine/Served.lean ====
section
/-! DEFINITION. Served faults: replay of parked stores (R220), answers and what a bank does when it runs again
(R376 to R379), and the end of a handler (R375). -/

namespace Sys2Proof.Machine

/-! ## Parked stores -/

/-- The cause of a parked store that faults when it is performed. -/
def Parked.cause (p : Parked) (u : Unit) (code kind : Nat) : Cause :=
  { code := code, str := p.str, kind := kind, word := p.pc, wkind := 0, tcode := 0,
    off := ((p.writes.head?).map fun w => w.bit / 8).getD 0, oid := p.cap.oid, wr := true, rem := false, num := p.num,
    resume := if p.str = .c then p.pc else u.r.pc, refill := false, inj := false }

/-- Perform one parked store, unless the grove's budget is spent (R325). The cause, if any, is to be raised; a store that cannot be performed at all is
discarded with it. -/
def replayOne (s : State) (k : Nat) (u : Unit) (p : Parked) : State × Bool × Option Cause :=
  if spent s (groveOf k) then (s, false, none)
  else
  match storePage s k u p.cap.oid p.writes p.stc with
  | (s, .done) => (s, true, none)
  | (s, .fault kind) => (s, false, some (p.cause u 0x20 kind))
  | (s, .trap code) => (s, true, some (p.cause u code 0))
  | (s, .stall) => (s, false, none)

/-- A VS store none of whose pages is parked any more completes. -/
def settleStores (s : State) (k : Nat) : State :=
  match s.units.get? k with
  | none => s
  | some u =>
    (u.ops.filter fun o => match o.body with
      | .vs x => x.writes.isEmpty && !u.replay.any fun p => p.str = .vs && p.num = o.num
      | .vl _ | .va _ | .m _ | .d _ => false).foldl (fun s o => completeOp s k o) s

/-- Replay the queue in order; a store behind one that stays on its page stays too. Answers the first cause. -/
def replayAll (k : Nat) : List Parked → List Parked → State → Option Cause → State × Option Cause
  | [], kept, s, c => (settleStores (updUnit s k fun u => { u with replay := kept }) k, c)
  | p :: rest, kept, s, c =>
    match s.units.get? k with
    | none => (s, c)
    | some u =>
      if kept.any fun q => q.cap.oid = p.cap.oid && q.page = p.page then replayAll k rest (kept ++ [p]) s c
      else
        match replayOne s k u p with
        | (s, true, e) => replayAll k rest kept s (c.orElse fun _ => e)
        | (s, false, e) => replayAll k rest (kept ++ [p]) s (c.orElse fun _ => e)

/-! ## The end of a drain, and a bank that runs again -/

/-- Deliver the second cause by its class (R372, R375). -/
def deliverCause2 (s : State) (k : Nat) : State :=
  match s.units.get? k with
  | none => s
  | some u =>
    match u.cause2 with
    | some c => raise (putUnit s k { u with cause2 := none }) k c
    | none =>
      match u.owed with
      | (c, f) :: rest => deliverTrap (putUnit s k { u with owed := rest }) k c f
      | [] => s

/-- Retry every parked store, then deliver the cause owed to the handler, unless a store faults again (R379). A rollback
ends first (R386). -/
def deliverOwed (s : State) (k : Nat) : State :=
  match s.units.get? k with
  | none => s
  | some u =>
    if u.roll.isSome then s
    else
    match replayAll k u.replay [] s none with
    | (s, some c) => raise s k c
    | (s, none) =>
      match s.units.get? k with
      | some u =>
        match (if u.replay.isEmpty then u.owed else []) with
        | (c, f) :: rest => deliverTrap (putUnit s k { u with owed := rest }) k c f
        | [] => s
      | none => s

/-- An operation discarded while held completes its number; its read claims are returned, and the configuration of its lease
slot swaps in (R181, log 73). -/
def Unit.dropHeld (u : Unit) (o : Op) : Unit :=
  let u := { u with
    ops := u.ops.filter fun p => !(p.str = o.str && p.num = o.num)
    cpl := { u.cpl with tile := o.readsT.foldl (fun t i => vmodify t i Tile.unclaim) u.cpl.tile } }
  match o.body with
  | .m m =>
    { u with cpl := { u.cpl with mactive := vmodify u.cpl.mactive m.slot fun _ => u.cpl.mcfg.toList.getD m.slot [] } }
  | .vl _ | .va _ | .vs _ | .d _ => u

/-- The faulting access's own parked stores, or its held operation (R379). -/
def dropFaulting (s : State) (u : Unit) (c : Cause) : Unit :=
  let own := fun (p : Parked) => c.wr && (c.str = .c || c.str = .vs) && p.cap.oid = c.oid && p.page = pageNo s u.ctx c.oid c.off
  (u.ops.filter fun o => o.held && o.str = c.str && o.num = c.num).foldl Unit.dropHeld { u with replay := u.replay.filter fun p => !own p }

/-- Held operations go on, but for the one whose own cause is still to be delivered as CAUSE2. -/
def releaseHeld (u : Unit) : Unit :=
  { u with ops := u.ops.map fun o => { o with held := o.held && u.cause2.any fun c => c.str = o.str && c.num = o.num } }

/-- A bank whose served fault has been answered runs again (R378, R379). A second cause that was recorded before a handler began, which still
runs, follows that handler's end (R372, R375). -/
def bankRuns (s : State) (k : Nat) : State :=
  match s.units.get? k with
  | none => s
  | some u =>
    match u.served with
    | none => s
    | some v =>
      let u := { u with served := none, cause := none, waits := Six.all none, progress := s.time }
      match v.answer with
      | none => s
      | some .terminate => s
      | some .deliver =>
        deliverOwed (settleStores (putUnit s k (releaseHeld (dropFaulting s { u with owed := u.owed ++ [(v.cause, v.fid)] } v.cause))) k) k
      | some .resume =>
        let s := putUnit s k (releaseHeld u)
        if !u.owed.isEmpty then deliverOwed s k else if u.inh then s else deliverCause2 s k

/-- The hearth turns to a bank that an answer made ready: at once when the other bank holds no unit that is ready (R19, R378). -/
def wakeBank (s : State) (k : Nat) : State :=
  let s := joinBank s (k / 2) (k % 2 == 1)
  if runningBank s (k / 2) = (k % 2 == 1) then bankRuns s k else s

/-! ## Answers (R377 to R379) -/

/-- Accept an answer to an unanswered fault id; none for any other id. -/
def answerFault (s : State) (fid : Nat) (a : Answer) : Option State :=
  match s.ring.open_.find? (fun e => e.1 = fid) with
  | none => none
  | some (_, k) =>
    let s := { s with ring := { s.ring with open_ := s.ring.open_.filter fun e => e.1 != fid, ans := (s.ring.ans + 1) % 2 ^ 32 } }
    match s.units.get? k with
    | none => some s
    | some u =>
      match u.served with
      | none => some s
      | some v =>
        some (match a with
        | .terminate => killUnit (putUnit s k { u with served := none }) k { v.cause with code := 0 } false
        | .resume | .deliver => wakeBank (putUnit s k { u with served := some { v with answer := some a } }) k)

def answerOf (n : Nat) : Option Answer :=
  match n with
  | 0 => some .resume
  | 1 => some .terminate
  | 2 => some .deliver
  | _ => none

/-! ## The end of a handler (R375) -/

/-- Flush a stream: its strand ends at its next unissued word, and its dispatch records are discarded. -/
def Unit.flush (u : Unit) (str : Stream) : Unit :=
  let u := { u with seqr := u.seqr.set str Seqr.idle, matAt := if str = .m then none else u.matAt }
  match str with
  | .d => { u with setup := DSetup.none }
  | .va => { u with latches := [], opbuf := [], groupSwitch := true }
  | .vs => (List.range 8).foldl Unit.endPushes u
  | .vl | .m | .c => u

/-- `trap 0`: flush, leave the handler, and continue at $tres.RESUME; a second cause comes next. -/
def Unit.leave (u : Unit) : Unit :=
  let f := bits u.r.tres 28 24
  let u := ([(0, Stream.vl), (1, .va), (2, .vs), (3, .m), (4, .d)].filter fun e => f.testBit e.1).foldl
    (fun u e => u.flush e.2) u
  { u with r := { u.r with plain := bit u.frame.tmode 0 }, inh := false }.setPc (bits u.r.tres 23 0)

end Sys2Proof.Machine
end

