-- ==== Sys2Proof/Machine/BkOps.lean ====
section
/-! DEFINITION. The booking and lease instructions (R303, R304, R310 to R315, R321, R323). -/

namespace Sys2Proof.Machine

/-- The result word (R310). -/
def resultWord (code st : Nat) (h : BitVec 32) : Double := BitVec.ofNat 64 (code + st * 2 ^ 8 + h.toNat * 2 ^ 32)

/-- An answer in s[d]. -/
def answer (d : SReg) (code st : Nat) (h : BitVec 32) (s : State) (u : Unit) : Res := .ok s (u.setS d (resultWord code st h))

/-! ## Descriptors (R303, Table 12.3) -/

/-- A descriptor as read: its chain with the steps as they are asked for, and DEPH and DEPS when DEPV is set. -/
structure Desc where
  chain : Chain
  bad : Bool
  deriving DecidableEq, Repr

def stepBad (reserve : Bool) (s0 s1 s2 : Nat) : Bool :=
  let cls := nbits s0 3 0
  let cm := nbits s0 63 16
  let dur := nbits s1 11 0
  nbits s0 7 7 != 0 || nbits s0 15 11 != 0 || nbits s1 63 57 != 0 || nbits s2 23 18 != 0 || nbits s2 31 30 != 0 ||
    nbits s2 63 44 != 0 || 8 < cls || cm = 0 || 2 ^ classCount cls ≤ cm || dur = 0 || dur ≤ nbits s1 23 12 ||
    (nbits s0 10 8 != 0 && cls != 7) || (nbits s1 56 49 != 0 && 1 < cls) ||
    (nbits s0 6 6 = 1 && (cls < 7 || !reserve))

def stepOf (s0 s1 s2 : Nat) : BStep :=
  { cls := nbits s0 3 0, mov := nbits s0 4 4 == 1, ret := nbits s0 5 5 == 1, rem := nbits s0 6 6 == 1,
    lanes := nbits s0 10 8 + 1, cmask := nbits s0 63 16, dur := nbits s1 11 0, marg := nbits s1 23 12, gap := nbits s1 35 24,
    lag := if nbits s1 48 48 = 1 then some (nbits s1 47 36) else none, rld := nbits s1 56 49, dev := nbits s2 17 0,
    ridx := 0, laneMasks := [], pfx := 0, start := 0, st := .committed, ext := [], endSlot := none, rmd := none, wasSusp := false,
    intr := [0, 0, 0, 0, 0, 0], lease := none, heldAt := 0, handleRem := 0 }

/-- Read the doubles of a descriptor for a unit's request. -/
def descOf (reserve : Bool) (ctx g : Nat) (who : Nat × Nat × Nat) (ds : List Nat) : Desc :=
  let h0 := ds.getD 0 0
  let h1 := ds.getD 1 0
  let n := nbits h0 2 0 + 1
  let at_ := fun (i j : Nat) => ds.getD (2 + 4 * i + j) 0
  { chain :=
      { handle := 0, ctx := ctx, g := g, who := who, orph := nbits h0 4 4 == 1, pers := nbits h0 6 6 == 1, prio := nbits h0 11 8,
        lead := nbits h0 27 16,
        dep := if nbits h0 5 5 = 1 then some (BitVec.ofNat 32 (nbits h0 63 32), nbits h1 2 0) else none
        depEnd := none
        dgap := nbits h1 19 8, age := 0, test := false, remote := none
        steps := (List.range n).map fun i => stepOf (at_ i 0) (at_ i 1) (at_ i 2) }
    bad := nbits h0 3 3 != 0 || nbits h0 7 7 != 0 || nbits h0 15 12 != 0 || nbits h0 31 28 != 0 || nbits h1 7 3 != 0 ||
      nbits h1 63 20 != 0 || (List.range n).any fun i => stepBad reserve (at_ i 0) (at_ i 1) (at_ i 2) }

/-- Ebith-port candidates outside the context's EMASK are never fitted (R352). -/
def maskPorts (s : State) (ctx : Nat) (st : BStep) : BStep :=
  if st.cls = 8 && !st.rem then { st with cmask := st.cmask &&& ((ctxRec? s ctx).map fun r => r.body.emask.toNat).getD 0 } else st

/-- The chain of a descriptor with its candidates; none when a step has no candidate. -/
def Desc.allowed (d : Desc) (s : State) : Option Chain :=
  let c := { d.chain with steps := d.chain.steps.map (maskPorts s d.chain.ctx) }
  if d.bad || c.steps.any fun st => st.cmask = 0 then none else some c

/-- The last condition of Table 12.4: the chain depended on is committed, of the same context, and has the step. -/
def depOk (s : State) (c : Chain) : Bool :=
  match c.dep with
  | none => true
  | some (h, n) =>
    match chainAt s h with
    | none => false
    | some d => d.ctx = c.ctx && (match d.steps[n]? with
      | some st => st.st != .held && st.st != .cancelled
      | none => false)

/-- The BKU that serves a chain: 16 is the chip BKU (R302). -/
def bkuOf (c : Chain) : Nat := if c.steps.any fun st => 7 ≤ st.cls then 16 else c.g

/-! ## The search and its commit (R309, R312, R313) -/

/-- The first start allowed (R309). -/
def firstT0 (s : State) (c : Chain) (nb : Nat) : Nat :=
  let t := max (curSlot s + 1 + c.lead) nb
  match c.dep with
  | none => t
  | some (h, n) => match stepAt s h n with
    | some d => max t (d.ending + 1 + c.dgap)
    | none => t

/-- A step that needs more units than PL or the grant allows (R309). -/
def overPower (s : State) (c : Chain) : Bool :=
  c.steps.any fun st => st.cls < 6 && (powerLimit s c.g < classUnits st.cls || grantUnits s c.ctx < classUnits st.cls)

/-- The answers of the modules to an attempt's hold requests, in step order, up to the first refusal (free values, log 26). -/
def takenOf (w : Nat) : List BStep → List BStep × Bool
  | [] => ([], true)
  | st :: l => if w % 2 = 1 then ([], false) else
    match takenOf (w / 2) l with
    | (a, ok) => (st :: a, ok)

/-- The hold request of a remote step. -/
def holdOf (h : BitVec 32) (st : BStep) : Sent :=
  .hold st.dev { cls := st.cls, cmask := st.cmask, lanes := st.lanes, start := st.start, dur := st.dur, handle := h }

/-- What a refused attempt sends: its requests up to the one refused, and the releases of those that were accepted (R313). -/
def attemptSent (s : State) (t0 : Nat) (h : BitVec 32) (a : Nat × List BStep) : List Sent :=
  let rems := a.2.filter (·.rem)
  let got := (takenOf (Config.freeWord (s.free + 1 + (a.1 - t0))) rems).1
  (rems.take (got.length + 1)).map (holdOf h) ++ got.map fun st => Sent.commit st.dev h false

/-- Serve a request whose descriptor is well formed: the result code, the chain as booked, and the messages of the refused attempts.
Whether another module accepts its holds, and which resource it takes, is outside this module: free values answer (log 26). -/
def search (s : State) (c : Chain) (nb : Nat) (reserve : Bool) : Nat × Option Chain × List Sent :=
  let bku := bkuOf c
  let rems := c.steps.filter (·.rem)
  if !depOk s c then (0x13, none, [])
  else if !rems.isEmpty && (s.misaligned || Config.freeWord s.free % 2 = 1) then (0x16, none, [])
  else
    match freeIndex s bku with
    | none => (0x17, none, [])
    | some i =>
      if overPower s c then (0x11, none, [])
      else
        let t0 := firstT0 s c nb
        let accept := fun (t : Nat) => (takenOf (Config.freeWord (s.free + 1 + (t - t0))) rems).2
        let out := searchFrom s (chainsOf s) (curSlot s) (if reserve then .held else .committed) c accept 4096 t0
        let told := out.2.flatMap (attemptSent s t0 (mkHandle s bku i))
        match out.1 with
        | none => (0x10, none, told)
        | some steps =>
          let pick := fun (st : BStep) =>
            let cs := (List.range 48).filter fun r => st.cmask.testBit r
            cs.getD (Config.freeWord (s.free + 4098) % cs.length) 0
          (if reserve then 0x01 else 0x00,
            some { c with handle := mkHandle s bku i, age := s.nextOrder
                          steps := steps.map fun st =>
                            { st with heldAt := curSlot s, ridx := if st.rem then pick st else st.ridx } }, told)

/-- The state after a search that asked other modules: free values are used up, and the messages of refused attempts have left. -/
def asked (s : State) (c : Chain) (told : List Sent) : State :=
  if c.steps.any (·.rem) then { s with free := s.free + 4099, sent := s.sent ++ told } else s

/-- Enter a chain that the search placed; the modules of remote steps have been sent their hold requests. -/
def enterChain (s : State) (c : Chain) : State :=
  { s with
    books := s.books.put (chainKey c.handle) c
    nextOrder := s.nextOrder + 1
    sent := s.sent ++ (c.steps.filter (·.rem)).map (holdOf c.handle) }

/-! ## Access to a descriptor -/

/-- Translate the 16-byte pieces of a footprint; the first that does not reach memory stops it. -/
def spanReach (h ctx oid : Nat) (wr : Bool) : List Nat → State → State × Sum Tr (List (Nat × Nat × Nat))
  | [], s => (s, .inr [])
  | o :: r, s =>
    match translate s h ctx oid o wr with
    | (s, .phys key pa) =>
      match spanReach h ctx oid wr r s with
      | (s, .inr l) => (s, .inr ((o, key, pa) :: l))
      | (s, .inl t) => (s, .inl t)
    | (s, t) => (s, .inl t)

/-- What a failed translation of a control-stream access does. -/
def failedReach (s : State) (u : Unit) (a : Acc) : Tr → Res
  | .fault kind => .trap s 0x20 kind a
  | .stall => .wait s u .memory
  | .pantry _ _ | .remote _ _ | .phys _ _ => .trap s 0x0C 0 a

/-- Read the pieces past the banks' detectors: bytes and the first poison. -/
def spanRead : List (Nat × Nat × Nat) → State → State × List Byte × Option Poison
  | [], s => (s, [], none)
  | (_, key, pa) :: r, s =>
    match readIn s key pa 16 with
    | (s, bs, p) =>
      match spanRead r s with
      | (s, bs', q) => (s, bs ++ bs', p.orElse fun _ => q)

/-- The granules of a descriptor of `n` steps, and those of the output fields that a commit writes (R325). -/
def descGrans (off n : Nat) : Nat := (off % 64 + 16 + 32 * n + 63) / 64
def outGrans (off n : Nat) : Nat := (((List.range n).map fun i => (off + 32 + 32 * i) / 64).eraseDups).length

/-- The output fields of the steps, RIDX and PFX of S2 and the whole of S3, into the pieces that hold them. -/
def writeBack (steps : List BStep) (ps : List (Nat × Nat × Nat)) (s : State) : State :=
  (List.range steps.length).foldl (fun s i =>
    match steps[i]?, ps[2 + 2 * i]? with
    | some st, some (_, key, pa) =>
      let s2 := leNat (viewBytes s key pa 8)
      let s2 := putBits (putBits s2 24 6 st.ridx) 32 12 st.pfx
      writeBytes s key pa (leBytes 8 s2 ++ leBytes 8 st.start)
    | _, _ => s) s

/-- BOOK and RESERVE (R310, R312, R313); the phase is sealed at issue (R385). -/
def bookEffect (reserve : Bool) (d : SReg) (c : CReg) (a : SReg) (s : State) (u : Unit) : Res :=
  let k := s.cur.1
  let cp := u.creg c
  let off := cp.cursor
  let acc := accOf s u cp off true
  if u.replay.any fun p => p.str = .c then .wait s u .replay
  else if spent s (groveOf k) then .wait s u .memory
  else
    match accCheck s u cp (rR + rW) off 16 16 [0, 1] with
    | some (code, kind) => .trap s code kind acc
    | none =>
      match spanReach (hearthOf k) u.ctx cp.oid false [off] s with
      | (s, .inl t) => sealing k (failedReach s u acc t)
      | (s, .inr hd) =>
        let n := nbits (leNat (viewBytes s ((hd.head?.map (·.2.1)).getD 0) ((hd.head?.map (·.2.2)).getD 0) 8)) 2 0 + 1
        match accCheck s u cp (rR + rW) off (16 + 32 * n) 16 [0, 1] with
        | some (code, kind) => .trap s code kind acc
        | none =>
          match spanReach (hearthOf k) u.ctx cp.oid false ((List.range (1 + 2 * n)).map fun i => off + 16 * i) s with
          | (s, .inl t) => sealing k (failedReach s u acc t)
          | (s, .inr ps) =>
            if ps.any fun p => isSync s p.2.2 then .trap s 0x0D 0 acc
            else
              match spanRead ps (charge s (groveOf k) (descGrans off n)) with
              | (s, bs, poison) =>
                let u := { u with sealed := true }
                let desc := descOf reserve u.ctx (groveOf k) u.who ((doublesOf bs (2 + 4 * n)).map BitVec.toNat)
                let fin := fun (s : State) (code : Nat) (h : BitVec 32) => okPoison s (u.setS d (resultWord code 0 h)) poison
                match desc.allowed s with
                | none => fin s 0x12 0
                | some want =>
                  match search s want (u.sreg a).toNat reserve with
                  | (code, none, told) => fin (asked s want told) code 0
                  | (code, some ch, told) =>
                    match spanReach (hearthOf k) u.ctx cp.oid true ((List.range (1 + 2 * n)).map fun i => off + 16 * i) (asked s want told) with
                    | (s, .inl t) => sealing k (failedReach s u acc t)
                    | (s, .inr ps) =>
                      fin (writeBack ch.steps ps (enterChain (charge s (groveOf k) (outGrans off n)) ch)) code ch.handle

def execBook (n : Nxt) (d : SReg) (c : CReg) (a : SReg) (s : State) : Out := ctl s (actOf n) 1 (bookEffect false d c a)
def execReserve (n : Nxt) (d : SReg) (c : CReg) (a : SReg) (s : State) : Out := ctl s (actOf n) 1 (bookEffect true d c a)

/-! ## CONFIRM and ABANDON -/

/-- Tell the modules of a chain's remote steps the fate of their holds. -/
def tellRemote (s : State) (c : Chain) (commit : Bool) : State :=
  { s with sent := s.sent ++ (c.steps.filter (·.rem)).map fun st => Sent.commit st.dev c.handle commit }

/-- Release every hold of a chain (R313). -/
def releaseHolds (s : State) (c : Chain) : State :=
  let s := updChain (tellRemote s c false) c.handle fun c =>
    { c with steps := c.steps.map fun st => { st with st := .cancelled } }
  backfill (sweepChain s c.handle) (bits c.handle 31 27)

/-- A hold has expired: 256 slots have passed, or its slots have been freed since (R313). -/
def BStep.expired (st : BStep) (cur : Nat) : Bool := st.st == .cancelled || st.heldAt + 256 ≤ cur

/-- A chain whose holds have not been confirmed; an expired hold keeps its entry until CONFIRM or ABANDON. -/
def Chain.isHeld (c : Chain) : Bool := c.steps.all fun st => st.st == .held || st.st == .cancelled

/-- The chain that a handle names for the unit's context, with a non-zero bit outside the handle refused. -/
def withChain (d a : SReg) (s : State) (u : Unit) (f : Chain → Res) : Res :=
  let v := u.sreg a
  if bits v 63 32 != 0 then answer d 0x12 0 0 s u
  else
    match chainAt s (v.truncate 32) with
    | none => answer d 0x13 0 0 s u
    | some c => if c.ctx = u.ctx && c.remote.isNone && !c.test then f c else answer d 0x13 0 0 s u

def execConfirm (n : Nxt) (d a : SReg) (s : State) : Out :=
  ctl s (actOf n) 1 fun s u =>
    let u := { u with sealed := true }
    withChain d a s u fun c =>
      let cur := curSlot s
      if !c.isHeld then answer d 0x13 0 0 s u
      else if c.steps.any fun st => st.expired cur then answer d 0x14 0 c.handle (releaseHolds s c) u
      else if c.steps.any fun st => st.start - st.pfx ≤ cur then answer d 0x15 0 c.handle (releaseHolds s c) u
      else
        answer d 0x00 0 c.handle (updChain (tellRemote { s with nextOrder := s.nextOrder + 1 } c true) c.handle fun c =>
          { c with age := s.nextOrder, steps := c.steps.map fun st => { st with st := .committed } }) u

/-- A unit as the state holds it after an effect on others. -/
def again (s : State) (k : Nat) (u : Unit) : Unit := (s.units.get? k).getD u

def execAbandon (n : Nxt) (d a : SReg) (s : State) : Out :=
  ctl s (actOf n) 1 fun s u =>
    let u := { u with sealed := true }
    withChain d a s u fun c =>
      let s := putUnit s s.cur.1 u
      let s := if c.isHeld then releaseHolds s c else abandonChain s c.handle
      answer d 0x00 0 c.handle s (again s s.cur.1 u)

/-! ## LEASE (R314, R321, R323) -/

/-- What the next lease of a slot reports when it does not keep the state. -/
def leaseState (u : Unit) (ls : Nat) : Nat :=
  match u.leases.toList.getD ls none with
  | some l => if l.evicted then 2 else 0
  | none => if u.retained.getLsbD ls then 2 else 0

/-- The slot takes a lease; its marks are cleared. -/
def Unit.takeLease (u : Unit) (ls : Nat) (l : LeaseSlot) : Unit :=
  { u with leases := vmodify u.leases ls fun _ => some l, retained := BitVec.ofNat 4 (putBits u.retained.toNat ls 1 0) }

/-- No engine holds the state that the slot's lease before the last left (R323). -/
def forgetRetained (s : State) (key : Nat × Nat) : State :=
  { s with engines := s.engines.map fun e => (e.1, if e.2.retains = some key then { e.2 with retains := none } else e.2) }

def slotTaken (u : Unit) (ls : Nat) : Bool :=
  match u.leases.toList.getD ls none with
  | some l => !l.evicted
  | none => false

/-- A booked step's binding, as a lease slot holds it. -/
def bookedLease (c : Chain) (i : Nat) (st : BStep) (cls : EngineClass) : LeaseSlot :=
  { eng := ⟨c.g, cls, st.ridx⟩, handle := c.handle, step := i, isOpen := false, evicted := false, start := 64 * st.start,
    ends := 0, prio := 0, order := 0, load := none }

/-- LEASE of a booked step, whose engine serves the slot at once when the step runs. A step leased on another
slot is in the wrong state (log 27). -/
def leaseEffect (d a : SReg) (s : State) (u : Unit) : Res :=
  let k := s.cur.1
  let v := u.sreg a
  let i := bits v 34 32
  let ls := bits v 41 40
  if bits v 39 35 != 0 || bits v 63 42 != 0 then answer d 0x12 0 0 s u
  else
    match chainAt s (v.truncate 32), stepAt s (v.truncate 32) i with
    | some c, some st =>
      let bound := updStep s c.handle i fun st => { st with lease := some (k, ls) }
      let serve := fun (cls : EngineClass) =>
        if st.runs then setEng bound ⟨c.g, cls, st.ridx⟩ { engAt bound ⟨c.g, cls, st.ridx⟩ with key := some (k, ls) } else bound
      if c.ctx != u.ctx || c.remote.isSome || c.test || !st.live || st.st == .held then answer d 0x13 0 0 s u
      else if 6 < st.cls || c.g != groveOf k || (st.cls = 6 && st.ridx != hearthOf k % 8) then answer d 0x18 0 0 s u
      else
        match clsOf st.cls with
        | none =>
          if ls != 0 then answer d 0x12 0 0 s u
          else if u.ladle.isSome then answer d 0x19 0 0 s u
          else if st.lease.isSome then answer d 0x13 0 0 s u
          else answer d 0 0 c.handle bound { u with ladle := some (bookedLease c i st .griddle) }
        | some cls =>
          if slotTaken u ls then answer d 0x19 0 0 s u
          else if st.lease.isSome then answer d 0x13 0 0 s u
          else answer d 0 (leaseState u ls) c.handle (forgetRetained (serve cls) (k, ls)) (u.takeLease ls (bookedLease c i st cls))
    | _, _ => answer d 0x13 0 0 s u

def execLease (n : Nxt) (d a : SReg) (s : State) : Out := ctl s (actOf n) 1 (leaseEffect d a)

/-- An open lease: the request queues, and the word ends when its engine is awake; the wait is a memory stall (R310). -/
def leaseOpenEffect (d a : SReg) (s : State) (u : Unit) : Res :=
  let k := s.cur.1
  match s.openReqs.find? fun r => r.key = k with
  | some r =>
    match r.granted with
    | none => .wait s u .memory
    | some (e, st) =>
      if slotTaken u r.ls && (engAt s e).power != .awake then .wait s u .memory
      else answer d 0 st 0 { s with openReqs := s.openReqs.filter fun r => r.key != k } u
  | none =>
    let v := u.sreg a
    let cls := bits v 3 0
    let em := bits v 23 8
    let ls := bits v 25 24
    if bits v 31 26 != 0 || bits v 63 44 != 0 || 5 < cls || 2 ^ classCount cls ≤ em then answer d 0x12 0 0 s u
    else if slotTaken u ls then answer d 0x19 0 0 s u
    else if powerLimit s (groveOf k) < classUnits cls || grantUnits s u.ctx < classUnits cls then answer d 0x11 0 0 s u
    else
      let r : OpenReq :=
        { g := groveOf k, cls := cls, key := k, ls := ls, prio := bits v 7 4, emask := em, maxd := bits v 43 32 + 1,
          tick := s.time, order := s.nextOrder, granted := none }
      .wait { s with nextOrder := s.nextOrder + 1, openReqs := s.openReqs ++ [r] } u .memory

def execLeaseOpen (n : Nxt) (d a : SReg) (s : State) : Out := ctl s (actOf n) 1 (leaseOpenEffect d a)

end Sys2Proof.Machine
end

