-- ==== Sys2Proof/Machine/Flow.lean ====
section
/-! DEFINITION. Transfers and loops of the control stream (R283 to R286), HALT (R298) and IFSYNC (R240). -/

namespace Sys2Proof.Machine

/-- The word count of the control code area. -/
def areaWords (s : State) (u : Unit) : Nat := ((ctxRec? s u.ctx).map (·.areas.c.used)).getD 0

/-- PBR to a target, if it lies in the control code area (R283). -/
def setTarget (bt : BReg) (pr : PReg) (sn : Bool) (target : Int) (s : State) (u : Unit) : Res :=
  if 0 ≤ target && target < areaWords s u then
    .ok s (u.setB bt { valid := true, target := target.toNat, pr := pr, sn := sn })
  else .trap s 0x07 0 Acc.none

def execPbr (n : Nxt) (bt : BReg) (pr : PReg) (sn : Bool) (off : Word) (s : State) : Out :=
  ctl s (actOf n) 2 fun s u => setTarget bt pr sn ((u.r.pc : Int) + off.toInt) s u

def execPbrRegister (n : Nxt) (bt : BReg) (pr : PReg) (sn : Bool) (a : SReg) (s : State) : Out :=
  ctl s (actOf n) 1 fun s u => setTarget bt pr sn (u.sreg a).toNat s u

/-- The transfer of BRX is no next-address action: it is legal in plain mode (R285). -/
def execBrx (bt : BReg) (pr : PReg) (sn : Bool) (s : State) : Out :=
  ctl s .seq 1 fun s u =>
    let b := u.breg bt
    if !b.valid then .trap s 0x04 0 Acc.none
    else if u.preg pr != sn then
      -- the skeleton adds the word's own length
      .ok s (u.setPc (b.target + 2 ^ 24 - 1))
    else .ok s u

/-- Activate a level: every active level from 0 to `lv` is abandoned first (R286). The start is the next
sequential word. -/
def startLoop (lv : BitVec 2) (count : Nat) (u : Unit) : Unit :=
  (u.abandonBelow (lv.toNat + 1)).setLevel lv.toNat
    { active := true, start := (u.r.pc + 1) % 2 ^ 24, count := count, iter := 0 }

def loopWord (n : Nxt) (s : State) (f : State → Unit → Res) : Out :=
  ctl s (actOf n) 1 fun s u => if u.r.plain then .trap s 0x04 0 Acc.none else f s u

def execLoop (n : Nxt) (lv : BitVec 2) (c : BitVec 12) (s : State) : Out :=
  loopWord n s fun s u => .ok s (startLoop lv (c.toNat + 1) u)

def execLoopRegister (n : Nxt) (lv : BitVec 2) (a : SReg) (s : State) : Out :=
  loopWord n s fun s u =>
    let c := (u.sreg a).toNat
    if c = 0 || 2 ^ 32 < c then .trap s 0x07 0 Acc.none else .ok s (startLoop lv c u)

/-- HALT begins its bundle: the control stream waits at it until the event HALT_RETIRE ends it (R298). -/
def execHalt (s : State) : Out := ctl s .seq 1 fun s u => .wait s { u with halting := true } .drain

/-- A stream with a record waiting or a strand that has not ended, or an incomplete operation. -/
def Unit.streamBusy (u : Unit) (str : Stream) : Bool :=
  let q := u.seqr.get str
  !q.queue.isEmpty || q.run.isSome || u.ops.any fun o => o.str = str

def engineStreams : List Stream := [.vl, .va, .vs, .m, .d]

/-- IFSYNC waits for every dispatched strand, then discards the loop buffer; strand stores are empty by
then (R240). -/
def execIfsync (n : Nxt) (s : State) : Out :=
  ctl s (actOf n) 1 fun s u =>
    if engineStreams.any u.streamBusy then .wait s u .strands
    else .ok s { u with body := none, capts := [] }

end Sys2Proof.Machine
end

