-- ==== Sys2Proof/Machine/DsOps.lean ====
section
/-! DEFINITION. Strand dispatch (R290), configuration sets (R148, R149, R181, R241, R292), tokens (R294), tile
registers (R295) and PHASE (R382). -/

namespace Sys2Proof.Machine

/-! ## DISP -/

/-- A loop-count word as a count; none when a register count exceeds 16,777,216 (R54). -/
def countOf (u : Unit) (w : Word) : Option Nat :=
  if bit w 31 then
    let v := (u.sreg (w.truncate 5)).toNat
    if v ≤ 2 ^ 24 then some v else none
  else some (bits w 23 0 + 1)

def countsOf (u : Unit) : List Word → Option (List Nat)
  | [] => some []
  | w :: r =>
    match countOf u w, countsOf u r with
    | some c, some cs => some (c :: cs)
    | _, _ => none

/-- A vector sub-stream is busy while a strand runs, which ends with its last word (R291), or a record waits (R293). -/
def Unit.vbusy (u : Unit) (str : Stream) : Bool :=
  let q := u.seqr.get str
  !q.queue.isEmpty || (q.run.isSome && !q.ending)

/-- The other vector sub-streams. -/
def otherV : Stream → List Stream
  | .vl => [.va, .vs]
  | .va => [.vl, .vs]
  | .vs => [.vl, .va]
  | .m | .d | .c => []

/-- A sub-stream that becomes busy takes the least position of the other busy ones (R293). -/
def Unit.joinPos (u : Unit) (str : Stream) : Unit :=
  if u.vbusy str then u
  else
    match (otherV str).filter u.vbusy with
    | [] => u
    | a :: r => { u with pos := u.pos.set str (r.foldl (fun m t => min m (u.pos.get t)) (u.pos.get a)) }

/-- The shared effect of both DISP forms. A count or a descriptor out of range traps even where another count is 0 (log 51). -/
def dispatch (str : BitVec 3) (ps : SReg) (desc : Word) (cs : List Word) (s : State) (u : Unit) : Res :=
  match streamOf str.toNat, codeOf s u with
  | some t, some c =>
    let len := bits desc 31 24 + 1
    let start := bits desc 23 0
    match countsOf u cs with
    | none => .trap s 0x07 0 Acc.none
    | some ns =>
      if c.bases.get t + c.counts.get t < start + len then .trap s 0x07 0 Acc.none
      else if ns.elem 0 then .ok s u
      else
        let q := u.seqr.get t
        if 4 ≤ q.queue.length then .wait s u .queueFull
        else
          let u := u.joinPos t
          let d : DispRec := { start := start, len := len, counts := ns, push := u.sreg ps, caps := u.r.c }
          .ok s { u with seqr := u.seqr.set t { q with queue := q.queue ++ [d] } }
  | _, _ => .trap s 0x07 0 Acc.none

def execDisp (n : Nxt) (str : BitVec 3) (ps : SReg) (desc : Word) (cs : List Word) (s : State) : Out :=
  ctl s (actOf n) (2 + cs.length) (dispatch str ps desc cs)

def execDispRegister (n : Nxt) (str : BitVec 3) (ps : SReg) (ad : SReg) (cs : List Word) (s : State) : Out :=
  ctl s (actOf n) (1 + cs.length) fun s u => dispatch str ps ((u.sreg ad).truncate 32) cs s u

/-! ## CFG -/

/-- The bits of an index that must be 0, for an index that Table 11.5 assigns; none for any other. Address
generators stand at 0x80; the words of an extraction pattern are checked at issue (R115). -/
def cfgZeros (str : Stream) (i : Nat) : Option Nat :=
  let ag := fun (lanes : Bool) =>
    match (i - 0x80) % 8 with
    | 0 => some 0xFFFFFFF0
    | 6 => if lanes then some 0xFFF00000 else none
    | 7 => none
    | _ => some 0
  let v := if i = 0 then some 0xFFFFFF00 else if i = 1 then some 0xFFFFFFFC else none
  match str with
  | .vl =>
    if 0x80 ≤ i && i < 0xC0 then ag true
    else if 0x40 ≤ i && i < 0x60 then (if i % 8 < 5 then some 0 else none)
    else v
  | .va =>
    match i with
    | 2 => some 0xFFFFFFF8
    | 3 => some 0xFFFFFF00
    | 4 => some 0xFFFF0080
    | 5 => some 0xFFFFFFF8
    | 8 => some 0xFFFFFFC0
    | _ => v
  | .vs => if 0x80 ≤ i && i < 0xC0 then ag true else v
  | .m =>
    match i with
    | 0x00 => some 0xFFFFFFFE
    | 0x10 => some 0xFFFFFF00
    | 0x11 => some 0xFFFFFFF0
    | 0x12 => some 0
    | 0x13 => some 0xFFF00000
    | 0x20 => some 0xFFFFF000
    | 0x21 => some 0
    | 0x30 => some 0xFFFF00F0
    | 0x31 => some 0xFF000000
    | 0x40 => some 0xFF000000
    | _ => if 0xC0 ≤ i && i < 0x100 then some 0xFFFF0000 else none
  | .d => if 0x80 ≤ i && i < 0xC0 then ag false else none
  | .c => none

/-- The value limits that a CFG checks (R149, Table 9.6, Table 11.6). -/
def cfgInRange (str : Stream) (i : Nat) (v : Word) : Bool :=
  match str with
  | .vl | .vs =>
    if i = 0 then bits v 7 0 ≤ 128
    else true
  | .va =>
    match i with
    | 0 => bits v 7 0 ≤ 128
    | 2 => bits v 2 0 ≤ 4
    | 4 => bits v 3 0 != 0 && bits v 6 4 ≤ 5
    | 8 => 1 ≤ bits v 5 0 && bits v 5 0 ≤ 32
    | _ => true
  | .m | .d | .c => true

/-- The value of an index that no CFG has changed (Tables 6.1, 7.1, 9.6). VCSLIP is always listed. -/
def cfgReset (str : Stream) (i : Nat) : Word :=
  match str with
  | .vl | .vs => if 0x80 ≤ i && (i - 0x80) % 8 = 6 then 1 else 0
  | .va => if i = 3 then 3 else if i = 4 then 4 else if i = 5 then 2 else 0
  | .m =>
    if i = 0x13 then 0x40 else if i = 0x20 then 0x7F else if i = 0x21 then 0x3F800000
    else if i = 0x30 then 0x3F00 else if i = 0x31 then 48 else if i = 0x40 then 128 else 0
  | .d | .c => 0

def cfgRead (str : Stream) (t : Tab Word) (i : Nat) : Word := Tab.getD (cfgReset str i) t i

/-- No engine command of the slot is in flight. -/
def Unit.slotIdle (u : Unit) (ls : Nat) : Bool :=
  !u.ops.any fun o => match o.body with
    | .m m => m.slot = ls
    | .vl _ | .va _ | .vs _ | .d _ => false

/-- A CFG's write into a shadow set; the M set of a slot swaps in at once when no command runs there (R181). -/
def Unit.cfgWrite (u : Unit) (t : Stream) (ls i : Nat) (v : Word) : Unit :=
  match t with
  | .m =>
    let f := fun (x : Tab Word) => Tab.set (cfgReset .m i) x i v
    let cpl := { u.cpl with mcfg := vmodify u.cpl.mcfg ls f }
    { u with cpl := if u.slotIdle ls then { cpl with mactive := vmodify cpl.mactive ls fun _ => cpl.mcfg.toList.getD ls [] } else cpl }
  | .vl | .va | .vs | .d | .c =>
    let x := u.cpl.cfg.get t
    let y := if t = .va && i = 8 then x.put i v else Tab.set (cfgReset t i) x i v
    { u with cpl := { u.cpl with cfg := u.cpl.cfg.set t y } }

def execCfg (n : Nxt) (str : BitVec 3) (ls : BitVec 2) (idx : BitVec 8) (a : SReg) (s : State) : Out :=
  ctl s (actOf n) 1 fun s u =>
    match streamOf str.toNat with
    | none => .trap s 0x03 0 Acc.none
    | some t =>
      let i := idx.toNat
      let v : Word := (u.sreg a).truncate 32
      match cfgZeros t i with
      | none => .trap s 0x03 0 Acc.none
      | some z =>
        if v.toNat &&& z != 0 || !cfgInRange t i v then .trap s 0x03 0 Acc.none
        else if t != .m && !(u.seqr.get t).queue.isEmpty then .wait s u .strands
        else .ok s (u.cfgWrite t ls.toNat i v)

/-! ## Tokens (R218, R294) -/

/-- The place of a stream among the GETs of one counter that issue in one grove cycle. -/
def tokenRank : Stream → Nat
  | .vl => 0
  | .va => 1
  | .vs => 2
  | .m => 3
  | .d => 4
  | .c => 5

/-- TOK.GET by a stream: strictly in order of issue among the waiting GETs of the counter, those of one grove cycle in the order of their
streams. -/
def takeToken (str : Stream) (tk n : Nat) (s : State) (u : Unit) : Res :=
  let t := u.tokAt tk
  if t.order.elem str then
    if t.order.head? = some str && n ≤ t.count then .ok s (u.setTok tk { count := t.count - n, order := t.order.filter (· != str) })
    else .wait s u .token
  else if !mayServe s (tokenRank str) (tokenPort s.cur.1 tk) then .wait s u .token
  else
    let s := noteServed s (tokenRank str) [tokenPort s.cur.1 tk]
    if t.order.isEmpty && n ≤ t.count then .ok s (u.setTok tk { t with count := t.count - n })
    else .wait s (u.setTok tk { t with order := t.order ++ [str] }) .token

/-- A control-stream put waits for the control stream's parked stores. -/
def execTokPut (n : Nxt) (tk : BitVec 4) (c : BitVec 8) (s : State) : Out :=
  ctl s (actOf n) 1 fun s u =>
    let t := u.tokAt tk.toNat
    if u.replay.any fun p => p.str = .c then .wait s u .replay
    else if 65535 < t.count + (c.toNat + 1) then .trap s 0x07 0 Acc.none
    else .ok s (u.setTok tk.toNat { t with count := t.count + (c.toNat + 1) })

def execTokGet (n : Nxt) (tk : BitVec 4) (c : BitVec 8) (s : State) : Out :=
  ctl s (actOf n) 1 (takeToken .c tk.toNat (c.toNat + 1))

/-- A put of an engine stream is performed once every earlier operation of the stream has completed; the
stream goes on at once. -/
def putToken (str : Stream) (tk : BitVec 4) (c : BitVec 8) (s : State) : Out :=
  eng s str 1 fun s u _ =>
    let n := c.toNat + 1
    let t := u.tokAt tk.toNat
    let last := u.cpl.issued.get str
    if u.done str < last then .ok s { u with puts := u.puts ++ [(str, last, tk.toNat, n)] }
    else if 65535 < t.count + n then .trap s 0x07 0 Acc.none
    else .ok s (u.setTok tk.toNat { t with count := t.count + n })

def getToken (str : Stream) (tk : BitVec 4) (c : BitVec 8) (s : State) : Out :=
  eng s str 1 fun s u _ => takeToken str tk.toNat (c.toNat + 1) s u

def execTokPutVl (tk : BitVec 4) (c : BitVec 8) (s : State) : Out := putToken .vl tk c s
def execTokGetVl (tk : BitVec 4) (c : BitVec 8) (s : State) : Out := getToken .vl tk c s
def execTokPutVa (tk : BitVec 4) (c : BitVec 8) (s : State) : Out := putToken .va tk c s
def execTokGetVa (tk : BitVec 4) (c : BitVec 8) (s : State) : Out := getToken .va tk c s
def execTokPutVs (tk : BitVec 4) (c : BitVec 8) (s : State) : Out := putToken .vs tk c s
def execTokGetVs (tk : BitVec 4) (c : BitVec 8) (s : State) : Out := getToken .vs tk c s
def execTokPutM (tk : BitVec 4) (c : BitVec 8) (s : State) : Out := putToken .m tk c s
def execTokGetM (tk : BitVec 4) (c : BitVec 8) (s : State) : Out := getToken .m tk c s
def execTokPutD (tk : BitVec 4) (c : BitVec 8) (s : State) : Out := putToken .d tk c s
def execTokGetD (tk : BitVec 4) (c : BitVec 8) (s : State) : Out := getToken .d tk c s

/-! ## TILE -/

/-- An issued reader or writer of a tile is incomplete. -/
def Unit.tileBusy (u : Unit) (t : Nat) : Bool := u.ops.any fun o => o.readsT.elem t || o.writesT.elem t

def execTile (n : Nxt) (t : BitVec 4) (c : CReg) (fe : Bool) (s : State) : Out :=
  ctl s (actOf n) 1 fun s u =>
    let cp := u.creg c
    let a := accOf s u cp cp.cursor false
    if !cp.tag then .trap s 0x0A 1 a
    else if !hasRights cp.rights rR then .trap s 0x0A 2 a
    else if cp.cursor < 65536 * cp.base then .trap s 0x0A 3 a
    else if levelOf s u.ctx cp.oid != some 2 || (partOf s u.lid (groveOf s.cur.1)).isNone then .trap s 0x0C 0 a
    else if cp.cursor % 64 != 0 || 65536 * (cp.base + cp.len) ≤ cp.cursor then .trap s 0x07 0 Acc.none
    else if u.tileBusy t.toNat then .wait s u .control
    else
      let x := u.tileAt t.toNat
      .ok s (u.setTile t.toNat { f := fe, reads := x.reads, remain := x.reads, reg := true, cap := cp })

/-! ## PHASE (R382) -/

/-- The unit after the commit; the checkpoint is taken as the next-address action leaves it. -/
def Unit.commit (u : Unit) (n : NextAct) : Unit :=
  let u := { u with role := !u.role, count := (u.count + 1) % 2 ^ 32, sealed := false, retry := 0,
                    fills := u.building, building := [], written := 0 }
  match u.next 1 n with
  | some v => { u with ckpt := { regs := v.r, cpl := v.cpl } }
  | none => u

/-- PHASE up to its commit. -/
def phaseEffect (n : NextAct) (s : State) (u : Unit) : Res :=
  if u.inh then .trap s 0x04 0 Acc.none
  else if engineStreams.any u.streamBusy then .wait s u .answer
  else if !u.replay.isEmpty then .wait s u .replay
  else if u.sq.toList.any fun q => !q.entries.isEmpty then .trap s 0x07 0 Acc.none
  else if u.cancelled then .whole (killUnit s s.cur.1 { causeC u 0 0 Acc.none with code := 0 } true)
  else .ok s (u.commit n)

/-- A committed PHASE is the unit's pre-emption point (R338). -/
def execPhase (n : Nxt) (s : State) : Out :=
  match ctl s (actOf n) 1 (phaseEffect (actOf n)) with
  | .next s' =>
    let count := fun (t : State) => (t.units.get? s.cur.1).map (·.count)
    .next (if (count s').isSome && count s != count s' then atPreemption s' s.cur.1 else s')
  | o => o

end Sys2Proof.Machine
end

