-- ==== Sys2Proof/Machine/SrOps.lean ====
section
/-! DEFINITION. Special registers (R56, R142 to R145) with the waits and checks of each entry, TRAP (R375) and
INJECT (R391). -/

namespace Sys2Proof.Machine

/-! ## Reading -/

/-- $mstatN (Table 7.2); PEND is that of the engine while it serves the slot. -/
def mstatWord (s : State) (u : Unit) (i : Nat) : Nat :=
  let m := u.mstat.toList.getD i MStat.initial
  let l := (u.leases.toList.getD i none).filter fun l => !l.evicted
  let cls := match l with
    | some l => clsCode l.eng.cls + 1
    | none => 0
  let pend := match l with
    | some l => (engAt s l.eng).key == some (s.cur.1, i) && (engAt s l.eng).mem.pert.isSome
    | none => false
  (if m.accovf then 1 else 0) + m.ovfm % 2 * 2 + (if m.chkf then 4 else 0) + (if m.pdisc then 8 else 0) +
    (if pend then 16 else 0) + cls * 2 ^ 8

/-- $tileN (Table 11.4). -/
def tileWord (x : Tile) : Nat := (if x.f then 1 else 0) + x.reads * 2 + x.remain * 2 ^ 9 + if x.reg then 2 ^ 17 else 0

/-- $lcN: a count of 2^32 reads as 0. -/
def lcWord (l : LoopLevel) : Nat := l.iter % 2 ^ 32 + l.count % 2 ^ 32 * 2 ^ 32

def grantWord (g : GrantBody) : Nat := g.units + (if g.boost then 64 else 0) + g.minf * 2 ^ 7 + g.maxp * 2 ^ 16

def stateCode : StepState → Nat
  | .held => 1
  | .committed => 2
  | .frozen => 3
  | .running => 4
  | .late => 5
  | .suspended => 6
  | .ended => 7
  | .cancelled => 8

/-- $bkinfo of the step that $bksel names, in the unit's own context (Table 12.9). -/
def bkinfoWord (s : State) (u : Unit) : Nat :=
  let h := BitVec.ofNat 32 (u.bksel % 2 ^ 32)
  match chainAt s h with
  | none => 0
  | some c =>
    if c.ctx != u.ctx then 0
    else
      match c.steps[nbits u.bksel 34 32]? with
      | none => 0
      | some st =>
        let start := match st.rmd with
          | some r => r.start
          | none => st.start
        stateCode st.st + st.ridx % 64 * 16 + st.pfx % 4096 * 2 ^ 10 + start % 2 ^ 32 * 2 ^ 32

/-- $hcnt: the counter that $hsel names, 0 for an identifier of another context (Table 13.4). -/
def hcntOf (s : State) (u : Unit) : Double :=
  let t := match nbits u.hsel 17 16 with
    | 0 => s.graphs
    | 1 => s.phases
    | _ => s.jobs
  match t.get? (u.hsel % 2 ^ 16) with
  | some i => if i.owner = u.ctx then i.counter else 0
  | none => 0

/-- The unit's partition in its grove. -/
def ownPart (s : State) (k : Nat) (u : Unit) : Option (Nat × Partition) := partOf s u.lid (groveOf k)

def twoWords (lo hi : Nat) (r : Nat) : Option Nat := if lo ≤ r && r ≤ hi then some (r - lo) else none

/-- The value of special register `r` for the unit at `k`; none for an unassigned number (R56). The write-only $fans reads 0 (log 17). -/
def srRead (s : State) (k : Nat) (u : Unit) (r : Nat) : Option Double :=
  let n := fun (x : Nat) => some (BitVec.ofNat 64 x)
  match r with
  | 0x000 => n s.time
  | 0x001 => some u.r.flags
  | 0x002 => n u.r.lfsrv.toNat
  | 0x003 => n u.r.lfsrd.toNat
  | 0x004 => n (u.index % 2 ^ 24)
  | 0x005 => n (hearthOf k + k % 2 * 2 ^ 7 + u.ctx * 2 ^ 8)
  | 0x006 => n (if u.r.plain then 1 else 0)
  | 0x007 => n (u.lid % 2 ^ 32 + (if u.ticket.isSome then 2 ^ 32 else 0) + u.copy % 2 * 2 ^ 33)
  | 0x008 => n (lcWord (u.level 0))
  | 0x009 => n (lcWord (u.level 1))
  | 0x00A => n (lcWord (u.level 2))
  | 0x010 => n u.r.bfsel
  | 0x011 => n (((ownPart s k u).map fun p => p.2.reg u.r.bfsel).getD 0)
  | 0x012 => n u.bksel
  | 0x013 => n u.hsel
  | 0x014 => some u.r.tvec
  | 0x015 => some u.r.tres
  | 0x016 => n (u.count % 2 ^ 32 + (if u.role then 2 ^ 32 else 0) + (if u.sealed then 2 ^ 33 else 0) + u.retry % 4 * 2 ^ 34 +
      u.building.length * 2 ^ 36)
  | 0x040 => n (u.psplit + if ((ctxRec? s u.ctx).map (·.body.strict)).getD false then 2 ^ 32 else 0)
  | 0x080 => some (u.frame.tcause ||| if u.inh then 1 <<< 63 else 0)
  | 0x081 => some u.frame.tword
  | 0x082 => some u.frame.taddr
  | 0x083 => some u.frame.tobj
  | 0x084 => some u.frame.tnum
  | 0x085 => some u.frame.tmode
  | 0x08D => some u.frame.tfid
  | 0x100 => n (((grantOf s u.ctx).map grantWord).getD 0)
  | 0x101 => n ((groveAt s (groveOf k)).freq + powerLimit s (groveOf k) * 2 ^ 8)
  | 0x102 => some s.ptpoff
  | 0x103 => some s.ptpstat
  | 0x110 => n (bkinfoWord s u)
  | 0x111 => some u.bkslip
  | 0x120 => some (hcntOf s u)
  | 0x180 => n u.tnctx
  | 0x181 => some 0
  | 0x182 => some s.ring.fring
  | 0x183 => n (s.ring.open_.length + s.ring.ans * 2 ^ 32)
  | 0x184 => n (Tab.getD 0 s.arms s.injarm)
  | _ =>
    firstSome [
      (twoWords 0x020 0x023 r).bind fun i => n (mstatWord s u i),
      (twoWords 0x030 0x034 r).bind fun i => (streamOf i).bind fun t => n (u.done t),
      (twoWords 0x038 0x03C r).bind fun i => (streamOf i).bind fun t => n (u.cpl.issued.get t),
      (twoWords 0x050 0x05F r).bind fun i => n (tileWord (u.tileAt i)),
      (twoWords 0x060 0x06F r).bind fun i => n (u.tokAt i).count,
      (twoWords 0x088 0x08C r).bind fun i => u.frame.tpc[i]?]

/-! ## Waits (R106, R120, R182, R295) -/

/-- The wait that a GETS or a SETS of a register makes first. -/
def srWait (u : Unit) (r : Nat) (set : Bool) : Bool :=
  if r = 0x002 then u.streamBusy .va
  else if r = 0x003 then u.streamBusy .d
  else if r = 0x011 || (r = 0x010 && set) then [Stream.vl, .vs, .m, .d].any u.streamBusy
  else if 0x020 ≤ r && r ≤ 0x023 then u.streamBusy .m
  else if 0x050 ≤ r && r ≤ 0x05F && set then u.tileBusy (r - 0x050)
  else false

/-- Machine control registers need privilege, assigned or not (R56). -/
def srPriv (r : Nat) : Bool := 0x180 ≤ r && r < 0x200

def getsWord (n : Nxt) (d : SReg) (r : Nat) (s : State) : Out :=
  ctl s (actOf n) 1 fun s u =>
    if srPriv r && !privileged s u then .trap s 0x05 0 Acc.none
    else
      match srRead s s.cur.1 u r with
      | none => .trap s 0x06 0 Acc.none
      | some v => if srWait u r false then .wait s u .control else .ok s (u.setS d v)

def execGets (n : Nxt) (d : SReg) (r : BitVec 10) (s : State) : Out := getsWord n d r.toNat s

/-! ## Writing -/

/-- The offset whose granule, in the other swizzle mode, stands where that of `x` stands: each mode's map undoes the other's (R117). -/
def Partition.swizzled (p : Partition) (x : Nat) : Nat :=
  let k := p.banks.length.log2
  x ^^^ (64 * nbits x (5 + 2 * k) (6 + k))

/-- A partition's granules under the other swizzle mode: `mem` holds them by offset, so each takes its new offset (R117). -/
def reswizzle (s : State) (i : Nat) (p : Partition) : State :=
  let lo := pantryAddr i 0
  let hi := lo + p.bytes
  let moved := fun a => lo + p.swizzled (a - lo)
  let z := zeroFill s 0 lo hi
  { z with
    mem := pokes z.mem ((s.mem.filter fun e => lo ≤ e.1 && e.1 < hi).map fun e => (moved e.1, e.2))
    poison := (s.poison.filter fun e => lo ≤ 64 * e.1 && 64 * e.1 < hi).foldl (fun t e => t.put (moved (64 * e.1) / 64) e.2) z.poison }

/-- $bfr of the selected bank (R116); a new swizzle mode in bank 0 gives the bytes that the banks hold new offsets (R117). -/
def setBfr (s : State) (k : Nat) (u : Unit) (v : Double) : Res :=
  if 1 < bits v 7 5 || bits v 63 56 != 0 then .trap s 0x03 0 Acc.none
  else
    match ownPart s k u with
    | none => .trap s 0x07 0 Acc.none
    | some (p, q) =>
      let w := if u.r.bfsel = 0 then v.toNat else putBits v.toNat 5 3 0
      let s := if u.r.bfsel = 0 && bits (Tab.getD 0 q.bfr 0) 7 5 != bits v 7 5 then reswizzle s p q else s
      .ok { s with partitions := s.partitions.upd p fun x => { x with bfr := Tab.set 0 x.bfr u.r.bfsel (BitVec.ofNat 64 w) } } u

/-- $fring, with its checks in order (R377). The ring's count of posted records starts again at 0 (log 25). -/
def setFring (s : State) (u : Unit) (v : Double) : Res :=
  let base := bits v 47 0
  let logn := bits v 51 48
  if bits v 63 52 != 0 then .trap s 0x03 0 Acc.none
  else if !s.ring.open_.isEmpty || (1 ≤ logn && logn ≤ 3) || 13 ≤ logn ||
      (logn != 0 && (base % 4096 != 0 || physLvl base != some 1)) then .trap s 0x07 0 Acc.none
  else .ok { s with ring := { s.ring with fring := v, prod := 0 } } u

/-- $fans (R377): the phase of the unit that answers is sealed (R385). -/
def setFans (s : State) (k : Nat) (u : Unit) (v : Double) : Res :=
  if bits v 63 34 != 0 then .trap s 0x07 0 Acc.none
  else
    match answerOf (bits v 33 32) with
    | none => .trap s 0x07 0 Acc.none
    | some a =>
      match answerFault (putUnit s k { u with sealed := true }) (bits v 31 0) a with
      | none => .trap s 0x07 0 Acc.none
      | some s' =>
        match s'.units.get? k with
        | some u' => .ok s' u'
        | none => .whole s'

/-- A generator seed: zero is stored as 1 (R105). -/
def seedOf (v : Double) : Word := if bits v 31 0 = 0 then 1 else v.truncate 32

/-- A SETS of register `r` (R143): fields of access RW take the value. -/
def srWrite (s : State) (k : Nat) (u : Unit) (r : Nat) (v : Double) : Res :=
  let ok := fun (u : Unit) => Res.ok s u
  match r with
  | 0x001 => ok { u with r := { u.r with flags := v &&& 63 } }
  | 0x002 => ok { u with r := { u.r with lfsrv := seedOf v } }
  | 0x003 => ok { u with r := { u.r with lfsrd := seedOf v } }
  | 0x006 => ok { u with r := { u.r with plain := bit v 0 } }
  | 0x010 =>
    if v.toNat < ((ownPart s k u).map fun p => p.2.banks.length).getD 0 then ok { u with r := { u.r with bfsel := v.toNat } }
    else .trap s 0x07 0 Acc.none
  | 0x011 => setBfr s k u v
  | 0x012 => ok { u with bksel := bits v 34 0 }
  | 0x013 => if bits v 17 16 = 3 then .trap s 0x03 0 Acc.none else ok { u with hsel := bits v 17 0 }
  | 0x014 => ok { u with r := { u.r with tvec := v &&& BitVec.ofNat 64 (2 ^ 25 - 1) } }
  | 0x015 => ok { u with r := { u.r with tres := v &&& BitVec.ofNat 64 (2 ^ 29 - 1) } }
  | 0x180 => ok { u with tnctx := bits v 11 0 }
  | 0x181 => setFans s k u v
  | 0x182 => setFring s u v
  | _ =>
    if 0x020 ≤ r && r ≤ 0x023 then
      ok { u with mstat := vmodify u.mstat (r - 0x020) fun m =>
        { m with accovf := m.accovf && !bit v 0, chkf := m.chkf && !bit v 2, pdisc := m.pdisc && !bit v 3 } }
    else if 0x050 ≤ r && r ≤ 0x05F then
      ok (u.setTile (r - 0x050) { u.tileAt (r - 0x050) with reads := bits v 8 1 })
    else .trap s 0x06 0 Acc.none

def setsWord (n : Nxt) (a : SReg) (r : Nat) (s : State) : Out :=
  ctl s (actOf n) 1 fun s u =>
    if srPriv r && !privileged s u then .trap s 0x05 0 Acc.none
    else if srWait u r true then .wait s u .control
    else srWrite s s.cur.1 u r (u.sreg a)

def execSets (n : Nxt) (a : SReg) (r : BitVec 10) (s : State) : Out := setsWord n a r.toNat s

/-! ## The table's rows for single registers -/

def execFaultResume (n : Nxt) (a : SReg) (s : State) : Out := setsWord n a 0x181 s
def execFaultTerminate (n : Nxt) (a : SReg) (s : State) : Out := setsWord n a 0x181 s
def execFaultDeliver (n : Nxt) (a : SReg) (s : State) : Out := setsWord n a 0x181 s
def execFringWrite (n : Nxt) (a : SReg) (s : State) : Out := setsWord n a 0x182 s
def execFlagsWrite (n : Nxt) (a : SReg) (s : State) : Out := setsWord n a 0x001 s
def execSeqModeWrite (n : Nxt) (a : SReg) (s : State) : Out := setsWord n a 0x006 s
def execTileRegisterWrite (n : Nxt) (t : BitVec 4) (a : SReg) (s : State) : Out := setsWord n a (0x050 + t.toNat) s

def accessWord (n : Nxt) (r : Nat) (x : RegAccess) (s : State) : Out :=
  match x with
  | .get d => getsWord n d r s
  | .set a => setsWord n a r s

/-- `sel` names $bfsel. -/
def execBfrAccess (n : Nxt) (sel : Bool) (x : RegAccess) (s : State) : Out := accessWord n (if sel then 0x010 else 0x011) x s
/-- `copy` names $lfsrd. -/
def execLfsrAccess (n : Nxt) (copy : Bool) (x : RegAccess) (s : State) : Out := accessWord n (if copy then 0x003 else 0x002) x s
def execMstatAccess (n : Nxt) (slot : BitVec 2) (x : RegAccess) (s : State) : Out := accessWord n (0x020 + slot.toNat) x s

/-! ## INJECT (R391) -/

/-- Whether s[a] names a detector of Table 15.8. A field that the detector does not use must be 0. -/
def detectorOk (v : Double) : Bool :=
  let g := bits v 7 4
  let i := bits v 17 8
  let str := bits v 20 18
  bits v 63 21 = 0 &&
  match bits v 3 0 with
  | 0 => i < 8 && str ≤ 5
  | 1 => i < 16 && str = 0
  | 2 | 3 => i < 64 && str = 0
  | 4 | 5 => i < 1024 && g = 0 && str = 0
  | 6 | 7 => i < 48 && g = 0 && str = 0
  | 8 => i / 16 < 6 && i % 16 < classCount (i / 16) && str = 0
  | 9 => i < 4 && str = 0
  | 10 => i = 0 && g = 0 && str = 0
  | 11 => i < 48 && g = 0 && str = 0
  | _ => false

def execInject (n : Nxt) (a b : SReg) (s : State) : Out :=
  ctl s (actOf n) 1 (priv fun s u =>
    let det := u.sreg a
    let c := (u.sreg b).toNat
    if !detectorOk det || c = 0 || 65535 < c then .trap s 0x07 0 Acc.none
    else .ok { s with arms := Tab.set 0 s.arms det.toNat c, injarm := det.toNat } u)

/-! ## TRAP (R375) -/

def execTrap (n : Nxt) (c : BitVec 8) (s : State) : Out := ctl s (actOf n) 1 fun _ _ => .soft c

end Sys2Proof.Machine
end

