-- ==== Sys2Proof/Machine/Vec.lean ====
section
/-! DEFINITION. What the vector sub-streams share: element types and lanes (R147), rows with their written and
poison marks (R146, R384, R389), sources (R150), stream registers (R297) and slip (R293). -/

namespace Sys2Proof.Machine

/-! ## Element types and lanes (R147) -/

/-- ETYPE of a strand: 0 FP32, 1 INT32, 2 BF16, 3 FP16. -/
def etypeOf (str : Stream) (cfg : Tab Word) : Nat := (cfgRead str cfg 1).toNat % 4
/-- The vector width W. -/
def width (et : Nat) : Nat := if et < 2 then 128 else 256
/-- Bits of a lane. -/
def laneBits (et : Nat) : Nat := if et < 2 then 32 else 16
def etFloat (et : Nat) : FFmt := if et = 2 then bf16 else if et = 3 then fp16 else fp32
def etFmt (et : Nat) : Fmt := if et = 1 then .int 32 true else .flt (etFloat et)

def laneOf (row : Row) (lb i : Nat) : Nat := row.toNat / 2 ^ (lb * i) % 2 ^ lb

/-- A row from its lanes, lane 0 first. -/
def rowOf (lb : Nat) (xs : List Nat) : Row := BitVec.ofNat 4096 (xs.foldr (fun x n => x % 2 ^ lb + 2 ^ lb * n) 0)

/-- A row with one value in every lane. -/
def splat (et v : Nat) : Row := rowOf (laneBits et) (List.replicate (width et) v)

/-- A write that enables lanes by `mask`: the row after it (R153). -/
def mergeRow (old new : Row) (lb : Nat) (mask : BitVec 256) : Row :=
  rowOf lb ((List.range (4096 / lb)).map fun i => if mask.getLsbD i then laneOf new lb i else laneOf old lb i)

/-- The lane predicate enables a lane of the width. -/
def anyLane (et : Nat) (mask : BitVec 256) : Bool := (List.range (width et)).any fun i => mask.getLsbD i

/-! ## Rows -/

/-- ROW0 of a strand. -/
def row0Of (str : Stream) (cfg : Tab Word) : Nat := bits (cfgRead str cfg 0) 7 0

/-- A row of the file by the index that the unit names. A poisoned row reads as a free value (R389). -/
def readRow (s : State) (k : Nat) (u : Unit) (n : Nat) : State × Row × Option Poison :=
  let a := rowBase s k u + n
  match s.rowPoison.get? a with
  | some (fu, inj) => ({ s with free := s.free + 1 }, BitVec.ofNat 4096 (Config.freeWord s.free), some ⟨4, fu, inj⟩)
  | none => (s, Tab.getD 0 s.rows a, none)

/-- Write a row for the lanes enabled; the row counts as written, and a row written whole loses its poison. -/
def writeRow (s : State) (k n : Nat) (new : Row) (lb : Nat) (mask : BitVec 256) : State :=
  match s.units.get? k with
  | none => s
  | some u =>
    let a := rowBase s k u + n
    let s := { s with rows := Tab.set 0 s.rows a (mergeRow (Tab.getD 0 s.rows a) new lb mask)
                      rowPoison := if (List.range (4096 / lb)).all fun i => mask.getLsbD i then s.rowPoison.del a else s.rowPoison }
    putUnit s k { u with written := u.written ||| BitVec.ofNat 192 (2 ^ n) }

/-- An engine writes a row whole; a write into the window of a running VA strand switches its group (R152, R180). -/
def engineRow (s : State) (k n : Nat) (new : Row) : State :=
  updUnit (writeRow s k n new 32 (BitVec.allOnes 256)) k fun u =>
    match u.seqr.va.run with
    | some r =>
      let lo := row0Of .va r.cfg
      if lo ≤ n && n < lo + 64 then { u with groupSwitch := true } else u
    | none => u

/-- A row that nothing has written in this buffer phase (R384). -/
def unwritten (u : Unit) (n : Nat) : Bool := !u.written.getLsbD n

/-! ## Stream registers (R297) -/

/-- Pop the next entry. -/
def Unit.popSq (u : Unit) (i : Nat) : Unit × Row :=
  let x := u.sqAt i
  ((u.setSq i { x with entries := x.entries.drop 1 }).freeProducer i, x.entries.headD 0)

/-! ## Sources (R150) -/

/-- The rows of the file that a source names. -/
def srcRows (row0 : Nat) : Src → List Nat
  | .v n => [row0 + n.toNat]
  | .latch _ | .sq _ | .pushed | .zero | .one | .lane => []

/-- The stream registers that a source pops. -/
def srcSq : Src → List Nat
  | .sq n => [n.toNat]
  | .v _ | .latch _ | .pushed | .zero | .one | .lane => []

/-- Every pop of an instruction finds an entry. -/
def sqReady (u : Unit) (qs : List Nat) : Bool := qs.all fun i => (qs.filter (· = i)).length ≤ (u.sqAt i).entries.length

/-- Read a source: the state, the unit after a pop, the row, and poison met. -/
def readSrc (s : State) (k : Nat) (u : Unit) (row0 et : Nat) (push : Double) : Src → State × Unit × Row × Option Poison
  | .v n =>
    match readRow s k u (row0 + n.toNat) with
    | (s, r, p) => (s, u, r, p)
  | .latch n => (s, u, u.latches.getD n.toNat 0, none)
  | .sq n =>
    match u.popSq n.toNat with
    | (u, r) => (s, u, r, none)
  | .pushed => (s, u, splat et (push.toNat % 2 ^ laneBits et), none)
  | .zero => (s, u, 0, none)
  | .one => (s, u, splat et (match et with
      | 0 => 0x3F800000
      | 1 => 1
      | 2 => 0x3F80
      | _ => 0x3C00), none)
  | .lane => (s, u, rowOf (laneBits et) ((List.range (width et)).map fun i => ((etFmt et).encode (Val.ofInt (i : Nat)) .rne false true 0).1), none)

def readSrcs (k row0 et : Nat) (push : Double) : List Src → State → Unit → State × Unit × List Row × Option Poison
  | [], s, u => (s, u, [], none)
  | x :: r, s, u =>
    match readSrc s k u row0 et push x with
    | (s, u, row, p) =>
      match readSrcs k row0 et push r s u with
      | (s, u, rows, q) => (s, u, row :: rows, p.orElse fun _ => q)

/-! ## Issue -/

/-- D of R293: the depth of VA's active set, or of its shadow set while VA is idle. -/
def slipDepth (u : Unit) : Nat :=
  let cfg := match u.vbusy .va, u.seqr.va.run with
    | true, some r => r.cfg
    | _, _ => u.cpl.cfg.va
  bits (cfgRead .va cfg 8) 5 0

/-- The instruction would lead another busy sub-stream by more than the slip depth (R293). -/
def slips (u : Unit) (str : Stream) : Bool :=
  (otherV str).any fun y => u.vbusy y && slipDepth u < u.pos.get str + 1 - u.pos.get y

/-- An instruction takes the next number of its stream and a position. -/
def Unit.number (u : Unit) (str : Stream) : Unit × Nat :=
  let n := u.cpl.issued.get str + 1
  ({ u with cpl := { u.cpl with issued := u.cpl.issued.set str n }, pos := u.pos.set str (u.pos.get str + 1) }, n)

/-- An index at or above the unit's rows (R337). -/
def rowsOut (s : State) (u : Unit) (rs : List Nat) : Bool := rs.any fun n => unitRows s u ≤ n

end Sys2Proof.Machine
end

