-- ==== Sys2Proof/Machine/Layout.lean ====
section
/-! DEFINITION. Where the elements of an access lie and in which format: bank format registers (R118), the checks
over a footprint (R227, R258, R269), tiles (R296), address generators (R242), and reading elements. -/

namespace Sys2Proof.Machine

/-! ## Sides -/

/-- One side of an access: its capability, the object reached by ROLE (R383), the format code of the instruction,
and, for a Pantry object, its partition with the partition offset of the object's byte 0. -/
structure Side where
  cap : Cap
  oid : Nat
  code : Nat
  part : Option (Nat × Partition × Nat)
  deriving DecidableEq, Repr

def sideAt (s : State) (k : Nat) (u : Unit) (cap : Cap) (oid code : Nat) : Side :=
  { cap := cap, oid := oid, code := code
    part := match objAt s u.ctx oid with
      | some e => if e.lvl = 2 then (ownPart s k u).map fun p => (p.1, p.2, 64 * e.root) else none
      | none => none }

def sideOf (s : State) (k : Nat) (u : Unit) (cap : Cap) (code : Nat) : Side := sideAt s k u cap (roleOid s u cap.oid) code

/-- The format in force at a place, and its bank's B48 bit and bases in bytes (R118). -/
structure Info where
  fmt : Nat
  b48 : Bool
  dbase : Nat
  sbase : Nat
  deriving DecidableEq, Repr

def Info.width (i : Info) : Nat := (Fmt.ofCode i.fmt).width

/-- The partition offset of an object's bit position. -/
def Side.offset (sd : Side) (bit : Nat) : Nat :=
  match sd.part with
  | some (_, _, base) => base + bit / 8
  | none => bit / 8

/-- The format at an object's bit position (R118): outside the Pantry the code alone. An element that crosses into a granule of another bank has
the format of the bank of its first bit (log 101). -/
def Side.info (sd : Side) (bit : Nat) : Info :=
  match sd.part with
  | none => ⟨sd.code, false, 0, 0⟩
  | some (_, p, base) =>
    let r := p.reg (p.bankOf (base + bit / 8))
    ⟨if sd.code != 0 then sd.code else nbits r 3 0, nbits r 4 4 == 1, 64 * nbits r 31 8, 64 * nbits r 55 32⟩

/-- Either case of R118's operand-range trap. -/
def Side.bad (sd : Side) (bit : Nat) : Bool :=
  let i := sd.info bit
  sd.part.isSome && ((i.b48 && !b48Code i.fmt) || sd.offset bit < i.dbase)

/-- The partition offset of an element's scale byte. -/
def Side.scale (sd : Side) (bit : Nat) : Option Nat :=
  let i := sd.info bit
  if i.b48 then some (i.sbase + (8 * (sd.offset bit - i.dbase) + bit % 8) / i.width / 48) else none

/-- The first and the last bit of an element `w` bits wide: it lies in at most two granules. -/
def endBits (w b : Nat) : List Nat := [b, b + w - 1]

/-- Every bank of the footprint lays its elements out as the first does, and every scale byte, when scales are read or written, lies within
the partition (R118, R227). -/
def Side.uniform (sd : Side) (first : Info) (w : Nat) (scales : Bool) (bits : List Nat) : Bool :=
  bits.all fun b => (endBits w b).all fun x =>
    let i := sd.info x
    i.width = first.width && i.b48 = first.b48 && !sd.bad x && (!scales ||
    (match sd.scale x, sd.part with
     | some y, some (_, p, _) => y < p.bytes
     | _, _ => true))

/-- A format-locked capability through which some granule of the footprint resolves to another format than its object's (R258). -/
def lockBroken (s : State) (u : Unit) (sd : Side) (w : Nat) (bits : List Nat) : Bool :=
  !hasRights sd.cap.rights rF && (match objAt s u.ctx sd.cap.oid with
    | some e => (e.st = 1 || e.st = 2) && bits.any fun b => (endBits w b).any fun x => (sd.info x).fmt != e.fmt
    | none => false)

/-! ## Checks at issue -/

/-- The first and last byte of elements `w` bits wide. -/
def spanOf (w : Nat) (bits : List Nat) : Nat × Nat :=
  ((bits.map (· / 8)).foldl min ((bits.headD 0) / 8), (bits.map fun b => (b + w - 1) / 8).foldl max 0)

/-- The checks of R227 over a footprint of elements `w` bits wide, of R258 and of R118: code and KIND of the first
that fails. `al` are the places that must be aligned to the element size. -/
def sideFault (s : State) (u : Unit) (sd : Side) (first : Info) (need_ w : Nat) (lv al bits : List Nat) : Option (Nat × Nat) :=
  let sp := spanOf w bits
  match sd.cap.check need_ sp.1 (sp.2 + 1) with
  | some kd => some (0x0A, kd)
  | none =>
    if first.width % 8 = 0 && al.any fun b => b / 8 % (first.width / 8) != 0 then some (0x0B, 0)
    else if !(match levelOf s u.ctx sd.cap.oid with
      | some l => lv.elem l
      | none => true) then some (0x0C, 0)
    else if lockBroken s u sd w bits then some (0x0A, 4)
    else if !sd.uniform first w true bits then some (0x07, 0)
    else none

/-- The bit positions in the object of the scale bytes that lie in it. -/
def scalePlaces (s : State) (u : Unit) (sd : Side) (bits : List Nat) : List Nat :=
  match sd.part, objAt s u.ctx sd.oid with
  | some (_, _, base), some e => (bits.filterMap sd.scale).filterMap fun x => if base ≤ x && x < base + e.size then some (8 * (x - base)) else none
  | _, _ => []

/-- Whether a footprint, with its scale bytes when it has them, touches more than two pages of its object (R227, R269, log 87). -/
def splits (s : State) (u : Unit) (sd : Side) (w : Nat) (scales : Bool) (bits : List Nat) : Bool :=
  let sh := 8 * 2 ^ shiftOf s u.ctx sd.oid
  2 < ((bits.flatMap (endBits w) ++ if scales then scalePlaces s u sd (bits.flatMap (endBits w)) else []).map (· / sh)).eraseDups.length

def strictMode (s : State) (u : Unit) : Bool := ((ctxRec? s u.ctx).map (·.body.strict)).getD false

/-- Count page splits; in a strict-mode context a split is the page-split trap (R269). -/
def countSplits (s : State) (u : Unit) (n : Nat) (f : Unit → Res) : Res :=
  let v := { u with psplit := min (2 ^ 32 - 1) (u.psplit + n) }
  if n = 0 then f u
  else if strictMode s u then .trap (putUnit s s.cur.1 v) 0x0E 0 Acc.none
  else f v

/-! ## Tiles (R296) -/

/-- The region of a registered tile as offsets of its partition. -/
def tileRegion (s : State) (k : Nat) (u : Unit) (t : Nat) : Option (Nat × Nat × Nat) :=
  let x := u.tileAt t
  if x.reg then
    let sd := sideOf s k u x.cap 0
    sd.part.map fun p => (p.1, p.2.2 + x.cap.cursor, p.2.2 + 65536 * (x.cap.base + x.cap.len))
  else none

/-- The tiles with a byte among those of a footprint and, when it has them, its scales. -/
def tilesOf (s : State) (k : Nat) (u : Unit) (sd : Side) (w : Nat) (scales : Bool) (bits : List Nat) : List Nat :=
  match sd.part with
  | none => []
  | some (p, _, _) =>
    (List.range 16).filter fun t =>
      match tileRegion s k u t with
      | some (q, lo, hi) => p = q && bits.any fun b =>
          (sd.offset b < hi && lo ≤ sd.offset (b + w - 1)) || (scales && match sd.scale b with
            | some x => lo ≤ x && x < hi
            | none => false)
      | none => false

/-- Readers and writers may issue: each tile read is full with a read to claim, each tile written is empty. -/
def tilesReady (u : Unit) (rd wr : List Nat) : Bool :=
  rd.all (fun t => let x := u.tileAt t; x.f && (x.reads = 0 || 0 < x.remain)) && wr.all fun t => !(u.tileAt t).f

/-- A tile that an access writes must allow writing through its own capability (R295). -/
def tileWriteFault (u : Unit) (wr : List Nat) : Bool := wr.any fun t => !hasRights (u.tileAt t).cap.rights rW

/-- The claims made at issue. -/
def claimTiles (u : Unit) (rd : List Nat) : Unit :=
  rd.foldl (fun u t =>
    let x := u.tileAt t
    if 0 < x.reads then u.setTile t { x with remain := x.remain - 1 } else u) u

/-! ## Address generators (R242) -/

/-- Iteration indices of a strand, level 0 first. -/
def Strand.indices (r : Strand) : List Nat :=
  (r.rcd.counts.foldl (fun (acc : List Nat × Nat) n => (acc.1 ++ [acc.2 % n], acc.2 / n)) ([], r.pass)).1

/-- The word of address generator n. -/
def agWord (str : Stream) (r : Strand) (n w : Nat) : Word := cfgRead str r.cfg (0x80 + 8 * n + w)

/-- The capability of generator n, as the strand's DISP found it. -/
def agCap (str : Stream) (r : Strand) (n : Nat) : Cap := r.rcd.caps.toList.getD (bits (agWord str r n 0) 3 0) Cap.none

/-- The address of the next use of generator n. -/
def agAddr (str : Stream) (r : Strand) (n : Nat) : Nat :=
  let i := r.indices
  off48 ((agCap str r n).cursor + (agWord str r n 1).toInt + i.getD 0 0 * (agWord str r n 2).toInt +
    i.getD 1 0 * (agWord str r n 3).toInt + i.getD 2 0 * (agWord str r n 4).toInt +
    r.uses.toList.getD n 0 * (agWord str r n 5).toInt)

/-- Count a use. -/
def Unit.useAg (u : Unit) (str : Stream) (n : Nat) : Unit :=
  let q := u.seqr.get str
  { u with seqr := u.seqr.set str { q with run := q.run.map fun r => { r with uses := vmodify r.uses n (· + 1) } } }

/-! ## Reading -/

/-- What a read of several granules came to. -/
inductive Gather where
  | ok (gs : Tab (List Byte)) (p : Option Poison)
  | fault (off kind : Nat)
  | remote (dev : Nat)
  | stall
  deriving DecidableEq, Repr

/-- Translate and read the object's granules, each up to the last byte touched in it, every one or none (R228, R267). -/
def gather (k : Nat) (u : Unit) (oid : Nat) : List (Nat × Nat) → State → State × Gather
  | [], s => (s, .ok [] none)
  | (g, last) :: r, s =>
    match reachTo s k u oid (64 * g) last false with
    | (s, .at key a) =>
      match gather k u oid r s with
      | (s, .ok t p) =>
        match readIn s key a 64 with
        | (s, bs, q) => (s, .ok (t.put g bs) (q.orElse fun _ => p))
      | x => x
    | (s, .fault kind) => (s, .fault (64 * g) kind)
    | (s, .remote dev _) => (s, .remote dev)
    | (s, .stall) => (s, .stall)

/-- The granules that elements touch. -/
def granules (w : Nat) (bits : List Nat) : List Nat := (bits.flatMap fun b => [b / 512, (b + w - 1) / 512]).eraseDups

/-- Those granules, each with the last byte that an element touches in it. -/
def granSpans (w : Nat) (bits : List Nat) : List (Nat × Nat) :=
  (granules w bits).map fun g =>
    (g, bits.foldl (fun m b => if b / 512 ≤ g && g ≤ (b + w - 1) / 512 then max m (min (64 * g + 63) ((b + w - 1) / 8)) else m) (64 * g))

/-- How many granules hold the scale bytes of elements. -/
def scaleGrans (sd : Side) (bits : List Nat) : Nat := ((bits.filterMap sd.scale).map (· / 64)).eraseDups.length

/-- The bits of an element among gathered granules. -/
def rawBits (gs : Tab (List Byte)) (bit w : Nat) : Nat :=
  let g := bit / 512
  (leNat (Tab.getD [] gs g) + 2 ^ 512 * leNat (Tab.getD [] gs (g + 1))) / 2 ^ (bit % 512) % 2 ^ w

/-- A scale byte of the partition, past its bank's detectors. -/
def readScale (s : State) (sd : Side) (x : Nat) : State × Nat × Option Poison :=
  match sd.part with
  | none => (s, 127, none)
  | some (p, _, _) =>
    match readIn s 0 (pantryAddr p x) 1 with
    | (s, bs, q) => (s, leNat bs, q)

/-- The exact value of an element, the flag of a reserved T2 code, and poison of its scale (R110). -/
def elemVal (s : State) (sd : Side) (gs : Tab (List Byte)) (bit w : Nat) (sx : Bool) : State × Val × Flags × Option Poison :=
  let i := sd.info bit
  let f := Fmt.ofCode i.fmt
  let raw := rawBits gs bit w
  let raw := if sx then intCode (sxt w raw) f.width else raw
  match sd.scale bit with
  | some x =>
    match readScale s sd x with
    | (s, sc, p) => (s, b48Value f raw sc, 0, p)
  | none =>
    match f.decode raw with
    | (v, fl) => (s, v, fl, none)

end Sys2Proof.Machine
end

