-- ==== Sys2Proof/Machine/VlOps.lean ====
section
/-! DEFINITION. The VL instructions (R243, R244, R115, R157) and their events ACCESS_PERFORM and VL_ROW_WRITE. -/

namespace Sys2Proof.Machine

/-- The forms that read memory. -/
inductive VlForm where
  | plain
  | gather (ix : Src)
  | trans
  | field (bf : BitVec 2)
  | bcast
  deriving DecidableEq, Repr

/-! ## Where lanes read (Table 9.7, R115) -/

/-- AGLANE: LSTR and TRL. -/
def laneStride (str : Stream) (r : Strand) (n : Nat) : Nat × Nat :=
  let w := agWord str r n 6
  (bits w 15 0, bits w 19 16)

/-- The byte offset of lane i from A, for elements of z bytes. -/
def laneOffset (f : VlForm) (lstr trl z : Nat) (x : Int) (i : Nat) : Int :=
  match f with
  | .plain => i * lstr * z
  | .gather _ => x * z
  | .trans => i % 2 ^ trl * lstr * z + i / 2 ^ trl * z
  | .field _ | .bcast => 0

/-- The bit position of lane i. -/
def laneBit (f : VlForm) (a lstr trl w : Nat) (x : Int) (i : Nat) : Nat :=
  if w % 8 != 0 && f = .plain then 8 * a + w * i else 8 * off48 (a + laneOffset f lstr trl (w / 8) x i)

/-- An extraction pattern: period, field width, sign extension, mask, and its bits that must be 0. -/
structure Pattern where
  p : Nat
  w : Nat
  sx : Bool
  mask : Nat
  zero : Nat
  deriving DecidableEq, Repr

def patternOf (r : Strand) (bf : Nat) : Pattern :=
  let at_ := fun j => (cfgRead .vl r.cfg (0x40 + 8 * bf + j)).toNat
  let c := at_ 0
  { p := nbits c 6 0 + 1, w := nbits c 10 7 + 1, sx := nbits c 11 11 == 1, zero := nbits c 31 12
    mask := at_ 1 + at_ 2 * 2 ^ 32 + at_ 3 * 2 ^ 64 + at_ 4 * 2 ^ 96 }

def Pattern.bits (t : Pattern) : List Nat := (List.range 128).filter t.mask.testBit

/-- The bit of lane i's field within the stream from A. -/
def Pattern.pos (t : Pattern) (i : Nat) : Nat := t.p * (i / t.bits.length) + t.bits.getD (i % t.bits.length) 0

/-- The operand-range checks of R115. -/
def Pattern.bad (t : Pattern) (first : Info) : Bool :=
  let f := Fmt.ofCode first.fmt
  t.mask = 0 || 2 ^ t.p ≤ t.mask || t.zero != 0 || first.b48 ||
    (match f with
     | .int w _ => w < t.w
     | .flt _ | .t2 | .raw => f.width != t.w)

/-- An enabled lane lies in a bank that reads as raw elements. -/
def rawLane (sd : Side) (bits : List Nat) : Bool := bits.any fun b => (sd.info b).fmt = 0

/-- The operand-range checks of R243 on a load, which stores take as well (log 75); an indexed access has to find the width that places it at
lane 0 (R118). -/
def vlBad (f : VlForm) (first : Info) (raw : Bool) (placed et lstr trl : Nat) : Bool :=
  let w := first.width
  (raw && width et = 256) || lstr = 0 || (width et).log2 < trl ||
    (w % 8 != 0 && (lstr != 1 || match f with
      | .gather _ | .trans => true
      | .plain | .field _ | .bcast => false)) ||
    (match f with
     | .gather _ => w != placed
     | .plain | .trans | .field _ | .bcast => false)

/-- The signed lane of an index row. -/
def indexLane (et : Nat) (row : Row) (i : Nat) : Int := sxt (laneBits et) (laneOf row (laneBits et) i)

/-- The width that places the lanes of an indexed access (R118): the one in force at lane 0 as that width places it, the width of A's own
bank tried first (log 72). -/
def gatherWidth (sd : Side) (a : Nat) (x0 : Int) : Nat :=
  let wa := (sd.info (8 * a)).width
  ([wa, 8, 16, 32, 64].find? fun w => (sd.info (8 * off48 (a + x0 * ((w / 8 : Nat) : Int)))).width = w).getD wa

/-- The bits of the lanes `is` with the width read at each, and the first granule's format. -/
def vlPlaces (f : VlForm) (r : Strand) (sd : Side) (a lstr trl et : Nat) (ix : Row) (is : List Nat) : Info × Nat × List Elem :=
  match f with
  | .field bf =>
    let t := patternOf r bf.toNat
    (sd.info (8 * a + t.pos 0), t.w, is.map fun i => ⟨i, 8 * a + t.pos i, t.w, t.sx⟩)
  | .plain | .gather _ | .trans | .bcast =>
    let w := match f with
      | .gather _ => gatherWidth sd a (indexLane et ix 0)
      | .plain | .trans | .bcast | .field _ => (sd.info (8 * a)).width
    let at_ := fun i => laneBit f a lstr trl w (indexLane et ix i) i
    (sd.info (at_ 0), w, is.map fun i => ⟨i, at_ i, w, false⟩)

/-! ## Issue -/

/-- The index source of VL.G. -/
def VlForm.src : VlForm → List Src
  | .gather x => [x]
  | .plain | .trans | .field _ | .bcast => []

/-- The index source of VST.S. -/
def vlMask (u : Unit) (vp : PReg) (n : Nat) : BitVec 256 := u.vpreg vp &&& BitVec.ofNat 256 (2 ^ n - 1)

def vlOp (u : Unit) (num : Nat) (rd : List Nat) (p : Option Poison) (o : VlOp) : Op :=
  { str := .vl, num := num, word := strandWord u .vl, flags := 0, readsT := rd, writesT := [], poison := p, held := false, body := .vl o }

/-- Rows that a VL in flight has yet to write: a later VL of the sub-stream reads them afterwards (R153). -/
def pendingVl (u : Unit) : List Nat := u.ops.flatMap fun o => match o.body with
  | .vl x => [x.row]
  | .va _ | .vs _ | .m _ | .d _ => []

/-- Issue a VL that reads memory (R157, R159, R227, R243, R293, R296). -/
def vlWord (f : VlForm) (vd : BitVec 6) (ag : BitVec 3) (fmt : BitVec 4) (vp : PReg) (s : State) : Out :=
  eng s .vl 1 fun s u r =>
    let k := s.cur.1
    let et := etypeOf .vl r.cfg
    let row0 := row0Of .vl r.cfg
    let mask := vlMask u vp (width et)
    let a := agAddr .vl r ag.toNat
    let cap := agCap .vl r ag.toNat
    let ls := laneStride .vl r ag.toNat
    let is := (List.range (width et)).filter mask.getLsbD
    if rowsOut s u ((row0 + vd.toNat) :: f.src.flatMap (srcRows row0)) then .trap s 0x07 0 Acc.none
    else if (f.src.flatMap (srcRows row0)).any (pendingVl u).elem then .wait s u .memory
    else if !sqReady u (f.src.flatMap srcSq) then .wait s u .streamReg
    else
      match readSrcs k row0 et r.rcd.push f.src s u with
      | (s, u', rows, poison) =>
        if is.isEmpty then
          if slips u .vl then .trap s 0x12 0 Acc.none else .ok s ((u'.useAg .vl ag.toNat).number .vl).1
        else
          let sd := sideOf s k u cap fmt.toNat
          match vlPlaces f r sd a ls.1 ls.2 et (rows.headD 0) is with
          | (first, w, els) =>
            let bs := els.map (·.bit)
            let acc := accOf s u cap ((bs.headD 0) / 8) false
            let bad := vlBad f first (rawLane sd bs) w et ls.1 ls.2 || match f with
              | .field bf => (patternOf r bf.toNat).bad first
              | .plain | .gather _ | .trans | .bcast => false
            let al := match f with
              | .field _ => [8 * a]
              | .plain | .gather _ | .trans | .bcast => bs
            if !cap.tag then .trap s 0x0A 1 acc
            else if !hasRights cap.rights rR then .trap s 0x0A 2 acc
            else if bad then .trap s 0x07 0 Acc.none
            else
              match sideFault s u sd first rR w [0, 2] al bs with
              | some (code, kind) => .trap s code kind acc
              | none =>
                let rd := tilesOf s k u sd w true bs
                if !tilesReady u rd [] then .wait s u .tile
                else if slips u .vl then .trap s 0x12 0 Acc.none
                else
                  countSplits s u (if splits s u sd w true bs then 1 else 0) fun v =>
                    match ((claimTiles { u' with psplit := v.psplit } rd).useAg .vl ag.toNat).number .vl with
                    | (u', n) =>
                      .ok s { u' with ops := u'.ops ++ [vlOp u n rd poison
                        { cap := cap, code := fmt.toNat, els := els, row := row0 + vd.toNat, ety := et, mask := mask, value := none }] }

def execVl (vd : BitVec 6) (ag : BitVec 3) (fmt : BitVec 4) (vp : PReg) (s : State) : Out := vlWord .plain vd ag fmt vp s
def execVlG (vd : BitVec 6) (ag : BitVec 3) (fmt : BitVec 4) (ix : Src) (vp : PReg) (s : State) : Out :=
  vlWord (.gather ix) vd ag fmt vp s
def execVlT (vd : BitVec 6) (ag : BitVec 3) (fmt : BitVec 4) (vp : PReg) (s : State) : Out := vlWord .trans vd ag fmt vp s
def execVlBf (vd : BitVec 6) (ag : BitVec 3) (fmt : BitVec 4) (vp : PReg) (bf : BitVec 2) (s : State) : Out :=
  vlWord (.field bf) vd ag fmt vp s
def execVlBc (vd : BitVec 6) (ag : BitVec 3) (fmt : BitVec 4) (vp : PReg) (s : State) : Out := vlWord .bcast vd ag fmt vp s

/-- VL.POP: the entry is taken at issue, whatever the predicate, and its lanes are written as raw bits; with no lane enabled its row still
counts as written (R384, log 87). -/
def execVlPop (vd : BitVec 6) (sq : BitVec 3) (fmt : BitVec 4) (vp : PReg) (s : State) : Out :=
  eng s .vl 1 fun s u r =>
    let et := etypeOf .vl r.cfg
    let row := row0Of .vl r.cfg + vd.toNat
    if fmt != 0 || rowsOut s u [row] then .trap s 0x07 0 Acc.none
    else if !sqReady u [sq.toNat] then .wait s u .streamReg
    else if slips u .vl then .trap s 0x12 0 Acc.none
    else
      match u.popSq sq.toNat with
      | (u', e) =>
        match u'.number .vl with
        | (u', n) =>
          .ok s { u' with ops := u'.ops ++ [vlOp u n [] none
            { cap := Cap.none, code := 0, els := [], row := row, ety := et, mask := vlMask u vp (width et), value := some e }] }

/-! ## Performing (R228, R244) -/

/-- The lanes of gathered elements in the element type (R108, R111): the lane values, flags and poison of scales. -/
def vlLanes (sd : Side) (gs : Tab (List Byte)) (et : Nat) : List Elem → State → State × Tab Nat × Flags × Option Poison
  | [], s => (s, [], 0, none)
  | e :: r, s =>
    match vlLanes sd gs et r s with
    | (s, t, fl, p) =>
      let i := sd.info e.bit
      if i.fmt = 0 then (s, t.put e.lane (rawBits gs e.bit e.w), fl, p)
      else
        match elemVal s sd gs e.bit e.w e.sx with
        | (s, v, f0, q) =>
          if !i.b48 && Fmt.ofCode i.fmt = etFmt et && !e.sx then (s, t.put e.lane (rawBits gs e.bit e.w), fl, q.orElse fun _ => p)
          else
            match (etFmt et).encode v .rne false (!i.b48 && (Fmt.ofCode i.fmt).isInt) 0 with
            | (c, f1) => (s, t.put e.lane c, fl ||| f0 ||| f1, q.orElse fun _ => p)

/-- Perform the reads of a VL. A fault holds it until the answer. -/
def performVl (s : State) (k : Nat) (u : Unit) (o : Op) (x : VlOp) : State :=
  let sd := sideOf s k u x.cap x.code
  let w := (x.els.head?.map (·.w)).getD 8
  let bs := x.els.map (·.bit)
  let gs := granSpans w bs
  if spent s (groveOf k) || gs.any fun g => parkedOn s u x.cap.oid (64 * g.1) then s
  else
    match gather k u x.cap.oid gs s with
    | (s, .ok t p) =>
      match vlLanes sd t x.ety x.els (charge s (groveOf k) (gs.length + scaleGrans sd bs)) with
      | (s, ls, fl, q) =>
        let row := rowOf (laneBits x.ety) ((List.range (width x.ety)).map fun i => Tab.getD 0 ls i)
        putUnit s k (u.setOp { o with flags := o.flags ||| fl, poison := ((o.poison.orElse fun _ => p).orElse fun _ => q)
                                      body := .vl { x with value := some row } })
    | (s, .fault off kind) =>
      raise (putUnit s k (u.setOp { o with held := true })) k (causeO u o 0x20 kind (accOf s u x.cap off false))
    | (s, .remote _) | (s, .stall) => s

/-- A VL's row write follows those of the earlier VLs of its sub-stream (R153). -/
def vlFirst (u : Unit) (num : Nat) : Bool := !u.ops.any fun o => o.str = .vl && o.num < num

/-- The row write of a VL, whole for its lanes, and its completion. -/
def execVlRowWrite (p : Place) (num : Nat) (s : State) : Out :=
  let k := 2 * p.h.toNat + if p.bank then 1 else 0
  .next (match s.units.get? k with
    | none => s
    | some u =>
      match findOp u .vl num with
      | some o =>
        match o.body with
        | .vl x =>
          match (if vlFirst u num then x.value else none) with
          | some v => completeOp (writeRow s k x.row v (laneBits x.ety) x.mask) k o
          | none => s
        | .va _ | .vs _ | .m _ | .d _ => s
      | none => s)

end Sys2Proof.Machine
end

