-- ==== Sys2Proof/Machine/VsOps.lean ====
section
/-! DEFINITION. The VS instructions (R245, R246, R297) and the performing of their stores (R220, R228). -/

namespace Sys2Proof.Machine

/-! ## What a store writes -/

/-- A bit write cut at a page boundary of 2^sh bytes. -/
def cutWrite (sh : Nat) (w : BitWrite) : List BitWrite :=
  let pg := 8 * 2 ^ sh
  let n := pg - w.bit % pg
  if w.inPart || w.w ≤ n then [w] else [{ w with w := n, v := w.v % 2 ^ n }, { w with bit := w.bit + n, w := w.w - n, v := w.v / 2 ^ n }]

/-- Lanes with their places, converted each in the format of its own granule (R108, R118, R245). -/
def plainWrites (sd : Side) (et : Nat) (ls : List (Nat × Nat)) : List BitWrite × Flags :=
  ls.foldr (fun e acc =>
    let i := sd.info e.1
    let c := if i.fmt = 0 then (e.2, (0 : Flags)) else convert (etFmt et) (Fmt.ofCode i.fmt) e.2 .rne false 0
    (⟨false, e.1, i.width, c.1⟩ :: acc.1, c.2 ||| acc.2)) ([], 0)

/-- The enabled lanes form whole blocks, consecutive in memory, from a multiple of 48 elements (R246). -/
def wholeBlocks (sd : Side) (first : Info) (bs : List Nat) : Bool :=
  let b0 := bs.headD 0
  bs.length % 48 = 0 && (8 * (sd.offset b0 - first.dbase) + b0 % 8) % (48 * first.width) = 0 &&
    (bs.mapIdx fun i b => b == b0 + first.width * i).all id

/-- The places of the scale byte of a block: one for each bank of its elements that has a place of its own (log 83). -/
def Side.scalesOf (sd : Side) (bits : List Nat) : List Nat := (bits.filterMap sd.scale).eraseDups

/-- Blocks of 48 lanes encoded, each block's scale after its data (R112, R113). -/
def blockWrites (sd : Side) (et : Nat) : Nat → List (Nat × Nat) → List BitWrite × Flags
  | 0, _ => ([], 0)
  | n + 1, ls =>
    let blk := ls.take 48
    let i := sd.info (blk.headD (0, 0)).1
    match b48Encode i.fmt (blk.map fun e => (sd.info e.1).fmt) (blk.map fun e => ((etFmt et).decode e.2).1) .rne [], blockWrites sd et n (ls.drop 48) with
    | (cs, sc, f1), (ws, f2) =>
      ((blk.mapIdx fun j e => (⟨false, e.1, i.width, cs.getD j 0⟩ : BitWrite)) ++ ((sd.scalesOf (blk.map (·.1))).map fun x => ⟨true, 8 * x, 8, sc⟩) ++ ws,
        f1 ||| f2)

/-! ## Issue -/

/-- Issue a VST, VST.S or VSTA: `wide32` is VSTA's reading of the row as 128 lanes of 32 bits. A store takes the operand-range traps that R243 lists
for a load (log 75). -/
def vsWord (f : VlForm) (wide32 : Bool) (ag : BitVec 3) (fmt : BitVec 4) (a : Src) (vp : PReg) (s : State) : Out :=
  eng s .vs 1 fun s u r =>
    let k := s.cur.1
    let et0 := etypeOf .vs r.cfg
    let et := if wide32 then (if et0 = 1 then 1 else 0) else et0
    let row0 := row0Of .vs r.cfg
    let names := a :: f.src
    let rows := names.flatMap (srcRows row0)
    let mask := vlMask u vp (width et)
    let is := (List.range (width et)).filter mask.getLsbD
    let adr := agAddr .vs r ag.toNat
    let cap := agCap .vs r ag.toNat
    let ls := laneStride .vs r ag.toNat
    if rowsOut s u rows then .trap s 0x07 0 Acc.none
    else if !sqReady u (names.flatMap srcSq) then .wait s u .streamReg
    else
      match readSrcs k row0 et r.rcd.push names s u with
      | (s, u', rws, poison) =>
        if is.isEmpty then
          if wide32 && rows.any (unwritten u) then .trap s 0x11 0 Acc.none
          else if slips u .vs then .trap s 0x12 0 Acc.none
          else .ok s ((u'.useAg .vs ag.toNat).number .vs).1
        else
          let sd := sideOf s k u cap fmt.toNat
          match vlPlaces f r sd adr ls.1 ls.2 et (rws.getD 1 0) is with
          | (first, w, els) =>
            let bs := els.map (·.bit)
            let acc := accOf s u cap ((bs.headD 0) / 8) true
            let data := els.map fun e => (e.bit, laneOf (rws.getD 0 0) (laneBits et) e.lane)
            if !cap.tag then .trap s 0x0A 1 acc
            else if !hasRights cap.rights rW then .trap s 0x0A 2 acc
            else if vlBad f first (rawLane sd bs) w et ls.1 0 then .trap s 0x07 0 Acc.none
            else
              match sideFault s u sd first rW w [0, 2] bs bs with
              | some (code, kind) => .trap s code kind acc
              | none =>
                if first.b48 && (f != .plain || !wholeBlocks sd first bs) then .trap s 0x07 0 Acc.none
                else
                  let wt := tilesOf s k u sd w true bs
                  if tileWriteFault u wt then .trap s 0x0A 2 acc
                  else if !tilesReady u [] wt then .wait s u .tile
                  else if wide32 && rows.any (unwritten u) then .trap s 0x11 0 Acc.none
                  else if slips u .vs then .trap s 0x12 0 Acc.none
                  else
                    countSplits s u (if splits s u sd w true bs then 1 else 0) fun v =>
                      let out := if first.b48 then blockWrites sd et (data.length / 48) data else plainWrites sd et data
                      match (Unit.useAg { u' with psplit := v.psplit } .vs ag.toNat).number .vs with
                      | (u', n) =>
                        .ok s { u' with ops := u'.ops ++
                          [{ str := .vs, num := n, word := strandWord u .vs, flags := out.2, readsT := [], writesT := wt, poison := poison,
                             held := false, body := .vs { cap := cap, writes := out.1.flatMap (cutWrite (shiftOf s u.ctx sd.oid)) } }] }

def execVst (ag : BitVec 3) (fmt : BitVec 4) (a : Src) (vp : PReg) (s : State) : Out := vsWord .plain false ag fmt a vp s
def execVstS (ag : BitVec 3) (fmt : BitVec 4) (a ix : Src) (vp : PReg) (s : State) : Out := vsWord (.gather ix) false ag fmt a vp s
def execVsta (ag : BitVec 3) (fmt : BitVec 4) (a : BitVec 6) (vp : PReg) (s : State) : Out := vsWord .plain true ag fmt (.v a) vp s

/-- The register's producer is absent or VS. -/
def vsMayPush (x : SqReg) : Bool :=
  match x.producer with
  | none => true
  | some (.vs _) => true
  | some .d => false

/-- VPUSH: an entry of W lanes as raw bits, zero in disabled lanes (R157, R297). -/
def execVpush (sq : BitVec 3) (fmt : BitVec 4) (a : Src) (vp : PReg) (s : State) : Out :=
  eng s .vs 1 fun s u r =>
    let et := etypeOf .vs r.cfg
    let row0 := row0Of .vs r.cfg
    let x := u.sqAt sq.toNat
    if fmt != 0 || !vsMayPush x || rowsOut s u (srcRows row0 a) then .trap s 0x07 0 Acc.none
    else if !sqReady u (srcSq a) || 4 ≤ x.entries.length then .wait s u .streamReg
    else if slips u .vs then .trap s 0x12 0 Acc.none
    else
      match readSrc s s.cur.1 u row0 et r.rcd.push a with
      | (s, u', row, poison) =>
        let x := u'.sqAt sq.toNat
        let u' := u'.setSq sq.toNat
          { x with entries := x.entries ++ [mergeRow 0 row (laneBits et) (vlMask u vp (width et))], producer := some (.vs false) }
        okPoison s (u'.number .vs).1 poison

/-! ## Performing, page by page (R220, R246) -/

/-- The writes of one page, with the scale bytes that stand among them. -/
def pageOf (s : State) (u : Unit) (oid : Nat) (ws : List BitWrite) : Nat :=
  pageNo s u.ctx oid (((ws.find? (!·.inPart)).map fun w => w.bit / 8).getD 0)

/-- Cut writes into runs of one page; a scale byte stays with the data before it. -/
def byPage (s : State) (u : Unit) (oid : Nat) (ws : List BitWrite) : List (List BitWrite) :=
  (ws.foldl (fun gs w => match gs with
    | g :: t => if w.inPart || pageNo s u.ctx oid (w.bit / 8) = pageOf s u oid g then (g ++ [w]) :: t else [w] :: g :: t
    | [] => [[w]]) []).reverse

/-- Perform the runs of a store in order: what remains to do, and the first cause met. -/
def performRuns (k : Nat) (o : Op) (oid : Nat) (cap : Cap) : List (List BitWrite) → State → State × List BitWrite × Option Cause
  | [], s => (s, [], none)
  | g :: r, s =>
    match s.units.get? k with
    | none => (s, [], none)
    | some u =>
      let off := (((g.find? (!·.inPart)).map fun w => w.bit / 8).getD 0)
      let park : Parked := { str := .vs, num := o.num, cap := cap, page := pageNo s u.ctx oid off, pc := o.word, writes := g, stc := none }
      let parkIt := fun (s : State) => updUnit s k fun u => { u with replay := u.replay ++ [park] }
      if 32 ≤ u.replay.length && parkedOn s u oid off then (s, g ++ r.flatten, none)
      else if parkedOn s u oid off then performRuns k o oid cap r (parkIt s)
      else
        match storePage s k u oid g none with
        | (s, .done) => performRuns k o oid cap r s
        | (s, .trap code) =>
          match performRuns k o oid cap r s with
          | (s, l, _) => (s, l, some (causeO u o code 0 (accOf s u cap off true)))
        | (s, .stall) => (s, g ++ r.flatten, none)
        | (s, .fault kind) =>
          if 32 ≤ u.replay.length then (s, g ++ r.flatten, none)
          else
            match performRuns k o oid cap r (parkIt s) with
            | (s, l, _) => (s, l, some (causeO u o 0x20 kind (accOf s u cap off true)))

/-- Perform a VS store: what cannot be performed is parked, and the store completes when nothing is left. -/
def performVs (s : State) (k : Nat) (u : Unit) (o : Op) (x : VsOp) : State :=
  if spent s (groveOf k) then s
  else
    match performRuns k o x.cap.oid x.cap (byPage s u x.cap.oid x.writes) s with
    | (s, rest, c) =>
      let s := settleStores (updUnit s k fun u => u.setOp { o with body := .vs { x with writes := rest } }) k
      match c with
      | some c => raise s k c
      | none => s

end Sys2Proof.Machine
end

