-- ==== Sys2Proof/Machine/Eng.lean ====
section
/-! DEFINITION. What the engine commands share (R176 to R182): leases and issue ticks (R65, R66, R316), tile operands and
their formats (R179, R118, R258), reading and writing operands, and a command's start and completion. -/

namespace Sys2Proof.Machine

/-! ## Tile operands -/

/-- A tile operand: the register, its region's side, the bit position of its element 0, the bytes of the region, and
the format of element 0. -/
structure Operand where
  t : Nat
  sd : Side
  bit : Nat
  room : Nat
  first : Info
  deriving DecidableEq, Repr

/-- The operand of a tile region under a format code; code 0 takes the banks' formats. -/
def regionOperand (s : State) (k : Nat) (u : Unit) (t : Nat) (cap : Cap) (code : Nat) : Operand :=
  let sd := sideOf s k u cap code
  { t := t, sd := sd, bit := 8 * cap.cursor, room := 65536 * (cap.base + cap.len) - cap.cursor, first := sd.info (8 * cap.cursor) }

/-- The operand that a tile register names. -/
def operandOf (s : State) (k : Nat) (u : Unit) (t code : Nat) : Operand := regionOperand s k u t (u.tileAt t).cap code

/-- Bytes of n elements of w bits. -/
def bytesOf (n w : Nat) : Nat := (n * w + 7) / 8

/-- The first and the last bit of n elements in each granule that they touch. -/
def Operand.places (o : Operand) (n w : Nat) : List Nat :=
  (List.range ((bytesOf n w + 63) / 64)).flatMap fun g => [o.bit + 512 * g, o.bit + min (512 * g + 511) (n * w - 1)]

/-- Every bank that holds n elements reads as `p` asks (R118). -/
def Operand.every (o : Operand) (n w : Nat) (p : Info → Bool) : Bool := (o.places n w).all fun b => p (o.sd.info b)

/-- The format of each of n elements where the banks differ in it; none where element 0's is that of all (R118). -/
def Operand.fmts (o : Operand) (n w : Nat) : List Nat :=
  if o.every n w (·.fmt = o.first.fmt) then [] else (List.range n).map fun i => (o.sd.info (o.bit + i * w)).fmt

/-- The operand-range checks on n elements (R118, R179). -/
def Operand.bad (o : Operand) (n w : Nat) (scaled : Bool) : Bool :=
  o.room < bytesOf n w || o.sd.bad o.bit ||
    (o.first.b48 && (8 * (o.sd.offset o.bit - o.first.dbase)) % (48 * o.first.width) != 0) || !o.sd.uniform o.first 1 scaled (o.places n w)

/-- The checks of R227 and R258 on an operand: code and KIND. A locked capability needs the object's format. -/
def Operand.fault (s : State) (u : Unit) (o : Operand) (n w need_ : Nat) (typed : Bool) : Option (Nat × Nat) :=
  if !hasRights o.sd.cap.rights need_ then some (0x0A, 2)
  else if o.sd.part.isNone then some (0x0C, 0)
  else if typed && lockBroken s u o.sd 1 (o.places n w) then some (0x0A, 4)
  else none

/-- The tiles with a byte among n elements of an operand and its scales (R296). -/
def Operand.tiles (s : State) (k : Nat) (u : Unit) (o : Operand) (n w : Nat) : List Nat :=
  match o.sd.part with
  | none => [o.t]
  | some (p, _, _) =>
    let lo := o.sd.offset o.bit
    let hi := lo + bytesOf n w
    (List.range 16).filter fun t => t = o.t ||
      match tileRegion s k u t with
      | some (q, a, b) => p = q && ((lo < b && a < hi) || ((o.places n w).filterMap o.sd.scale).any fun x => decide (a ≤ x) && decide (x < b))
      | none => false

/-! ## What a command asks for -/

/-- The command reads or writes memory, which a spent budget holds (R325). -/
def MCmd.accesses : MCmd → Bool
  | .mza _ _ | .mprom _ | .mpert _ _ _ => false
  | .mlb _ | .mla _ _ _ | .mmul _ _ _ | .mmac _ _ _ | .wld _ | .wmul _ _ _ | .wmac _ _ _ | .svscore _ _ _ | .svtopk _ _ | .svgath _ _
  | .ktexp _ _ _ | .ktsmax _ _ _ | .gtqnt _ _ _ | .gtsum _ _ _ | .spred _ _ _ | .spbc _ _ => true

/-- A use of an operand: elements, their width, whether it carries a format, and whether it uses the scales of B48 data. -/
structure Use where
  o : Operand
  n : Nat
  w : Nat
  typed : Bool
  scaled : Bool
  deriving DecidableEq, Repr

/-- What a command asks for when it starts: the uses it reads and writes, whether an operand, limit or format is
refused, the rows it writes, the accumulator rows it reads, and whether it closes the slot's run. `also` and `made` list tiles that it reads and
writes beside its operands. -/
structure Plan where
  rd : List Use
  wr : List Use
  also : List Nat
  made : List Nat
  bad : Bool
  out : Nat
  rows : List Nat
  close : Bool
  deriving DecidableEq, Repr

/-- A plan that neither reads nor writes. -/
def Plan.bare : Plan := { rd := [], wr := [], also := [], made := [], bad := false, out := 0, rows := [], close := false }

/-- The codes and KINDs that its uses meet, reads first. -/
def Plan.fault (p : Plan) (s : State) (u : Unit) : Option (Nat × Nat × Use) :=
  firstSome ((p.rd.map fun x => (x.o.fault s u x.n x.w rR x.typed).map fun e => (e.1, e.2, x)) ++
    p.wr.map fun x => (x.o.fault s u x.n x.w rW x.typed).map fun e => (e.1, e.2, x))

def Plan.readTiles (p : Plan) (s : State) (k : Nat) (u : Unit) : List Nat :=
  let w := p.made ++ p.wr.flatMap fun x => x.o.tiles s k u x.n x.w
  ((p.rd.flatMap fun x => x.o.tiles s k u x.n x.w) ++ p.also).eraseDups.filter fun t => !w.elem t
def Plan.writeTiles (p : Plan) (s : State) (k : Nat) (u : Unit) : List Nat :=
  (p.made ++ p.wr.flatMap fun x => x.o.tiles s k u x.n x.w).eraseDups

/-- Page splits of its operands (R269). -/
def Plan.splits (p : Plan) (s : State) (u : Unit) : Nat :=
  ((p.rd ++ p.wr).filter fun x => Machine.splits s u x.o.sd 1 x.scaled (x.o.places x.n x.w)).length

/-! ## Leases and ticks -/

/-- The lease that a command finds on its slot: a trap, or the lease. -/
def leaseFor (u : Unit) (ls : Nat) (cls : EngineClass) : Sum Nat LeaseSlot :=
  match u.leases.toList.getD ls none with
  | none => .inl 0x08
  | some l => if l.evicted then .inl 0x09 else if l.eng.cls = cls then .inr l else .inl 0x08

/-- The engine serves the lease: awake, and its booked step runs. -/
def leaseServes (s : State) (k ls : Nat) (l : LeaseSlot) : Bool :=
  let e := engAt s l.eng
  e.power == .awake && e.key == some (k, ls) &&
    (l.isOpen || match stepAt s l.handle l.step with
      | some st => st.st == .running || st.st == .late
      | none => false)

/-- S of R65. -/
def leaseBase (s : State) (l : LeaseSlot) : Nat :=
  if l.isOpen then l.start else ((stepAt s l.handle l.step).map fun st => 64 * st.start).getD l.start

/-- Add stall ticks to an intrusion count of the step that a lease serves (R316, Table 12.9). -/
def intrude (s : State) (l : LeaseSlot) (cause n : Nat) : State :=
  if l.isOpen then s
  else updStep s l.handle l.step fun st => { st with intr := st.intr.mapIdx fun i x => if i + 1 = cause then x + n else x }

/-! ## Runs of a Griddle -/

def updEng (s : State) (e : EngineId) (f : EngMem → EngMem) : State :=
  let x := engAt s e
  setEng s e { x with mem := f x.mem }

def row32 (xs : List Nat) : Row := rowOf 32 xs
def lanes32 (r : Row) : List Nat := (List.range 128).map fun j => laneOf r 32 j

def Win.empty : Win := { x := none, w := 0, special := none }

/-- F of a promotion (Table 7.5), as a value. -/
def Win.total (w : Win) : Val :=
  match w.special, w.x with
  | some c, _ => fp32.decode c
  | none, none => .fin false 0 0
  | none, some x => .fin (decide (w.w < 0)) w.w.natAbs (x - 24)

/-- promote of R188: the new accumulator and its flags. -/
def promote (acc : Nat) (w : Win) : Nat × Flags :=
  match fp32.encode w.total .rne false 0 with
  | (f, f1) =>
    match Val.add (fp32.decode acc) (fp32.decode f) .rne with
    | (v, f2) =>
      match fp32.encode v .rne false 0 with
      | (c, f3) => (c, f1 ||| f2 ||| f3)

/-- Promote every element of a run. -/
def Run.promoted (r : Run) : List (List (Nat × Flags)) :=
  r.vals.mapIdx fun i row => (lanes32 row).mapIdx fun j a => promote a (Tab.getD Win.empty r.wins (128 * i + j))

def rowFlags (l : List (List (Nat × Flags))) : Flags := (l.map fun r => r.foldl (fun f x => f ||| x.2) 0).foldl (· ||| ·) 0

/-- Write the rows from `acc` on. -/
def engineRows (s : State) (k acc : Nat) : List Row → State
  | [] => s
  | r :: t => engineRows (engineRow s k acc r) k (acc + 1) t

/-- Close the run of an engine that serves the unit at `k`: with blocks since the last promotion, its rows are promoted (R189). Answers the
flags. -/
def closeRun (s : State) (k : Nat) (e : EngineId) : State × Flags :=
  match (if (engAt s e).key.any fun x => x.1 = k then (engAt s e).mem.run else none) with
  | none => (s, 0)
  | some r =>
    let s := updEng s e fun m => { m with run := none }
    if r.int || r.blocks = 0 then (s, 0)
    else
      let l := r.promoted
      (engineRows s k r.acc (l.map fun x => row32 (x.map (·.1))), rowFlags l)

/-- Close the runs of lease slots of a unit, their flags reaching $flags. -/
def closeSlots (s : State) (k : Nat) (slots : List Nat) : State :=
  match s.units.get? k with
  | none => s
  | some u => (slots.filterMap fun i => u.leases.toList.getD i none).foldl (fun s l =>
      if l.evicted then s
      else
        match closeRun s k l.eng with
        | (s, fl) => updUnit s k fun u => u.addFlags fl) s

def closeRuns (s : State) (k : Nat) : State := closeSlots s k (List.range 4)

/-- The slots with a run that a close would promote, or with a command in flight that may open one. -/
def runSlots (s : State) (k : Nat) (u : Unit) : List Nat :=
  (List.range 4).filter fun i => match u.leases.toList.getD i none with
    | some l => !l.evicted && l.eng.cls == .griddle && (!u.slotIdle i || (((engAt s l.eng).key.any fun x => x.1 = k) && match (engAt s l.eng).mem.run with
      | some r => !r.int && r.blocks != 0
      | none => false))
    | none => false

/-- The number of a command of the slots, or the one named, is in flight. -/
def closeWaits (u : Unit) (c : Nat × List Nat) : Bool :=
  u.ops.any fun p => match p.body with
    | .m m => p.num = c.1 || c.2.elem m.slot
    | .vl _ | .va _ | .vs _ | .d _ => false

/-- The idle slots with a run that a close does not promote: an integer run, or one with no block since the last promotion. -/
def plainRuns (s : State) (k : Nat) (u : Unit) : List Nat :=
  (List.range 4).filter fun i => match u.leases.toList.getD i none with
    | some l => !l.evicted && u.slotIdle i && !(runSlots s k u).elem i && ((engAt s l.eng).key.any fun x => x.1 = k) && (engAt s l.eng).mem.run.isSome
    | none => false

/-- The M strand ends: runs that need no promotion end now; the close of the others belongs to the last engine command, or comes now when none is
in flight (R189). -/
def endRuns (s : State) (k : Nat) (u : Unit) : State :=
  let s := closeSlots s k (plainRuns s k u)
  let slots := (runSlots s k u).filter fun i => !u.closing.any fun c => c.2.elem i
  let nums := (u.ops.filter fun o => o.str = .m).map (·.num)
  if slots.isEmpty then s
  else if nums.isEmpty then closeSlots s k slots
  else updUnit s k fun u => { u with closing := u.closing ++ [(nums.foldl max 0, slots)] }

/-- Perform the closes whose last command was abandoned (R322): nothing of theirs is in flight any more. -/
def settleCloses (s : State) (u : Unit) : State × Unit :=
  match u.closing.filter fun c => !closeWaits u c with
  | [] => (s, u)
  | l =>
    let s := closeSlots s s.cur.1 (l.flatMap (·.2))
    (s, { again s s.cur.1 u with psplit := u.psplit, matAt := u.matAt, closing := u.closing.filter (closeWaits u) })

/-! ## The start of a command -/

/-- An operation of an engine command. -/
def mOp (u : Unit) (num : Nat) (fl : Flags) (rd wr : List Nat) (p : Option Poison) (m : MOp) : Op :=
  { str := .m, num := num, word := strandWord u .m, flags := fl, readsT := rd, writesT := wr, poison := p, held := false, body := .m m }

/-- Read the rows that a command reads at its start. -/
def readRows (k : Nat) (u : Unit) : List Nat → State → State × List Row × Option Poison
  | [], s => (s, [], none)
  | n :: r, s =>
    match readRow s k u n with
    | (s, row, p) =>
      match readRows k u r s with
      | (s, rows, q) => (s, row :: rows, p.orElse fun _ => q)

/-- An M position, which no slip rule reads. -/
def Unit.numberM (u : Unit) : Unit × Nat :=
  let n := u.cpl.issued.get .m + 1
  ({ u with cpl := { u.cpl with issued := u.cpl.issued.set .m n } }, n)

/-- The command starts: its run closed, its rows read, its claims made and its number taken. -/
def startCmd (cmd : MCmd) (ls : Nat) (l : LeaseSlot) (cap : Cap) (p : Plan) (rd wr : List Nat) (s : State) (u : Unit) : Res :=
  let k := s.cur.1
  match (if p.close then closeRun s k l.eng else (s, 0)) with
  | (s, fl) =>
    let u := { again s k u with psplit := u.psplit, matAt := none }
    match readRows k u p.rows s with
    | (s, rows, poison) =>
      match (claimTiles u rd).numberM with
      | (u, n) =>
        .ok s { u with ops := u.ops ++ [mOp u n fl rd wr poison { cmd := cmd, slot := ls, eng := l.eng, cap := cap, rows := rows, next := 0 }]
                       mstat := vmodify u.mstat ls fun x => { x with ovfm := match cmd with
                         | .mmul .. | .mmac .. => 0
                         | .mlb .. | .mza .. | .mla .. | .mprom .. | .mpert .. | .wld .. | .wmul .. | .wmac .. | .svscore .. | .svtopk ..
                         | .svgath .. | .ktexp .. | .ktsmax .. | .gtqnt .. | .gtsum .. | .spred .. | .spbc .. => x.ovfm } }

/-- AN ENGINE COMMAND AT ISSUE (R65, R66, R177 to R181, R295, R296, R316, R337, R384). `acc`, `n` are its rows, 0 for
none; `tiles` the registers it names, each with a format code; `plan` what it asks for under the active
configuration; `more`, `extra` and `oid` the check, page splits and object of SVGATH's source. The rows' range comes before the lease (log 51); rows
192 to 255 are out of range (log 100). -/
def engineCheck (cmd : MCmd) (ls : BitVec 2) (cls : EngineClass) (acc n : Nat) (tiles : List (Nat × Nat))
    (plan : State → Unit → EngMem → Tab Word → List Operand → Plan) (more : Option (Nat × Nat)) (extra oid : Nat)
    (s : State) (u : Unit) (r : Strand) : Res :=
  match settleCloses s u with
  | (s, u) =>
  let k := s.cur.1
  let i := ls.toNat
  if 192 < acc + n || unitRows s u < acc + n then .trap s 0x07 0 Acc.none
  else
    match leaseFor u i cls with
    | .inl code => .trap s code 0 Acc.none
    | .inr l =>
      if tiles.any fun t => !(u.tileAt t.1).reg then .trap s 0x07 0 Acc.none
      else if !leaseServes s k i l then .wait s u (if l.isOpen then .engine else .issueTick)
      else
        let tick := u.matAt.map fun off => leaseBase s l + off.toNat
        if (tick.map fun t => decide (s.time < t)).getD false then .wait s u .issueTick
        else if !u.slotIdle i || u.closing.any fun c => c.2.elem i then .wait s u .engine
        else
          let cfg := u.cpl.mactive.toList.getD i []
          let p := plan s u (engAt s l.eng).mem cfg (tiles.map fun t => operandOf s k u t.1 t.2)
          let rd := p.readTiles s k u
          let wr := p.writeTiles s k u
          if !tilesReady u rd wr then (if tick.isSome then .trap s 0x0F 0 Acc.none else .wait s u .tile)
          else if p.bad || unitRows s u < p.out || (p.rd ++ p.wr).any fun x => x.o.bad x.n x.w x.scaled then .trap s 0x07 0 Acc.none
          else
            match p.fault s u, more with
            | some (code, kind, x), _ => .trap s code kind (accOf s u x.o.sd.cap (x.o.bit / 8) (p.wr.elem x))
            | none, some (code, kind) => .trap s code kind ⟨oid, 0, false, false⟩
            | none, none =>
              if p.rows.any (unwritten u) then .trap s 0x11 0 Acc.none
              else
                countSplits s u (min (p.splits s u + extra) 1) fun u =>
                  let s := match tick with
                    | some t => intrude s l 1 (s.time - t)
                    | none => s
                  startCmd cmd i l (r.rcd.caps.toList.getD (bits (cfgRead .m cfg 0x11) 3 0) Cap.none) p rd wr s u

/-- An engine command of `len` words with no source beside its tiles. -/
def engineCmd (cmd : MCmd) (ls : BitVec 2) (cls : EngineClass) (acc n : Nat) (tiles : List (Nat × Nat))
    (plan : State → Unit → EngMem → Tab Word → List Operand → Plan) (len : Nat) (s : State) : Out :=
  eng s .m len (engineCheck cmd ls cls acc n tiles plan none 0 0)

/-! ## MAT.AT (R65, R183) -/

/-- The word after the one at the strand's position. -/
def nextWord (r : Strand) : Option Word := (r.store[r.off + 1]?).map (·.1)

/-- MAT.AT: the word that follows must be an engine command. Only the opcode field of that word is looked at, and the last
word of every pass is the strand's end (log 87). -/
def execMatAt (off : BitVec 18) (s : State) : Out :=
  eng s .m 1 fun s u r =>
    let ok := match (if r.off + 1 < r.rcd.len then nextWord r else none) with
      | none => false
      | some w => let op := bits w 31 26; op != 0x00 && op != 0x14 && op != 0x15
    if ok then .ok s { u with matAt := some off } else .trap s 0x02 0 Acc.none

/-! ## Reading and writing operands at completion -/

/-- Consecutive codes of w bits in a number. -/
def codesIn (w : Nat) : Nat → Nat → List Nat
  | 0, _ => []
  | n + 1, v => v % 2 ^ w :: codesIn w n (v / 2 ^ w)

/-- Cut a list into pieces of n; `fuel` bounds their number. -/
def pieces {α : Type} (n : Nat) : Nat → List α → List (List α)
  | 0, _ => []
  | k + 1, l => if l.isEmpty then [] else l.take n :: pieces n k (l.drop n)

/-- The codes of w bits in bytes: 192 bytes hold a whole number of elements of every width. -/
def codesOf (w n : Nat) (bs : List Byte) : List Nat :=
  ((pieces 192 (bs.length / 192 + 1) bs).flatMap fun p => codesIn w (8 * p.length / w) (leNat p)).take n

/-- What reading an operand came to: its codes, and the scale code of each element of a B48 operand. -/
inductive Got where
  | ok (codes scales : List Nat) (p : Option Poison)
  | fault (off kind : Nat)
  | stall
  deriving DecidableEq, Repr

def readScales (sd : Side) : List Nat → State → State × Tab Nat × Option Poison
  | [], s => (s, [], none)
  | x :: r, s =>
    match readScale s sd x with
    | (s, c, p) =>
      match readScales sd r s with
      | (s, cs, q) => (s, Tab.put cs x c, p.orElse fun _ => q)

/-- The places of the scales of n elements, with how many elements in order each is for: one for each block where all their banks have the bases
of the first, else each element's own (R118). -/
def Operand.scaleAt (o : Operand) (n w : Nat) : List (Nat × Nat) :=
  if !o.first.b48 then []
  else if o.every n w fun i => i.dbase = o.first.dbase && i.sbase = o.first.sbase then
    (List.range ((n + 47) / 48)).map fun j => ((o.sd.scale o.bit).getD 0 + j, min 48 (n - 48 * j))
  else (List.range n).map fun i => ((o.sd.scale (o.bit + i * w)).getD 0, 1)

/-- Read n elements of w bits. -/
def readOperand (s : State) (k : Nat) (u : Unit) (o : Operand) (n w : Nat) : State × Got :=
  let g0 := o.bit / 512
  let top := (o.bit + n * w - 1) / 8
  let xs := o.scaleAt n w
  let own := (xs.map (·.1)).eraseDups
  match gather k u o.sd.cap.oid ((List.range ((bytesOf n w + 63) / 64)).map fun g => (g0 + g, min (64 * (g0 + g) + 63) top)) s with
  | (s, .ok gs p) =>
    let s := charge s (groveOf k) (gs.length + (own.map (· / 64)).eraseDups.length)
    match readScales o.sd own s with
    | (s, sc, q) => (s, .ok (codesOf w n (gs.flatMap (·.2))) (xs.flatMap fun x => List.replicate x.2 (Tab.getD 127 sc x.1)) (p.orElse fun _ => q))
  | (s, .fault off kind) => (s, .fault off kind)
  | (s, .remote _) | (s, .stall) => (s, .stall)

/-- Element values under their scales, with the flag of reserved T2 codes. -/
def valuesOf (fmt : Nat) (fmts : List Nat) (b48 : Bool) (codes scales : List Nat) : List Val × Flags :=
  if b48 then ((withFmts fmt fmts codes).mapIdx fun i e => b48Value (Fmt.ofCode e.1) e.2 (scales.getD i 127), 0)
  else
    let l := (withFmts fmt fmts codes).map fun e => (Fmt.ofCode e.1).decode e.2
    (l.map (·.1), l.foldl (fun a x => a ||| x.2) 0)

/-- The values of n elements that an operand holds (R118). -/
def Operand.values (o : Operand) (n : Nat) (codes scales : List Nat) : List Val × Flags :=
  valuesOf o.first.fmt (o.fmts n o.first.width) o.first.b48 codes scales

/-- Write bits through a tile: every page is reached before anything is written. No such write is among those that a signature counts (R340). -/
def writePages (k : Nat) (u : Unit) (oid : Nat) : List (List BitWrite) → State → State
  | [], s => s
  | g :: r, s => writePages k u oid r (storeBytes s k u oid g none).1

/-- Reach spans of bytes, each of one page; the first that is not reached, with its fault. -/
def reachAll (k : Nat) (u : Unit) (oid : Nat) : List (Nat × Nat) → State → State × Option (Nat × Option Nat)
  | [], s => (s, none)
  | (off, last) :: r, s =>
    match reachTo s k u oid off last true with
    | (s, .at _ _) => reachAll k u oid r s
    | (s, .fault kind) => (s, some (off, some kind))
    | (s, .remote _ _) | (s, .stall) => (s, some (off, none))

/-- The bytes that the writes of one page span, none when all go to the partition's scales. -/
def spanOfPage (g : List BitWrite) : Option (Nat × Nat) :=
  match g.filter (!·.inPart) with
  | [] => none
  | w :: r => some (w.bit / 8, (r.map fun v => (v.bit + v.w - 1) / 8).foldl max ((w.bit + w.w - 1) / 8))

/-- Write n codes of w bits from an operand's start, with scales after each block (R112). -/
def elemWrites (o : Operand) (w : Nat) (codes : List Nat) : List BitWrite :=
  codes.mapIdx fun i c => ⟨false, o.bit + i * w, w, c⟩
def scaleWrites (o : Operand) (w : Nat) (scales : List Nat) : List BitWrite :=
  (scales.mapIdx fun j c => (o.sd.scalesOf ((List.range 48).map fun i => o.bit + (48 * j + i) * w)).map fun x => (⟨true, 8 * x, 8, c⟩ : BitWrite)).flatten

/-! ## The completion of a command -/

/-- What performing a command came to: the state and its flags, with the causes it raises, each marked when injected; a fault at which it is held;
or nothing yet. -/
inductive Done where
  | ok (s : State) (fl : Flags) (p : Option Poison) (causes : List (Nat × Nat × Bool))
  | fault (s : State) (code off kind : Nat) (oid : Nat) (wr : Bool)
  | stall (s : State)

/-- Use an operand's elements. -/
def withOperand (s : State) (k : Nat) (u : Unit) (o : Operand) (n w : Nat) (f : State → List Nat → List Nat → Option Poison → Done) : Done :=
  match readOperand s k u o n w with
  | (s, .ok codes scales p) => f s codes scales p
  | (s, .fault off kind) => .fault s 0x20 off kind o.sd.cap.oid false
  | (s, .stall) => .stall s

/-- Write through an operand, and complete with flags. -/
def putOperand (s : State) (k : Nat) (u : Unit) (o : Operand) (ws : List BitWrite) (fl : Flags) (p : Option Poison) : Done :=
  let ps := byPage s u o.sd.cap.oid (ws.flatMap (cutWrite (shiftOf s u.ctx o.sd.cap.oid)))
  match reachAll k u o.sd.cap.oid (ps.filterMap spanOfPage) s with
  | (s, none) => .ok (writePages k u o.sd.cap.oid ps s) fl p []
  | (s, some (off, some kind)) => .fault s 0x20 off kind o.sd.cap.oid true
  | (s, some (_, none)) => .stall s

/-- Write rows whole, and complete with flags. -/
def putRows (s : State) (k acc : Nat) (rows : List (List Nat)) (fl : Flags) (p : Option Poison) : Done :=
  .ok (engineRows s k acc (rows.map row32)) fl p []

end Sys2Proof.Machine
end

