-- ==== Sys2Proof/Machine/Move.lean ====
section
/-! DEFINITION. Bytes moved between objects without being consumed: copies, SVGATH and SPBC move poison (R389), are held at
a fault (R221, R228), and wait for a parked page (R220). -/

namespace Sys2Proof.Machine

/-- What a move of bytes read, with the mark of a poisoned granule among them; a fault has its code and KIND. -/
inductive Moved where
  | ok (bs : List Byte) (mark : Option (FaultUnit × Bool))
  | fault (off code kind : Nat)
  | stall
  deriving DecidableEq, Repr

/-- Cut a list of byte offsets into runs that lie in one granule. -/
def granRuns : List Nat → List (List Nat)
  | [] => []
  | o :: r =>
    match granRuns r with
    | (p :: q) :: t => if o / 64 = p / 64 then (o :: p :: q) :: t else [o] :: (p :: q) :: t
    | t => [o] :: t

/-- Read `n` bytes of another module, through a port. What it holds is outside this one: free values, free poison too, which counts as
marked by the port (log 3, log 85). None when no port is left or the module refuses (R366, R367). -/
def readRemote (s : State) (k : Nat) (u : Unit) (dev pa n : Nat) : State × Option (List Byte × Option (FaultUnit × Bool)) :=
  match portFor s u.ctx dev with
  | none => (s, none)
  | some p =>
    match remoteAnswer (sendRemote s k dev (.read dev p u.ctx pa n)) dev with
    | (s, false) => (s, none)
    | (s, true) =>
      ({ s with free := s.free + n + 1 },
        some ((List.range n).map fun i => freeByte (s.free + i), if Config.freeWord (s.free + n) % 2 = 0 then some (.ebithPort p, false) else none))

/-- Read bytes of an object, run by run. -/
def moveRead (k : Nat) (u : Unit) (oid pageOid : Nat) : List (List Nat) → State → State × Moved
  | [], s => (s, .ok [] none)
  | g :: r, s =>
    let o := g.headD 0
    if parkedOn s u pageOid o then (s, .stall)
    else
      match reachObjTo s k u oid o (g.foldl max o) false with
      | (s, t) =>
      match home s u rR 0 (g.foldl max o + 1 - o) t with
      | .at key a =>
        let s := eccRead (charge s (groveOf k) 1) (a / 64)
        match moveRead k u oid pageOid r s with
        | (s', .ok bs m) =>
          (s', .ok ((g.map fun x => viewByte s key (a / 64 * 64 + x % 64)) ++ bs) ((s.poison.get? (a / 64)).orElse fun _ => m))
        | x => x
      | .remote dev pa =>
        (match readRemote s k u dev pa g.length with
         | (s, none) => (s, .fault o 0x21 0)
         | (s, some (b, m)) =>
           match moveRead k u oid pageOid r s with
           | (s, .ok bs m') => (s, .ok (b ++ bs) (m.orElse fun _ => m'))
           | x => x)
      | .fault kind => (s, .fault o 0x20 kind)
      | .stall => (s, .stall)

/-- Mark the granule of an address when what was moved into it was poisoned. -/
def markMoved (s : State) (a : Nat) : Option (FaultUnit × Bool) → State
  | some m => { s with poison := s.poison.put (a / 64) m }
  | none => s

/-- Write moved bytes of one granule at an address under a key. -/
def moveInto (s : State) (k key a : Nat) (bs : List Byte) (m : Option (FaultUnit × Bool)) : State :=
  let ws := bs.mapIdx fun i b => (a + i, b)
  markMoved (addSig (putBytes (charge s (groveOf k) 1) key ws) k ws) a m

end Sys2Proof.Machine
end

