-- ==== Sys2Proof/Machine/Copy.lean ====
section
/-! DEFINITION. The copy stream: its set-up words (R68, R69, R247, R250 to R255) and the issue of a DGO (R227, R242, R248,
R249, R258, R269, R296). -/

namespace Sys2Proof.Machine

/-! ## Set-up words -/

/-- A D word that only changes set-up. -/
def setupWord (len : Nat) (f : State → Unit → Strand → DSetup → Res) (s : State) : Out := eng s .d len fun s u r => f s u r u.setup

def dimKey (side : Bool) (dim : Nat) : Nat := 10 * (if side then 1 else 0) + dim

def execDset (dim : BitVec 4) (side : Bool) (ext : BitVec 20) (stride : Option Word) (s : State) : Out :=
  setupWord (if stride.isSome then 2 else 1) (fun s u _ _ =>
    .ok s { u with cpl := { u.cpl with dims := Tab.set ⟨1, none⟩ u.cpl.dims (dimKey side dim.toNat) ⟨ext.toNat + 1, stride⟩ } }) s

/-- The tick of CPY.AT: N + δ of R69, which may lie before the start of time. -/
def stampTick (now : Nat) (w : Word) : Int := (now : Int) + sxt 32 ((w.toNat + 2 ^ 64 - now) % 2 ^ 32)

def execCpyAt (w : Word) (s : State) : Out :=
  setupWord 2 (fun s u _ d => .ok s { u with setup := { d with at_ := some (stampTick s.time w) } }) s

/-- A bit for a retired grove is a reserved field (R67, R250). -/
def execDmask (m : BitVec 16) (s : State) : Out :=
  setupWord 1 (fun s u _ d =>
    if (List.range 16).any fun g => m.getLsbD g && (groveAt s g).retired then .trap s 0x03 0 Acc.none
    else .ok s { u with setup := { d with mask := some m } }) s

def execDred (rop : BitVec 4) (id : Word) (s : State) : Out :=
  setupWord 2 (fun s u _ d =>
    if isTwice s u then .trap s 0x07 0 Acc.none else .ok s { u with setup := { d with red := some (rop.toNat, id) } }) s
def execDbind (sq ag : BitVec 3) (s : State) : Out :=
  setupWord 1 (fun s u _ d => .ok s { u with setup := { d with bind := some (sq.toNat, ag.toNat) } }) s
/-- The stamp's place is one use of the generator (R242, R253). -/
def execDstamp (ag : BitVec 3) (s : State) : Out :=
  setupWord 1 (fun s u r d =>
    .ok s { u.useAg .d ag.toNat with setup := { d with stamp := some (agCap .d r ag.toNat, agAddr .d r ag.toNat) } }) s
def execDfill (s : State) : Out := setupWord 1 (fun s u _ d => .ok s { u with setup := { d with fill := true } }) s
def execDcvt (rnd : BitVec 3) (sat : Bool) (s : State) : Out :=
  setupWord 1 (fun s u _ d => .ok s { u with setup := { d with cvt := some (rnd, sat) } }) s

/-! ## Waiting copies -/

/-- A copy of the stream that has issued and not started. -/
def waitingCopy (o : Op) : Bool := match o.body with
  | .d x => !x.started && !x.refill
  | .vl _ | .va _ | .vs _ | .m _ => false

/-- Abandon a waiting copy: its number completes, nothing is written, and its claims are returned (R255). -/
def abandonCopy (s : State) (k : Nat) (o : Op) : State :=
  let s := updUnit s k fun u =>
    { u with
      ops := u.ops.filter fun p => !(p.str = .d && p.num = o.num)
      cpl := { u.cpl with tile := o.readsT.foldl (fun t i => vmodify t i Tile.unclaim) u.cpl.tile }
      building := match o.body with
        | .d x => if x.fill then u.building.erase x.desc else u.building
        | .vl _ | .va _ | .vs _ | .m _ => u.building }
  let s := match o.body with
    | .d x => updUnit s k fun u => (x.desc.bind.map u.freeProducer).getD u
    | .vl _ | .va _ | .vs _ | .m _ => s
  flushPuts s k

def execDcancel (s : State) : Out :=
  setupWord 1 (fun s u _ _ =>
    let k := s.cur.1
    let s := (u.ops.filter fun o => o.str = .d && waitingCopy o).foldl (fun s o => abandonCopy s k o) s
    .ok s { again s k u with setup := DSetup.none }) s

/-! ## The geometry of a copy (R248) -/

/-- Bit offsets of the elements of one side from its address, dimension 0 fastest; dimensions stand highest first. -/
def walkDims : List (Nat × Int) → Int → List Int
  | [], p => [p]
  | (n, st) :: r, p => (List.range n).flatMap fun (x : Nat) => walkDims r (p + (x : Int) * st)

/-- Strides in bits, dense ones from the extents before them. -/
def strides (z : Nat) : Nat → List Dim → List (Nat × Int)
  | _, [] => []
  | run, d :: r =>
    (d.extent, match d.stride with
      | some w => 8 * w.toInt
      | none => (run * z : Nat)) :: strides z (run * d.extent) r

/-- The bit position of every element of a side. -/
def places (a z : Nat) (ds : List Dim) : List Nat :=
  (walkDims (strides z 1 ds).reverse 0).map fun p => ((8 * (a : Int) + p) % 2 ^ 51).toNat

/-- The sides of a copy: the formats in force, whether it moves raw bits, widths, and the elements' places. -/
structure Geo where
  src : Side
  dst : Side
  fs : Info
  fd : Info
  raw : Bool
  zs : Nat
  zd : Nat
  ps : List Nat
  pd : List Nat

def geoOf (s : State) (k : Nat) (u : Unit) (d : CopyDesc) : Geo :=
  let src := sideAt s k u d.src d.srcOid d.sf
  let dst := sideAt s k u d.dst d.dstOid d.df
  let fs := src.info (8 * d.srcA)
  let fd := dst.info (8 * d.dstA)
  let raw := fs.fmt = 0 || fd.fmt = 0
  let zs := if raw then 32 else fs.width
  let zd := if raw then 32 else fd.width
  { src := src, dst := dst, fs := fs, fd := fd, raw := raw, zs := zs, zd := zd, ps := places d.srcA zs d.srcDims, pd := places d.dstA zd d.dstDims }

/-- A B48 destination is in force. -/
def Geo.blocks (g : Geo) : Bool := !g.raw && g.fd.b48

/-! ## The checks of a DGO -/

/-- The checks of R227, R258 and R118 on one side: code and KIND. -/
def copySide (s : State) (u : Unit) (sd : Side) (first : Info) (raw : Bool) (z need_ : Nat) (bits : List Nat) : Option (Nat × Nat) :=
  let sp := spanOf z bits
  match sd.cap.check need_ sp.1 (sp.2 + 1) with
  | some kd => some (0x0A, kd)
  | none =>
    if z % 8 = 0 && bits.any fun b => b / 8 % (z / 8) != 0 then some (0x0B, 0)
    else if lockBroken s u sd z bits then some (0x0A, 4)
    else if !sd.uniform first z (!raw) bits then some (0x07, 0)
    else none

/-- Widths narrower than a byte, and FP6, need a dense dimension 0. -/
def denseBad (z : Nat) (ds : List Dim) : Bool := z % 8 != 0 && ((ds.head?).bind (·.stride)).isSome

/-- A B48 destination is written in whole consecutive blocks (R113). -/
def blocksBad (g : Geo) : Bool :=
  let e := fun b => 8 * (g.dst.offset b - g.fd.dbase) + b % 8
  g.blocks && (g.pd.length % 48 != 0 || (pieces 48 (g.pd.length / 48) g.pd).any fun blk =>
    e (blk.headD 0) % (48 * g.zd) != 0 || !(blk.mapIdx fun i b => b == blk.headD 0 + g.zd * i).all id)

/-- The rules of DRED (R251): the destination's level, its format, N, and the operator. Raw elements, which are not converted, suit a format
of 32 bits (log 86). -/
def reduceBad (lvl : Nat) (g : Geo) (rop : Nat) : Bool :=
  !(lvl = 1 || lvl = 3) || (g.raw && g.fd.width != 32) || g.fd.b48 || !([1, 2, 3, 13, 15].elem g.fd.fmt) || 2 ^ 24 < g.pd.length ||
    (3 ≤ rop && g.fd.fmt < 9)

/-- The rules of DMASK, DBIND and DFILL. -/
def setupBad (s : State) (k : Nat) (u : Unit) (d : DSetup) (agd lvl : Nat) (dst : Side) : Bool :=
  (match d.mask with
   | some m => d.red.isSome || d.bind.isSome || (m != 0 && (lvl != 2 || dst.part.isNone ||
       (List.range 16).any fun g => m.getLsbD g && ((groveAt s g).retired || (partOf s u.lid g).isNone)))
   | none => false) ||
  (match d.bind with
   | some (sq, _) => agd != 0 || lvl != 2 || (partOf s u.lid (groveOf k)).isNone || d.red.isSome ||
       (match (u.sqAt sq).producer with
        | none => false
        | some .d => false
        | some (.vs _) => true)
   | none => false) ||
  (d.fill && (16 ≤ u.building.length ||
    match (codeOf s u).bind fun c => pairOf c dst.cap.oid with
    | some (_, second) => !second
    | none => true))

/-- The stamp's checks (Table 9.1). -/
def stampFault (s : State) (u : Unit) : Option (Cap × Nat) → Option (Nat × Nat)
  | some (c, a) => accCheck s u c rW a 8 8 [0, 1, 3]
  | none => none

/-! ## DGO -/

/-- The descriptor of the DGO as it issues. -/
def copyDesc (s : State) (u : Unit) (r : Strand) (ags agd nd sf df : Nat) (d : DSetup) : CopyDesc :=
  let dims := fun side => (List.range nd).map fun i => Tab.getD ⟨1, none⟩ u.cpl.dims (dimKey side i)
  let dag := match d.bind with
    | some (_, ag) => ag
    | none => agd
  { src := agCap .d r ags, dst := agCap .d r dag, srcOid := roleOid s u (agCap .d r ags).oid, dstOid := roleOid s u (agCap .d r dag).oid, srcA := agAddr .d r ags, dstA := agAddr .d r dag
    srcDims := dims false, dstDims := dims true, nd := nd, sf := sf, df := df
    mask := d.mask.getD 0, red := d.red, bind := d.bind.map (·.1), stamp := d.stamp, cvt := d.cvt, lfsr := u.r.lfsrd }

/-- Count the uses of the generators that the word names, one use each (R242). -/
def useAgs (u : Unit) (ags dag : Nat) : Unit := if ags = dag then u.useAg .d ags else (u.useAg .d ags).useAg .d dag

def Unit.numberD (u : Unit) : Unit × Nat :=
  let n := u.cpl.issued.get .d + 1
  ({ u with cpl := { u.cpl with issued := u.cpl.issued.set .d n } }, n)

def prodExt (ds : List Dim) : Nat := ds.foldl (fun n d => n * d.extent) 1

/-! ## Its start (R69, R249, R403) -/

/-- The tick at which a copy starts: the later of its own and the first of the leased Ladle step's START slot, none while the step is frozen. -/
def copyTick (s : State) (u : Unit) (own : Option Int) : Option Int :=
  let t := own.getD 0
  match u.ladle.bind fun l => stepAt s l.handle l.step with
  | none => some t
  | some st => if st.st == .frozen then none else some (max t ((64 * (match st.rmd with
      | some r => r.start
      | none => st.start) : Nat) : Int))

/-- The copy may start now. -/
def startDue (s : State) (u : Unit) (own : Option Int) : Bool := (copyTick s u own).any fun t => t ≤ (s.time : Int)

/-- What a copy that starts after the tick of its CPY.AT adds to the leased step's cause 1 (R316). -/
def countLate (s : State) (u : Unit) (own : Option Int) : State :=
  match u.ladle, own with
  | some l, some t => intrude s l 1 ((s.time : Int) - t).toNat
  | _, _ => s

/-- The access that finds no port to the module that holds its object (R367): the source's, the destination's or the stamp's. -/
def barredSide (s : State) (u : Unit) (c : CopyDesc) : Option Acc :=
  if barred s u c.srcOid then some (accOf s u c.src c.srcA false)
  else if barred s u c.dstOid then some (accOf s u c.dst c.dstA true)
  else match c.stamp with
    | some (p, a) => if barred s u (roleOid s u p.oid) then some (accOf s u p a true) else none
    | none => none

/-- The effect of a DGO at issue. One whose tick has come starts with it. -/
def dgoEffect (ags agd : BitVec 3) (nd sf df : BitVec 4) (s : State) (u : Unit) (r : Strand) : Res :=
  let k := s.cur.1
  let d := u.setup
  let c := copyDesc s u r ags.toNat agd.toNat (nd.toNat + 1) sf.toNat df.toNat d
  let lvl := (levelOf s u.ctx c.dst.oid).getD 4
  let sacc := accOf s u c.src c.srcA false
  let dacc := accOf s u c.dst c.dstA true
  if isTwice s u && d.red.isSome then .trap s 0x07 0 Acc.none
  else if u.ops.any fun o => o.str = .d && waitingCopy o then .wait s u .issueTick
  else if prodExt c.srcDims != prodExt c.dstDims then .trap s 0x07 0 Acc.none
  else if !c.src.tag then .trap s 0x0A 1 sacc
  else if !hasRights c.src.rights rR then .trap s 0x0A 2 sacc
  else if !c.dst.tag then .trap s 0x0A 1 dacc
  else if !hasRights c.dst.rights (if d.red.isSome then rW + rA else rW) then .trap s 0x0A 2 dacc
  else
    let g := geoOf s k u c
    if setupBad s k u d agd.toNat lvl g.dst || denseBad g.zs c.srcDims || denseBad g.zd c.dstDims ||
        (match d.red with
         | some (rop, _) => reduceBad lvl g rop
         | none => false) then .trap s 0x07 0 Acc.none
    else
      match copySide s u g.src g.fs g.raw g.zs rR g.ps, copySide s u g.dst g.fd g.raw g.zd rW g.pd, stampFault s u d.stamp with
      | some (code, kind), _, _ => .trap s code kind sacc
      | none, some (code, kind), _ => .trap s code kind dacc
      | none, none, some (code, kind) =>
        (match d.stamp with
         | some (cp, a) => .trap s code kind (accOf s u cp a true)
         | none => .trap s code kind Acc.none)
      | none, none, none =>
        if blocksBad g then .trap s 0x07 0 Acc.none
        else
        match barredSide s u c with
        | some acc => .trap s 0x21 0 acc
        | none =>
          let own := c.mask = 0 || c.mask.getLsbD (groveOf k)
          let wr := if own then tilesOf s k u g.dst g.zd (!g.raw) g.pd else []
          let rd := (tilesOf s k u g.src g.zs (!g.raw) g.ps).filter fun t => !wr.elem t
          if tileWriteFault u wr then .trap s 0x0A 2 dacc
          else if !tilesReady u rd wr then .wait s u .tile
          else
            let n := (if splits s u g.src g.zs (!g.raw) g.ps then 1 else 0) + if splits s u g.dst g.zd (!g.raw) g.pd then 1 else 0
            countSplits s u (min n 1) fun u =>
              let dag := match d.bind with
                | some (_, ag) => ag
                | none => agd.toNat
              match (claimTiles (useAgs u ags.toNat dag) rd).numberD with
              | (u, num) =>
                let o : Op := { str := .d, num := num, word := strandWord u .d, flags := 0, readsT := rd, writesT := wr, poison := none, held := false
                                body := .d { desc := c, startAt := d.at_, started := startDue s u d.at_, next := 0, block := none, lfsr := none
                                             fill := d.fill, refill := false } }
                let u := { u with ops := u.ops ++ [o], setup := DSetup.none
                                  building := if d.fill then u.building ++ [c] else u.building
                                  sealed := u.sealed || d.red.isSome }
                .ok (if startDue s u d.at_ then countLate s u d.at_ else s) u

def execDgo (ags agd : BitVec 3) (nd sf df : BitVec 4) (s : State) : Out := eng s .d 1 (dgoEffect ags agd nd sf df)

end Sys2Proof.Machine
end

