-- ==== Sys2Proof/Machine/Griddle.lean ====
section
/-! DEFINITION. The Griddle (R183 to R193) and the Whisk (R194): their instructions, and what each does when it
completes. -/

namespace Sys2Proof.Machine

/-! ## Formats (Table 7.3) -/

/-- The float family: FP8, FP6 and FP4 plain or B48, BF16, FP16, and B48-INT8. -/
def floatFamily (i : Info) : Bool :=
  if i.b48 then b48Code i.fmt else i.fmt = 2 || i.fmt = 3 || (4 ≤ i.fmt && i.fmt ≤ 8)
/-- The integer family: INT4 and INT8, plain. -/
def intFamily (i : Info) : Bool := !i.b48 && (i.fmt = 9 || i.fmt = 10)

def plainIs (i : Info) (fmts : List Nat) : Bool := !i.b48 && fmts.elem i.fmt

/-- A typed use of an operand in its own format. -/
def useOf (o : Operand) (n : Nat) : Use := ⟨o, n, o.first.width, true, true⟩

/-- Every bank that holds n elements of an operand has one of these plain formats, or is of one of the families. -/
def Operand.plain (o : Operand) (n : Nat) (fmts : List Nat) : Bool := o.every n o.first.width (plainIs · fmts)
def Operand.float (o : Operand) (n : Nat) : Bool := o.every n o.first.width floatFamily
def Operand.int (o : Operand) (n : Nat) : Bool := o.every n o.first.width intFamily

/-- The plan of a command with one operand, read. -/
def planOne (f : Operand → Plan) : List Operand → Plan
  | [] => Plan.bare
  | o :: _ => f o
def planTwo (f : Operand → Operand → Plan) : List Operand → Plan
  | a :: b :: _ => f a b
  | _ => Plan.bare

/-! ## B tiles and A tiles (R185, R187) -/

/-- One block of 48 elements: the scale exponent of each, none for the scale code 0xFF, and its values. The elements of a block share their scale but
where it crosses into a bank with another SBASE or DBASE (R118). -/
structure Blk where
  es : List (Option Int)
  vs : List Val

def scaleExp (sc : Nat) : Option Int := if sc = 255 then none else some ((sc : Int) - 127)

def blkOf (scs : List Nat) (codes : List (Nat × Nat)) : Blk :=
  { es := codes.mapIdx fun i _ => scaleExp (scs.getD i 127), vs := codes.map fun c => ((Fmt.ofCode c.1).decode c.2).1 }

/-- The rows or columns of a tile, 8 blocks each: 384 elements and their scale codes. -/
def tileBlocks (fmt : Nat) (fmts codes scales : List Nat) (n : Nat) : List (List Blk) :=
  let scs := pieces 48 (8 * n) scales
  let bs := (pieces 48 (8 * n) (withFmts fmt fmts codes)).mapIdx fun j c => blkOf (scs.getD j []) c
  pieces 8 n bs

/-- The pending buffer becomes active (R187). -/
def EngMem.activate (m : EngMem) : EngMem :=
  match m.bPend with
  | some b => { m with bAct := some b, bPend := none }
  | none => m
def EngMem.activateW (m : EngMem) : EngMem :=
  match m.wPend with
  | some b => { m with wAct := some b, wPend := none }
  | none => m

/-- The buffer that the next multiply uses. -/
def EngMem.nextB (m : EngMem) : Option BTile := m.bPend.orElse fun _ => m.bAct

/-! ## The float path (R188) -/

def valInf : Val → Option Bool
  | .inf s => some s
  | .nan | .fin _ _ _ => none

/-- combine_inf: a special value with the infinite products of a block; both signs give NaN with IV. -/
def combineInf (sp : Option Nat) (infs : List Bool) : Option Nat × Flags :=
  infs.foldl (fun acc s => match acc.1 with
    | none => (some (fp32.signBit s + fp32.infCode), acc.2)
    | some c =>
      if c = fp32.nanCode || c = fp32.signBit s + fp32.infCode then acc else (some fp32.nanCode, acc.2 ||| Fl.iv)) (sp, 0)

/-- A finite product on the grid of X, truncated toward zero, and whether bits were discarded. -/
def onGrid (x : Int) : Val → Int × Bool
  | .fin s m e =>
    let sh := e - (x - 24)
    let q := if 0 ≤ sh then m * 2 ^ sh.toNat else m / 2 ^ (-sh).toNat
    (if s then -(q : Int) else q, decide (sh < 0) && m % 2 ^ (-sh).toNat != 0)
  | .nan | .inf _ => (0, false)

def windowMax : Int := 2 ^ 31 - 1

/-- One block of one element, its products with their scale exponents: the window, its flags, and whether it saturated. Where rows of Table 7.5
overlap (log 91), 0 × ∞ sets IV beside a NaN element, a scale of 0xFF leaves the block without flags, and an interval that is NaN sets none for
later infinities. -/
def winStep (es : List (Option Int)) (ps : List (Val × Flags)) (w : Win) : Win × Flags × Bool :=
  if es.any (·.isNone) then ({ w with special := some fp32.nanCode }, 0, false)
  else
    let iv := ps.foldl (fun f p => f ||| p.2) 0
    let qs := List.zipWith (fun (e : Option Int) (p : Val × Flags) => match p.1 with
      | .fin s m x => Val.fin s m (x + e.getD 0)
      | v => v) es ps
    if qs.any Val.isNan then ({ w with special := some fp32.nanCode }, iv, false)
    else
      let infs := qs.filterMap valInf
      if w.special.isSome || !infs.isEmpty then
        match combineInf w.special infs with
        | (sp, fl) => ({ w with special := sp }, fl, false)
      else
        match w.x.orElse fun _ => topExp qs with
        | none => (w, 0, false)
        | some x =>
          let gs := qs.map (onGrid x)
          let t := w.w + gs.foldl (fun a g => a + g.1) 0
          let nx := Fl.only (gs.any (·.2)) Fl.nx
          if windowMax < t then ({ w with x := some x, w := windowMax }, nx, true)
          else if t < -windowMax then ({ w with x := some x, w := -windowMax }, nx, true)
          else ({ w with x := some x, w := t }, nx, false)

/-- Products of two blocks with their combined scale exponents. -/
def blkMul (a b : Blk) : List (Option Int) × List (Val × Flags) :=
  (List.zipWith (fun (x y : Option Int) => x.bind fun x => y.map (x + ·)) a.es b.es, List.zipWith Val.mul a.vs b.vs)

/-- One element over the blocks of a command: `c` blocks since the last promotion, one every `i`. -/
def elemWalk (i : Nat) : Nat → List Blk → List Blk → Nat → Win → Flags → Bool → Nat × Win × Flags × Bool
  | c, a :: as, b :: bs, acc, w, fl, ov =>
    match winStep (blkMul a b).1 (blkMul a b).2 w with
    | (w, f1, o1) =>
      if c + 1 = i then
        match promote acc w with
        | (acc, f2) => elemWalk i 0 as bs acc Win.empty (fl ||| f1 ||| f2) (ov || o1)
      else elemWalk i (c + 1) as bs acc w (fl ||| f1) (ov || o1)
  | _, _, _, acc, w, fl, ov => (acc, w, fl, ov)

/-! ## The integer path (R190) -/

def valInt : Val → Int
  | .fin s m e => let n := (m : Int) * 2 ^ e.toNat; if s then -n else n
  | .nan | .inf _ => 0

def dotInt (as bs : List Val) : Int := (List.zipWith (fun a b => valInt a * valInt b) as bs).foldl (· + ·) 0

def blkVals (l : List Blk) : List Val := l.flatMap (·.vs)

/-- acc + Σ modulo 2^32. -/
def addMod (acc : Nat) (t : Int) : Nat := intCode (acc + t) 32

/-! ## The check column (R192) -/

/-- A row or column with an element that is a NaN or an infinity, whatever its scale. -/
def hasSpecial (l : List Blk) : Bool := (blkVals l).any fun v => v.isNan || (valInf v).isSome

/-! ## A multiply -/

/-- What a multiply leaves: the run, its flags, and whether a window saturated. -/
def multiply (i : Nat) (r : Run) (as bs : List (List Blk)) : Run × Flags × Bool :=
  if r.int then
    ({ r with vals := List.zipWith (fun row a => row32 (List.zipWith (fun x b => addMod x (dotInt (blkVals a) (blkVals b))) (lanes32 row) bs)) r.vals as },
      0, false)
  else
    let l := (List.zip r.vals as).mapIdx fun n p =>
      (List.zip (lanes32 p.1) bs).mapIdx fun j q =>
        elemWalk i r.blocks p.2 q.2 q.1 (Tab.getD Win.empty r.wins (128 * n + j)) 0 false
    let flat := l.flatten
    ({ r with
       blocks := (r.blocks + 8) % i
       vals := l.map fun row => row32 (row.map (·.1))
       wins := (flat.mapIdx fun n x => (n, x.2.1)).filter fun e => e.2 != Win.empty },
      flat.foldl (fun f x => f ||| x.2.2.1) 0, flat.any fun x => x.2.2.2)

/-- Add a perturbation to the value of an element (R193). -/
def perturb (r : Run) (row col : Nat) (v : Word) : Run × Flags :=
  let old := r.vals.getD row 0
  let a := laneOf old 32 col
  let n := if r.int then ((a + v.toNat) % 2 ^ 32, (0 : Flags))
    else
      match Val.add (fp32.decode a) (f32Val v) .rne with
      | (x, f1) =>
        match fp32.encode x .rne false 0 with
        | (c, f2) => (c, f1 ||| f2)
  ({ r with vals := r.vals.set row (row32 ((lanes32 old).set col n.1)) }, n.2)

/-- A multiply completes: the perturbation is consumed, the check column compared (R192, R391), the rows written, and
status and causes follow. -/
def doMultiply (s : State) (k : Nat) (u : Unit) (m : MOp) (fresh : Option (List Row)) (acc ta n : Nat) : Done :=
  let e := updEng s m.eng EngMem.activate
  let mem := (engAt e m.eng).mem
  match mem.bAct with
  | none => .stall s
  | some b =>
    let o := operandOf s k u ta 0
    withOperand e k u o (384 * n) o.first.width fun s codes scales p =>
      let int := intFamily o.first
      let as := tileBlocks o.first.fmt (o.fmts (384 * n) o.first.width) codes scales n
      let bs := tileBlocks b.fmt b.fmts b.elems b.scales 128
      let run0 : Run := match fresh, mem.run with
        | none, some r => r
        | none, none => { acc := acc, rows := n, int := int, blocks := 0, vals := m.rows, wins := [] }
        | some rows, _ => { acc := acc, rows := n, int := int, blocks := 0, vals := rows, wins := [] }
      match multiply (mem.interval + 1) run0 as bs with
      | (r, fl, ov) =>
        let hit := mem.pert.filter fun q => q.1 < n
        let pr := match hit with
          | some (row, col, v) => perturb r row col v
          | none => (r, 0)
        let bad := match hit with
          | some (row, _, v) => v != 0 && !hasSpecial (as.getD row []) && !bs.any hasSpecial
          | none => false
        match injected s (1 + 16 * m.eng.g + 256 * m.eng.i) with
        | (s, inj) =>
        let bad := bad || inj
        let s := updEng s m.eng fun x => { x with run := some pr.1, pert := none }
        let s := engineRows s k acc pr.1.vals
        let s := updUnit s k fun u => { u with mstat := vmodify u.mstat m.slot fun x =>
          { accovf := x.accovf || ov, ovfm := if ov then 1 else 0, chkf := x.chkf || bad
            pdisc := x.pdisc || (mem.pert.isSome && hit.isNone) } }
        let ovt := bit (cfgRead .m (u.cpl.mactive.toList.getD m.slot []) 0x00) 0
        .ok s (fl ||| pr.2) p ((if bad then [(0x30, 3, inj)] else []) ++ if ov && ovt then [(0x10, 0, false)] else [])

/-! ## The instructions -/

/-- The plan of a multiply: A and the buffer it will use are of one family, and a new run closes the open one. -/
def multPlan (fresh : EngMem → Bool → Bool) (acc n : Nat) (_s : State) (_u : Unit) (m : EngMem) (_cfg : Tab Word) (os : List Operand) : Plan :=
  planOne (fun o =>
    let fam := match m.nextB with
      | some b => if floatFamily ⟨b.fmt, b.b48, 0, 0⟩ then o.float (384 * n) else o.int (384 * n)
      | none => false
    let new := fresh m (intFamily o.first)
    { Plan.bare with rd := [useOf o (384 * n)], bad := !fam, out := acc + n, close := new
                     rows := if new then range' acc (acc + n) else [] }) os

/-- An MMAC starts a new run: no open run of these rows and family. -/
def newRun (acc n : Nat) (m : EngMem) (int : Bool) : Bool :=
  match m.run with
  | some r => !(r.acc = acc && r.rows = n && r.int = int)
  | none => true

def mlbPlan (_s : State) (_u : Unit) (_m : EngMem) (_cfg : Tab Word) : List Operand → Plan :=
  planOne fun o => { Plan.bare with rd := [useOf o 49152], bad := !(o.float 49152 || o.int 49152) }
/-- MZA and MPROM close the slot's run (R189). -/
def closePlan (_s : State) (_u : Unit) (_m : EngMem) (_cfg : Tab Word) (_os : List Operand) : Plan := { Plan.bare with close := true }
def mlaPlan (n : Nat) (_s : State) (_u : Unit) (_m : EngMem) (_cfg : Tab Word) : List Operand → Plan :=
  planOne fun o => { Plan.bare with rd := [useOf o (128 * n)], bad := !o.plain (128 * n) [0, 1, 13], close := true }
def mmulPlan (acc n : Nat) (s : State) (u : Unit) (m : EngMem) (cfg : Tab Word) (os : List Operand) : Plan :=
  { multPlan (fun _ _ => true) acc n s u m cfg os with rows := [] }
def mmacPlan (acc n : Nat) : State → Unit → EngMem → Tab Word → List Operand → Plan := multPlan (fun m int => newRun acc n m int) acc n
def mpertPlan (_s : State) (_u : Unit) (_m : EngMem) (_cfg : Tab Word) (_os : List Operand) : Plan := Plan.bare

def execMlb (ls : BitVec 2) (tb : BitVec 4) (s : State) : Out :=
  engineCmd (.mlb tb.toNat) ls .griddle 0 0 [(tb.toNat, 0)] mlbPlan 1 s
def execMza (ls : BitVec 2) (acc : BitVec 8) (n : BitVec 7) (s : State) : Out :=
  engineCmd (.mza acc.toNat (n.toNat + 1)) ls .griddle acc.toNat (n.toNat + 1) [] closePlan 1 s
def execMla (ls : BitVec 2) (acc : BitVec 8) (ta : BitVec 4) (n : BitVec 7) (s : State) : Out :=
  engineCmd (.mla acc.toNat ta.toNat (n.toNat + 1)) ls .griddle acc.toNat (n.toNat + 1) [(ta.toNat, 0)] (mlaPlan (n.toNat + 1)) 1 s
def execMmul (ls : BitVec 2) (acc : BitVec 8) (ta : BitVec 4) (n : BitVec 7) (s : State) : Out :=
  engineCmd (.mmul acc.toNat ta.toNat (n.toNat + 1)) ls .griddle acc.toNat (n.toNat + 1) [(ta.toNat, 0)]
    (mmulPlan acc.toNat (n.toNat + 1)) 1 s
def execMmac (ls : BitVec 2) (acc : BitVec 8) (ta : BitVec 4) (n : BitVec 7) (s : State) : Out :=
  engineCmd (.mmac acc.toNat ta.toNat (n.toNat + 1)) ls .griddle acc.toNat (n.toNat + 1) [(ta.toNat, 0)]
    (mmacPlan acc.toNat (n.toNat + 1)) 1 s
def execMprom (ls : BitVec 2) (n : BitVec 6) (s : State) : Out :=
  engineCmd (.mprom (n.toNat + 1)) ls .griddle 0 0 [] closePlan 1 s
def execMpert (ls : BitVec 2) (row col : BitVec 7) (v : Word) (s : State) : Out :=
  engineCmd (.mpert row.toNat col.toNat v) ls .griddle 0 0 [] mpertPlan 2 s

/-! ## The Whisk (R194) -/

def whiskPlan (read : Bool) (acc n : Nat) (_s : State) (_u : Unit) (m : EngMem) (_cfg : Tab Word) (os : List Operand) : Plan :=
  planOne (fun o =>
    { Plan.bare with rd := [useOf o (2048 * n)], bad := !o.plain (2048 * n) [9, 10, 11] || (m.wPend.isNone && m.wAct.isNone)
                     out := acc + n, rows := if read then range' acc (acc + n) else [] }) os

def wldPlan (_s : State) (_u : Unit) (_m : EngMem) (_cfg : Tab Word) : List Operand → Plan :=
  planOne fun o => { Plan.bare with rd := [useOf o 262144], bad := !o.plain 262144 [14] }

def execWld (ls : BitVec 2) (tb : BitVec 4) (s : State) : Out :=
  engineCmd (.wld tb.toNat) ls .whisk 0 0 [(tb.toNat, 0)] wldPlan 1 s
def execWmul (ls : BitVec 2) (acc : BitVec 8) (ta : BitVec 4) (n : BitVec 7) (s : State) : Out :=
  engineCmd (.wmul acc.toNat ta.toNat (n.toNat + 1)) ls .whisk acc.toNat (n.toNat + 1) [(ta.toNat, 0)]
    (whiskPlan false acc.toNat (n.toNat + 1)) 1 s
def execWmac (ls : BitVec 2) (acc : BitVec 8) (ta : BitVec 4) (n : BitVec 7) (s : State) : Out :=
  engineCmd (.wmac acc.toNat ta.toNat (n.toNat + 1)) ls .whisk acc.toNat (n.toNat + 1) [(ta.toNat, 0)]
    (whiskPlan true acc.toNat (n.toNat + 1)) 1 s

/-! ## Completions -/

/-- The lease slot keeps the tile region of its last load (R318). -/
def noteLoad (s : State) (k ls : Nat) (cap : Cap) : State :=
  updUnit s k fun u => { u with leases := vmodify u.leases ls fun l => l.map fun l => { l with load := some cap } }

/-- Load a B tile into a Griddle's pending buffer. -/
def loadB (s : State) (k ls : Nat) (u : Unit) (e : EngineId) (o : Operand) : Done :=
  withOperand s k u o 49152 o.first.width fun s codes scales p =>
    .ok (noteLoad (updEng s e fun x => { x with bPend := some { fmt := o.first.fmt, fmts := o.fmts 49152 o.first.width, b48 := o.first.b48, elems := codes, scales := scales } })
      k ls o.sd.cap) 0 p []

def doMlb (s : State) (k : Nat) (u : Unit) (m : MOp) (tb : Nat) : Done := loadB s k m.slot u m.eng (operandOf s k u tb 0)

def doMza (s : State) (k acc n : Nat) : Done := putRows s k acc (List.replicate n (List.replicate 128 0)) 0 none

def doMla (s : State) (k : Nat) (u : Unit) (acc ta n : Nat) : Done :=
  let o := operandOf s k u ta 0
  withOperand s k u o (128 * n) 32 fun s codes _ p => putRows s k acc (pieces 128 n codes) 0 p

def doMprom (s : State) (m : MOp) (i : Nat) : Done := .ok (updEng s m.eng fun x => { x with interval := i - 1 }) 0 none []
def doMpert (s : State) (m : MOp) (row col : Nat) (v : Word) : Done :=
  .ok (updEng s m.eng fun x => { x with pert := some (row, col, v) }) 0 none []

/-- Load weights into a Whisk's pending buffer: reserved codes set TR. -/
def loadW (s : State) (k ls : Nat) (u : Unit) (e : EngineId) (o : Operand) : Done :=
  withOperand s k u o 262144 2 fun s codes _ p =>
    .ok (noteLoad (updEng s e fun x => { x with wPend := some codes }) k ls o.sd.cap) (Fl.only (codes.any (· == 2)) Fl.tr) p []

def doWld (s : State) (k : Nat) (u : Unit) (m : MOp) (tb : Nat) : Done := loadW s k m.slot u m.eng (operandOf s k u tb 0)

def doWhisk (s : State) (k : Nat) (u : Unit) (m : MOp) (acc ta n : Nat) (start : List Row) : Done :=
  let o := operandOf s k u ta 0
  let s := updEng s m.eng EngMem.activateW
  match (engAt s m.eng).mem.wAct with
  | none => .stall s
  | some ws =>
    withOperand s k u o (2048 * n) o.first.width fun s codes _ p =>
      let cols := pieces 2048 128 (valuesOf 14 [] false ws []).1
      let rows := pieces 2048 n (o.values (2048 * n) codes []).1
      putRows s k acc (rows.mapIdx fun i a => cols.mapIdx fun j c => addMod (laneOf (start.getD i 0) 32 j) (dotInt a c)) 0 p

end Sys2Proof.Machine
end

