-- ==== Sys2Proof/Machine/VaOps.lean ====
section
/-! DEFINITION. The VA instructions (R150 to R175). A result is formed at issue from the rows as they stand,
after the waits of R154, and written at the event VA_WRITEBACK. -/

namespace Sys2Proof.Machine

/-! ## The course of a VA word -/

/-- What a form computes from: element type, configuration, enabled lanes, source rows, and $lfsrv. -/
structure VaIn where
  et : Nat
  cfg : Tab Word
  mask : BitVec 256
  rows : List Row
  lfsr : Word

/-- Lanes of the result rows, flags, and $lfsrv afterwards. -/
structure VaOut where
  lo : List Nat
  hi : Option (List Nat)
  fl : Flags
  lfsr : Word

/-- A form: which element types it takes, whether it reads vd, writes two rows, writes every lane, is a
compare, what other limits it has, and its computation. `rows` are the sources, with vd last when read. -/
structure VaForm where
  types : Nat → Bool
  rdVd : Bool
  two : Bool
  every : Bool
  cmp : Bool
  ok : Nat → Tab Word → Bool
  f : VaIn → VaOut

/-- A lane of a source. -/
def VaIn.at (x : VaIn) (j i : Nat) : Nat := laneOf (x.rows.getD j 0) (laneBits x.et) i
def VaIn.on (x : VaIn) (i : Nat) : Bool := x.mask.getLsbD i

/-- Rows with a write-back pending, and predicates. -/
def pendingRows (u : Unit) : List Nat := u.ops.flatMap fun o => match o.body with
  | .va v => v.rows.map (·.1)
  | .vl _ | .vs _ | .m _ | .d _ => []
def pendingPreds (u : Unit) : List Nat := u.ops.flatMap fun o => match o.body with
  | .va v => v.preds.map (·.1)
  | .vl _ | .vs _ | .m _ | .d _ => []

/-- The operand buffer after an instruction: entries of the last two positions (R61). -/
def ageBuf (old : List (Src × Nat)) (held : List Src) : List (Src × Nat) :=
  (held.map fun x => (x, 0)) ++ (old.filter fun e => e.2 < 1 && !held.elem e.1).map fun e => (e.1, e.2 + 1)

/-- The latch entry (R151). -/
def latchEntry (fm : VaForm) (et : Nat) (mask : BitVec 256) (o : VaOut) : Row :=
  rowOf (laneBits et) (o.lo.mapIdx fun i v =>
    if fm.every || mask.getLsbD i then (if fm.cmp then (if v = 1 then 2 ^ laneBits et - 1 else 0) else v) else 0)

/-- What is written back: rows or a predicate; nothing under D or with no lane enabled (R156, R165). -/
def backOf (fm : VaForm) (x : Bool) (et row0 d : Nat) (mask old : BitVec 256) (o : VaOut) : VaOp :=
  let lb := laneBits et
  if x || (!fm.every && !anyLane et mask) then { rows := [], preds := [] }
  else if fm.cmp then
    { rows := []
      preds := [(d, BitVec.ofNat 256 ((List.range 256).foldl (fun n i =>
        if (if i < width et && mask.getLsbD i then decide (o.lo.getD i 0 = 1) else old.getLsbD i) then n + 2 ^ i else n) 0))] }
  else
    let m := if fm.every then BitVec.allOnes 256 else mask
    { rows := (row0 + d, rowOf lb o.lo, m, lb) :: (match o.hi with
        | some h => [(row0 + d + 1, rowOf lb h, m, lb)]
        | none => [])
      preds := [] }

/-- Issue a VA word: the checks of R149, R159, R160, R337, R384 and R293, the waits of R154, the pops and the
number of R155, and the computation. `d` is vd, or the predicate of a compare. -/
def vaWord (fm : VaForm) (x : Bool) (d : Nat) (srcs : List (Src × Bool)) (vp : PReg) (s : State) : Out :=
  eng s .va 1 fun s u r =>
    let k := s.cur.1
    let et := etypeOf .va r.cfg
    let row0 := row0Of .va r.cfg
    let names := srcs.map (·.1) ++ if fm.rdVd then [Src.v (BitVec.ofNat 6 d)] else []
    let reads := names.flatMap (srcRows row0)
    let writes := if fm.cmp then [] else (row0 + d) :: if fm.two then [row0 + d + 1] else []
    let qs := names.flatMap srcSq
    let busy := pendingRows u
    let mask := u.vpreg vp
    if !fm.types et || (fm.two && d = 63) || !fm.ok et r.cfg || rowsOut s u (reads ++ writes) then .trap s 0x07 0 Acc.none
    else if (reads ++ writes).any busy.elem || (pendingPreds u).elem vp.toNat || (fm.cmp && (pendingPreds u).elem d) then
      .wait s u .control
    else if !sqReady u qs then .wait s u .streamReg
    else if reads.any (unwritten u) then .trap s 0x11 0 Acc.none
    else if slips u .va then .trap s 0x12 0 Acc.none
    else
      let u := if u.groupSwitch then { u with latches := [], opbuf := [], groupSwitch := false } else u
      match readSrcs k row0 et r.rcd.push names s u with
      | (s, u, rows, poison) =>
        let o := fm.f { et := et, cfg := r.cfg, mask := mask, rows := rows, lfsr := u.r.lfsrv }
        match u.number .va with
        | (u, n) =>
          let op : Op := { str := .va, num := n, word := strandWord u .va, flags := if fm.every || anyLane et mask then o.fl else 0, readsT := [], writesT := [],
                           poison := poison, held := false, body := .va (backOf fm x et row0 d mask (u.vpreg (BitVec.ofNat 3 d)) o) }
          .ok s { u with ops := u.ops ++ [op], latches := (latchEntry fm et mask o :: u.latches).take 4
                         opbuf := ageBuf u.opbuf ((srcs.filter (·.2)).map (·.1)), r := { u.r with lfsrv := o.lfsr } }

/-! ## Element-wise forms -/

/-- A form that computes lane by lane: flags of enabled lanes alone. -/
def lanewise (rdVd : Bool) (types : Nat → Bool) (f : VaIn → Nat → Nat × Flags) : VaForm :=
  { types := types, rdVd := rdVd, two := false, every := false, cmp := false, ok := fun _ _ => true
    f := fun x =>
      let l := (List.range (width x.et)).map (f x)
      { lo := l.map (·.1), hi := none, lfsr := x.lfsr
        fl := (l.mapIdx fun i p => if x.on i then p.2 else 0).foldl (· ||| ·) 0 } }

def anyType : Nat → Bool := fun _ => true
def floatType : Nat → Bool := fun et => et != 1

/-- RND of the strand. -/
def VaIn.rnd (x : VaIn) : Rnd := Rnd.ofCode (BitVec.ofNat 3 (cfgRead .va x.cfg 2).toNat)

/-- Round an exact result to the element type. -/
def VaIn.round (x : VaIn) (v : Val × Flags) : Nat × Flags :=
  match (etFloat x.et).encode v.1 x.rnd false 0 with
  | (c, f) => (c, v.2 ||| f)

/-- The value of a lane of a source. -/
def VaIn.val (x : VaIn) (j i : Nat) : Val := (etFloat x.et).decode (x.at j i)

/-- Arithmetic: exact in the floating-point types, modulo 2^32 in INT32 (R161, R162). -/
def arith (rdVd : Bool) (fl : VaIn → Nat → Val × Flags) (int : Nat → Nat → Nat → Int) : VaForm :=
  lanewise rdVd anyType fun x i =>
    if x.et = 1 then (intCode (int (x.at 0 i) (x.at 1 i) (x.at 2 i)) 32, 0) else x.round (fl x i)

/-- Bits: no flag, whatever the type. -/
def bitwise (f : VaIn → Nat → Nat) : VaForm := lanewise false anyType fun x i => (f x i, 0)

def binary (fm : VaForm) (x : Bool) (vd : BitVec 6) (a b : Src) (vp : PReg) (ha hb : Bool) (s : State) : Out :=
  vaWord fm x vd.toNat [(a, ha), (b, hb)] vp s
def unary (fm : VaForm) (x : Bool) (vd : BitVec 6) (a : Src) (vp : PReg) (ha : Bool) (s : State) : Out :=
  vaWord fm x vd.toNat [(a, ha)] vp s

def execVadd (x : Bool) (vd : BitVec 6) (a b : Src) (vp : PReg) (ha hb : Bool) (s : State) : Out :=
  binary (arith false (fun x i => Val.add (x.val 0 i) (x.val 1 i) x.rnd) fun a b _ => a + b) x vd a b vp ha hb s
def execVsub (x : Bool) (vd : BitVec 6) (a b : Src) (vp : PReg) (ha hb : Bool) (s : State) : Out :=
  binary (arith false (fun x i => Val.add (x.val 0 i) (x.val 1 i).neg x.rnd) fun a b _ => (a : Int) - b) x vd a b vp ha hb s
def execVmul (x : Bool) (vd : BitVec 6) (a b : Src) (vp : PReg) (ha hb : Bool) (s : State) : Out :=
  binary (arith false (fun x i => Val.mul (x.val 0 i) (x.val 1 i)) fun a b _ => a * b) x vd a b vp ha hb s
def execVfma (x : Bool) (vd : BitVec 6) (a b : Src) (vp : PReg) (ha hb : Bool) (s : State) : Out :=
  binary (arith true (fun x i => Val.fma (x.val 0 i) (x.val 1 i) (x.val 2 i) x.rnd) fun a b d => d + a * b) x vd a b vp ha hb s
def execVfnma (x : Bool) (vd : BitVec 6) (a b : Src) (vp : PReg) (ha hb : Bool) (s : State) : Out :=
  binary (arith true (fun x i => Val.fma (x.val 0 i).neg (x.val 1 i) (x.val 2 i) x.rnd) fun a b d => (d : Int) - a * b) x vd a b vp ha hb s

/-- The lesser or greater of two lanes (R163). -/
def minMaxLane (et : Nat) (less : Bool) (a b : Nat) : Nat :=
  if et = 1 then
    (if less then (if sxt 32 b < sxt 32 a then b else a) else (if sxt 32 a < sxt 32 b then b else a))
  else minMaxCode (etFloat et) less a b

def execVmin (x : Bool) (vd : BitVec 6) (a b : Src) (vp : PReg) (ha hb : Bool) (s : State) : Out :=
  binary (bitwise fun x i => minMaxLane x.et true (x.at 0 i) (x.at 1 i)) x vd a b vp ha hb s
def execVmax (x : Bool) (vd : BitVec 6) (a b : Src) (vp : PReg) (ha hb : Bool) (s : State) : Out :=
  binary (bitwise fun x i => minMaxLane x.et false (x.at 0 i) (x.at 1 i)) x vd a b vp ha hb s
def execVclamp (x : Bool) (vd : BitVec 6) (a b : Src) (vp : PReg) (ha hb : Bool) (s : State) : Out :=
  binary { bitwise (fun x i => minMaxLane x.et true (minMaxLane x.et false (x.at 2 i) (x.at 0 i)) (x.at 1 i)) with rdVd := true }
    x vd a b vp ha hb s

/-- |a| of a lane (R163). -/
def absLane (et a : Nat) : Nat :=
  if et = 1 then (if a < 2 ^ 31 then a else 2 ^ 32 - a)
  else if ((etFloat et).decode a).isNan then (etFloat et).nanCode else a % 2 ^ (laneBits et - 1)

def execVabs (x : Bool) (vd : BitVec 6) (a : Src) (vp : PReg) (ha : Bool) (s : State) : Out :=
  unary (bitwise fun x i => absLane x.et (x.at 0 i)) x vd a vp ha s
def execVmov (x : Bool) (vd : BitVec 6) (a : Src) (vp : PReg) (ha : Bool) (s : State) : Out :=
  unary (bitwise fun x i => x.at 0 i) x vd a vp ha s
def execVand (x : Bool) (vd : BitVec 6) (a b : Src) (vp : PReg) (ha hb : Bool) (s : State) : Out :=
  binary (bitwise fun x i => x.at 0 i &&& x.at 1 i) x vd a b vp ha hb s
def execVor (x : Bool) (vd : BitVec 6) (a b : Src) (vp : PReg) (ha hb : Bool) (s : State) : Out :=
  binary (bitwise fun x i => x.at 0 i ||| x.at 1 i) x vd a b vp ha hb s
def execVxor (x : Bool) (vd : BitVec 6) (a b : Src) (vp : PReg) (ha hb : Bool) (s : State) : Out :=
  binary (bitwise fun x i => x.at 0 i ^^^ x.at 1 i) x vd a b vp ha hb s

/-- The shift count of a lane (R164). -/
def VaIn.count (x : VaIn) (i : Nat) : Nat := x.at 1 i % laneBits x.et

def execVshl (x : Bool) (vd : BitVec 6) (a b : Src) (vp : PReg) (ha hb : Bool) (s : State) : Out :=
  binary (bitwise fun x i => (x.at 0 i <<< x.count i) % 2 ^ laneBits x.et) x vd a b vp ha hb s
def execVshr (x : Bool) (vd : BitVec 6) (a b : Src) (vp : PReg) (ha hb : Bool) (s : State) : Out :=
  binary (bitwise fun x i => if x.et = 1 then intCode (sxt 32 (x.at 0 i) / 2 ^ x.count i) 32 else x.at 0 i >>> x.count i)
    x vd a b vp ha hb s

/-- A compare (R165): 1 where the relation holds. `order` says that a NaN sets IV. -/
def compare (order : Bool) (int : Int → Int → Bool) (fl : Val → Val → Bool) : VaForm :=
  { lanewise false anyType fun x i =>
      if x.et = 1 then (if int (sxt 32 (x.at 0 i)) (sxt 32 (x.at 1 i)) then 1 else 0, 0)
      else (if fl (x.val 0 i) (x.val 1 i) then 1 else 0, Fl.only (order && ((x.val 0 i).isNan || (x.val 1 i).isNan)) Fl.iv) with
    cmp := true }

def execVceq (x : Bool) (d : PReg) (a b : Src) (vp : PReg) (ha hb : Bool) (s : State) : Out :=
  vaWord (compare false (fun a b => a = b) Val.eq) x d.toNat [(a, ha), (b, hb)] vp s
def execVclt (x : Bool) (d : PReg) (a b : Src) (vp : PReg) (ha hb : Bool) (s : State) : Out :=
  vaWord (compare true (fun a b => a < b) Val.lt) x d.toNat [(a, ha), (b, hb)] vp s
def execVcle (x : Bool) (d : PReg) (a b : Src) (vp : PReg) (ha hb : Bool) (s : State) : Out :=
  vaWord (compare true (fun a b => a ≤ b) fun a b => Val.lt a b || Val.eq a b) x d.toNat [(a, ha), (b, hb)] vp s

/-- VSEL (R166). -/
def execVsel (x : Bool) (vd : BitVec 6) (a b : Src) (vp : PReg) (ha hb : Bool) (s : State) : Out :=
  binary { bitwise (fun x i => if x.on i then x.at 0 i else x.at 1 i) with every := true } x vd a b vp ha hb s

/-- VPERM (R173). -/
def execVperm (x : Bool) (vd : BitVec 6) (a b : Src) (vp : PReg) (ha hb : Bool) (s : State) : Out :=
  binary (bitwise fun x i => x.at 0 (x.at 1 i % width x.et)) x vd a b vp ha hb s

/-! ## Conversion and quantisation (R167, R168) -/

/-- The kind of a target (Table 6.3): 0 identity, 1 grid, 2 retype; none for any other pair. -/
def cvtKind (et fmt : Nat) : Option Nat :=
  match et with
  | 0 => if fmt = 1 then some 0 else if fmt = 13 then some 2 else if 2 ≤ fmt && fmt ≤ 14 then some 1 else none
  | 1 => if fmt = 13 then some 0 else if fmt = 1 then some 2 else if (9 ≤ fmt && fmt ≤ 12) || fmt = 14 then some 1 else none
  | _ =>
    if fmt = (if et = 2 then 3 else 2) then some 0
    else if fmt = (if et = 2 then 2 else 3) then some 2
    else if (4 ≤ fmt && fmt ≤ 11) || fmt = 14 then some 1
    else none

/-- One lane of a conversion. -/
def cvtLane (et fmt : Nat) (mode : Rnd) (r a : Nat) : Nat × Flags :=
  let t := Fmt.ofCode fmt
  match cvtKind et fmt with
  | some 0 => (a, 0)
  | some 2 => convert (etFmt et) t a mode false r
  | _ =>
    match convert (etFmt et) t a mode false r with
    | (c, f) => (((etFmt et).encode (t.decode c).1 .rne false true 0).1, f)

/-- The generator after n steps. -/
def lfsrN : Nat → Word → Word
  | 0, w => w
  | n + 1, w => lfsrN n (lfsrStep w)

/-- The generator's states after each of n steps. -/
def lfsrs : Nat → Word → List Nat
  | 0, _ => []
  | n + 1, w => (lfsrStep w).toNat :: lfsrs n (lfsrStep w)

def cvtForm (fmt : Nat) (mode : Rnd) : VaForm :=
  { lanewise false (fun et => (cvtKind et fmt).isSome) (fun x i => cvtLane x.et fmt mode 0 (x.at 0 i)) with
    f := fun x =>
      let rs := if mode = .sr then lfsrs (width x.et) x.lfsr else []
      let l := (List.range (width x.et)).map fun i => cvtLane x.et fmt mode (rs.getD i 0) (x.at 0 i)
      { lo := l.map (·.1), hi := none, lfsr := if mode = .sr then lfsrN (width x.et) x.lfsr else x.lfsr
        fl := (l.mapIdx fun i p => if x.on i then p.2 else 0).foldl (· ||| ·) 0 } }

def execVcvt (x : Bool) (vd : BitVec 6) (a : Src) (fmt : BitVec 4) (rnd : BitVec 3) (vp : PReg) (ha : Bool) (s : State) : Out :=
  unary (cvtForm fmt.toNat (Rnd.ofCode rnd)) x vd a vp ha s

/-- A finite value times 2^n. -/
def Val.scale (v : Val) (n : Int) : Val :=
  match v with
  | .fin s m e => .fin s m (e + n)
  | .nan => .nan
  | .inf s => .inf s

/-- A rounding whose overflow is delivered by the first column of Table 4.5, whatever its mode. -/
def encodeFirst (t : Fmt) (v : Val) (mode : Rnd) (r : Nat) : Nat × Flags :=
  match t.encode v mode false false r with
  | (c, fl) => (match t, v with
    | .flt g, .fin s _ _ => if fl &&& Fl.of != 0 then g.overflow s .rne false else c
    | .flt _, .nan | .flt _, .inf _ | .int _ _, _ | .t2, _ | .raw, _ => c, fl)

/-- One lane of VQRES: quantised value, residual and flags. An exact zero takes the sign that Table 5.4 gives an addition: of y to nearest, of
the residual in RND (log 77). -/
def qresLane (x : VaIn) (r i : Nat) : Nat × Nat × Flags :=
  let w := cfgRead .va x.cfg 4
  let t := Fmt.ofCode (bits w 3 0)
  let sh := sxt 8 (bits w 15 8)
  let ff := etFloat x.et
  match Val.add (x.val 0 i) (x.val 1 i) .rne with
  | (.fin a m e, _) =>
    let y := Val.fin a m e
    match encodeFirst t (y.scale (-sh)) (Rnd.ofCode (BitVec.ofNat 3 (bits w 6 4))) r with
    | (qc, f1) =>
      match ff.encode ((t.decode qc).1.scale sh) x.rnd false 0 with
      | (v, f2) =>
        match Val.add y (ff.decode v).neg x.rnd with
        | (d, _) =>
          match ff.encode d x.rnd false 0 with
          | (v1, f3) => (v, v1, f1 ||| f2 ||| f3)
  | (_, f) => (ff.nanCode, ff.nanCode, f)

def qresForm : VaForm :=
  { types := floatType, rdVd := false, two := true, every := false, cmp := false
    ok := fun et cfg => cvtKind et (bits (cfgRead .va cfg 4) 3 0) = some 1
    f := fun x =>
      let sr := bits (cfgRead .va x.cfg 4) 6 4 = 5
      let rs := if sr then lfsrs (width x.et) x.lfsr else []
      let l := (List.range (width x.et)).map fun i => qresLane x (rs.getD i 0) i
      { lo := l.map (·.1), hi := some (l.map (·.2.1)), lfsr := if sr then lfsrN (width x.et) x.lfsr else x.lfsr
        fl := (l.mapIdx fun i p => if x.on i then p.2.2 else 0).foldl (· ||| ·) 0 } }

def execVqres (x : Bool) (vd : BitVec 6) (a b : Src) (vp : PReg) (ha hb : Bool) (s : State) : Out :=
  binary qresForm x vd a b vp ha hb s

/-! ## Exponent, logarithm, reciprocals (R169, Table 6.4) -/

def exp2Val : Val → Val × Flags
  | .nan => (.nan, 0)
  | .inf s => (if s then .fin false 0 0 else .inf false, 0)
  | .fin s m e => (if m = 0 then Val.ofInt 1 else exp2Fin s m e, 0)

def log2Val : Val → Val × Flags
  | .nan => (.nan, 0)
  | .inf s => if s then (.nan, Fl.iv) else (.inf false, 0)
  | .fin s m e => if m = 0 then (.inf true, Fl.dz) else if s then (.nan, Fl.iv) else (log2Fin m e, 0)

def rcpVal (a : Val) : Val × Flags := Val.div (Val.ofInt 1) a

/-- 1/√(m × 2^e) to many bits and a sticky bit. -/
def rsqFin (m : Nat) (e : Int) : Val :=
  let (m, e) := if e % 2 = 0 then (m, e) else (2 * m, e - 1)
  let p := 100 + m.log2
  let r := isqrt (2 ^ (2 * p) / m)
  if r * r * m = 2 ^ (2 * p) then .fin false r (-(e / 2) - p) else .fin false (2 * r + 1) (-(e / 2) - p - 1)

def rsqVal : Val → Val × Flags
  | .nan => (.nan, 0)
  | .inf s => if s then (.nan, Fl.iv) else (.fin false 0 0, 0)
  | .fin s m e => if m = 0 then (.inf s, Fl.dz) else if s then (.nan, Fl.iv) else (rsqFin m e, 0)

def transForm (f : Val → Val × Flags) : VaForm := lanewise false floatType fun x i => x.round (f (x.val 0 i))

def execVexp2 (x : Bool) (vd : BitVec 6) (a : Src) (vp : PReg) (ha : Bool) (s : State) : Out :=
  unary (transForm exp2Val) x vd a vp ha s
def execVlog2 (x : Bool) (vd : BitVec 6) (a : Src) (vp : PReg) (ha : Bool) (s : State) : Out :=
  unary (transForm log2Val) x vd a vp ha s
def execVrcp (x : Bool) (vd : BitVec 6) (a : Src) (vp : PReg) (ha : Bool) (s : State) : Out :=
  unary (transForm rcpVal) x vd a vp ha s
def execVrsq (x : Bool) (vd : BitVec 6) (a : Src) (vp : PReg) (ha : Bool) (s : State) : Out :=
  unary (transForm rsqVal) x vd a vp ha s

/-! ## Reductions and scans (R170 to R172) -/

/-- A lane that takes part, or none, with the flags so far. -/
abbrev Part := Option Nat

/-- combine of R170 over lanes that may be absent. -/
def combine (f : Nat → Nat → Nat × Flags) : Part → Part → Part × Flags
  | none, q => (q, 0)
  | some p, none => (some p, 0)
  | some p, some q =>
    match f p q with
    | (v, fl) => (some v, fl)

/-- One level of the pairwise tree. -/
def pairUp (f : Nat → Nat → Nat × Flags) : List Part → List Part × Flags
  | a :: b :: r =>
    match combine f a b, pairUp f r with
    | (c, f1), (l, f2) => (c :: l, f1 ||| f2)
  | l => (l, 0)

/-- The tree over `n` levels. -/
def tree (f : Nat → Nat → Nat × Flags) : Nat → List Part → Flags → Part × Flags
  | 0, l, fl => ((l.head?).join, fl)
  | n + 1, l, fl =>
    match pairUp f l with
    | (l', f1) => tree f n l' (fl ||| f1)

/-- The addition of VRSUM. -/
def VaIn.plus (x : VaIn) (p q : Nat) : Nat × Flags :=
  if x.et = 1 then ((p + q) % 2 ^ 32, 0) else x.round (Val.add ((etFloat x.et).decode p) ((etFloat x.et).decode q) x.rnd)

/-- A lane's value as a result: a NaN is the canonical one (R95). -/
def canonNan (et v : Nat) : Nat := if et != 1 && ((etFloat et).decode v).isNan then (etFloat et).nanCode else v

/-- The enabled lanes of source 0. -/
def VaIn.parts (x : VaIn) : List Part := (List.range (width x.et)).map fun i => if x.on i then some (x.at 0 i) else none

def reduceForm (f : VaIn → Nat → Nat → Nat × Flags) (ident : Nat → Nat) : VaForm :=
  { types := anyType, rdVd := false, two := false, every := true, cmp := false, ok := fun _ _ => true
    f := fun x =>
      match tree (f x) (width x.et).log2 x.parts 0 with
      | (r, fl) => { lo := List.replicate (width x.et) (canonNan x.et (r.getD (ident x.et))), hi := none, fl := fl, lfsr := x.lfsr } }

/-- −∞ or +∞, or the least or greatest INT32. -/
def extreme (neg : Bool) (et : Nat) : Nat :=
  if et = 1 then (if neg then 2 ^ 31 else 2 ^ 31 - 1) else (etFloat et).signBit neg + (etFloat et).infCode

def execVrsum (x : Bool) (vd : BitVec 6) (a : Src) (vp : PReg) (ha : Bool) (s : State) : Out :=
  unary (reduceForm VaIn.plus fun _ => 0) x vd a vp ha s
def execVrmax (x : Bool) (vd : BitVec 6) (a : Src) (vp : PReg) (ha : Bool) (s : State) : Out :=
  unary (reduceForm (fun x p q => (minMaxLane x.et false p q, 0)) (extreme true)) x vd a vp ha s
def execVrmin (x : Bool) (vd : BitVec 6) (a : Src) (vp : PReg) (ha : Bool) (s : State) : Out :=
  unary (reduceForm (fun x p q => (minMaxLane x.et true p q, 0)) (extreme false)) x vd a vp ha s

/-- Lane j after the level of distance d goes into the sum of an enabled lane: of one at j, or a multiple of 2d above it. -/
def feeds (en : List Bool) (d j : Nat) : Bool := (en.mapIdx fun i e => e && decide (j ≤ i) && (i - j) % (2 * d) == 0).any id

/-- The levels of VSCAN: distances 1, 2, 4, … (R171); the additions that go into the sum of an enabled lane set flags (R156). -/
def scanLevels (f : Nat → Nat → Nat × Flags) (en : List Bool) : Nat → Nat → List Part → Flags → List Part × Flags
  | 0, _, l, fl => (l, fl)
  | n + 1, d, l, fl =>
    let m := l.mapIdx fun i p => if i < d then (p, (0 : Flags)) else combine f (l.getD (i - d) none) p
    scanLevels f en n (2 * d) (m.map (·.1)) ((m.mapIdx fun j p => if p.2 != 0 && feeds en d j then p.2 else 0).foldl (· ||| ·) fl)

def scanForm : VaForm :=
  { types := anyType, rdVd := false, two := false, every := false, cmp := false, ok := fun _ _ => true
    f := fun x =>
      match scanLevels x.plus (x.parts.map (·.isSome)) (width x.et).log2 1 x.parts 0 with
      | (l, fl) => { lo := l.map fun p => canonNan x.et (p.getD 0), hi := none, fl := fl, lfsr := x.lfsr } }

def execVscan (x : Bool) (vd : BitVec 6) (a : Src) (vp : PReg) (ha : Bool) (s : State) : Out := unary scanForm x vd a vp ha s

/-- The absolute maximum of a block's enabled lanes: a NaN makes it the canonical NaN. -/
def absMax (et : Nat) (ps : List Part) : Nat :=
  let vs := ps.filterMap id
  if et != 1 && vs.any fun v => ((etFloat et).decode v).isNan then (etFloat et).nanCode
  else (vs.map (absLane et)).foldl Nat.max 0

/-- BL of VBSTAT. -/
def blockLen (cfg : Tab Word) : Nat := 2 ^ (bits (cfgRead .va cfg 5) 2 0 + 1)

def bstatForm : VaForm :=
  { types := anyType, rdVd := false, two := true, every := true, cmp := false, ok := fun et cfg => blockLen cfg ≤ width et
    f := fun x =>
      let bl := blockLen x.cfg
      let bs := (List.range (width x.et / bl)).map fun b => (x.parts.drop (bl * b)).take bl
      let sums := bs.map fun b => tree x.plus bl.log2 b 0
      { lo := bs.flatMap fun b => List.replicate bl (absMax x.et b)
        hi := some (sums.flatMap fun p => List.replicate bl (canonNan x.et (p.1.getD 0)))
        fl := sums.foldl (fun a p => a ||| p.2) 0, lfsr := x.lfsr } }

def execVbstat (x : Bool) (vd : BitVec 6) (a : Src) (vp : PReg) (ha : Bool) (s : State) : Out := unary bstatForm x vd a vp ha s

/-! ## Top-k (R174, R175) -/

/-- Candidate p stands before q: by value descending, a NaN last, then by index. -/
def ranks (et : Nat) (p q : Nat × Nat) : Bool :=
  if et = 1 then sxt 32 q.1 < sxt 32 p.1 || (p.1 = q.1 && p.2 ≤ q.2)
  else
    let a := (etFloat et).decode p.1
    let b := (etFloat et).decode q.1
    if a.isNan then b.isNan && p.2 ≤ q.2
    else b.isNan || Val.lt b a || (Val.eq a b && p.2 ≤ q.2)

/-- The two rows of the k best candidates, with padding. -/
def topK (x : VaIn) (cands : List (Nat × Nat)) : VaOut :=
  let k := bits (cfgRead .va x.cfg 3) 7 0 + 1
  let best := (sortBy (ranks x.et) cands).take k
  let pad := width x.et - best.length
  { lo := best.map (fun c => canonNan x.et c.1) ++ List.replicate pad (if x.et = 1 then 2 ^ 31 else (etFloat x.et).nanCode)
    hi := some (best.map (·.2) ++ List.replicate pad (2 ^ laneBits x.et - 1)), fl := 0, lfsr := x.lfsr }

def topkForm (f : VaIn → VaOut) : VaForm :=
  { types := anyType, rdVd := false, two := true, every := true, cmp := false
    ok := fun et cfg => bits (cfgRead .va cfg 3) 7 0 + 1 ≤ width et, f := f }

def execVtopk (x : Bool) (vd : BitVec 6) (a : Src) (vp : PReg) (ha : Bool) (s : State) : Out :=
  unary (topkForm fun x => topK x ((List.range (width x.et)).filterMap fun i => if x.on i then some (x.at 0 i, i) else none))
    x vd a vp ha s

/-- The entries of a list held in two rows: every lane whose index is not all ones. -/
def listOf (x : VaIn) (j : Nat) : List (Nat × Nat) :=
  (List.range (width x.et)).filterMap fun i => if x.at (j + 1) i = 2 ^ laneBits x.et - 1 then none else some (x.at j i, x.at (j + 1) i)

def execVtopkm (x : Bool) (vd a b : BitVec 6) (s : State) : Out :=
  let fm := topkForm fun x => topK x (listOf x 0 ++ listOf x 2)
  vaWord { fm with ok := fun et cfg => fm.ok et cfg && a != 63 && b != 63 } x vd.toNat
    [(.v a, false), (.v (a + 1), false), (.v b, false), (.v (b + 1), false)] 0 s

end Sys2Proof.Machine
end

