-- ==== Sys2Proof/Machine/Pool.lean ====
section
/-! DEFINITION. The Sieve (R195 to R197), the Kettle (R198, R199), the Grater (R200, R201) and the Stockpot (R202, R203). -/

namespace Sys2Proof.Machine

/-! ## FP32 on codes -/

/-- A rounded result with the flags of its operand cases. -/
def f32Res (r : Val × Flags) : Nat × Flags :=
  match fp32.encode r.1 .rne false 0 with
  | (c, f) => (c, r.2 ||| f)
def codeAdd (a b : Nat) : Nat × Flags := f32Res (Val.add (fp32.decode a) (fp32.decode b) .rne)
def codeMul (a b : Val) : Nat × Flags := f32Res (Val.mul a b)

/-- The sum of parts by the tree of R170. -/
def f32Tree (n : Nat) (l : List Part) : Part × Flags := tree codeAdd n l 0

/-! ## The Sieve -/

/-- Bits of codes in order, as values of BF16. -/
def bf16Vals (codes : List Nat) : List Val := codes.map bf16.decode

/-- One sum of R195 over eight products, in order. -/
def seqSum : List Nat → Nat × Flags
  | [] => (0, 0)
  | x :: r => r.foldl (fun a y => match codeAdd a.1 y with
      | (c, f) => (c, a.2 ||| f)) (x, 0)

/-- The score of one block (R195). -/
def scoreOf (q hi lo : List Val) : Nat × Flags :=
  let t := (List.zipWith (fun a h => (a, h)) q (List.zip hi lo)).map fun x =>
    match codeMul x.1 x.2.1, codeMul x.1 x.2.2 with
    | (u, f1), (w, f2) => (minMaxCode fp32 false u w, f1 ||| f2)
  let p := (pieces 8 16 (t.map (·.1))).map seqSum
  match f32Tree 4 (p.map fun x => some x.1) with
  | (r, f) => (r.getD 0, (t.foldl (fun a x => a ||| x.2) 0) ||| (p.foldl (fun a x => a ||| x.2) 0) ||| f)

def svscorePlan (n : Nat) (_s : State) (_u : Unit) (_m : EngMem) (_cfg : Tab Word) : List Operand → Plan :=
  planTwo fun a b =>
    { Plan.bare with rd := [useOf a 128, useOf b (256 * n)], bad := !(a.plain 128 [3] && b.plain (256 * n) [3]) }

def execSvscore (ls : BitVec 2) (ta tb : BitVec 4) (n : BitVec 8) (s : State) : Out :=
  engineCmd (.svscore ta.toNat tb.toNat (n.toNat + 1)) ls .sieve 0 0 [(ta.toNat, 0), (tb.toNat, 0)]
    (svscorePlan (n.toNat + 1)) 1 s

def doSvscore (s : State) (k : Nat) (u : Unit) (m : MOp) (ta tb n : Nat) : Done :=
  withOperand s k u (operandOf s k u ta 0) 128 16 fun s q _ p =>
    withOperand s k u (operandOf s k u tb 0) (256 * n) 16 fun s b _ p' =>
      let l := (pieces 256 n (bf16Vals b)).map fun x => scoreOf (bf16Vals q) (x.take 128) (x.drop 128)
      .ok (updEng s m.eng fun e => { e with scores := l.map (·.1) }) (l.foldl (fun a x => a ||| x.2) 0) (p.orElse fun _ => p') []

/-- The selection of R196: forced blocks and the k best others, as (index, rank) in ascending index. -/
def selection (scores : List Nat) (cfg : Tab Word) (k : Nat) : List (Nat × Nat) :=
  let b := scores.length
  let w := cfgRead .m cfg 0x10
  let forced := fun (i : Nat) => decide (i < bits w 3 0) || decide (b ≤ i + bits w 7 4)
  let rest := ((List.range b).filter fun i => !forced i).map fun i => (scores.getD i 0, i)
  let best := (sortBy (ranks 0) rest).take k
  (List.range b).filterMap fun i =>
    if forced i then some (i, 0xFFFF) else (best.findIdx? fun x => x.2 = i).map fun r => (i, r)

def svtopkPlan (k : Nat) (_s : State) (_u : Unit) (m : EngMem) (cfg : Tab Word) : List Operand → Plan :=
  planOne fun o =>
    let n := (selection m.scores cfg k).length + 1
    { Plan.bare with wr := [⟨o, n, 64, true, false⟩], bad := m.scores.isEmpty || !o.every n 64 (plainIs · [0]) }

def execSvtopk (ls : BitVec 2) (tb : BitVec 4) (n : BitVec 8) (s : State) : Out :=
  engineCmd (.svtopk tb.toNat (n.toNat + 1)) ls .sieve 0 0 [(tb.toNat, 0)] (svtopkPlan (n.toNat + 1)) 1 s

/-- The entries and the terminator, whose other bits the spec leaves open (log 3). -/
def doSvtopk (s : State) (k : Nat) (u : Unit) (m : MOp) (tb n : Nat) : Done :=
  let o := operandOf s k u tb 0
  let sc := (engAt s m.eng).mem.scores
  let sel := selection sc (u.cpl.mactive.toList.getD m.slot []) n
  let es := sel.map fun e => e.1 + e.2 * 2 ^ 16 + sc.getD e.1 0 * 2 ^ 32
  putOperand { s with free := s.free + 1 } k u o (elemWrites o 64 (es ++ [0xFFFF + Config.freeWord s.free % 2 ^ 48 * 2 ^ 16])) 0 none

/-- The block indices before the terminator of a selection, as the tile's bytes stand; none without one among the
first 257 entries of the region. -/
def selectionOf (s : State) (o : Operand) : Option (List Nat) :=
  match o.sd.part with
  | none => none
  | some (p, _, _) =>
    let ix := (List.range (min 257 (o.room / 8))).map fun e => leNat (rawRead s (pantryAddr p (o.sd.offset o.bit + 8 * e)) 2)
    (ix.findIdx? (· == 0xFFFF)).map fun n => ix.take n

/-- The source offset of byte j of a gather (R197). -/
def gatherAt (c : Cap) (cfg : Tab Word) (ix : List Nat) (j : Nat) : Nat :=
  let len := bits (cfgRead .m cfg 0x13) 19 0
  off48 (c.cursor + (ix.getD (j / len) 0) * (cfgRead .m cfg 0x12).toInt + j % len)

/-- The checks of the source blocks (R227), and the port that another module's need (R367): code and KIND. They are bytes without a format, and are
held to no operand-range check of R118 (log 101). -/
def gatherFault (s : State) (u : Unit) (c : Cap) (cfg : Tab Word) (ix : List Nat) : Option (Nat × Nat) :=
  let len := bits (cfgRead .m cfg 0x13) 19 0
  firstSome (((List.range ix.length).map fun e =>
    let a := gatherAt c cfg ix (e * len)
    (c.check rR a (a + len)).map fun kd => (0x0A, kd)) ++ [if !ix.isEmpty && barred s u (roleOid s u c.oid) then some (0x21, 0) else none])

/-- Source blocks that touch more than two pages (R269). -/
def gatherSplits (s : State) (u : Unit) (c : Cap) (cfg : Tab Word) (ix : List Nat) : Nat :=
  let len := bits (cfgRead .m cfg 0x13) 19 0
  ((List.range ix.length).filter fun e =>
    let a := gatherAt c cfg ix (e * len)
    2 ≤ (a + len - 1) / 2 ^ shiftOf s u.ctx c.oid - a / 2 ^ shiftOf s u.ctx c.oid).length

/-- The tiles that hold bytes of the source blocks (R296). -/
def gatherTiles (s : State) (k : Nat) (u : Unit) (c : Cap) (cfg : Tab Word) (ix : List Nat) : List Nat :=
  let len := bits (cfgRead .m cfg 0x13) 19 0
  tilesOf s k u (sideOf s k u c 0) (8 * len) false ((List.range ix.length).map fun e => 8 * gatherAt c cfg ix (e * len))

def svgathPlan (sel : Option (List Nat)) (also : List Nat) (_s : State) (_u : Unit) (_m : EngMem) (cfg : Tab Word) : List Operand → Plan :=
  planTwo fun a b =>
    let len := bits (cfgRead .m cfg 0x13) 19 0
    { Plan.bare with rd := [⟨a, 8 * ((sel.getD []).length + 1), 8, false, false⟩], wr := [⟨b, (sel.getD []).length * len, 8, false, false⟩]
                     also := also, bad := sel.isNone || len = 0 }

/-- SVGATH: its selection is read for its terminator, and the blocks it names are checked, when it starts. -/
def execSvgath (ls : BitVec 2) (ta tb : BitVec 4) (s : State) : Out :=
  eng s .m 1 fun s u r =>
    let cfg := u.cpl.mactive.toList.getD ls.toNat []
    let cap := r.rcd.caps.toList.getD (bits (cfgRead .m cfg 0x11) 3 0) Cap.none
    let a := operandOf s s.cur.1 u ta.toNat 0
    let sel := selectionOf s a
    let ix := sel.getD []
    engineCheck (.svgath ta.toNat tb.toNat) ls .sieve 0 0 [(ta.toNat, 0), (tb.toNat, 0)] (svgathPlan sel (gatherTiles s s.cur.1 u cap cfg ix))
      (gatherFault s u cap cfg ix) (gatherSplits s u cap cfg ix) cap.oid s u r

/-- Gather from byte j on, one destination granule after another, each begun while the budget lasts (R325): the byte it stopped at, and why; the flag
names a fault of the destination. -/
def gatherFrom (k : Nat) (u : Unit) (c : Cap) (cfg : Tab Word) (ix : List Nat) (o : Operand) (total : Nat) :
    Nat → Nat → State → State × Nat × Option (Option (Nat × Nat × Nat × Bool))
  | 0, j, s => (s, j, none)
  | fuel + 1, j, s =>
    if total ≤ j then (s, j, none)
    else if spent s (groveOf k) then (s, j, some none)
    else
      let d := o.bit / 8 + j
      let n := min (total - j) (64 - d % 64)
      match moveRead k u (roleOid s u c.oid) c.oid (granRuns ((List.range n).map fun i => gatherAt c cfg ix (j + i))) s with
      | (s, .fault off code kind) => (s, j, some (some (off, code, kind, false)))
      | (s, .stall) => (s, j, some none)
      | (s, .ok bs m) =>
        match reachTo s k u o.sd.cap.oid d (d + n - 1) true with
        | (s, .at key a) => gatherFrom k u c cfg ix o total fuel (j + n) (moveInto s k key a bs m)
        | (s, .fault kind) => (s, j, some (some (d, 0x20, kind, true)))
        | (s, .remote _ _) | (s, .stall) => (s, j, some none)

/-- SVGATH performs what it can; a fault holds it at its destination granule (R197, R221). -/
def doSvgath (s : State) (k : Nat) (u : Unit) (op : Op) (m : MOp) (ta tb : Nat) : Done :=
  let cfg := u.cpl.mactive.toList.getD m.slot []
  let a := operandOf s k u ta 0
  let b := operandOf s k u tb 0
  let ix := (selectionOf s a).getD []
  withOperand s k u a (8 * (ix.length + 1)) 8 fun s _ _ p =>
    let total := ix.length * bits (cfgRead .m cfg 0x13) 19 0
    match gatherFrom k u m.cap cfg ix b total (total / 64 + total + 2) m.next s with
    | (s, j, why) =>
      let s := updUnit s k fun u => u.setOp { op with body := .m { m with next := j } }
      match why with
      | none => .ok s 0 p []
      | some none => .stall s
      | some (some (off, code, kind, dst)) => .fault s code off kind (if dst then b.sd.cap.oid else m.cap.oid) dst

/-! ## The Kettle -/

/-- e^x with the operand cases of VEXP2 (Table 6.4). -/
def expVal : Val → Val × Flags
  | .nan => (.nan, 0)
  | .inf s => (if s then .fin false 0 0 else .inf false, 0)
  | .fin s m e => (if m = 0 then Val.ofInt 1 else expEFin s m e, 0)

def ktexpPlan (n : Nat) (_s : State) (_u : Unit) (_m : EngMem) (_cfg : Tab Word) : List Operand → Plan :=
  planOne fun o => { Plan.bare with rd := [useOf o (128 * n)], bad := !o.plain (128 * n) [1, 3] }

def execKtexp (ls : BitVec 2) (acc : BitVec 8) (ta : BitVec 4) (n : BitVec 7) (s : State) : Out :=
  engineCmd (.ktexp acc.toNat ta.toNat (n.toNat + 1)) ls .kettle acc.toNat (n.toNat + 1) [(ta.toNat, 0)]
    (ktexpPlan (n.toNat + 1)) 1 s

def doKtexp (s : State) (k : Nat) (u : Unit) (acc ta n : Nat) : Done :=
  let o := operandOf s k u ta 0
  withOperand s k u o (128 * n) o.first.width fun s codes _ p =>
    let l := (o.values (128 * n) codes []).1.map fun v => f32Res (expVal v)
    putRows s k acc (pieces 128 n (l.map (·.1))) (l.foldl (fun a x => a ||| x.2) 0) p

/-- L and the file rows of one softmax row. -/
def softLen (cfg : Tab Word) : Nat := bits (cfgRead .m cfg 0x20) 11 0 + 1
def softRows (l : Nat) : Nat := (l + 127) / 128

def ktsmaxPlan (acc n : Nat) (_s : State) (_u : Unit) (_m : EngMem) (cfg : Tab Word) : List Operand → Plan :=
  planOne fun o =>
    let top := acc + n * softRows (softLen cfg)
    { Plan.bare with rd := [useOf o (softLen cfg * n)], bad := !o.plain (softLen cfg * n) [1, 3] || 192 < top, out := top }

def execKtsmax (ls : BitVec 2) (acc : BitVec 8) (ta : BitVec 4) (n : BitVec 7) (s : State) : Out :=
  engineCmd (.ktsmax acc.toNat ta.toNat (n.toNat + 1)) ls .kettle acc.toNat 0 [(ta.toNat, 0)]
    (ktsmaxPlan acc.toNat (n.toNat + 1)) 1 s

/-- The greatest of a row by R134. -/
def maxOf : List Nat → Nat
  | [] => 0
  | x :: r => r.foldl (minMaxCode fp32 false) x

/-- The sum of a row, 128 lanes at a time (R199). -/
def softSum (e : List Nat) : Nat × Flags :=
  let hs := (pieces 128 (e.length / 128 + 1) e).map fun x => f32Tree 7 ((List.range 128).map fun i => x[i]?)
  match hs with
  | [] => (0, 0)
  | h :: r => r.foldl (fun a x => match codeAdd a.1 (x.1.getD 0) with
      | (c, f) => (c, a.2 ||| x.2 ||| f)) (h.1.getD 0, h.2)

/-- One row of a softmax: its lanes and flags. -/
def softmax (scale : Val) (xs : List Val) : List Nat × Flags :=
  let ps := xs.map fun x => codeMul x scale
  let fl := ps.foldl (fun a x => a ||| x.2) 0
  let x := ps.map (·.1)
  if x.any fun c => (fp32.decode c).isNan then (x.map fun _ => 0x7FC00000, fl)
  else
    let m := maxOf x
    if m = 0xFF800000 then (x.map fun _ => 0, fl)
    else
      let es := if m = 0x7F800000 then x.map fun c => (if c = m then 0x3F800000 else 0, (0 : Flags))
        else x.map fun c => f32Res (expVal (Val.add (fp32.decode c) (fp32.decode m).neg .rne).1)
      match softSum (es.map (·.1)) with
      | (sum, f2) =>
        let ys := es.map fun e => f32Res (Val.div (fp32.decode e.1) (fp32.decode sum))
        (ys.map (·.1), fl ||| es.foldl (fun a e => a ||| e.2) 0 ||| f2 ||| ys.foldl (fun a y => a ||| y.2) 0)

def doKtsmax (s : State) (k : Nat) (u : Unit) (m : MOp) (acc ta n : Nat) : Done :=
  let cfg := u.cpl.mactive.toList.getD m.slot []
  let l := softLen cfg
  let o := operandOf s k u ta 0
  withOperand s k u o (l * n) o.first.width fun s codes _ p =>
    let rows := (pieces l n (o.values (l * n) codes []).1).map (softmax (f32Val (cfgRead .m cfg 0x21)))
    let pad := fun (y : List Nat) => pieces 128 (softRows l) (y ++ List.replicate (128 * softRows l - l) 0)
    putRows s k acc (rows.flatMap fun r => pad r.1) (rows.foldl (fun a r => a ||| r.2) 0) p

/-! ## The Grater -/

/-- N of GTLEN. -/
def quantLen (cfg : Tab Word) : Nat := bits (cfgRead .m cfg 0x31) 23 0

def gtqntPlan (fmt : BitVec 4) (_s : State) (_u : Unit) (_m : EngMem) (cfg : Tab Word) : List Operand → Plan :=
  planTwo fun a b =>
    let n := quantLen cfg
    { Plan.bare with rd := [useOf a n], wr := [useOf b n]
                     bad := n = 0 || fmt = 0 || fmt = 14 || !a.every n a.first.width (fun i => i.b48 || i.fmt != 0) ||
                       4 < bits (cfgRead .m cfg 0x30) 2 0 || (b.first.b48 && n % 48 != 0) }

def execGtqnt (ls : BitVec 2) (ta tb : BitVec 4) (fmt : BitVec 4) (s : State) : Out :=
  engineCmd (.gtqnt ta.toNat tb.toNat fmt.toNat) ls .grater 0 0 [(ta.toNat, 0), (tb.toNat, fmt.toNat)]
    (gtqntPlan fmt) 1 s

def doGtqnt (s : State) (k : Nat) (u : Unit) (m : MOp) (ta tb fmt : Nat) : Done :=
  let cfg := u.cpl.mactive.toList.getD m.slot []
  let n := quantLen cfg
  let mode := Rnd.ofCode (BitVec.ofNat 3 (bits (cfgRead .m cfg 0x30) 2 0))
  let sat := bit (cfgRead .m cfg 0x30) 3
  let a := operandOf s k u ta 0
  let b := operandOf s k u tb fmt
  withOperand s k u a n a.first.width fun s codes scales p =>
    match a.values n codes scales with
    | (vs, tr) =>
      if b.first.b48 then
        let bl := (pieces 48 (n / 48) vs).map fun v => b48Encode fmt [] v mode []
        putOperand s k u b (elemWrites b b.first.width (bl.flatMap (·.1)) ++ scaleWrites b b.first.width (bl.map (·.2.1)))
          (tr ||| bl.foldl (fun f x => f ||| x.2.2) 0) p
      else
        let srcs := withFmts a.first.fmt (a.fmts n a.first.width) vs
        let l := srcs.map fun e => (Fmt.ofCode fmt).encode e.2 mode sat (!a.first.b48 && (Fmt.ofCode e.1).isInt) 0
        putOperand s k u b (elemWrites b b.first.width (l.map (·.1))) (l.foldl (fun f x => f ||| x.2) tr) p

/-- Tokens of a summary block. -/
def blockTokens (cfg : Tab Word) : Nat := bits (cfgRead .m cfg 0x30) 15 8 + 1

/-- Any float format, B48 float or B48-INT8. -/
def keyFormat (i : Info) : Bool := if i.b48 then b48Code i.fmt else 1 ≤ i.fmt && i.fmt ≤ 8

def gtsumPlan (n : Nat) (_s : State) (_u : Unit) (_m : EngMem) (cfg : Tab Word) : List Operand → Plan :=
  planTwo fun a b =>
    { Plan.bare with rd := [useOf a (128 * blockTokens cfg * n)], wr := [useOf b (256 * n)]
                     bad := !a.every (128 * blockTokens cfg * n) a.first.width keyFormat || !b.plain (256 * n) [3] }

def execGtsum (ls : BitVec 2) (ta tb : BitVec 4) (n : BitVec 8) (s : State) : Out :=
  engineCmd (.gtsum ta.toNat tb.toNat (n.toNat + 1)) ls .grater 0 0 [(ta.toNat, 0), (tb.toNat, 0)]
    (gtsumPlan (n.toNat + 1)) 1 s

/-- The extreme of a column by R134, NaN when any element is a NaN. -/
def columnEnd (less : Bool) (vs : List Val) : Val :=
  if vs.any Val.isNan then .nan
  else
    match vs with
    | [] => .fin false 0 0
    | v :: r => r.foldl (fun a b => if less then (if Val.ltZ b a then b else a) else if Val.ltZ a b then b else a) v

/-- hi and lo of one block: 128 maxima rounded up, then 128 minima rounded down. -/
def summary (toks : List (List Val)) : List (Nat × Flags) :=
  let col := fun d => toks.map fun t => t.getD d .nan
  ((List.range 128).map fun d => bf16.encode (columnEnd false (col d)) .rup false 0) ++
    (List.range 128).map fun d => bf16.encode (columnEnd true (col d)) .rdn false 0

def doGtsum (s : State) (k : Nat) (u : Unit) (m : MOp) (ta tb n : Nat) : Done :=
  let t := blockTokens (u.cpl.mactive.toList.getD m.slot [])
  let a := operandOf s k u ta 0
  let b := operandOf s k u tb 0
  withOperand s k u a (128 * t * n) a.first.width fun s codes scales p =>
    let vs := (a.values (128 * t * n) codes scales).1
    let l := (pieces (128 * t) n vs).flatMap fun blk => summary (pieces 128 t blk)
    putOperand s k u b (elemWrites b 16 (l.map (·.1))) (l.foldl (fun f x => f ||| x.2) 0) p

/-! ## The Stockpot -/

/-- N of SPLEN. -/
def spreadLen (cfg : Tab Word) : Nat := bits (cfgRead .m cfg 0x40) 23 0

def spredPlan (op : BitVec 4) (_s : State) (_u : Unit) (_m : EngMem) (cfg : Tab Word) : List Operand → Plan :=
  planTwo fun a b =>
    let n := spreadLen cfg
    { Plan.bare with rd := [useOf a n, useOf b n], wr := [useOf b n]
                     bad := n = 0 || !([1, 2, 3, 13].elem a.first.fmt) || !a.plain n [a.first.fmt] || !b.plain n [a.first.fmt] || 3 < op.toNat ||
                       (op = 3 && (a.first.fmt = 13 || 16384 < n)) }

def execSpred (ls : BitVec 2) (ta tb : BitVec 4) (op : BitVec 4) (s : State) : Out :=
  engineCmd (.spred ta.toNat tb.toNat op.toNat) ls .stockpot 0 0 [(ta.toNat, 0), (tb.toNat, 0)]
    (spredPlan op) 1 s

/-- One element of SPRED: tb and ta with the residual, giving tb, the residual and flags (R202). -/
def spredElem (op fmt : Nat) (b a r : Nat) : Nat × Nat × Flags :=
  if fmt = 13 then
    (match op with
     | 0 => ((b + a) % 2 ^ 32, r, 0)
     | 1 => (if sxt 32 b < sxt 32 a then a else b, r, 0)
     | _ => (if sxt 32 a < sxt 32 b then a else b, r, 0))
  else
    let f := if fmt = 1 then fp32 else if fmt = 2 then fp16 else bf16
    match op with
    | 0 =>
      match Val.add (f.decode b) (f.decode a) .rne with
      | (v, f1) =>
        match f.encode v .rne false 0 with
        | (c, f2) => (c, r, f1 ||| f2)
    | 1 => (minMaxCode f false b a, r, 0)
    | 2 => (minMaxCode f true b a, r, 0)
    | _ =>
      match Val.add (f.decode b) (f.decode a) .rne with
      | (x, f1) =>
        match Val.add x (fp32.decode r) .rne with
        | (y, f2) =>
          match f.encode y .rne false 0 with
          | (c, f3) =>
            match Val.add y (f.decode c).neg .rne with
            | (d, f4) =>
              match fp32.encode d .rne false 0 with
              | (r', f5) => (c, r', f1 ||| f2 ||| f3 ||| f4 ||| f5)

def doSpred (s : State) (k : Nat) (u : Unit) (m : MOp) (ta tb op : Nat) : Done :=
  let n := spreadLen (u.cpl.mactive.toList.getD m.slot [])
  let a := operandOf s k u ta 0
  let b := operandOf s k u tb 0
  withOperand s k u a n a.first.width fun s xs _ p =>
    withOperand s k u b n b.first.width fun s ys _ p' =>
      let res := (engAt s m.eng).mem.resid
      let l := (List.zip ys xs).mapIdx fun i e => spredElem op a.first.fmt e.1 e.2 (Tab.getD 0 res i)
      let fl := l.foldl (fun f x => f ||| x.2.2) 0
      let q := p.orElse fun _ => p'
      match putOperand s k u b (elemWrites b b.first.width (l.map (·.1))) fl q with
      | .ok s fl q cs =>
        let res' := l.foldl (fun (acc : Nat × Tab Nat) x => (acc.1 + 1, Tab.set 0 acc.2 acc.1 x.2.1)) (0, res)
        .ok (if op = 3 then updEng s m.eng fun e => { e with resid := res'.2 } else s) fl q cs
      | d => d

/-- The groves that SPMASKn names. -/
def spreadMask (cfg : Tab Word) (n : Nat) : List Nat :=
  (List.range 16).filter fun g => (cfgRead .m cfg (0xC0 + n)).getLsbD g

/-- SPBC reads its tile; where its own grove is named it writes the same bytes, and is their writer (R296). -/
def spbcPlan (n : Nat) (s : State) (u : Unit) (_m : EngMem) (cfg : Tab Word) : List Operand → Plan :=
  planOne fun o =>
    { Plan.bare with rd := [⟨o, spreadLen cfg, 8, true, false⟩]
                     made := if (spreadMask cfg n).elem (groveOf s.cur.1) then o.tiles s s.cur.1 u (spreadLen cfg) 8 else []
                     bad := spreadLen cfg = 0 || 63 < n || (spreadMask cfg n).any fun g => (partOf s u.lid g).isNone }

def execSpbc (ls : BitVec 2) (ta : BitVec 4) (n : BitVec 8) (s : State) : Out :=
  engineCmd (.spbc ta.toNat n.toNat) ls .stockpot 0 0 [(ta.toNat, 0)] (spbcPlan n.toNat) 1 s

/-- Send granule after granule to the groves `gs` in turn, `total` bytes to each: byte j goes to grove j / total. Each granule is begun while the
budget lasts (R325); a grove whose partition has been freed gets nothing. Answers the byte it stopped at, and why. -/
def spreadFrom (k : Nat) (u : Unit) (o : Operand) (gs : List Nat) (total : Nat) :
    Nat → Nat → State → State × Nat × Option (Option (Nat × Nat × Nat))
  | 0, j, s => (s, j, none)
  | fuel + 1, j, s =>
    match gs[j / total]? with
    | none => (s, j, none)
    | some g =>
      if spent s (groveOf k) then (s, j, some none)
      else
        let d := o.bit / 8 + j % total
        let n := min (total - j % total) (64 - d % 64)
        match moveRead k u o.sd.oid o.sd.cap.oid [(List.range n).map (d + ·)] s with
        | (s, .fault off code kind) => (s, j, some (some (off, code, kind)))
        | (s, .stall) => (s, j, some none)
        | (s, .ok bs m) =>
          let s := match partOf s u.lid g with
            | some (p, _) => moveInto s k 0 (pantryAddr p (o.sd.offset (8 * d))) bs m
            | none => s
          spreadFrom k u o gs total fuel (j + n) s

/-- SPBC performs what it can; a fault or a spent budget holds it at a granule (R203, R325). -/
def doSpbc (s : State) (k : Nat) (u : Unit) (op : Op) (m : MOp) (ta n : Nat) : Done :=
  let cfg := u.cpl.mactive.toList.getD m.slot []
  let o := operandOf s k u ta 0
  let gs := spreadMask cfg n
  let total := spreadLen cfg
  match spreadFrom k u o gs total (gs.length * (total / 64 + 2)) m.next s with
  | (s, j, why) =>
    let s := updUnit s k fun u => u.setOp { op with body := .m { m with next := j } }
    match why with
    | none => .ok s 0 none []
    | some none => .stall s
    | some (some (off, code, kind)) => .fault s code off kind o.sd.cap.oid false

end Sys2Proof.Machine
end

