-- ==== Sys2Proof/Machine/EngDone.lean ====
section
/-! DEFINITION. The completion of engine commands (R178, R181, R189), the stamped issue (R65), and UNLEASE (R315). -/

namespace Sys2Proof.Machine

/-- The key of a context bank. -/
def placeKey (p : Place) : Nat := 2 * p.h.toNat + if p.bank then 1 else 0

/-- What performing a command comes to. -/
def performCmd (s : State) (k : Nat) (u : Unit) (o : Op) (m : MOp) : Done :=
  match m.cmd with
  | .mlb tb => doMlb s k u m tb
  | .mza acc n => doMza s k acc n
  | .mla acc ta n => doMla s k u acc ta n
  | .mmul acc ta n => doMultiply s k u m (some (List.replicate n 0)) acc ta n
  | .mmac acc ta n => doMultiply s k u m (if m.rows.isEmpty then none else some m.rows) acc ta n
  | .mprom i => doMprom s m i
  | .mpert row col v => doMpert s m row col v
  | .wld tb => doWld s k u m tb
  | .wmul acc ta n => doWhisk s k u m acc ta n []
  | .wmac acc ta n => doWhisk s k u m acc ta n m.rows
  | .svscore ta tb n => doSvscore s k u m ta tb n
  | .svtopk tb n => doSvtopk s k u m tb n
  | .svgath ta tb => doSvgath s k u o m ta tb
  | .ktexp acc ta n => doKtexp s k u acc ta n
  | .ktsmax acc ta n => doKtsmax s k u m acc ta n
  | .gtqnt ta tb fmt => doGtqnt s k u m ta tb fmt
  | .gtsum ta tb n => doGtsum s k u m ta tb n
  | .spred ta tb op => doSpred s k u m ta tb op
  | .spbc ta n => doSpbc s k u o m ta n

/-! ## The strand's last command (R189) -/

/-- An engine command stands among instruction words; the word after an MPERT is its literal. -/
def hasCommand : List Word → Bool
  | [] => false
  | [w] => let op := bits w 31 26; 1 ≤ op && op ≤ 0x13
  | w :: v :: r =>
    let op := bits w 31 26
    (1 ≤ op && op ≤ 0x13) || hasCommand (v :: r)

/-- A later command of the strand will issue: in this pass, or in another. -/
def commandFollows (r : Strand) (ending : Bool) : Bool :=
  !ending && (hasCommand ((r.store.drop r.off).map (·.1)) || (r.pass + 1 < r.rcd.passes && hasCommand (r.store.map (·.1))))

/-- The command is the last that the running strand will have issued. -/
def lastOfStrand (u : Unit) (o : Op) : Bool :=
  match u.seqr.m.run with
  | some r => !commandFollows r u.seqr.m.ending && o.num = u.cpl.issued.m
  | none => false

/-- Another command of one of the slots is in flight. -/
def othersOn (u : Unit) (o : Op) (slots : List Nat) : Bool :=
  u.ops.any fun p => match p.body with
    | .m m => p.num != o.num && slots.elem m.slot
    | .vl _ | .va _ | .vs _ | .d _ => false

/-- The number of the strand's last command completes only with the close of the strand's runs, so it is held while the strand has not
ended and a run is open, or a command in flight may open one; a drain or a kill does not wait for the strand's end (R372, R381). -/
def heldForClose (s : State) (k : Nat) (u : Unit) (o : Op) : Bool :=
  u.killed.isNone && u.cause.isNone && u.served.isNone && u.roll.isNone && lastOfStrand u o && !(runSlots s k { u with ops := u.ops.filter fun p => p.str != .m || p.num != o.num }).isEmpty

/-- The lease slots whose runs close with a command: those of the ended strand that it was the last of. -/
def closeOf (u : Unit) (o : Op) : Option (List Nat) := (u.closing.find? fun c => c.1 = o.num).map (·.2)

/-! ## Completion -/

/-- The slot's configuration swaps in when its command has completed (R181). -/
def swapCfg (s : State) (k ls : Nat) : State :=
  updUnit s k fun u =>
    if u.slotIdle ls then { u with cpl := { u.cpl with mactive := vmodify u.cpl.mactive ls fun _ => u.cpl.mcfg.toList.getD ls [] } } else u

/-- The number completes: flags, tiles, poison and the causes raised after it; a check-column detection is an event of
the Griddle (R389, R392). -/
def finishCmd (s : State) (k : Nat) (o : Op) (m : MOp) (causes : List (Nat × Nat × Bool)) : State :=
  let s := swapCfg (completeOp s k o) k m.slot
  causes.foldl (fun s c => match s.units.get? k with
    | some u =>
      let s := if c.1 = 0x30 then detection s (.engine m.eng) 0 else s
      raise s k { causeO u o c.1 c.2.1 Acc.none with inj := c.2.2 }
    | none => s) s

/-- A command is performed, and its number completes; a strand's last command closes the strand's runs first, once the strand has ended
and no other command of their slots is in flight (R189). -/
def completeCmd (s : State) (k : Nat) (u : Unit) (o : Op) (m : MOp) : State :=
  let e := engAt s m.eng
  if o.held || e.power != .awake || e.key != some (k, m.slot) || (m.cmd.accesses && spent s (groveOf k)) then s
  else
    match performCmd s k u o m with
    | .stall s' => (match m.cmd with
        | .svgath _ _ | .spbc _ _ => s'
        | .mlb _ | .mza _ _ | .mla _ _ _ | .mmul _ _ _ | .mmac _ _ _ | .mprom _ | .mpert _ _ _ | .wld _ | .wmul _ _ _ | .wmac _ _ _
        | .svscore _ _ _ | .svtopk _ _ | .ktexp _ _ _ | .ktsmax _ _ _ | .gtqnt _ _ _ | .gtsum _ _ _ | .spred _ _ _ => s)
    | .fault s' code off kind oid wr =>
      let s' := updUnit s' k fun u => { u with ops := u.ops.map fun p => if p.str = .m && p.num = o.num then { p with held := true } else p }
      raise s' k (causeO u o code kind ⟨oid, off, wr, levelOf s u.ctx oid == some 3⟩)
    | .ok s' fl p causes =>
      let o' := { o with flags := o.flags ||| fl, poison := o.poison.orElse fun _ => p }
      match closeOf u o with
      | some slots =>
        if othersOn u o slots then s
        else finishCmd (updUnit (closeSlots s' k slots) k fun u => { u with closing := u.closing.filter fun c => c.1 != o.num }) k o' m causes
      | none => if heldForClose s' k u o then s else finishCmd s' k o' m causes

def execEngineCommandComplete (p : Place) (num : Nat) (s : State) : Out :=
  let k := placeKey p
  .next (match s.units.get? k with
    | none => s
    | some u =>
      match findOp u .m num with
      | some o =>
        match o.body with
        | .m m => completeCmd s k u o m
        | .vl _ | .va _ | .vs _ | .d _ => s
      | none => s)

/-- The command that a MAT.AT holds issues at its tick: the M stream's next word (R65, R177). -/
def execStampedCommandIssue (p : Place) (s : State) : Out :=
  .next (match s.units.get? (placeKey p) with
    | none => s
    | some u =>
      match u.matAt, u.waits.m with
      | some _, some .issueTick => { s with agenda := .issue p.h p.bank .m :: s.agenda }
      | _, _ => s)

/-! ## UNLEASE (R315, Table 12.6) -/

/-- Release the lease of a slot, its run closed first (R189). -/
def unleaseSlot (s : State) (k ls : Nat) (l : LeaseSlot) (ret : Bool) : State :=
  match closeRun s k l.eng with
  | (s, fl) => releaseSlot (updUnit s k fun u => u.addFlags fl) k ls ret

/-- UNLEASE waits for the strands dispatched to M, or to D for the Ladle; no access is outstanding in the wait, which is excused (R85, R310). -/
def unleaseEffect (ret : Bool) (d a : SReg) (s : State) (u : Unit) : Res :=
  let k := s.cur.1
  let v := u.sreg a
  let ls := bits v 1 0
  if bits v 7 2 != 0 || bits v 63 9 != 0 then answer d 0x12 0 0 s u
  else if bit v 8 then
    (if u.ladle.isNone then answer d 0x1A 0 0 s u
     else if u.streamBusy .d then .wait s u .answer
     else
       let s := releaseLadle s k
       answer d 0 0 0 s (again s k u))
  else
    match u.leases.toList.getD ls none with
    | none => answer d 0x1A 0 0 s u
    | some l =>
      if l.evicted then answer d 0x1A 0 0 s u
      else if u.streamBusy .m then .wait s u .answer
      else
        let s := unleaseSlot s k ls l ret
        answer d 0 0 0 s (again s k u)

def execUnlease (n : Nxt) (d a : SReg) (s : State) : Out := ctl s (actOf n) 1 (unleaseEffect false d a)
def execUnleaseRet (n : Nxt) (d a : SReg) (s : State) : Out := ctl s (actOf n) 1 (unleaseEffect true d a)

end Sys2Proof.Machine
end

