-- ==== Sys2Proof/Machine/CopyRun.lean ====
section
/-! DEFINITION. The granule writes of a copy (R113, R119, R221, R248 to R252, R389), its start and its completion (R219,
R249, R403), and reduce elements with their watermarks (R223, R251). -/

namespace Sys2Proof.Machine

/-! ## Reduce elements (R223, R251) -/

/-- combine of Table 9.9 on codes of an element format. -/
def combineElem (fmt rop old v : Nat) : Nat × Flags :=
  let w := (Fmt.ofCode fmt).width
  if fmt = 13 || fmt = 15 then
    (match rop with
     | 0 => ((old + v) % 2 ^ w, 0)
     | 1 => (if sxt w old < sxt w v then v else old, 0)
     | 2 => (if sxt w v < sxt w old then v else old, 0)
     | 3 => (old &&& v, 0)
     | 4 => (old ||| v, 0)
     | _ => (old ^^^ v, 0))
  else
    let f := if fmt = 1 then fp32 else if fmt = 2 then fp16 else bf16
    match rop with
    | 0 =>
      match Val.add (f.decode old) (f.decode v) .rne with
      | (x, f1) =>
        match f.encode x .rne false 0 with
        | (c, f2) => (c, f1 ||| f2)
    | 1 => (minMaxCode f false old v, 0)
    | _ => (minMaxCode f true old v, 0)

/-- The target that keeps the watermark of an address: its Clearing bank, or, for any other that is reached over Ebith, the port. -/
def reduceTarget (s : State) (a port : Nat) : Nat := fuKey (if physLvl a = some 1 then fuOf s a else .ebithPort port)

/-- Targets that share their watermarks: an element sent again along another path is found at the port that took it first (R223). -/
def sameTarget (t t' : Nat) : Bool := t = t' || (List.range 48).any (fun p => t = fuKey (.ebithPort p)) && (List.range 48).any fun p => t' = fuKey (.ebithPort p)

def wmIs (t dev ctx : Nat) (id : Word) (w : WMark) : Bool := w.target = t && w.dev = dev && w.ctx = ctx && w.id = id
def wmSame (t dev ctx : Nat) (id : Word) (w : WMark) : Bool := sameTarget t w.target && w.dev = dev && w.ctx = ctx && w.id = id

/-- What applying one element came to. -/
inductive Applied where
  | done (fl : Flags)
  | wait
  | sync
  deriving DecidableEq, Repr

/-- An element of a source key that a watermark shows applied already (R223). -/
def reduceSeen (s : State) (a port dev ctx : Nat) (id : Word) (seq : Nat) : Bool :=
  s.watermarks.any fun m => wmSame (reduceTarget s a port) dev ctx id m && seq ≤ m.seq

/-- Apply one element of a source key at an address, unless a watermark discards it; `port` is where it came in. A key that is used again is
not complete any more (R251). -/
def applyReduce (s : State) (port key a fmt rop v dev ctx : Nat) (id : Word) (seq : Nat) : State × Applied :=
  let t := reduceTarget s a port
  let w := (Fmt.ofCode fmt).width / 8
  if reduceSeen s a port dev ctx id seq then (s, .done 0)
  else
  match s.watermarks.find? (wmIs t dev ctx id) with
  | some _ =>
    if isSync s a then (s, .sync)
    else
      match combineElem fmt rop (leNat (viewBytes s key a w)) v with
      | (c, fl) =>
        ({ writeBytes s key a (leBytes w c) with
           watermarks := s.watermarks.map fun x => if wmIs t dev ctx id x then { x with seq := seq, doneAt := none } else x }, .done fl)
  | none =>
    if 256 ≤ (s.watermarks.filter fun x => x.target = t).length then (s, .wait)
    else if isSync s a then (s, .sync)
    else
      match combineElem fmt rop (leNat (viewBytes s key a w)) v with
      | (c, fl) =>
        ({ writeBytes s key a (leBytes w c) with watermarks := s.watermarks ++ [{ target := t, dev := dev, ctx := ctx, id := id, seq := seq, doneAt := none }] },
          .done fl)

/-! ## Reading and converting -/

/-- The next granule write: the elements from `e` on that share their destination granules. -/
def granSet (z b : Nat) : List Nat := [b / 512, (b + z - 1) / 512].eraseDups
def groupFrom (z : Nat) (pd : List Nat) (e : Nat) : List Nat :=
  let g := granSet z (pd.getD e 0)
  ((pd.drop e).takeWhile fun b => granSet z b == g)

/-- Source granules of elements, each up to the last byte they touch, moved. -/
def moveGrans (k : Nat) (u : Unit) (sd : Side) : List (Nat × Nat) → State → State × Sum (Option (Nat × Nat × Nat)) (Tab (List Byte) × Option (FaultUnit × Bool))
  | [], s => (s, .inr ([], none))
  | (g, last) :: r, s =>
    match moveRead k u sd.oid sd.cap.oid [range' (64 * g) (last + 1)] s with
    | (s, .ok bs m) =>
      match moveGrans k u sd r s with
      | (s, .inr (t, m')) => (s, .inr (t.put g bs, m.orElse fun _ => m'))
      | x => x
    | (s, .fault off code kind) => (s, .inl (some (off, code, kind)))
    | (s, .stall) => (s, .inl none)

/-- The scale code of a source element, moved with its mark. -/
def moveScale (s : State) (sd : Side) (bit : Nat) : State × Nat × Option (FaultUnit × Bool) :=
  match sd.scale bit, sd.part with
  | some x, some (p, _, _) =>
    let a := pantryAddr p x
    let s := eccRead s (a / 64)
    (s, (s.byteAt a).toNat, s.poison.get? (a / 64))
  | _, _ => (s, 127, none)

/-- The rounding mode and saturation of a copy (R107). -/
def copyMode (d : CopyDesc) : Rnd × Bool := match d.cvt with
  | some (m, sat) => (Rnd.ofCode m, sat)
  | none => (.rne, false)

/-- Convert one element: its code, flags and mark, the generator stepping under .sr (R105, R119). Whether the copy is raw is its first element's
affair: a later element in a bank of FMT 0 goes through the conversion (log 101). -/
def copyElem (g : Geo) (d : CopyDesc) (gs : Tab (List Byte)) (e : Nat) (lfsr : Word) (s : State) :
    State × Nat × Flags × Word × Option (FaultUnit × Bool) :=
  let p := g.ps.getD e 0
  let raw := rawBits gs p g.zs
  let is := g.src.info p
  let id_ := g.dst.info (g.pd.getD e 0)
  if g.raw || (is.fmt = id_.fmt && !is.b48) then (s, raw, 0, lfsr, none)
  else
    let m := copyMode d
    let l := if m.1 == .sr then lfsrStep lfsr else lfsr
    if is.b48 then
      match moveScale s g.src p with
      | (s, sc, mk) =>
        match (Fmt.ofCode id_.fmt).encode (b48Value (Fmt.ofCode is.fmt) raw sc) m.1 m.2 false l.toNat with
        | (c, fl) => (s, c, fl, l, mk)
    else
      match convert (Fmt.ofCode is.fmt) (Fmt.ofCode id_.fmt) raw m.1 m.2 l.toNat with
      | (c, fl) => (s, c, fl, l, none)

/-- The values of a block's elements with the mark of their scales. -/
def blockVals (g : Geo) (gs : Tab (List Byte)) : List Nat → State → State × List Val × Flags × Option (FaultUnit × Bool)
  | [], s => (s, [], 0, none)
  | e :: r, s =>
    let p := g.ps.getD e 0
    let raw := rawBits gs p g.zs
    let is := g.src.info p
    match (if is.b48 then moveScale s g.src p else (s, 0, none)) with
    | (s, sc, m) =>
      match blockVals g gs r s with
      | (s, vs, fl, m') =>
        match (if is.b48 then (b48Value (Fmt.ofCode is.fmt) raw sc, (0 : Flags)) else (Fmt.ofCode is.fmt).decode raw) with
        | (v, f) => (s, v :: vs, f ||| fl, m.orElse fun _ => m')

/-- Encode a block, or move it unchanged between equal formats, with the scale of its first element's source block (R112, R113, R119,
log 83). -/
def copyBlock (g : Geo) (d : CopyDesc) (gs : Tab (List Byte)) (b : Nat) (lfsr : Word) (s : State) :
    State × List Nat × Nat × Flags × Word × Option (FaultUnit × Bool) :=
  let es := (List.range 48).map (48 * b + ·)
  let fds := es.map fun e => (g.dst.info (g.pd.getD e 0)).fmt
  if (List.zip es fds).all fun e => let i := g.src.info (g.ps.getD e.1 0); i.b48 && i.fmt = e.2 then
    match moveScale s g.src (g.ps.getD (48 * b) 0) with
    | (s, sc, m) => (s, es.map fun e => rawBits gs (g.ps.getD e 0) g.zs, sc, 0, lfsr, m)
  else
    match blockVals g gs es s with
    | (s, vs, fl, m) =>
      let sr := (copyMode d).1 == .sr
      let rs := if sr then lfsrs 48 lfsr else []
      match b48Encode (fds.headD 0) fds vs (copyMode d).1 rs with
      | (cs, sc, f) => (s, cs, sc, fl ||| f, if sr then BitVec.ofNat 32 (rs.getLastD 0) else lfsr, m)

/-! ## Writing -/

/-- Where a destination granule goes. -/
inductive Dest where
  | at (key a : Nat)
  | remote (dev pa : Nat)
  deriving DecidableEq, Repr

/-- The least byte that elements touch. -/
def leastByte (bits : List Nat) : Nat := bits.foldl (fun m b => min m (b / 8)) (bits.headD 0 / 8)

/-- Reach the destination granules from byte `lo` on up to the last byte written in each: all, or the fault. Multicast goes to the partitions of
the mask's groves that are still there (R250). -/
def reachDest (k : Nat) (u : Unit) (g : Geo) (mask : BitVec 16) (lo : Nat) : List (Nat × Nat) → State → State × Sum (Option (Nat × Nat)) (List (Nat × List Dest))
  | [], s => (s, .inr [])
  | (gr, last) :: r, s =>
    let rest := fun (s : State) (ds : List Dest) => match reachDest k u g mask lo r s with
      | (s, .inr l) => (s, .inr ((gr, ds) :: l))
      | x => x
    match reachObjTo s k u g.dst.oid (64 * gr) last true with
      | (s, t) =>
      match home s u rW (lo - 64 * gr) (last + 1 - max lo (64 * gr)) t with
      | .at key a =>
        if mask != 0 then
          rest s ((List.range 16).filterMap fun v =>
            if mask.getLsbD v && !(groveAt s v).retired then
              (partOf s u.lid v).map fun p => Dest.at 0 (pantryAddr p.1 (g.dst.offset (512 * gr)))
            else none)
        else rest s [.at key a]
      | .remote dev pa => rest s [.remote dev pa]
      | .fault kind => (s, .inl (some (64 * gr, kind)))
      | .stall => (s, .inl none)

/-- Write pieces of one granule to one place. A byte of another module that is covered in part keeps bits that only that
module knows: free values (log 3). What is written elsewhere enters the signature too (R340), and poison goes with it (R389). -/
def writeDest (k : Nat) (ctx gr : Nat) (ws : List BitWrite) (m : Option (FaultUnit × Bool)) (s : State) : Dest → State
  | .at key a =>
    let t := mergeBits s key [] (ws.map fun w => (a, w.bit - 512 * gr, w.w, w.v))
    markMoved (addSig (putAll (charge s (groveOf k) 1) key t) k t) a m
  | .remote dev pa =>
    let blank := (List.range 64).map fun i => freeByte (s.free + i)
    let t := ws.foldl (fun v w => putBits v (w.bit - 512 * gr) w.w w.v) (leNat blank)
    let on := fun i => ws.any fun w => w.bit - 512 * gr < 8 * i + 8 && 8 * i < w.bit - 512 * gr + w.w
    let data := ((leBytes 64 t).mapIdx fun i b => (i, b)).filter fun e => on e.1
    let s := { s with free := s.free + 64 }
    addSig (sendRemote s k dev (.write dev ((portFor s ctx dev).getD 0) ctx pa data m.isSome)) k (data.map fun e => (pa + e.1, e.2))

/-- Pieces of elements cut at granule boundaries. -/
def granCut (w : BitWrite) : List BitWrite :=
  let n := 512 - w.bit % 512
  if w.w ≤ n then [w] else [{ w with w := n, v := w.v % 2 ^ n }, { w with bit := w.bit + n, w := w.w - n, v := w.v / 2 ^ n }]

def writeGrans (k ctx : Nat) (ws : List BitWrite) (m : Option (FaultUnit × Bool)) : List (Nat × List Dest) → State → State
  | [], s => s
  | (gr, ds) :: r, s =>
    writeGrans k ctx ws m r (ds.foldl (fun s d => writeDest k ctx gr (ws.filter fun w => w.bit / 512 = gr) m s d) s)

/-- The other module's answer to a granule write that goes to it: performed, or refused, as it is when no port is left (R217, R366, R367).
A write that stays in the module has none. -/
def remoteTakes (s : State) (ctx : Nat) (l : List (Nat × List Dest)) : State × Bool :=
  match l.findSome? fun e => e.2.findSome? fun d => match d with
    | .remote dev _ => some dev
    | .at _ _ => none with
  | none => (s, true)
  | some dev => if (portFor s ctx dev).isNone then (s, false) else remoteAnswer s dev

/-- The address of a place that has a sync object. -/
def destSync (s : State) (l : List (Nat × List Dest)) : Bool := l.any fun e => e.2.any fun d => match d with
  | .at _ a => isSync s a
  | .remote _ _ => false

/-- The scale of a block with elements at `bits`, in every grove that the copy writes. -/
def writeScale (s : State) (k : Nat) (u : Unit) (g : Geo) (mask : BitVec 16) (bits : List Nat) (sc : Nat) (m : Option (FaultUnit × Bool)) : State :=
  (g.dst.scalesOf bits).foldl (fun s x =>
    let ps := if mask != 0 then (List.range 16).filterMap fun v =>
        if mask.getLsbD v && !(groveAt s v).retired then (partOf s u.lid v).map (·.1) else none
      else match g.dst.part with
        | some (p, _, _) => [p]
        | none => []
    ps.foldl (fun s p =>
      let a := pantryAddr p x
      let ws := [(a, BitVec.ofNat 8 sc)]
      markMoved (addSig (putBytes (charge s (groveOf k) 1) 0 ws) k ws) a m) s) s

/-! ## Stream-register entries (R252, R297) -/

/-- Bytes in the order in which the elements first touch them. -/
def touched (z : Nat) (bits : List Nat) : List Nat := (bits.flatMap fun b => range' (b / 8) ((b + z - 1) / 8 + 1)).eraseDups

/-- The bytes that a granule write completes: a byte that the next element touches too is complete with it (R252). -/
def settled (z : Nat) (bits : List Nat) (next : Option Nat) : List Nat :=
  match next with
  | some b => if z % 8 = 0 then touched z bits else (touched z bits).filter fun x => !(touched z [b]).elem x
  | none => touched z bits

/-- Whole entries of 512 bytes among the bytes that have arrived. -/
def entriesOf (bs : List Byte) : List Row × List Byte :=
  let n := bs.length / 512
  ((pieces 512 n bs).map fun p => BitVec.ofNat 4096 (leNat p), bs.drop (512 * n))

/-- Entries that n more bytes complete; the last bytes of a copy complete a partial entry too. -/
def newEntries (x : SqReg) (n : Nat) (last : Bool) : Nat := (x.part.length + n + if last then 511 else 0) / 512

/-- The granule write would complete an entry beyond the fourth. What a killed unit's copy fills is discarded. -/
def holdsBack (u : Unit) (bind : Option Nat) (n : Nat) (last : Bool) : Bool := match bind with
  | some q =>
    let x := u.sqAt q
    u.killed.isNone && 0 < newEntries x n last && 4 < x.entries.length + newEntries x n last
  | none => false

/-- A copy may push: the register has no producer, or D is its producer. -/
def mayArrive (x : SqReg) : Bool := match x.producer with
  | none | some .d => true
  | some (.vs _) => false

/-- The arrived bytes enter the bound register, whose producer D is from its first push on (R297); a last partial entry reads as zero
bytes beyond its end. -/
def arrive (s : State) (k : Nat) (bind : Option Nat) (bs : List Byte) (last : Bool) : State :=
  match bind with
  | none => s
  | some q => updUnit s k fun u =>
      let x := { u.sqAt q with producer := some .d }
      match entriesOf (x.part ++ bs) with
      | (es, rest) =>
        if last && !rest.isEmpty then u.setSq q { x with entries := x.entries ++ es ++ [BitVec.ofNat 4096 (leNat rest)], part := [] }
        else u.setSq q { x with entries := x.entries ++ es, part := rest }

/-! ## One granule write -/

/-- Change a copy in flight. -/
def updCopy (s : State) (k : Nat) (o : Op) (f : Op → DOp → Op) : State :=
  updUnit s k fun u => { u with ops := u.ops.map fun p => if p.str = .d && p.num = o.num then (match p.body with
    | .d x => f p x
    | .vl _ | .va _ | .vs _ | .m _ => p) else p }

/-- A fault holds the copy at this granule write (R221). -/
def holdCopy (s : State) (k : Nat) (u : Unit) (o : Op) (x : DOp) (c : Cap) (code off kind : Nat) (wr : Bool) : State :=
  let s := updCopy s k o fun p _ => { p with held := true }
  raise s k { causeO u o code kind (accOf s u c off wr) with refill := x.refill }

/-- What the elements of a granule write came to: writes, flags, generator, block, and poison mark; `trail` keeps the flags and the generator as they
stand after each element. -/
structure Batch where
  ws : List BitWrite
  scales : List (List Nat × Nat × Option (FaultUnit × Bool))
  fl : Flags
  lfsr : Word
  block : Option (Nat × List Nat × Nat × Option (FaultUnit × Bool))
  mark : Option (FaultUnit × Bool)
  trail : List (Flags × Word)

def Batch.empty (l : Word) (b : Option (Nat × List Nat × Nat × Option (FaultUnit × Bool))) : Batch :=
  { ws := [], scales := [], fl := 0, lfsr := l, block := b, mark := none, trail := [] }

/-- Add one element. `mk` marks poison among the granules read. -/
def batchElem (g : Geo) (d : CopyDesc) (gs : Tab (List Byte)) (mk : Option (FaultUnit × Bool)) (acc : State × Batch) (e : Nat) : State × Batch :=
  let b := acc.2
  let place := g.pd.getD e 0
  if g.blocks then
    let fresh := match b.block with
      | some (j, _) => j != e / 48
      | none => true
    let next := if fresh then
        match copyBlock g d gs (e / 48) b.lfsr acc.1 with
        | (s, cs, sc, fl, l, m) => (s, { b with fl := b.fl ||| fl, lfsr := l, block := some (e / 48, cs, sc, m.orElse fun _ => mk) })
      else (acc.1, b)
    match next.2.block with
    | some (_, cs, sc, m) =>
      (next.1, { next.2 with ws := next.2.ws ++ [⟨false, place, g.zd, cs.getD (e % 48) 0⟩]
                             scales := if e % 48 = 47 then next.2.scales ++ [((g.pd.drop (e / 48 * 48)).take 48, sc, m)] else next.2.scales
                             mark := next.2.mark.orElse fun _ => m })
    | none => next
  else
    match copyElem g d gs e b.lfsr acc.1 with
    | (s, c, fl, l, m) =>
      (s, { b with ws := b.ws ++ [⟨false, place, g.zd, c⟩], fl := b.fl ||| fl, lfsr := l, mark := (b.mark.orElse fun _ => m).orElse fun _ => mk
                   trail := b.trail ++ [(b.fl ||| fl, l)] })

/-- Why a reduce-copy or a stamp stops: a fault, a sync object in the way, or nothing to be done yet. -/
inductive Halted where
  | fault (off code kind : Nat)
  | sync (off : Nat)
  | stall
  deriving DecidableEq, Repr

/-- The flags that another module's combine answers: free where the combine rounds (R251). -/
def remoteFlags (s : State) (fmt rop : Nat) : Flags :=
  if rop = 0 && fmt < 9 then BitVec.ofNat 6 (Config.freeWord s.free) &&& (Fl.iv ||| Fl.of ||| Fl.uf ||| Fl.nx) else 0

/-- Apply the elements of a reduce-copy's granule write in order: how many, their flags, and why it stopped. `mk` marks
poison among what was read. -/
def applyAll (k : Nat) (u : Unit) (g : Geo) (num rop : Nat) (id : Word) (mk : Option (FaultUnit × Bool)) :
    List (Nat × BitWrite) → State → State × Nat × Flags × Option Halted
  | [], s => (s, 0, 0, none)
  | (e, w) :: r, s =>
    let seq := num * 2 ^ 24 + e + 1
    let next := fun (s : State) (fl : Flags) => match applyAll k u g num rop id mk r s with
      | (s, n, f, st) => (s, n + 1, fl ||| f, st)
    match reachObjTo s k u g.dst.oid (w.bit / 8) ((w.bit + w.w - 1) / 8) true with
    | (s, t) =>
    match home s u rA 0 ((w.bit + w.w - 1) / 8 + 1 - w.bit / 8) t with
    | .at key a =>
      match applyReduce (charge s (groveOf k) 1) 48 key a g.fd.fmt rop w.v Config.deviceId.toNat u.ctx id seq with
      | (s, .done fl) => next (markMoved s a mk) fl
      | (s, .wait) => (s, 0, 0, some .stall)
      | (s, .sync) => (s, 0, 0, some (.sync (w.bit / 8)))
    | .remote dev pa =>
      (match portFor s u.ctx dev with
       | none => (s, 0, 0, some (.fault (w.bit / 8) 0x21 0))
       | some p =>
         let el : ReduceElement := { id := id, poisoned := mk.isSome, sequence := seq, addr := pa, fmt := BitVec.ofNat 4 g.fd.fmt,
                                     rop := BitVec.ofNat 4 rop, v := BitVec.ofNat 64 w.v }
         match remoteAnswer (sendRemote s k dev (.reduce dev p u.ctx el)) dev with
         | (s, false) => (s, 0, 0, some (.fault (w.bit / 8) 0x21 0))
         | (s, true) => next { s with free := s.free + 1 } (remoteFlags s g.fd.fmt rop))
    | .fault kind => (s, 0, 0, some (.fault (w.bit / 8) 0x20 kind))
    | .stall => (s, 0, 0, some .stall)

/-- The source elements that a granule write reads: its own, or whole blocks not yet encoded (R113). -/
def sourceElems (g : Geo) (x : DOp) (es : List Nat) : List Nat :=
  if g.blocks then
    ((es.map (· / 48)).eraseDups.filter fun b => match x.block with
      | some (j, _) => j != b
      | none => true).flatMap fun b => (List.range 48).map (48 * b + ·)
  else es

/-- The copy's generator: its own for a re-issued fill, the unit's register otherwise. -/
def genOf (u : Unit) (x : DOp) : Word := x.lfsr.getD u.r.lfsrd

/-- Finish a granule write: flags, position, block and generator. -/
def stepCopy (s : State) (k : Nat) (o : Op) (b : Batch) (n : Nat) (fl : Flags) : State :=
  let s := updCopy s k o fun p x =>
    { p with flags := p.flags ||| fl, body := .d { x with next := x.next + n, block := b.block, lfsr := x.lfsr.map fun _ => b.lfsr } }
  updUnit s k fun u => if (findOp u .d o.num).any fun p => (match p.body with
      | .d x => x.lfsr.isNone
      | .vl _ | .va _ | .vs _ | .m _ => false) then { u with r := { u.r with lfsrd := b.lfsr } } else u

/-- The next granule write completes bytes of a bound register that the copy may not push. -/
def wrongPush (u : Unit) (bind : Option Nat) : Bool := bind.any fun q => !mayArrive (u.sqAt q)

/-- Write a plain granule write. To another module it is performed, and acknowledged or refused, in this one event (log 85). A cause of any class
holds the copy before it, with nothing of it written (R221, log 89). -/
def plainGran (s : State) (k : Nat) (u : Unit) (o : Op) (x : DOp) (g : Geo) (b : Batch) (es : List Nat) : State :=
  let pieces := b.ws.flatMap granCut
  match reachDest k u g x.desc.mask (leastByte (b.ws.map (·.bit))) (granSpans g.zd (b.ws.map (·.bit))) s with
  | (s, .inl (some (off, kind))) => holdCopy s k u o x x.desc.dst 0x20 off kind true
  | (s, .inl none) => s
  | (s, .inr l) =>
    match remoteTakes s u.ctx l with
    | (s, false) => holdCopy s k u o x x.desc.dst 0x21 ((b.ws.map (·.bit)).headD 0 / 8) 0 true
    | (s, true) =>
    if destSync s l then holdCopy s k u o x x.desc.dst 0x0D ((b.ws.map (·.bit)).headD 0 / 8) 0 true
    else if wrongPush u x.desc.bind then holdCopy s k u o x x.desc.dst 0x07 ((b.ws.map (·.bit)).headD 0 / 8) 0 true
    else
      let bits := b.ws.map (·.bit)
      let s := writeGrans k u.ctx pieces b.mark l s
      let s := b.scales.foldl (fun s e => writeScale s k u g x.desc.mask e.1 e.2.1 e.2.2) s
      let s := match x.desc.bind, l with
        | some _, (_, .at _ _ :: _) :: _ =>
          arrive s k x.desc.bind ((settled g.zd bits (g.pd[x.next + es.length]?)).map fun off => match l.find? fun e => e.1 = off / 64 with
            | some (_, .at key a :: _) => viewByte s key (a + off % 64)
            | _ => 0) (x.next + es.length = g.pd.length)
        | _, _ => s
      stepCopy s k o b es.length b.fl

/-- Write a reduce-copy's granule write: what has been applied stays applied, with the flags and the generator's steps of its conversions; the copy
stops at the first element that is not (R221, R251). -/
def reduceGran (s : State) (k : Nat) (u : Unit) (o : Op) (x : DOp) (g : Geo) (b : Batch) (es : List Nat) (rop : Nat) (id : Word) : State :=
  let part := fun (s : State) (n : Nat) (fl : Flags) =>
    let t := ((0, genOf u x) :: b.trail).getD n (b.fl, b.lfsr)
    stepCopy s k o { b with block := x.block, lfsr := t.2 } n (t.1 ||| fl)
  match applyAll k u g o.num rop id b.mark (List.zip es b.ws) s with
  | (s, n, fl, none) => stepCopy s k o b n (b.fl ||| fl)
  | (s, n, fl, some (.fault off code kind)) => holdCopy (part s n fl) k u o x x.desc.dst code off kind true
  | (s, n, fl, some (.sync off)) => holdCopy (part s n fl) k u o x x.desc.dst 0x0D off 0 true
  | (s, n, fl, some .stall) => part s n fl

/-! ## The order of one stream's copies (R209, R249) -/

/-- The granules of memory that elements `w` bits wide of one side touch, with their scales when they are not raw. What does not translate
has none. -/
def sideGrans (s : State) (k : Nat) (u : Unit) (sd : Side) (mask : BitVec 16) (raw wr : Bool) (w : Nat) (bits : List Nat) : List Nat :=
  match sd.part with
  | some (p, _, _) =>
    let ps := if mask = 0 then [p] else (List.range 16).filterMap fun v => if mask.getLsbD v then (partOf s u.lid v).map (·.1) else none
    let xs := (granules w bits).map (fun g => sd.offset (512 * g)) ++ if raw then [] else bits.filterMap sd.scale
    ps.flatMap fun p => xs.map fun x => pantryAddr p x / 64
  | none => (granules w bits).filterMap fun g => match (reachObj s k u sd.oid (64 * g) wr).2 with
    | .at _ a => some (a / 64)
    | .remote dev pa => some (2 ^ 64 * (dev + 1) + pa / 64)
    | .fault _ | .stall => none

/-- The granule of a stamp still to be written. -/
def stampGran (s : State) (k : Nat) (u : Unit) : Option (Cap × Nat) → List Nat
  | some (c, a) => (match (reach s k u c.oid a true).2 with
    | .at _ a => [a / 64]
    | .remote dev pa => [2 ^ 64 * (dev + 1) + pa / 64]
    | .fault _ | .stall => [])
  | none => []

/-- The Clearing banks that a reduce-copy's next granule write reaches. -/
def reduceBanks (s : State) (k : Nat) (u : Unit) (x : DOp) (g : Geo) : List Nat :=
  let es := range' x.next (x.next + (groupFrom g.zd g.pd x.next).length)
  if x.desc.red.isNone then []
  else (sideGrans s k u g.dst x.desc.mask g.raw true g.zd (es.map fun e => g.pd.getD e 0)).filterMap fun a => bankAt s (64 * a)

/-- The next granule write meets granules that an earlier copy of the stream has still to write, or writes what it has still to read, or an earlier
copy has still to fill the same stream register. -/
def follows (s : State) (k : Nat) (u : Unit) (o : Op) (x : DOp) (g : Geo) : Bool :=
  !x.refill && u.ops.any fun p => p.str = .d && p.num < o.num && match p.body with
    | .d y =>
      (x.desc.bind.isSome && x.desc.bind == y.desc.bind && y.next < prodExt y.desc.srcDims) ||
      let es := range' x.next (x.next + (groupFrom g.zd g.pd x.next).length)
      let mine := sideGrans s k u g.dst x.desc.mask g.raw true g.zd (es.map fun e => g.pd.getD e 0)
      let reads := sideGrans s k u g.src 0 g.raw false g.zs ((sourceElems g x es).map fun e => g.ps.getD e 0)
      let h := geoOf s k u y.desc
      let w0 := sideGrans s k u h.dst y.desc.mask h.raw true h.zd (h.pd.drop y.next) ++ stampGran s k u y.desc.stamp
      let r0 := sideGrans s k u h.src 0 h.raw false h.zs (h.ps.drop y.next)
      mine.any (fun a => w0.elem a || r0.elem a) || reads.any w0.elem
    | .vl _ | .va _ | .vs _ | .m _ => false

/-- A booked Ladle step runs. -/
def ladleRuns (s : State) (l : LeaseSlot) : Bool := match stepAt s l.handle l.step with
  | some st => st.st == .running || st.st == .late
  | none => false

/-- The Ladle may serve this unit: its own booked step runs, no step runs that its D stream has not leased, and no test window stands
(R314, R318, R396). -/
def ladleServes (s : State) (k : Nat) (u : Unit) : Bool :=
  !inWindow s (groveOf k) (curSlot s) &&
  match u.ladle with
  | some l => ladleRuns s l
  | none => !(stepsOn (chainsOf s) 6 (groveOf k) (hearthOf k % 8)).any fun e => e.2.runs

/-- The copy may write: it has started, is not held, the Ladle serves its unit, its budget lasts, the banks of a reduce-copy may serve it, and it
follows the earlier copies where they meet and under .sr (R105). -/
def mayWrite (s : State) (k : Nat) (u : Unit) (o : Op) (x : DOp) (g : Geo) : Bool :=
  x.started && !o.held && ladleServes s k u && !spent s (groveOf k) && decide (x.next < g.pd.length) &&
    (reduceBanks s k u x g).all (mayServe s (128 + hearthOf k)) && !follows s k u o x g && !((copyMode x.desc).1 == .sr && !x.refill && u.ops.any fun p => p.str = .d && p.num < o.num && match p.body with
      | .d y => !y.refill && y.next < prodExt y.desc.srcDims
      | .vl _ | .va _ | .vs _ | .m _ => false)

/-- One granule write. -/
def granule (s : State) (k : Nat) (u : Unit) (o : Op) (x : DOp) : State :=
  let g := geoOf s k u x.desc
  if mayWrite s k u o x g then
    let bits := groupFrom g.zd g.pd x.next
    let es := range' x.next (x.next + bits.length)
    let src := (sourceElems g x es).map fun e => g.ps.getD e 0
    if holdsBack u x.desc.bind (settled g.zd bits (g.pd[x.next + bits.length]?)).length (x.next + bits.length = g.pd.length) then s
    else
      match moveGrans k u g.src (granSpans g.zs src) s with
      | (s, .inl (some (off, code, kind))) => holdCopy s k u o x x.desc.src code off kind false
      | (s, .inl none) => s
      | (s, .inr (gs, mk)) =>
        match es.foldl (batchElem g x.desc gs mk) (charge s (groveOf k) (if g.raw then 0 else scaleGrans g.src src), Batch.empty (genOf u x) x.block) with
        | (s, b) =>
          match x.desc.red with
          | none => plainGran s k u o x g b es
          | some (rop, id) => reduceGran (noteServed s (128 + hearthOf k) (reduceBanks s k u x g)) k u o x g b es rop id
  else s

/-- Use a copy in flight of a unit. -/
def withCopy (p : Place) (num : Nat) (s : State) (f : Nat → Unit → Op → DOp → State) : Out :=
  let k := placeKey p
  .next (match s.units.get? k with
    | none => s
    | some u =>
      match findOp u .d num with
      | some o =>
        match o.body with
        | .d x => f k u o x
        | .vl _ | .va _ | .vs _ | .m _ => s
      | none => s)

def execGranuleWrite (p : Place) (num : Nat) (s : State) : Out := withCopy p num s (granule s)

/-! ## Start (R69, R249, R403) -/

/-- Start an issued copy that has waited for its tick. A unit that drains, for a trap or a rollback, starts none (R372, R386). -/
def startCopy (s : State) (k : Nat) (u : Unit) (o : Op) (x : DOp) : State :=
  if x.started || o.held || !startDue s u x.startAt || u.cause.isSome || u.served.isSome || u.roll.isSome || u.inh then s
  else updCopy (countLate s u x.startAt) k o fun p x => { p with body := .d { x with started := true } }

def execCopyStart (p : Place) (num : Nat) (s : State) : Out := withCopy p num s (startCopy s)

/-! ## Completion (R219, R221, R252) -/

/-- Write the stamp: the D number, 8 bytes; a sync object's line takes none (R212). One to another module goes with a sequence number of its
own, after the payload, each of whose granule writes has been acknowledged (R219, R224). It waits for a spent budget (R325). -/
def stampCopy (s : State) (k : Nat) (u : Unit) (o : Op) (c : Cap) (a : Nat) : State × Option Halted :=
  if spent s (groveOf k) then (s, some .stall)
  else
  match reachTo s k u c.oid a (a + 7) true with
  | (s, r) =>
  match home s u rA 0 8 r with
  | .at key pa =>
    if isSync s pa then (s, some (.sync a))
    else
      let ws := (leBytes 8 o.num).mapIdx fun i b => (pa + i, b)
      (addSig (putBytes (charge s (groveOf k) 1) key ws) k ws, none)
  | .remote dev pa =>
    (match portFor s u.ctx dev with
     | none => (s, some (.fault a 0x21 0))
     | some p =>
       match remoteAnswer { sendRemote s k dev (.stamp dev p u.ctx pa s.nextOrder (BitVec.ofNat 64 o.num)) with nextOrder := s.nextOrder + 1 } dev with
       | (s, true) => (addSig s k ((leBytes 8 o.num).mapIdx fun i b => (pa + i, b)), none)
       | (s, false) => (s, some (.fault a 0x21 0)))
  | .fault kind => (s, some (.fault a 0x20 kind))
  | .stall => (s, some .stall)

/-- The watermarks of a reduce-copy may be freed from now on (R251). -/
def settleMarks (s : State) (ctx : Nat) : Option (Nat × Word) → State
  | none => s
  | some (_, id) => { s with watermarks := s.watermarks.map fun w =>
      if w.dev = Config.deviceId.toNat && w.ctx = ctx && w.id = id then { w with doneAt := some s.time } else w }

/-- A copy completes once its payload is performed and every lower number of its stream has completed. -/
def finishCopy (s : State) (k : Nat) (u : Unit) (o : Op) (x : DOp) : State :=
  if !x.started || o.held || x.next < prodExt x.desc.srcDims ||
      (!x.refill && u.ops.any fun p => p.str = .d && p.num < o.num) then s
  else
    let done := fun (s : State) =>
      let s := settleMarks s u.ctx x.desc.red
      let s := completeOp s k o
      updUnit s k fun u => match x.desc.bind with
        | some q => u.freeProducer q
        | none => u
    match (if x.refill then none else x.desc.stamp) with
    | none => done s
    | some (c, a) =>
      match stampCopy s k u o c a with
      | (s, none) => done s
      | (s, some (.fault off code kind)) => holdCopy s k u o x c code off kind true
      | (s, some (.sync off)) => holdCopy s k u o x c 0x0D off 0 true
      | (s, some .stall) => s

def execCopyComplete (p : Place) (num : Nat) (s : State) : Out := withCopy p num s (finishCopy s)

end Sys2Proof.Machine
end

