-- ==== Sys2Proof/Machine/Flight.lean ====
section
/-! DEFINITION. What happens to operations in flight and to strands: accesses performed (R220, R228), VA write-backs (R154),
strands starting and ending (R85, R86, R291), HALT's end (R298) and the stall detector (R299). -/

namespace Sys2Proof.Machine

/-- Change the state of the unit on a place, if there is one. -/
def onUnit (p : Place) (s : State) (f : Nat → Unit → State) : Out :=
  .next (match s.units.get? (placeKey p) with
    | none => s
    | some u => f (placeKey p) u)

/-- A cause that a fault answer delivers waits for the parked stores before the handler's first word (R379). -/
def Unit.owes (u : Unit) : Bool := !u.owed.isEmpty && !u.inh

/-- The engine streams of a unit may issue: it lives, no cause, fault or rollback stands, and no handler runs (R372 to
R374, R376, R386). -/
def Unit.enginesRun (u : Unit) : Bool :=
  u.killed.isNone && u.cause.isNone && u.served.isNone && u.roll.isNone && !u.inh && !u.owes

/-! ## Accesses -/

/-- A cause of class S is raised, or waits as the second cause. -/
def Unit.faulted (u : Unit) : Bool := u.cause.any (fun c => classOf c.code = .s) || u.cause2.any fun c => classOf c.code = .s

/-- Retry the parked stores of a unit whose fault has been answered (R220, R378); a cause owed to the handler follows them (R379). -/
def retryParked (s : State) (k : Nat) (u : Unit) : State :=
  if u.replay.isEmpty || u.killed.isSome || u.faulted || u.served.isSome || u.roll.isSome then s
  else if u.owes then deliverOwed s k
  else
    match replayAll k u.replay [] s none with
    | (s, some c) => raise s k c
    | (s, none) => s

/-- A vector access is performed, or held at its fault; for the control stream, its parked stores. -/
def execAccessPerform (p : Place) (str : Stream) (num : Nat) (s : State) : Out :=
  onUnit p s fun k u =>
    if str = .c then retryParked s k u
    else
      match findOp u str num with
      | none => s
      | some o =>
        if o.held then s
        else
          match o.body with
          | .vl x => if x.value.isSome then s else performVl s k u o x
          | .vs x => if x.writes.isEmpty then s else performVs s k u o x
          | .va _ | .m _ | .d _ => s

/-- The rows and predicates of a VA result are written, and its number completes. -/
def execVaWriteback (p : Place) (num : Nat) (s : State) : Out :=
  onUnit p s fun k u =>
    match findOp u .va num with
    | none => s
    | some o =>
      match o.body with
      | .va x =>
        let s := x.rows.foldl (fun s r => writeRow s k r.1 r.2.1 r.2.2.2 r.2.2.1) s
        completeOp (updUnit s k fun u => x.preds.foldl (fun u q => u.setVp (BitVec.ofNat 3 q.1) q.2) u) k o
      | .vl _ | .vs _ | .m _ | .d _ => s

/-! ## Segments (R84 to R86, R389) -/

/-- One bit of the reflected CRC-32. -/
def crc32Bit (c : Nat) : Nat := if c % 2 = 1 then (c / 2) ^^^ 0xEDB88320 else c / 2
def crc32Byte (c : Nat) (b : Byte) : Nat := (List.range 8).foldl (fun c _ => crc32Bit c) (c ^^^ b.toNat)
/-- The CRC register after a word's little-endian bytes; the initial value and the final XOR are all ones. -/
def crc32Word (c : Word) (w : Word) : Word := BitVec.ofNat 32 ((leBytes 4 w.toNat).foldl crc32Byte c.toNat)
def crc32Start : Word := BitVec.allOnes 32
def crc32End (c : Word) : Word := ~~~c

/-- The segment entry of a stream whose first word is at an index of the stream's code area. -/
def segmentAt (s : State) (u : Unit) (str : Stream) (start : Nat) : Option SegmentEntry :=
  (codeOf s u).bind fun c => c.segments.find? fun e => e.stream = streamCode str && c.bases.get str + e.start = start

/-- The expected count of a strand run (R85). -/
def expectedCount (e : SegmentEntry) (counts : List Nat) : Nat :=
  e.eOut + counts.getD 2 1 * (e.e2 + counts.getD 1 1 * (e.e1 + counts.getD 0 1 * e.e0))

/-- A segment detection, an event of the hearth. -/
def detectSegment (s : State) (k : Nat) (c : Cause) (kind : Nat) (inj : Bool) : State :=
  raise (detection s (.hearth (hearthOf k)) 0) k { c with code := 0x30, kind := kind, inj := inj }

/-- The comparison at a segment's end. An armed detector reports a mismatch of a kind the spec does not name (R391). -/
def segCheck (s : State) (k : Nat) (str : Stream) (c : Cause) (countOk sigOk : Bool) : State :=
  match injected s (16 * groveOf k + 256 * (hearthOf k % 8) + 2 ^ 18 * streamCode str) with
  | (s, true) => detectSegment { s with free := s.free + 1 } k c (1 + Config.freeWord s.free % 2) true
  | (s, false) =>
    if !countOk then detectSegment s k c 1 false
    else if !sigOk then detectSegment s k c 2 false
    else s

/-- The control segment whose first word stands at the unit's position (R86). -/
def segStart (s : State) (u : Unit) : Option CSeg := (segmentAt s u .c u.r.pc).map fun _ => { entry := u.r.pc, crc := crc32Start }

/-- The control segment that runs after word `w` issued: its CRC takes the instruction word. -/
def noteSegment (s : State) (u : Unit) (w : Word) : Option CSeg :=
  ((segStart s u).orElse fun _ => u.cseg).map fun g => { g with crc := crc32Word g.crc w }

/-- A control segment has come to its end: its count and its signature are compared (R85, R86). The observed count is a free value: the model
holds no timing (log 7). -/
def compareSegment (s : State) (k : Nat) (u : Unit) (g : CSeg) (e : SegmentEntry) : State :=
  segCheck { putUnit s k { u with cseg := none } with free := s.free + 1 } k .c (causeC u 0x30 0 Acc.none)
    (Config.segmentOff s.free = 0) (crc32End g.crc = e.sig)

/-! ## Strands (R148, R291) -/

/-- A word of a code area with its kind; outside the unit's code object it is padding. Words are read under the
context's key, past the banks' detectors. -/
def codeWord (s : State) (u : Unit) (str : Stream) (w : Nat) : State × Word × BitVec 2 × Option Poison :=
  match ctxRec? s u.ctx, codeOf s u with
  | some r, some c =>
    let a := r.areas.get str
    let kind := if c.bases.get str ≤ w && w < c.bases.get str + c.counts.get str then kindAt s r.key a w else 3
    match readIn s r.key (a.base + 4 * w) 4 with
    | (s, bs, p) => (s, BitVec.ofNat 32 (leNat bs), kind, p)
  | _, _ => (s, 0, 3, none)

def codeWords (u : Unit) (str : Stream) : List Nat → State → State × List (Word × BitVec 2) × Option Poison
  | [], s => (s, [], none)
  | w :: r, s =>
    match codeWord s u str w with
    | (s, x, kd, p) =>
      match codeWords u str r s with
      | (s, l, q) => (s, (x, kd) :: l, p.orElse fun _ => q)

/-- A strand as it starts: its words in the strand store, the shadow configuration as its own. -/
def Strand.start (d : DispRec) (words : List (Word × BitVec 2)) (cfg : Tab Word) : Strand :=
  { rcd := d, store := words, off := 0, pass := 0, uses := Vector.replicate 8 0, cfg := cfg, seg := true }

def execStrandStart (p : Place) (str : Stream) (s : State) : Out :=
  onUnit p s fun k u =>
    let q := u.seqr.get str
    match q.queue, q.run with
    | d :: rest, none =>
      if !u.enginesRun then s
      else
        match codeWords u str ((List.range d.len).map (d.start + ·)) s with
        | (s, words, poison) =>
          let u := { u with seqr := u.seqr.set str { queue := rest, run := some (Strand.start d words (u.cpl.cfg.get str)), ending := false },
                             groupSwitch := u.groupSwitch || str = .va }
          match poison with
          | none => putUnit s k u
          | some x => raise (poisonEvent (putUnit s k u) x) k { causeE u str 0x31 x.lvl 0 Acc.none with inj := x.inj }
    | _, _ => s

/-- The end of a strand, with its last word: the close of M's runs is bound to its last command (R189), stream registers without a producer
are released, and the segment is compared. -/
def endStrand (s : State) (k : Nat) (u : Unit) (str : Stream) (r : Strand) (cycles : Nat) : State :=
  let c := causeE u str 0x30 0 0 Acc.none
  let s := if str = .m then endRuns s k u else s
  let s := updUnit s k fun u =>
    let u := { u with seqr := u.seqr.set str { u.seqr.get str with run := none, ending := false } }
    if str = .vs then (List.range 8).foldl Unit.endPushes u else u
  if !r.seg then s
  else
    match segmentAt s u str r.rcd.start with
    | none => s
    | some e => segCheck s k str c (cycles = expectedCount e r.rcd.counts) (crc32End ((r.store.map (·.1)).foldl crc32Word crc32Start) = e.sig)

def execStrandEnd (p : Place) (str : Stream) (cycles : Nat) (s : State) : Out :=
  onUnit p s fun k u =>
    let q := u.seqr.get str
    match q.run with
    | some r => if !q.ending then s else endStrand s k u str r cycles
    | none => s

/-! ## HALT (R298) -/

/-- What HALT waits for has come: queues empty, strands completed, no store parked. -/
def Unit.haltDone (u : Unit) : Bool :=
  u.halting && u.killed.isNone && u.cause.isNone && u.served.isNone && u.roll.isNone && !engineStreams.any u.streamBusy && u.replay.isEmpty

/-- The completion holding buffer takes no halt event (R398). -/
def holdingFull (s : State) : Bool := s.disp.holding && decide (4096 ≤ s.disp.held.length)

/-- HALT may retire: there is room for its halt event. -/
def haltReady (s : State) (u : Unit) : Bool := u.haltDone && !holdingFull s

/-- An issued copy waits for the tick at which it may start (R249, R403). -/
def waitsStart (s : State) (u : Unit) (o : Op) : Bool :=
  match o.body with
  | .d x => !x.started && !o.held && !startDue s u x.startAt
  | .vl _ | .va _ | .vs _ | .m _ => false

/-- The unit is of a cancelled scope, lives, and is in an excused wait: of a stream, of a copy for its start (R403), or of a HALT for room in the
holding buffer (R398). It is to be killed (R346). -/
def Unit.doomed (u : Unit) (s : State) : Bool :=
  u.cancelled && u.killed.isNone &&
    ([Stream.vl, .va, .vs, .m, .d, .c].any (fun t => excused (u.waits.get t)) || u.ops.any (waitsStart s u) || (u.haltDone && holdingFull s))

/-- HALT retires: runs closed, chains without PERS abandoned, leases released, the halt line raised, the bank freed. -/
def retireHalt (s : State) (k : Nat) (u : Unit) : State :=
  let s := releaseAll (dropRequests (abandonOf (closeRuns s k) u false) k) k
  haltEvent (clearBank s k) u.slot ⟨u.index, u.copy, hearthOf k, (again s k u).sig⟩ u.ticket.isSome

/-- The word of HALT (Table 3.10). -/
def haltWord : Word := 0x01D80000

/-- The control segment that ends with the HALT at which the unit stands (R86). -/
def haltSegment (s : State) (u : Unit) : Option (CSeg × SegmentEntry) :=
  (noteSegment s u haltWord).bind fun g => (segmentAt s u .c g.entry).bind fun e =>
    if (u.r.pc + 1) % 2 ^ 24 = (g.entry + e.len) % 2 ^ 24 then some (g, e) else none

/-- A segment that ends with HALT is compared as HALT completes; a detection takes the place of the retirement. -/
def execHaltRetire (p : Place) (s : State) : Out :=
  onUnit p s fun k u =>
    if !haltReady s u then s
    else
      match haltSegment s u with
      | none => retireHalt s k u
      | some (g, e) =>
        let s := compareSegment s k u g e
        match s.units.get? k with
        | none => s
        | some v => if haltReady s v then retireHalt s k v else s

/-! ## The stall-deadlock detector (R299) -/

def allStreams : List Stream := [.vl, .va, .vs, .m, .d, .c]

/-- A wait that the detector looks for. -/
def stuckKind : Option WaitKind → Bool
  | some .token | some .tile | some .streamReg | some .mwait => true
  | some .issueTick | some .memory | some .timeline | some .strands | some .engine | some .replay | some .queueFull | some .drain | some .control
  | some .answer | none => false

/-- The next granule write of a copy waits for slots of its stream register. -/
def waitsSlots (s : State) (k : Nat) (u : Unit) (o : Op) : Bool :=
  match o.body with
  | .d x =>
    let g := geoOf s k u x.desc
    let bits := groupFrom g.zd g.pd x.next
    x.started && !o.held && decide (x.next < g.pd.length) &&
      holdsBack u x.desc.bind (settled g.zd bits (g.pd[x.next + bits.length]?)).length (x.next + bits.length = g.pd.length)
  | .vl _ | .va _ | .vs _ | .m _ => false

/-- A stream that waits so; D also with a copy that has no slot to fill. -/
def stuckStream (s : State) (k : Nat) (u : Unit) : Option Stream :=
  allStreams.find? fun t => stuckKind (u.waits.get t) || (t == .d && u.ops.any (waitsSlots s k u))

/-- A vector sub-stream that waits so before an instruction beyond the slip depth. -/
def slippedStream (u : Unit) : Option Stream :=
  [Stream.vl, .va, .vs].find? fun t => stuckKind (u.waits.get t) && u.waits.get t != some .mwait && slips u t

/-- An operation with no access outstanding: a copy that has started and is stopped at a full stream register, behind such a copy, or by
the order of its stream; or a command whose number waits for the close at its strand's end (R189). -/
def stoppedCopy (s : State) (k : Nat) (u : Unit) (o : Op) : Bool :=
  match o.body with
  | .d x =>
    let g := geoOf s k u x.desc
    x.started && !o.held && (decide (g.pd.length ≤ x.next) || (ladleServes s k u && !spent s (groveOf k) &&
      (!mayWrite s k u o x g || waitsSlots s k u o)))
  | .m m => (engAt s m.eng).power == .awake && (engAt s m.eng).key == some (k, m.slot) && !spent s (groveOf k) && heldForClose s k u o
  | .vl _ | .va _ | .vs _ => false

/-- No word issues, nothing completes and no access is outstanding for 2^22 ticks, while a stream waits for what only a stream can
bring (R299). -/
def deadlocked (s : State) (k : Nat) (u : Unit) : Bool :=
  u.progress + 2 ^ 22 ≤ s.time && u.ops.all (stoppedCopy s k u) && u.replay.isEmpty && u.killed.isNone && u.cause.isNone && u.served.isNone && u.roll.isNone &&
    (stuckStream s k u).isSome && !allStreams.any fun t => u.waits.get t == some .issueTick || u.waits.get t == some .memory

def causeAt (u : Unit) (str : Stream) (code : Nat) : Cause :=
  if str = .c then causeC u code 0 Acc.none else causeE u str code 0 0 Acc.none

def execStallDeadlock (p : Place) (s : State) : Out :=
  onUnit p s fun k u =>
    if !deadlocked s k u then s
    else
      match slippedStream u, stuckStream s k u with
      | some t, _ => raise s k (causeAt u t 0x12)
      | none, some t => raise s k (causeAt u t 0x13)
      | none, none => s

end Sys2Proof.Machine
end

