-- ==== Sys2Proof/Machine/Trap.lean ====
section
/-! DEFINITION. Causes after their drain: delivery to the unit's handler (R373), posting to the fault ring (R376, R377),
rollback (R386 to R388), kills of cancelled units (R346), and errors found in the parts (R389). -/

namespace Sys2Proof.Machine

/-! ## The end of a drain (R372) -/

/-- An operation that cannot go on before the drain's cause is dealt with: its next read is of a page with a parked store, its store finds the
replay queue full, it fills a stream register that nothing empties, or it follows an earlier operation of its stream. A drain leaves it as
it leaves a held one (log 73). -/
def stalledOp (s : State) (k : Nat) (u : Unit) (o : Op) : Bool :=
  match o.body with
  | .vl x => x.value.isNone && (granules ((x.els.head?.map (·.w)).getD 8) (x.els.map (·.bit))).any fun g => parkedOn s u x.cap.oid (64 * g)
  | .va _ => false
  | .vs _ => 32 ≤ u.replay.length
  | .m m =>
    (match m.cmd with
     | .svgath _ _ => u.replay.any fun p => p.cap.oid = m.cap.oid
     | .spbc ta _ => u.replay.any fun p => p.cap.oid = (u.tileAt ta).cap.oid
     | .mlb _ | .mza _ _ | .mla _ _ _ | .mmul _ _ _ | .mmac _ _ _ | .mprom _ | .mpert _ _ _ | .wld _ | .wmul _ _ _ | .wmac _ _ _
     | .svscore _ _ _ | .svtopk _ _ | .ktexp _ _ _ | .ktsmax _ _ _ | .gtqnt _ _ _ | .gtsum _ _ _ | .spred _ _ _ => false)
  | .d x =>
    let g := geoOf s k u x.desc
    if x.next < g.pd.length then
      let bits := groupFrom g.zd g.pd x.next
      let es := range' x.next (x.next + bits.length)
      follows s k u o x g || holdsBack u x.desc.bind (settled g.zd bits (g.pd[x.next + bits.length]?)).length (x.next + bits.length = g.pd.length) ||
        (granules g.zs ((sourceElems g x es).map fun e => g.ps.getD e 0)).any fun b => parkedOn s u x.desc.src.oid (64 * b)
    else u.ops.any fun p => p.str = .d && p.num < o.num

/-- The drain has finished: every operation has completed, is held, or cannot go on, and no control word is under way. -/
def drainDone (s : State) (k : Nat) (u : Unit) : Bool := !underWay s k u && u.ops.all fun o => o.discards || stalledOp s k u o

/-! ## Delivery (R373) -/

def execTrapDelivery (p : Place) (s : State) : Out :=
  onUnit p s fun k u =>
    match u.cause with
    | some c => if classOf c.code = .u && drainDone s k u && u.killed.isNone && u.roll.isNone && u.served.isNone then deliverTrap s k c 0 else s
    | none => s

/-! ## The fault ring (R376, R377) -/

def boolN (b : Bool) (n : Nat) : Nat := if b then n else 0

/-- The record of Table 15.5. -/
def faultRecord (u : Unit) (k fid : Nat) (c : Cause) (time : Nat) : List Nat :=
  [fid + c.code * 2 ^ 32 + c.kind * 2 ^ 40 + streamCode c.str * 2 ^ 44 + boolN c.wr (2 ^ 48) + boolN c.rem (2 ^ 49) + boolN c.refill (2 ^ 50),
   u.ctx + hearthOf k * 2 ^ 12 + boolN (k % 2 == 1) (2 ^ 19), c.oid % 2 ^ 24, c.off % 2 ^ 48, c.word % 2 ^ 24, c.num, u.lid, time]

/-- The drain of a served fault has finished: it takes its id, the bank waits for the answer, and the hearth turns to the other
bank (R19). -/
def serveFault (s : State) (k : Nat) (u : Unit) (c : Cause) : State :=
  let v : Served := { cause := c, fid := s.ring.nextFid, posted := false, answer := none }
  let s := { s with ring := { s.ring with nextFid := (s.ring.nextFid + 1) % 2 ^ 32 } }
  switchFrom (putUnit s k { u.endDrain with served := some v, cause := none, waits := Six.all none }) (hearthOf k) (k % 2 == 1)

/-- Write the record of a served fault and then PROD. -/
def postFault (s : State) (k fid : Nat) (u : Unit) (c : Cause) : State :=
  let base := bits s.ring.fring 47 0
  let n := s.ring.prod
  let a := base + 64 + 64 * (n % 2 ^ bits s.ring.fring 51 48)
  let s := writeBytes s 0 a ((faultRecord u k fid c s.time).flatMap (leBytes 8))
  let s := wr8 s base (n + 1)
  let pl := faultPayload fid c.code c.kind u.ctx
  let s := post s 0x01 (hearthOf k) c.inj pl.1 pl.2
  { s with ring := { s.ring with prod := n + 1, open_ := s.ring.open_ ++ [(fid, k)] }
           units := s.units.upd k fun u => { u with served := u.served.map fun v => { v with posted := true } } }

/-- The record of a served fault is posted while the ring has room, and waits in the bank otherwise; a disabled ring kills (R377). -/
def offerRecord (s : State) (k : Nat) : State :=
  match s.units.get? k with
  | none => s
  | some u =>
    match u.served with
    | none => s
    | some v =>
      let n := bits s.ring.fring 51 48
      if v.posted || u.killed.isSome then s
      else if n = 0 then killUnit s k { v.cause with code := 0x39, kind := 3 } false
      else if 2 ^ n ≤ s.ring.open_.length then s
      else postFault s k v.fid u v.cause

/-- A served fault whose drain has finished takes its id, and its record is posted. -/
def execFaultRecordPost (p : Place) (s : State) : Out :=
  onUnit p s fun k u =>
    match u.cause with
    | some c =>
      if classOf c.code != .s || !drainDone s k u || u.killed.isSome || u.served.isSome then s
      else if bits s.ring.fring 51 48 = 0 then killUnit s k { c with code := 0x39, kind := 3 } false
      else offerRecord (serveFault s k u c) k
    | none => offerRecord s k

/-! ## Rollback (Table 15.7) -/

/-- Steps 2 to 4: what the phase left is discarded and the checkpoint restored. -/
def Unit.restore (u : Unit) (r : Roll) : Unit :=
  { u with
    r := u.ckpt.regs, cpl := u.ckpt.cpl, seqr := Six.all Seqr.idle, latches := [], opbuf := [], groupSwitch := true, matAt := none, remap := none, closing := []
    setup := DSetup.none, ops := [], puts := [], replay := [], sq := Vector.replicate 8 SqReg.empty, written := 0, sealed := false
    building := [], inh := false, cause := none, cause2 := none, served := none, owed := [], halting := false, waits := Six.all none
    cseg := none, body := none, capts := [], roll := some { r with running := true } }

/-- Withdraw the unanswered fault records of a bank. -/
def withdraw (s : State) (k : Nat) : State := { s with ring := { s.ring with open_ := s.ring.open_.filter fun e => e.2 != k } }

/-- A recorded copy as its re-issue: no timeline number, no stamp. -/
def refillOp (u : Unit) (d : CopyDesc) : Op :=
  { str := .d, num := 0, word := u.r.pc, flags := 0, readsT := [], writesT := [], poison := none, held := false
    body := .d { desc := d, startAt := none, started := true, next := 0, block := none, lfsr := some d.lfsr, fill := false, refill := true } }

/-- Steps 6 and 7. The event itself was counted when the detection was made (log 30). -/
def endRollback (s : State) (k : Nat) (u : Unit) (c : Cause) : State :=
  let s := putUnit s k { u with roll := none, retry := u.retry + 1, progress := s.time }
  let pl := faultPayload 0 c.code c.kind u.ctx
  deliverCause2 (bumpLife (post s 0x01 (hearthOf k) c.inj pl.1 pl.2) 0x1F0 1) k

def execRollback (p : Place) (s : State) : Out :=
  onUnit p s fun k u =>
    match u.roll with
    | none => s
    | some r =>
      if u.killed.isSome || u.served.isSome || u.cause.isSome then s
      else if !r.running then
        (if drainDone s k u then
          let s := withdraw (closeRuns s k) k
          updUnit s k fun u => u.restore r
         else s)
      else if !u.ops.isEmpty then s
      else
        match r.refills with
        | d :: rest => putUnit s k { u with ops := [refillOp u d], roll := some { r with refills := rest } }
        | [] => endRollback s k u r.cause

/-! ## Kills (R346) -/

/-- Kill a unit of a cancelled scope: no cause is recorded, and its chains with PERS go as well. -/
def killCancelled (s : State) (k : Nat) (u : Unit) : State := killUnit s k { causeC u 0 0 Acc.none with code := 0 } true

/-- A running unit of a cancelled scope is killed in an excused wait; a killed unit with nothing left in flight leaves its bank (R381). -/
def execUnitKill (p : Place) (s : State) : Out :=
  onUnit p s fun k u =>
    if u.doomed s then killCancelled s k u else freeKilled s k

/-! ## Errors (R389, R392) -/

/-- The level that a record of an error names: KIND of cause 0x31 for the parts that hold data. -/
def errLevel : FaultUnit → Nat
  | .pantryBank _ _ => 1
  | .clearingBank _ => 2
  | .channelGroup _ => 3
  | .hearth _ => 4
  | .engine _ | .ebithPort _ | .sensor _ _ => 0

def execCorrectableError (fu : FaultUnit) (s : State) : Out := .next (takeReport s fu false false (errLevel fu))

/-- An uncorrectable error: a granule or row is marked, a context bank's state kills its unit, a strand store or the loop
buffer is a detection at once. The first mark stays. -/
def execUncorrectableError (fu : FaultUnit) (site : ErrSite) (s : State) : Out :=
  .next (match site with
    | .granule g =>
      let s := takeReport s fu true false (poisonLevel (64 * g))
      if s.poison.has g then s else { s with poison := s.poison.put g (fu, false) }
    | .row h r =>
      let s := takeReport s fu true false 4
      if s.rowPoison.has (192 * h + r) then s else { s with rowPoison := s.rowPoison.put (192 * h + r) (fu, false) }
    | .bank p =>
      let s := detection (takeReport s fu true false 0) fu 2
      match s.units.get? (placeKey p) with
      | some u => raise s (placeKey p) { causeC u 0x38 2 Acc.none with resume := u.r.pc }
      | none => s
    | .store p str =>
      let s := detection (takeReport s fu true false 5) fu 1
      match s.units.get? (placeKey p) with
      | some u => raise s (placeKey p) { causeAt u str 0x31 with kind := 5 }
      | none => s)

end Sys2Proof.Machine
end

