-- ==== Sys2Proof/Machine/Booked.lean ====
section
/-! DEFINITION. Booked steps as they run: holds that expire (R313), prefixes and wakes (R306, R308), late steps, suspensions and
remainders (R317, R318), early finishes and slips (R317, R319), and reservations (R35, R315). -/

namespace Sys2Proof.Machine

/-- A step of a chain, with its chain. -/
def chainStep (s : State) (h : BitVec 32) (n : Nat) : Option (Chain × BStep) :=
  (chainAt s h).bind fun c => (c.steps[n]?).map fun st => (c, st)

/-- Change the state at a step, if the handle names one. -/
def onStep (s : State) (h : BitVec 32) (n : Nat) (f : Chain → BStep → State) : State :=
  match chainStep s h n with
  | some (c, st) => f c st
  | none => s

/-- The engine of a step of classes 0 to 5. -/
def engOf (c : Chain) (st : BStep) : Option EngineId := (clsOf st.cls).map fun cls => ⟨c.g, cls, st.ridx⟩

/-! ## Holds (R313) -/

/-- A hold that expires frees its slots; a chain of this module keeps its entry until CONFIRM or ABANDON. -/
def expireHold (s : State) (h : BitVec 32) : State :=
  match chainAt s h with
  | some c =>
    if c.isHeld && c.steps.any fun st => st.st == .held && st.expired (curSlot s) then
      let s := updChain s h fun c => { c with steps := c.steps.map fun st => { st with st := .cancelled } }
      if c.remote.isSome then sweepChain s h else s
    else s
  | none => s

def execHoldExpiry (handle : BitVec 32) (s : State) : Out := .next (expireHold s handle)

/-! ## Waking an engine (R308) -/

/-- Slots that a zeroising wake takes from the engine's present state. -/
def wakeSlots (p : Power) (cls : Nat) : Nat :=
  match p with
  | .awake => zer cls
  | .retention => retW cls + zer cls
  | .off | .waking _ _ => offW cls

/-- The life-of-part index of a wake (Table 18.3): from off, or from retention. -/
def countWake (s : State) (p : Power) (cls : Nat) : State :=
  match p with
  | .off => bumpLife s (0x1E0 + 2 * cls) 1
  | .retention => bumpLife s (0x1E1 + 2 * cls) 1
  | .awake | .waking _ _ => s

/-- Wake an engine, zeroised, in no fewer than `least` slots. -/
def wakeZero (s : State) (e : EngineId) (ctx least : Nat) (key : Option (Nat × Nat)) : State :=
  let x := engAt s e
  let s := countWake s x.power (clsCode e.cls)
  setEng s e { power := .waking (s.time + 64 * max least (wakeSlots x.power (clsCode e.cls))) false, zero := true, ctx := some ctx, key := key,
               retains := none, scan := x.power == .retention, mem := EngMem.empty }

/-- The state that a new lease finds: its promotion interval is reset (R189). -/
def EngMem.leased (m : EngMem) : EngMem := { m with interval := 0 }

/-- Wake an engine that keeps its state. -/
def wakeKeep (s : State) (e : EngineId) (key : Option (Nat × Nat)) : State :=
  let x := engAt s e
  let s := countWake s x.power (clsCode e.cls)
  setEng s e { x with power := .waking (s.time + 64 * retW (clsCode e.cls)) true, zero := false, key := key, retains := none, scan := true, mem := x.mem.leased }

def Engine.isWaking (x : Engine) : Bool :=
  match x.power with
  | .waking _ _ => true
  | .off | .retention | .awake => false

/-! ## Eviction (R322) -/

/-- The open lease that an engine serves: unit, lease slot, lease. -/
def openLeaseOf (s : State) (e : EngineId) : Option (Nat × Nat × LeaseSlot) :=
  (engAt s e).key.bind fun (k, ls) =>
    match (s.units.get? k).bind fun u => u.leases.toList.getD ls none with
    | some l => if l.isOpen && !l.evicted && l.eng = e then some (k, ls, l) else none
    | none => none

/-- Evict an engine's open lease, with its record; for a booking the engine stays awake. -/
def evictOpen (s : State) (e : EngineId) (booked : Bool) : State :=
  match openLeaseOf s e with
  | none => s
  | some (k, ls, _) =>
    let ctx := ((s.units.get? k).map (·.ctx)).getD 0
    let awake := (engAt s e).power == .awake
    let s := bumpLife (post (evictSlot s k ls) 0x03 (engSrc e) false ctx ls) (0x1D0 + clsCode e.cls) 1
    if booked && awake then setEng s e { engAt s e with power := .awake, key := none } else s

/-- An engine as a booked step takes it: zeroised in its prefix; with prefix 0, as its own context left it. -/
def takeEngine (s : State) (c : Chain) (st : BStep) (e : EngineId) : State :=
  let s := evictOpen s e true
  let x := engAt s e
  if x.isWaking then
    setEng s e { x with key := st.lease, ctx := some c.ctx, mem := if x.ctx = some c.ctx then x.mem.leased else EngMem.empty }
  else if st.pfx != 0 then wakeZero s e c.ctx st.pfx st.lease
  else if x.ctx = some c.ctx then
    match x.power with
    | .awake => setEng s e { x with key := st.lease, zero := false, mem := x.mem.leased }
    | .retention => wakeKeep s e st.lease
    | .off | .waking _ _ => wakeZero s e c.ctx 0 st.lease
  else wakeZero s e c.ctx 0 st.lease

/-! ## The start of a step (R306, R314) -/

/-- The engine of a step serves the lease bound to it. -/
def serveLease (s : State) (c : Chain) (st : BStep) : State :=
  match engOf c st with
  | some e => setEng s e { engAt s e with key := st.lease }
  | none => s

/-- The step proper starts. -/
def runStep (s : State) (h : BitVec 32) (n : Nat) (c : Chain) (st : BStep) : State :=
  serveLease (updStep s h n fun st => { st with st := .running }) c st

/-- A committed step of an engine or Ladle in the slot its prefix begins, and in the slot it starts. -/
def startStep (s : State) (h : BitVec 32) (n : Nat) : State :=
  onStep s h n fun c st =>
    if st.st != .committed || st.rem || 6 < st.cls || curSlot s + st.pfx < st.start then s
    else
      let s := match engOf c st with
        | some e => if curSlot s + st.pfx = st.start then takeEngine s c st e else s
        | none => s
      if st.start ≤ curSlot s then runStep s h n c st else s

def execBookedStepStart (handle : BitVec 32) (step : Nat) (s : State) : Out := .next (startStep s handle step)

/-- A channel-group or Ebith-port step runs at its slots and ends at its last. -/
def runReservation (s : State) (h : BitVec 32) (n : Nat) : State :=
  onStep s h n fun _ st =>
    if st.cls < 7 || (st.st != .committed && st.st != .running) then s
    else if st.last < curSlot s then updStep s h n fun st => { st with st := .ended, endSlot := some st.last }
    else if st.start ≤ curSlot s then updStep s h n fun st => { st with st := .running }
    else s

def execReservationExecute (handle : BitVec 32) (step : Nat) (s : State) : Out :=
  .next (sweepChain (runReservation s handle step) handle)

/-! ## Early finish (R319) -/

/-- Cut a span's START and length at slot `e`; a prefix that ended early keeps only its slots. -/
def cutSpan (start pfx e : Nat) : Nat × Nat × Nat :=
  if start ≤ e then (start, e + 1 - start, pfx) else (e + 1, 0, e + 1 - (start - pfx))

/-- The step gives back its slots after the one it ended in. -/
def BStep.giveBack (st : BStep) (e : Nat) : BStep :=
  match st.rmd with
  | some r =>
    let x := cutSpan r.start (r.pfx + r.reload) e
    { st with rmd := some { pfx := x.2.2, reload := 0, start := x.1, dur := x.2.1 } }
  | none =>
    let x := cutSpan st.start st.pfx e
    if st.ext.isEmpty then { st with start := x.1, dur := x.2.1, pfx := x.2.2 } else st

/-- An ended step that still holds slots. -/
def BStep.early (st : BStep) : Bool :=
  match st.endSlot with
  | some e => st.st == .ended && decide (e < st.last)
  | none => false

def returnSlots (s : State) (h : BitVec 32) (n : Nat) : State :=
  onStep s h n fun _ st =>
    match st.endSlot with
    | some e => if st.early && e < curSlot s then updStep s h n fun st => st.giveBack e else s
    | none => s

def execEarlyFinish (handle : BitVec 32) (step : Nat) (s : State) : Out :=
  let bku := bits handle 31 27
  let closed := s.closing.any fun c => c.handle = handle && c.steps.any BStep.early
  let s' := returnSlots s handle step
  if closed then .next (backfill (clearClosing s' bku) bku) else
  .next (if chainStep s' handle step = chainStep s handle step then s else sweepChain (backfill s' (bits handle 31 27)) handle)

/-! ## Late steps (R317, R318) -/

/-- A step that has not ended at the end of its last booked slot. -/
def BStep.overdue (st : BStep) (cur : Nat) : Bool := st.runs && st.cls < 7 && !st.rem && decide (st.last < cur)

/-- An engine that serves the prefix of a step serves it no more. -/
def leavePrefix (s : State) (c : Chain) (st : BStep) : State :=
  match engOf c st with
  | some e => if st.lease.isSome && (engAt s e).key = st.lease then setEng s e { engAt s e with key := none } else s
  | none => s

/-- Freeze the dependents that have not started. -/
def freeze (s : State) (h : BitVec 32) (n : Nat) : State :=
  (dependents s h n).foldl (fun s d => onStep s d.1 d.2 fun c st =>
    if st.live && !st.started && st.st != .held then
      updStep (leavePrefix s c st) d.1 d.2 fun st => { st with st := .frozen }
    else s) s

/-- Slot t of a late step's resource is free, or frozen in its dependents, and its units fit beside those that frozen steps of other resources keep. -/
def extends_ (s : State) (h : BitVec 32) (n : Nat) (c : Chain) (st : BStep) (t : Nat) : Bool :=
  let ds := dependents s h n
  let others := (chainsOf s).map fun d => { d with steps := d.steps.mapIdx fun i x =>
    if (d.handle = h && i = n) || ((x.st == .frozen || x.st == .held) && onRes d x st.cls c.g st.ridx && ds.elem (d.handle, i)) then
      { x with st := .cancelled }
    else x }
  !resRetired s st.cls c.g st.ridx && !((stepsOn others st.cls c.g st.ridx).any fun e => e.2.at t) && !inWindow s c.g t &&
    (6 ≤ st.cls || (decide (powerUsed s others c.g t + classUnits st.cls ≤ powerLimit s c.g) &&
      decide (unitsAt others c.g t (fun d => d.ctx = c.ctx) + classUnits st.cls ≤ grantUnits s c.ctx)))

/-- Where a remainder goes: the least start after t at which its prefix, reload and slots are free and fit. -/
def remainderAt (s : State) (c : Chain) (st : BStep) (reload dur : Nat) : Nat → Nat → Option Remainder
  | 0, _ => none
  | n + 1, x =>
    let p := pfx s (chainsOf s) st.cls c.g st.ridx (x - reload) c.ctx
    if curSlot s + reload + p < x && fits s (chainsOf s) (curSlot s) c.ctx c.g st st.ridx (x - p - reload) (x + dur - 1) then
      some { pfx := p, reload := reload, start := x, dur := dur }
    else remainderAt s c st reload dur n (x + 1)

/-- Book a suspended step's remainder; with no place within the horizon it is tried again at the next boundary. -/
def bookRemainder (s : State) (h : BitVec 32) (n : Nat) (c : Chain) (st : BStep) : State :=
  match remainderAt s c st (if st.cls ≤ 1 then st.rld else 0) (max 1 st.marg) 4096 (curSlot s + 1) with
  | some r => updStep s h n fun st => { st with rmd := some r }
  | none => s

/-- The command held at a suspension: an MMAC that cannot restart is marked. -/
def markHeld (s : State) (c : Chain) (st : BStep) : State :=
  match st.lease, engOf c st with
  | some (k, ls), some e =>
    let open_ := match (engAt s e).mem.run with
      | some r => !r.int && r.blocks != 0
      | none => false
    updUnit s k fun u => { u with ops := u.ops.map fun o => match o.body with
      | .m m => if m.slot != ls then o else { o with body := .m { m with next := match m.cmd with
          | .mmac _ _ _ => boolN (open_ && m.rows.isEmpty) 1
          | .mlb _ | .mza _ _ | .mla _ _ _ | .mmul _ _ _ | .mprom _ | .mpert _ _ _ | .wld _ | .wmul _ _ _ | .wmac _ _ _ | .svscore _ _ _
          | .svtopk _ _ | .svgath _ _ | .ktexp _ _ _ | .ktsmax _ _ _ | .gtqnt _ _ _ | .gtsum _ _ _ | .spred _ _ _ | .spbc _ _ => 0 } }
      | .vl _ | .va _ | .vs _ | .d _ => o }
  | _, _ => s

/-- Suspend a step: its engine serves it no more, and its state counts as lost. An engine that has gone over to another step is that one's. -/
def suspend (s : State) (h : BitVec 32) (n : Nat) (c : Chain) (st : BStep) : State :=
  let s := markHeld s c st
  let s := match engOf c st with
    | some e => if (engAt s e).key = st.lease then setEng s e { engAt s e with key := none, mem := EngMem.empty } else s
    | none => s
  let s := updStep s h n fun st => { st with st := .suspended, wasSusp := true, rmd := none }
  bookRemainder s h n c { st with st := .suspended, rmd := none }

/-- A late step at the boundary of the current slot: it extends, or is suspended. -/
def lateAt (s : State) (h : BitVec 32) (n : Nat) : State :=
  onStep s h n fun c st =>
    if st.st == .suspended && st.rmd.isNone then bookRemainder s h n c st
    else if !st.overdue (curSlot s) then s
    else
      let s := freeze s h n
      if extends_ s h n c st (curSlot s) then updStep s h n fun st => { st with st := .late, ext := st.ext ++ [curSlot s] }
      else suspend s h n c st

def execStepLate (handle : BitVec 32) (step : Nat) (s : State) : Out := .next (lateAt s handle step)

/-! ## Remainders (R318) -/

/-- Abandon the command of a lease slot and mark the slot evicted, with its record; the engine stays awake for the step. -/
def evictKeep (s : State) (k ls : Nat) (e : EngineId) : State :=
  let p := (engAt s e).power
  let ctx := ((s.units.get? k).map (·.ctx)).getD 0
  let s := bumpLife (post (evictSlot s k ls) 0x03 (engSrc e) false ctx ls) (0x1D0 + clsCode e.cls) 1
  setEng s e { engAt s e with power := p }

/-- What becomes of a command that the suspension held: none for one that needs the lost state. -/
def heldFate (s : State) (k : Nat) (u : Unit) (m : MOp) : State × Option MOp :=
  match m.cmd with
  | .mmac acc _ n =>
    if m.next = 1 then (s, none)
    else if m.rows.isEmpty then
      match readRows k u (range' acc (acc + n)) s with
      | (s, rows, _) => (s, some { m with rows := rows })
    else (s, some m)
  | .svtopk _ _ => (s, none)
  | .spred _ _ op => (s, if op = 3 then none else some { m with next := 0 })
  | .mlb _ | .mza _ _ | .mla _ _ _ | .mmul _ _ _ | .mprom _ | .mpert _ _ _ | .wld _ | .wmul _ _ _ | .wmac _ _ _ | .svscore _ _ _
  | .svgath _ _ | .ktexp _ _ _ | .ktsmax _ _ _ | .gtqnt _ _ _ | .gtsum _ _ _ | .spbc _ _ => (s, some { m with next := 0 })

/-- The command of a lease slot in flight. -/
def commandOn (u : Unit) (ls : Nat) : Option Op := u.ops.find? fun o => match o.body with
  | .m m => m.slot = ls
  | .vl _ | .va _ | .vs _ | .d _ => false

/-- The cause of a reload: that of the command in flight, or of the M stream. -/
def causeLoad (u : Unit) (ls code kind : Nat) (a : Acc) : Cause :=
  match commandOn u ls with
  | some o => causeO u o code kind a
  | none => causeE u .m code kind u.cpl.issued.m a

/-- Repeat the slot's last MLB or WLD from its tile region, with no full/empty wait; false when it has still to be done: it stalls, the budget is
spent, or it meets a fault, which is that of the command and holds it (R221, R318, R325, log 98). -/
def reload (s : State) (k ls : Nat) (u : Unit) (l : LeaseSlot) : State × Bool :=
  match l.load with
  | none => (s, true)
  | some cap =>
    let o := regionOperand s k u 0 cap 0
    if spent s (groveOf k) then (s, false)
    else
      match (if l.eng.cls = .griddle then loadB s k ls u l.eng o else loadW s k ls u l.eng o) with
      | .ok s fl none _ => (updUnit s k fun u => u.addFlags fl, true)
      | .ok s fl (some q) _ =>
        (raise (poisonEvent (updUnit s k fun u => u.addFlags fl) q) k { causeLoad u ls 0x31 q.lvl Acc.none with inj := q.inj }, true)
      | .fault s code off kind oid wr =>
        if u.cause.isSome || u.served.isSome then (s, false)
        else
          let s := updUnit s k fun u => { u with ops := u.ops.map fun p => if (commandOn u ls).any fun o => p.str = o.str && p.num = o.num then { p with held := true } else p }
          (raise s k (causeLoad u ls code kind ⟨oid, off, wr, levelOf s u.ctx oid == some 3⟩), false)
      | .stall s => (s, false)

/-- The remainder runs, and its engine has still to reload. -/
def owesReload (s : State) (c : Chain) (st : BStep) : Bool :=
  st.runs && st.rmd.isSome && st.lease.isSome && match engOf c st with
    | some e => (engAt s e).key != st.lease
    | none => false

/-- The remainder starts: reload, then the held command restarts or is abandoned. Until the reload is done the engine does not serve the slot, and
it is tried again at each boundary. -/
def resumeStep (s : State) (h : BitVec 32) (n : Nat) (c : Chain) (st : BStep) : State :=
  let s := if st.runs then serveLease s c st else runStep s h n c st
  match st.lease with
  | none => s
  | some (k, ls) =>
    match s.units.get? k, (s.units.get? k).bind fun u => u.leases.toList.getD ls none with
    | some u, some l =>
      if st.cls = 6 then s
      else
        match reload s k ls u l with
        | (s, false) => setEng s l.eng { engAt s l.eng with key := none }
        | (s, true) =>
        match commandOn u ls with
        | none => s
        | some o =>
          match o.body with
          | .m m =>
            match heldFate s k u m with
            | (s, some m) => updUnit s k fun u => u.setOp { o with body := .m m }
            | (s, none) => updStep (evictKeep s k ls l.eng) h n fun st => { st with lease := none }
          | .vl _ | .va _ | .vs _ | .d _ => s
    | _, _ => s

/-- An engine's state counts as lost, whatever power it has. -/
def wipe (s : State) (e : EngineId) : State := setEng s e { engAt s e with mem := EngMem.empty }

/-- A suspended step in the slot its remainder's prefix begins, and in the slot its remainder starts; one that runs and has still to reload. -/
def remainderOf (s : State) (h : BitVec 32) (n : Nat) : State :=
  onStep s h n fun c st =>
    match st.rmd with
    | none => s
    | some r =>
      let first := r.start - r.reload - r.pfx
      if owesReload s c st then resumeStep s h n c st
      else if st.st != .suspended || curSlot s < first then s
      else
        let s := match engOf c st with
          | some e => if curSlot s = first then wipe (takeEngine s c { st with pfx := r.pfx } e) e else s
          | none => s
        if r.start ≤ curSlot s then resumeStep s h n c st else s

def execRemainderStart (handle : BitVec 32) (step : Nat) (s : State) : Out := .next (remainderOf s handle step)

/-! ## Slip events (R317) -/

/-- A late step that ended in the slot before, or earlier. -/
def slipDue (s : State) (st : BStep) : Bool := st.slipOwed && st.endSlot.any fun e => decide (e < curSlot s)

def serveSlip (s : State) (h : BitVec 32) (n : Nat) : State :=
  onStep s h n fun _ st =>
    if slipDue s st then updStep (slip s h n) h n fun st => { st with intr := [] } else s

def execSlipEvent (handle : BitVec 32) (step : Nat) (s : State) : Out := .next (sweepChain (serveSlip s handle step) handle)

end Sys2Proof.Machine
end

