-- ==== Sys2Proof/Machine/Boundary.lean ====
section
/-! DEFINITION. Open leases (R321 to R323), engines waking and groves in retention (R23, R324), byte budgets and frequencies
(R325, R326), and the order of work at a slot boundary (R327). -/

namespace Sys2Proof.Machine

/-! ## Engines of a grove -/

def engOfKey (n : Nat) : Option EngineId := (clsOf (n % 128 / 16)).map fun c => ⟨n / 128, c, n % 16⟩

/-- The open leases of a grove. -/
def openLeases (s : State) (g : Nat) : List (EngineId × Nat × LeaseSlot) :=
  (s.engines.filter fun e => e.1 / 128 = g).filterMap fun e =>
    (engOfKey e.1).bind fun id => (openLeaseOf s id).map fun x => (id, x.1, x.2.2)

def unitCtx (s : State) (k : Nat) : Nat := ((s.units.get? k).map (·.ctx)).getD 4096

/-- Units of the open leases that satisfy `p` of their context. -/
def openUnits (s : State) (g : Nat) (p : Nat → Bool) : Nat :=
  (((openLeases s g).filter fun e => p (unitCtx s e.2.1)).map fun e => classUnits (clsCode e.1.cls)).foldl (· + ·) 0

/-- A committed booking, or a test window, holds the engine in slot t. -/
def bookedAt (s : State) (e : EngineId) (t : Nat) : Bool :=
  inWindow s e.g t || (stepsOn (chainsOf s) (clsCode e.cls) e.g e.i).any fun x => x.2.live && x.2.st != .held && x.2.at t

/-! ## Evictions (R322) -/

/-- The chains without what is only held. -/
def committedChains (s : State) : List Chain := (chainsOf s).map fun c => { c with steps := c.steps.filter fun st => st.st != .held }

/-- A context of the grove exceeds its grant, committed bookings and open leases together. -/
def overGrant (s : State) (g ctx : Nat) : Bool :=
  decide (grantUnits s ctx < unitsAt (committedChains s) g (curSlot s) (fun c => c.ctx = ctx) + openUnits s g (· == ctx))

def overLimit (s : State) (g : Nat) : Bool :=
  decide (powerLimit s g < powerUsed s (committedChains s) g (curSlot s) + openUnits s g fun _ => true)

/-- The open lease that power evicts next: the lowest effective priority, youngest first. -/
def powerVictim (s : State) (g : Nat) : Option EngineId :=
  let cs := (openLeases s g).filter fun e => overLimit s g || overGrant s g (unitCtx s e.2.1)
  (cs.foldl (fun (b : Option (EngineId × Nat × LeaseSlot)) e => match b with
    | none => some e
    | some x => if e.2.2.prio < x.2.2.prio || (e.2.2.prio = x.2.2.prio && x.2.2.order < e.2.2.order) then some e else some x) none).map (·.1)

def evictPower (g : Nat) : Nat → State → State
  | 0, s => s
  | n + 1, s => match powerVictim s g with
    | some e => evictPower g n (evictOpen s e false)
    | none => s

/-- The open lease of an engine has to go, other than for power: for a booking, MAXD, or retirement (R392). -/
def expelled (s : State) (e : EngineId) (l : LeaseSlot) : Bool := bookedAt s e (curSlot s) || l.ends ≤ curSlot s || isRetired s (.engine e)

def expel (s : State) (e : EngineId) : State :=
  match openLeaseOf s e with
  | some (_, _, l) => if expelled s e l then evictOpen s e (bookedAt s e (curSlot s)) else s
  | none => s

def execOpenLeaseEviction (e : EngineId) (s : State) : Out :=
  .next (match openLeaseOf s e with
    | some (_, _, l) => if expelled s e l then expel s e else if powerVictim s e.g = some e then evictOpen s e false else s
    | none => s)

/-- Row 6 of Table 12.8. -/
def evictions (s : State) (g : Nat) : State :=
  let es := (openLeases s g).map (·.1)
  let s := (es.filter fun e => bookedAt s e (curSlot s)).foldl expel s
  evictPower g 48 (es.foldl expel s)

/-! ## Grants (R321) -/

def effPrio (s : State) (r : OpenReq) : Nat := min 15 (r.prio + (s.time - r.tick) / 16384)

/-- The engine holds no lease, is not retired, is not booked in this slot or the next, and its units fit. -/
def grantable (s : State) (r : OpenReq) (e : EngineId) : Bool :=
  let ctx := unitCtx s r.key
  let t := curSlot s
  (engAt s e).key.isNone && !isRetired s (.engine e) && !bookedAt s e t && !bookedAt s e (t + 1) &&
    decide (powerUsed s (chainsOf s) r.g t + openUnits s r.g (fun _ => true) + classUnits r.cls ≤ powerLimit s r.g) &&
    decide (unitsAt (chainsOf s) r.g t (fun c => c.ctx = ctx) + openUnits s r.g (· == ctx) + classUnits r.cls ≤ grantUnits s ctx)

/-- The slot in which an engine's next committed booking starts. -/
def nextBooking (s : State) (e : EngineId) : Option Nat :=
  ((bookingsOn s e).filter fun x => curSlot s < x.2.1).foldl
    (fun b x => match b with
      | none => some x.2.1
      | some y => some (min y x.2.1)) none

def holdsState (s : State) (r : OpenReq) (e : EngineId) : Bool :=
  (engAt s e).retains == some (r.key, r.ls) && (engAt s e).power == .retention

/-- The choice of R321: retained state, then the latest next booking, then the lowest index. -/
def chooseEngine (s : State) (r : OpenReq) : Option EngineId :=
  let es := (List.range (classCount r.cls)).filterMap fun i => if r.emask = 0 || r.emask.testBit i then (clsOf r.cls).map fun c => ⟨r.g, c, i⟩ else none
  let better := fun (a b : EngineId) =>
    if holdsState s r a != holdsState s r b then holdsState s r a
    else match nextBooking s a, nextBooking s b with
      | none, some _ => true
      | some x, some y => decide (y < x)
      | _, none => false
  (es.filter (grantable s r)).foldl (fun b e => match b with
    | none => some e
    | some x => if better e x then some e else some x) none

/-- Grant a request an engine: the lease takes its slot, and the engine wakes. -/
def grant (s : State) (r : OpenReq) (e : EngineId) : State :=
  let x := engAt s e
  let kept := holdsState s r e
  let key := some (r.key, r.ls)
  let st := if kept then 1 else ((s.units.get? r.key).map fun u => leaseState u r.ls).getD 0
  let ticks := 64 * (if kept then retW r.cls else if x.power == .awake && x.zero then 0 else wakeSlots x.power r.cls)
  let s := { forgetRetained s (r.key, r.ls) with nextOrder := s.nextOrder + 1 }
  let order := s.nextOrder
  let s := if kept then wakeKeep s e key
    else if ticks = 0 then setEng s e { x with key := key, ctx := some (unitCtx s r.key), retains := none, mem := x.mem.leased }
    else wakeZero s e (unitCtx s r.key) 0 key
  let l : LeaseSlot := { eng := e, handle := 0, step := 0, isOpen := true, evicted := false, start := s.time + ticks, ends := curSlot s + r.maxd,
                         prio := effPrio s r, order := order, load := none }
  let s := updUnit s r.key fun u => u.takeLease r.ls l
  { s with openReqs := s.openReqs.map fun q => if q.key = r.key then { q with granted := some (e, st) } else q }

/-- Every request of a grove that can be granted, in queue order. -/
def grants (s : State) (g : Nat) : State :=
  let qs := sortBy (fun (a b : OpenReq) => decide (a.cls < b.cls) || (a.cls = b.cls &&
    (decide (effPrio s b < effPrio s a) || (effPrio s a = effPrio s b && decide (a.order ≤ b.order)))))
    (s.openReqs.filter fun r => r.g = g && r.granted.isNone)
  qs.foldl (fun s r => match chooseEngine s r with
    | some e => grant s r e
    | none => s) s

def execOpenLeaseGrant (g : Nat) (s : State) : Out := .next (grants s g)

/-! ## Waking (R23, R324) -/

/-- A retention element of an engine is lost: its state goes, and a lease that would report KEPT reports LOST. -/
def loseRetained (s : State) (e : EngineId) (inj : Bool) : State :=
  let s := takeReport s (.engine e) true inj 0
  let c := (engAt s e).ctx
  let s := loseState s e
  let s := setEng s e { engAt s e with ctx := c, zero := true }
  { s with openReqs := s.openReqs.map fun r => if r.granted = some (e, 1) then { r with granted := some (e, 2) } else r }

/-- A parity scan of an engine's retention elements; `lost` is what it finds. -/
def scanEngine (s : State) (e : EngineId) (lost : Bool) : State :=
  match injected s (8 + 16 * e.g + 256 * (16 * clsCode e.cls + e.i)) with
  | (s, inj) => if lost || inj then loseRetained s e (inj && !lost) else s

def execEngineAwake (e : EngineId) (lost : Bool) (s : State) : Out :=
  .next (match (engAt s e).power with
    | .waking t _ =>
      if s.time < t then s
      else
        let scan := (engAt s e).scan
        let s := setEng s e { engAt s e with power := .awake, scan := false }
        if scan then scanEngine s e lost else s
    | .off | .retention | .awake => s)

/-- No unit of the grove runs, no engine is awake, and nothing is booked within 64 slots. -/
def groveIdle (s : State) (g : Nat) : Bool :=
  !(s.units.any fun e => e.1 / 16 = g && (e.2.ready || e.2.killed.isSome)) &&
  !(s.engines.any fun e => e.1 / 128 = g && (e.2.power == .awake || e.2.isWaking)) &&
  !((chainsOf s).any fun c => c.g = g && c.steps.any fun st => st.live && st.cls < 7 && st.start - st.pfx < curSlot s + 64 + 1) &&
  (match (groveAt s g).window with
   | some w => decide (w + 192 ≤ curSlot s) || decide (curSlot s + 64 < w)
   | none => true)

/-- A lost element of a grove that leaves retention. -/
def loseElement (s : State) : LostElement → State
  | .engine e => if (engAt s e).power == .retention then loseRetained s e false else s
  | .bank p =>
    match s.units.get? (placeKey p) with
    | some u => raise (detection s (.hearth p.h.toNat) 2) (placeKey p) { causeC u 0x38 1 Acc.none with resume := u.r.pc }
    | none => s

def execGroveRetention (g : Nat) (enter : Bool) (lost : List LostElement) (s : State) : Out :=
  .next (if enter then (if groveIdle s g then updGrove s g fun x => { x with retention := true } else s)
    else if (groveAt s g).retention then
      let s := updGrove s g fun x => { x with retention := false }
      let es := (s.engines.filter fun e => e.1 / 128 = g && e.2.power == .retention).filterMap fun e => engOfKey e.1
      (lost.filter fun x => match x with
        | .engine e => e.g == g
        | .bank p => p.h.toNat / 8 == g).foldl loseElement (es.foldl (fun s e => scanEngine s e false) s)
    else s)

/-! ## Budgets and frequencies (R325, R326, R395, R405, R406) -/

/-- A new interval: nothing is counted in it yet, and the grants as they stand bind it (R33). -/
def execBudgetIntervalStart (g : Nat) (s : State) : Out :=
  .next { updGrove s g fun x => { x with used := 0 } with
    ctxs := (updGrove s g fun x => { x with used := 0 }).ctxs.map fun e => (e.1, { e.2 with bb := e.2.grant.bb }) }

/-- The largest MINF of the contexts in a grove and of their running launches, and whether all are boost-eligible. -/
def largestMinf (s : State) (g : Nat) : Nat × Bool :=
  let us := s.units.filter fun e => e.1 % 256 / 16 = g
  let ls := us.filterMap fun e => launchAt s e.2.slot
  (((us.map fun e => ((grantOf s e.2.ctx).map (·.minf)).getD 0) ++ ls.map fun l => pktMinf l.pkt).foldl max 0,
    (us.all fun e => ((grantOf s e.2.ctx).map (·.boost)).getD false) && ls.all fun l => ((grantOf s l.ctx).map (·.boost)).getD false)

/-- The set frequency of a grove, 700 MHz or above (R326). -/
def setFreq (s : State) (g : Nat) : Nat :=
  match largestMinf s g with
  | (m, boost) => if boost then max 28 m else 28

/-- The frequency of a grove that the Forester lowers by `steps` of 25 MHz: never below the largest MINF, except for the holds
of 400 and 300 MHz. A grove at its safe frequency runs at 400 MHz whatever it was lowered by (R395, R406). -/
def groveFreq (s : State) (g steps : Nat) : Nat :=
  let x := groveAt s g
  let f := max (setFreq s g - steps) (max 12 (min (setFreq s g) (largestMinf s g).1))
  let f := if x.safe || x.hot then 16 else f
  if s.lowSupply then min f 12 else f

def setGroveFreq (s : State) (g steps : Nat) : State :=
  let f := groveFreq s g steps
  updGrove s g fun x => { x with freq := f, lowered := steps }

/-- The Forester lowers a grove by `steps`: at a slot boundary now, else from the next one on (R30, R326). -/
def execFrequencyChange (g steps : Nat) (s : State) : Out :=
  .next (if s.time % 64 = 0 then setGroveFreq s g steps else updGrove s g fun x => { x with lowered := steps })

/-! ## The slot boundary (R327) -/

/-- The steps of a BKU that satisfy `p`, by class code and then by index. -/
def bkuSteps (s : State) (bku : Nat) (p : BStep → Bool) : List (BitVec 32 × Nat) :=
  let l := ((chainsOf s).filter fun c => bits c.handle 31 27 = bku).flatMap fun c =>
    (c.steps.mapIdx fun i st => (c.handle, i, st)).filter fun e => p e.2.2
  (sortBy (fun (a b : BitVec 32 × Nat × BStep) => decide (a.2.2.cls < b.2.2.cls) || (a.2.2.cls = b.2.2.cls && decide (a.2.2.ridx ≤ b.2.2.ridx))) l).map
    fun e => (e.1, e.2.1)

/-- An awake or waking engine that serves nothing and is not booked rests: off, or in retention (R308). -/
def restEngines (s : State) (g : Nat) : State :=
  ((s.engines.filter fun e => e.1 / 128 = g && e.2.key.isNone && (e.2.power == .awake || e.2.isWaking)).filterMap fun e => engOfKey e.1).foldl
    (fun s e => if bookedAt s e (curSlot s) then s else engineEnd s e false none) s

/-- Sweep the chains of a BKU whose steps have all ended or been cancelled. An expired hold keeps its entry (R313). -/
def sweepAll (s : State) (bku : Nat) : State :=
  ((chainsOf s).filter fun c => bits c.handle 31 27 = bku && !c.isHeld).foldl (fun s c => sweepChain s c.handle) s

/-- The steps of a BKU that begin their prefix, start or run in the current slot. -/
def startAll (s : State) (bku : Nat) : State :=
  (bkuSteps s bku BStep.live).foldl (fun s e => runReservation (remainderOf (startStep s e.1 e.2) e.1 e.2) e.1 e.2) s

/-- The work of one BKU at a slot boundary, in the order of Table 12.8, and the starts of its steps. The last BKU looks again at the steps of all: a slip
of its own may have re-placed one that begins in this slot (R308, R317). -/
def boundary (s : State) (bku : Nat) : State :=
  let s := ((chainsOf s).filter fun c => bits c.handle 31 27 = bku).foldl (fun s c => expireHold s c.handle) s
  let s0 := s
  let early := bkuSteps s bku BStep.early
  let s := clearClosing (early.foldl (fun s e => returnSlots s e.1 e.2) s) bku
  let s := (bkuSteps s bku fun st => st.overdue (curSlot s) || (st.st == .suspended && st.rmd.isNone)).foldl (fun s e => lateAt s e.1 e.2) s
  let s := (bkuSteps s bku (slipDue s)).foldl (fun s e => serveSlip s e.1 e.2) s
  let s := ((List.range 17).filter fun b => (b = bku && !early.isEmpty) || freedOn s0 s b).foldl backfill s
  let s := if bku < 16 then restEngines (grants (evictions s bku) bku) bku else s
  sweepAll ((if bku = 16 then List.range 17 else [bku]).foldl startAll s) bku

def execSlotBoundary (bku : Nat) (s : State) : Out := .next (boundary s bku)

end Sys2Proof.Machine
end

