-- ==== Sys2Proof/Machine/CapOps.lean ====
section
/-! DEFINITION. The capability instructions (R260 to R263). -/

namespace Sys2Proof.Machine

/-- A capability result written whole, after every source is read. -/
def capT (n : Nxt) (x ca : CReg) (f : Unit → Cap → Cap) (s : State) : Out :=
  ctl s (actOf n) 1 fun s u => .ok s (u.setC x (f u (u.creg ca)))

def execCmov (n : Nxt) (x ca : CReg) (s : State) : Out := capT n x ca (fun _ c => c) s
def execCinc (n : Nxt) (x ca : CReg) (a : SReg) (s : State) : Out :=
  capT n x ca (fun u c => c.withCursor ((c.cursor + (u.sreg a).toNat) % 2 ^ 48)) s
def execCset (n : Nxt) (x ca : CReg) (a : SReg) (s : State) : Out :=
  capT n x ca (fun u c => c.withCursor (bits (u.sreg a) 47 0)) s

/-- NB and NL of CNARROW; none is the operand-range trap (R261). -/
def narrowWindow (cur : Bool) (c : Cap) (v : Double) : Option (Nat × Nat) :=
  if cur then (if bits v 63 24 != 0 then none else some (c.cursor / 65536, bits v 23 0))
  else (if bits v 63 48 != 0 then none else some (bits v 23 0, bits v 47 24))

def execCnarrow (n : Nxt) (x ca : CReg) (a : SReg) (f : BitVec 4) (s : State) : Out :=
  ctl s (actOf n) 1 fun s u =>
    let c := u.creg ca
    match narrowWindow (f == 1) c (u.sreg a) with
    | none => .trap s 0x07 0 Acc.none
    | some (nb, nl) =>
      let a := { Acc.none with oid := c.oid }
      if c.tag && !hasRights c.rights rD then .trap s 0x0A 2 a
      else if c.tag && (nl = 0 || nb < c.base || c.base + c.len < nb + nl) then .trap s 0x0A 3 a
      else .ok s (u.setC x (Cap.mk' c.tag c.oid c.rights nb nl c.cursor))

/-- The rights that CDROP clears; none is the operand-range trap (R262). -/
def dropMask (v : Double) (f : BitVec 4) : Option Nat :=
  if bits v 63 7 != 0 then none else some (f.toNat ||| bits v 6 0)

def execCdrop (n : Nxt) (x ca : CReg) (a : SReg) (f : BitVec 4) (s : State) : Out :=
  ctl s (actOf n) 1 fun s u =>
    let c := u.creg ca
    match dropMask (u.sreg a) f with
    | none => .trap s 0x07 0 Acc.none
    | some m => .ok s (u.setC x (Cap.mk' c.tag c.oid (c.rights &&& (255 ^^^ m)) c.base c.len c.cursor))

/-- The fields of Table 10.4. -/
def capField (c : Cap) (f : BitVec 4) : Nat :=
  match f.toNat with
  | 0 => c.oid
  | 1 => c.rights
  | 2 => c.base
  | 3 => c.len
  | 4 => c.cursor
  | 5 => if c.tag then 1 else 0
  | 6 => 65536 * c.base
  | 7 => 65536 * (c.base + c.len)
  | 8 => bits c.v 63 0
  | _ => bits c.v 127 64

def execCget (n : Nxt) (x : SReg) (ca : CReg) (f : BitVec 4) (s : State) : Out :=
  ctl s (actOf n) 1 fun s u => .ok s (u.setS x (BitVec.ofNat 64 (capField (u.creg ca) f)))

/-- The tests of Table 10.4. -/
def capTest (c : Cap) (v : Double) (f : BitVec 4) : Bool :=
  c.tag && match f.toNat with
    | 0 => true
    | 1 => hasRights c.rights (bits v 7 0)
    | _ => 1 ≤ v.toNat && 65536 * c.base ≤ c.cursor && c.cursor + v.toNat ≤ 65536 * (c.base + c.len)

def execCtst (n : Nxt) (x : PReg) (ca : CReg) (a : SReg) (f : BitVec 4) (s : State) : Out :=
  ctl s (actOf n) 1 fun s u => .ok s (u.setP x (capTest (u.creg ca) (u.sreg a) f))

end Sys2Proof.Machine
end

