-- ==== Sys2Proof/Machine/LsOps.lean ====
section
/-! DEFINITION. Scalar loads and stores (R229 to R231), Clearing atomics (R232, R233) and the
synchronisation instructions (R234 to R239). -/

namespace Sys2Proof.Machine

/-! ## Loads and stores -/

/-- A load of n bytes into s[d] (Table 9.2). -/
def loadS (n : Nat) (ext : Nat → Double) (nx : Nxt) (d : SReg) (c : CReg) (m : AMode) (s : State) : Out :=
  ctl s (actOf nx) (modeLen m) fun s u =>
    let cp := u.creg c
    scalarLoad s s.cur.1 u cp (modeOffset u cp n m) n fun s bs _ p =>
      okPoison s ((u.setS d (ext (leNat bs))).advance c cp.cursor n m) p

def zext64 (v : Nat) : Double := BitVec.ofNat 64 v
def sext64 (w v : Nat) : Double := BitVec.ofInt 64 (sxt w v)

def execLdb (n : Nxt) (d : SReg) (c : CReg) (m : AMode) (s : State) : Out := loadS 1 (sext64 8) n d c m s
def execLdbz (n : Nxt) (d : SReg) (c : CReg) (m : AMode) (s : State) : Out := loadS 1 zext64 n d c m s
def execLdh (n : Nxt) (d : SReg) (c : CReg) (m : AMode) (s : State) : Out := loadS 2 (sext64 16) n d c m s
def execLdhz (n : Nxt) (d : SReg) (c : CReg) (m : AMode) (s : State) : Out := loadS 2 zext64 n d c m s
def execLdw (n : Nxt) (d : SReg) (c : CReg) (m : AMode) (s : State) : Out := loadS 4 (sext64 32) n d c m s
def execLdwz (n : Nxt) (d : SReg) (c : CReg) (m : AMode) (s : State) : Out := loadS 4 zext64 n d c m s
def execLdd (n : Nxt) (d : SReg) (c : CReg) (m : AMode) (s : State) : Out := loadS 8 zext64 n d c m s

/-- The bytes and the stored tag together (R231). -/
def execLdc (n : Nxt) (d : CReg) (c : CReg) (m : AMode) (s : State) : Out :=
  ctl s (actOf n) (modeLen m) fun s u =>
    let cp := u.creg c
    scalarLoad s s.cur.1 u cp (modeOffset u cp 16 m) 16 fun s bs pa p =>
      okPoison s ((u.setC d ⟨s.tags.has (pa / 16), BitVec.ofNat 128 (leNat bs)⟩).advance c cp.cursor 16 m) p

/-- A store of the low n bytes of s[d]. -/
def storeS (n : Nat) (nx : Nxt) (d : SReg) (c : CReg) (m : AMode) (s : State) : Out :=
  ctl s (actOf nx) (modeLen m) fun s u =>
    let cp := u.creg c
    scalarStore s s.cur.1 u cp rW (modeOffset u cp n m) (leBytes n (u.sreg d).toNat) none fun u =>
      u.advance c cp.cursor n m

def execStb (n : Nxt) (d : SReg) (c : CReg) (m : AMode) (s : State) : Out := storeS 1 n d c m s
def execSth (n : Nxt) (d : SReg) (c : CReg) (m : AMode) (s : State) : Out := storeS 2 n d c m s
def execStw (n : Nxt) (d : SReg) (c : CReg) (m : AMode) (s : State) : Out := storeS 4 n d c m s
def execStd (n : Nxt) (d : SReg) (c : CReg) (m : AMode) (s : State) : Out := storeS 8 n d c m s

/-- A tagged value needs right C besides W (R231). -/
def execStc (n : Nxt) (d : CReg) (c : CReg) (m : AMode) (s : State) : Out :=
  ctl s (actOf n) (modeLen m) fun s u =>
    let cp := u.creg c
    let v := u.creg d
    scalarStore s s.cur.1 u cp (if v.tag then rW + rC else rW) (modeOffset u cp 16 m) (leBytes 16 v.v.toNat)
      (some v.tag) fun u => u.advance c cp.cursor 16 m

/-! ## Clearing atomics -/

/-- The sync object that binds the granule of an offset, if it is one. -/
def boundSync (s : State) (ctx oid off : Nat) : Option Nat := syncOf s ctx oid (off / 65536)

def releaseBound (s : State) (ctx oid off : Nat) : State :=
  match boundSync s ctx oid off with
  | some o => syncRelease s o
  | none => s

/-- A store of the control stream is parked: an ACQ waits for it (R214). -/
def Unit.storesParked (u : Unit) : Bool := u.replay.any fun p => p.str = .c

/-- Whether an atomic writes: one whose compare fails does not, and then makes no D update (R233, R273). `g` answers the new value from the old. -/
def atomicWrites (s : State) (k : Nat) (u : Unit) (c : Cap) (off w : Nat) (g : Nat → Option Nat) : Bool :=
  match translate s (k / 2) u.ctx c.oid off false with
  | (s, .phys key pa) => (g (leNat (viewBytes s key pa (w / 8)))).isSome
  | (_, .pantry _ _) | (_, .remote _ _) | (_, .fault _) | (_, .stall) => true

/-- An atomic of `w` bits: `f` answers the new value, none when nothing is written, and flags, from the old
value, v, and the low bits of s[d]. With .rel it waits as a REL and releases first; with .acq it waits as the
ACQ that follows it (R215, R233). -/
def atomic (w : Nat) (f : Nat → Nat → Nat → Option Nat × Flags) (n : Nxt) (d a : SReg) (c : CReg) (o : BitVec 2) (s : State) : Out :=
  ctl s (actOf n) 1 fun s u =>
    let k := s.cur.1
    let cp := u.creg c
    let off := cp.cursor
    let acc := accOf s u cp off true
    if isTwice s u then .trap s 0x07 0 Acc.none
    else
      match accCheck s u cp rA off (w / 8) (w / 8) [1] with
      | some (code, kind) => .trap s code kind acc
      | none =>
        if (bit o 1 && !u.replay.isEmpty) || (bit o 0 && u.storesParked) then .wait s u .replay
        else
          sealing k <| scalarReach s k u cp off (atomicWrites s k u cp off w fun old => (f old ((u.sreg a).toNat % 2 ^ w) ((u.sreg d).toNat % 2 ^ w)).1) fun s key pa =>
            if isSync s pa then .trap s 0x0D 0 acc
            else
              let s := if bit o 1 then releaseBound s u.ctx cp.oid off else s
              match readIn s key pa (w / 8) with
              | (s, bs, p) =>
                let old := leNat bs
                let r := f old ((u.sreg a).toNat % 2 ^ w) ((u.sreg d).toNat % 2 ^ w)
                let s := match r.1 with
                  | some v => writeBytes s key pa (leBytes (w / 8) v)
                  | none => s
                okPoison s { ((u.setS d (sext64 w old)).addFlags r.2) with sealed := true } p

def widthOf (w : Bool) : Nat := if w then 32 else 64
/-- An atomic that always writes and sets no flag. -/
def always (f : Nat → Nat → Nat) : Nat → Nat → Nat → Option Nat × Flags := fun old v _ => (some (f old v), 0)

def execAadd (n : Nxt) (d a : SReg) (c : CReg) (o _sc : BitVec 2) (w : Bool) (s : State) : Out :=
  atomic (widthOf w) (always fun old v => (old + v) % 2 ^ widthOf w) n d a c o s
def execAand (n : Nxt) (d a : SReg) (c : CReg) (o _sc : BitVec 2) (w : Bool) (s : State) : Out :=
  atomic (widthOf w) (always fun old v => old &&& v) n d a c o s
def execAor (n : Nxt) (d a : SReg) (c : CReg) (o _sc : BitVec 2) (w : Bool) (s : State) : Out :=
  atomic (widthOf w) (always fun old v => old ||| v) n d a c o s
def execAxor (n : Nxt) (d a : SReg) (c : CReg) (o _sc : BitVec 2) (w : Bool) (s : State) : Out :=
  atomic (widthOf w) (always fun old v => old ^^^ v) n d a c o s
def execAmin (n : Nxt) (d a : SReg) (c : CReg) (o _sc : BitVec 2) (w : Bool) (s : State) : Out :=
  atomic (widthOf w) (always fun old v => if sxt (widthOf w) old < sxt (widthOf w) v then old else v) n d a c o s
def execAmax (n : Nxt) (d a : SReg) (c : CReg) (o _sc : BitVec 2) (w : Bool) (s : State) : Out :=
  atomic (widthOf w) (always fun old v => if sxt (widthOf w) old < sxt (widthOf w) v then v else old) n d a c o s
def execAswap (n : Nxt) (d a : SReg) (c : CReg) (o _sc : BitVec 2) (w : Bool) (s : State) : Out :=
  atomic (widthOf w) (always fun _ v => v) n d a c o s
def execAcas (n : Nxt) (d a : SReg) (c : CReg) (o _sc : BitVec 2) (w : Bool) (s : State) : Out :=
  atomic (widthOf w) (fun old v e => (if old = e then some v else none, 0)) n d a c o s
def execAfadd (n : Nxt) (d a : SReg) (c : CReg) (o _sc : BitVec 2) (s : State) : Out :=
  atomic 32 (fun old v _ =>
    let r := f32Of (Val.add (f32Val (BitVec.ofNat 32 old)) (f32Val (BitVec.ofNat 32 v)) .rne) .rne
    (some r.1.toNat, r.2)) n d a c o s

/-! ## Synchronisation -/

/-- The checks of ACQ, REL and BIND's new sync object: a live sync object at the cursor (R235). -/
def withSync (s : State) (k : Nat) (u : Unit) (cp : Cap) (wr : Bool) (f : State → Nat → Res) : Res :=
  let acc := accOf s u cp cp.cursor wr
  match accCheck s u cp rA cp.cursor 64 64 [1] with
  | some (code, kind) => .trap s code kind acc
  | none =>
    scalarReach s k u cp cp.cursor wr fun s _ pa =>
      if liveSync s pa then f (touch s (pa / 64)) pa else .trap s 0x0D 0 acc

def execAcq (n : Nxt) (c : CReg) (_sc : BitVec 2) (s : State) : Out :=
  ctl s (actOf n) 1 fun s u =>
    if u.storesParked then .wait s u .replay
    else withSync s s.cur.1 u (u.creg c) false fun s _ => .ok s u

def execRel (n : Nxt) (c : CReg) (_sc : BitVec 2) (s : State) : Out :=
  ctl s (actOf n) 1 fun s u =>
    if !u.replay.isEmpty then .wait s u .replay
    else withSync s s.cur.1 u (u.creg c) true fun s pa => .ok (syncRelease s pa) u

/-- Re-bind one granule: NBIND of both objects changes with the binding (R236). -/
def bindOne (ctx oid new : Nat) (s : State) (g : Nat) : State :=
  match syncOf s ctx oid g with
  | none => s
  | some old =>
    if old = new then s
    else
      let s := syncAddNbind s old (· - 1)
      let s := syncAddNbind s new (· + 1)
      let rest := s.binds.filter fun b => !(b.ctx = ctx && b.oid = oid && b.gran = g)
      { s with binds := if (objMem s ctx oid).map (·.sync) = some new then rest
                        else rest ++ [{ ctx := ctx, oid := oid, gran := g, sync := new }] }

/-- An object of the context's code areas. -/
def isCodeArea (s : State) (ctx oid : Nat) : Bool :=
  match ctxRec? s ctx with
  | some r => [r.areas.vl, r.areas.va, r.areas.vs, r.areas.m, r.areas.d, r.areas.c].any fun a => a.base != 0 && a.oid = oid
  | none => false

/-- BIND of the granules of [off, off + len) to the sync object at `new`: each object that loses granules is
released first (R213, R236). -/
def rebind (s : State) (ctx oid off len new : Nat) : State :=
  let gs := range' (off / 65536) ((off + len) / 65536)
  let olds := (gs.filterMap fun g => syncOf s ctx oid g).eraseDups.filter (· != new)
  gs.foldl (bindOne ctx oid new) (olds.foldl syncRelease s)

def execBind (n : Nxt) (m : CReg) (a : SReg) (c : CReg) (_sc : BitVec 2) (s : State) : Out :=
  ctl s (actOf n) 1 fun s u =>
    let cp := u.creg c
    let off := cp.cursor
    let len := (u.sreg a).toNat
    let acc := accOf s u cp off true
    if off % 65536 != 0 || len % 65536 != 0 || len < 65536 then .trap s 0x07 0 Acc.none
    else
      match cp.check rW off (off + len) with
      | some k => .trap s 0x0A k acc
      | none =>
        if isCodeArea s u.ctx cp.oid then .trap s 0x07 0 Acc.none
        else if !u.replay.isEmpty then .wait s u .replay
        else
          withSync s s.cur.1 u (u.creg m) true fun s pa =>
            if syncCtx s pa != u.ctx then .trap s 0x0D 0 acc
            else
              match objMem s u.ctx cp.oid with
              | none => .trap s 0x20 1 acc
              | some e =>
                if e.st = 0 || e.st = 3 then .trap s 0x20 2 acc
                else if e.st = 2 then .wait s u .memory
                else .ok (rebind s u.ctx cp.oid off len (pa / 64 * 64)) u

def execFence (n : Nxt) (_sc : BitVec 2) (s : State) : Out :=
  ctl s (actOf n) 1 fun s u => if u.replay.isEmpty then .ok s u else .wait s u .replay

def execTlwait (n : Nxt) (d : SReg) (str : BitVec 5) (s : State) : Out :=
  ctl s (actOf n) 1 fun s u =>
    match streamOf str.toNat with
    | some t => if (u.sreg d).toNat ≤ u.done t then .ok s u else .wait s u .timeline
    | none => .trap s 0x03 0 Acc.none

/-- MWAIT reads until the value reaches the threshold (R239). -/
def execMwait (n : Nxt) (d a : SReg) (c : CReg) (s : State) : Out :=
  ctl s (actOf n) 1 fun s u =>
    let cp := u.creg c
    scalarLoad s s.cur.1 u cp cp.cursor 8 fun s bs _ p =>
      if (u.sreg a).toNat ≤ leNat bs then okPoison s (u.setS d (zext64 (leNat bs))) p else .wait s u .mwait

end Sys2Proof.Machine
end

