-- ==== Sys2Proof/Machine/DpOps.lean ====
section
/-! DEFINITION. The dispatch instructions: LAUNCH (R335), POST (R341 to R344), DEPDEC (R345) and CANCEL (R346). Each
seals the buffer phase (R385). -/

namespace Sys2Proof.Machine

/-- A dispatch instruction's answer: the result word, with the phase sealed. -/
def sealedAnswer (d : SReg) (code : Nat) (h : BitVec 32) (s : State) (u : Unit) (p : Option Poison) : Res :=
  okPoison s { u.setS d (resultWord code 0 h) with sealed := true } p

/-- Read the doubles of a packet or ticket, in 16-byte pieces, for `f` (R227, R228). -/
def readDoubles (s : State) (k : Nat) (u : Unit) (cp : Cap) (n : Nat) (f : State → List Double → Option Poison → Res) : Res :=
  let off := cp.cursor
  if spent s (groveOf k) then .wait s u .memory
  else
    match spanReach (hearthOf k) u.ctx cp.oid false ((List.range (n / 2)).map fun i => off + 16 * i) s with
    | (s, .inl t) => sealing k (failedReach s u (accOf s u cp off false) t)
    | (s, .inr ps) =>
      match spanRead ps (charge s (groveOf k) (n / 8)) with
      | (s, bs, p) => f s (doublesOf bs n) p

/-! ## LAUNCH -/

def launchEffect (d : SReg) (c : CReg) (a : SReg) (s : State) (u : Unit) : Res :=
  let cp := u.creg c
  let v := u.sreg a
  let q := if bits v 63 16 = 0 then bits v 15 0 else 2 ^ 16
  if isTwice s u then .trap s 0x07 0 Acc.none
  else
    match accCheck s u cp rR cp.cursor 128 1 [0, 1] with
    | some (code, kind) => .trap s code kind (accOf s u cp cp.cursor false)
    | none =>
      if !u.replay.isEmpty then .wait s u .replay
      else if cp.cursor % 64 != 0 then sealedAnswer d 0x20 0 s u none
      else
        readDoubles s s.cur.1 u cp 16 fun s pkt p =>
          let code := acceptCode s u.ctx pkt q false false
          if code = 0 then
            match pushPacket s u.ctx pkt q with
            | (s, lid) => sealedAnswer d 0 (BitVec.ofNat 32 lid) s u p
          else sealedAnswer d code 0 s u p

def execLaunch (n : Nxt) (d : SReg) (c : CReg) (a : SReg) (s : State) : Out := ctl s (actOf n) 1 (launchEffect d c a)

/-! ## POST -/

/-- The grove of a location (R342). The table gives none for another module's: a free value (log 3). -/
def groveOfPlace (s : State) (k : Nat) : Tr → Option Nat
  | .phys _ pa =>
    if clrBase ≤ pa then
      let b := s.clrBank pa
      some (4 * (b / 256) + b % 256 / 64)
    else some (4 * (pa / (48 * 2 ^ 30) / 3) + nbits pa 13 12)
  | .pantry _ _ => some (groveOf k)
  | .remote _ _ => some (Config.freeWord s.free % 16)
  | .fault _ | .stall => none

/-- The home grove moves on to the next one that is not retired and that the launch may use (R342). -/
def homeGrove (s : State) (ctx gmask g : Nat) : Nat :=
  let ok := (allowedGroves s ctx gmask).filter fun g => !(groveAt s g).retired
  (((List.range 16).map fun i => (g + i) % 16).find? fun g => ok.elem g).getD g

/-- Where a ticket's affinity lies: a walk with no access (R342). -/
def affinity (s : State) (ctx oid off : Nat) : State × Tr :=
  match walk s ctx oid off with
  | (s, .fault k) => (s, .fault k)
  | (s, .stall) => (s, .stall)
  | (s, .pantry e) => (s, .pantry e (64 * e.root + off))
  | (s, .ok e) => (s, trOf e off)

/-- A reserved bit of a ticket is set, or ENTRY lies outside the code object's control section (Table 13.5). -/
def ticketBad (s : State) (u : Unit) (t : List Double) : Bool :=
  pf t 0 31 28 != 0 || pf t 0 63 56 != 0 || pf t 1 63 48 != 0 ||
  match codeOf s u with
  | some c => decide (pf t 0 23 0 < c.bases.c) || decide (c.bases.c + c.counts.c ≤ pf t 0 23 0)
  | none => true

/-- A ticket enters its home grove's ready queue. -/
def enterReady (s : State) (n : Nat) : State :=
  match s.tickets.get? n with
  | some t => { s with ready := s.ready.put t.home (Tab.getD [] s.ready t.home ++ [n]) }
  | none => s

/-- Put a ticket on the Rail: it takes the next number, and its affinity's sync object is released. A ticket of a launch that has failed or been
cancelled is discarded (R346, R381). -/
def newTicket (s : State) (u : Unit) (t : List Double) (home : Nat) : State × Nat :=
  let n := s.nextTicket
  let syncs := (boundSync s u.ctx (pf t 0 55 32) (pf t 1 47 0)).toList
  let s := releaseBound s u.ctx (pf t 0 55 32) (pf t 1 47 0)
  let s := { s with nextTicket := (n + 1) % 2 ^ 32 }
  if ((launchAt s u.slot).map fun l => l.failed || l.cancelled).getD true then (s, n)
  else
    let s := updLaunch s u.slot fun l => { l with ticketsOpen := l.ticketsOpen + 1 }
    ({ s with
      tickets := s.tickets.put n { slot := u.slot, index := u.index, entry := pf t 0 23 0, prio := pf t 0 27 24, xs := (t.drop 2).take 6,
                                   home := home, syncs := syncs, tick := s.time } }, n)

/-- The counter of a parked POST, reached and read (R344): its address, its value and the poison met. -/
def reachCounter (s : State) (u : Unit) (m : CReg) (f : State → Nat → Nat → Option Poison → Res) : Res :=
  let k := s.cur.1
  let cm := u.creg m
  sealing k <| scalarReach s k u cm cm.cursor true fun s key pa =>
    if isSync s pa then .trap s 0x0D 0 (accOf s u cm cm.cursor true)
    else
      match readIn s key pa 8 with
      | (s, bs, p) => f s pa (leNat bs) p

/-- Park ticket n on the counter at `pa`, or release it at once when the counter reads zero. -/
def parkTicket (s : State) (pa count n : Nat) : State :=
  if count = 0 then enterReady s n
  else if s.tickets.has n then { s with parks := s.parks.put pa (Tab.getD [] s.parks pa ++ [n]) }
  else s

/-- POST from its ticket on: BADTICKET comes before the counter is reached. -/
def postTicket (d : SReg) (c : CReg) (m : Option CReg) (s : State) (u : Unit) : Res :=
  let k := s.cur.1
  readDoubles s k u (u.creg c) 8 fun s t p =>
    let bad := fun (s : State) => sealedAnswer d 0x28 0 s u p
    if ticketBad s u t then bad s
    else
      match affinity s u.ctx (pf t 0 55 32) (pf t 1 47 0) with
      | (s, .stall) => .wait s u .memory
      | (s, tr) =>
        match groveOfPlace s k tr with
        | none => bad s
        | some g =>
          if 65536 ≤ s.tickets.length then .wait s u .memory
          else
            let put := fun (s : State) =>
              newTicket { s with free := s.free + 1 } u t (homeGrove s u.ctx (((launchAt s u.slot).map fun l => pktGmask l.pkt).getD 0) g)
            match m with
            | none =>
              match put s with
              | (s, n) => sealedAnswer d 0 (BitVec.ofNat 32 n) (enterReady s n) u p
            | some m =>
              reachCounter s u m fun s pa count q =>
                match put s with
                | (s, n) => sealedAnswer d 0 (BitVec.ofNat 32 n) (parkTicket s pa count n) u (p.orElse fun _ => q)

/-- The checks of POST on its ticket and, when it is parked, on its counter. -/
def postEffect (d : SReg) (c : CReg) (m : Option CReg) (s : State) (u : Unit) : Res :=
  let cp := u.creg c
  if isTwice s u then .trap s 0x07 0 Acc.none
  else
    match accCheck s u cp rR cp.cursor 64 64 [0, 1] with
    | some (code, kind) => .trap s code kind (accOf s u cp cp.cursor false)
    | none =>
      match m with
      | none => if !u.replay.isEmpty then .wait s u .replay else postTicket d c none s u
      | some m =>
        let cm := u.creg m
        match accCheck s u cm rA cm.cursor 8 8 [1] with
        | some (code, kind) => .trap s code kind (accOf s u cm cm.cursor true)
        | none => if !u.replay.isEmpty then .wait s u .replay else postTicket d c (some m) s u

def execPostQueued (n : Nxt) (d : SReg) (c : CReg) (s : State) : Out := ctl s (actOf n) 1 (postEffect d c none)
def execPostParked (n : Nxt) (d : SReg) (c m : CReg) (s : State) : Out := ctl s (actOf n) 1 (postEffect d c (some m))

/-! ## DEPDEC -/

/-- Move a counter's park list, in park order, to the ready queues. -/
def releaseParked (s : State) (pa : Nat) : State :=
  (Tab.getD [] s.parks pa).foldl enterReady { s with parks := s.parks.del pa }

/-- An access reaches a sync-object line. -/
def meetsSync (s : State) (k : Nat) (u : Unit) (cp : Cap) (off : Nat) : Bool :=
  match (translate s (hearthOf k) u.ctx cp.oid off true).2 with
  | .phys _ pa => isSync s pa
  | .pantry _ _ | .remote _ _ | .fault _ | .stall => false

def depdecEffect (d : SReg) (c : CReg) (a : SReg) (s : State) (u : Unit) : Res :=
  let k := s.cur.1
  let cp := u.creg c
  let off := cp.cursor
  let acc := accOf s u cp off true
  let amount := (u.sreg a).toNat
  if isTwice s u then .trap s 0x07 0 Acc.none
  else
    match accCheck s u cp rA off 8 8 [1] with
    | some (code, kind) => .trap s code kind acc
    | none =>
      if meetsSync s k u cp off then .trap s 0x0D 0 acc
      else if amount = 0 || 2 ^ 32 ≤ amount then .trap s 0x07 0 Acc.none
      else if !u.replay.isEmpty then .wait s u .replay
      else
        sealing k <| scalarReach s k u cp off true fun s key pa =>
          match readIn (releaseBound s u.ctx cp.oid off) key pa 8 with
          | (s, bs, p) =>
            let n := leNat bs
            if n < amount then .trap s 0x22 0 acc
            else
              let s := writeBytes s key pa (leBytes 8 (n - amount))
              let s := if n = amount then releaseParked s pa else s
              okPoison s { u.setS d (BitVec.ofNat 64 (n - amount)) with sealed := true } p

def execDepdec (n : Nxt) (d : SReg) (c : CReg) (a : SReg) (s : State) : Out := ctl s (actOf n) 1 (depdecEffect d c a)

/-! ## CANCEL -/

/-- An identifier of a level that belongs to the context: graph, phase, job, launch. -/
def ownsId (s : State) (ctx lvl id : Nat) : Bool :=
  let own := fun (t : Tab Ident) => match t.get? id with
    | some i => decide (i.owner = ctx)
    | none => false
  match lvl with
  | 0 => own s.graphs
  | 1 => own s.phases
  | 2 => own s.jobs
  | _ => s.launches.any (fun e => e.2.lid = id && e.2.ctx = ctx) ||
    s.queues.any fun q => q.2.ctx = ctx && q.2.entries.any fun e => e.lid = id

def cancelEffect (lvl : Nat) (d a : SReg) (s : State) (u : Unit) : Res :=
  let v := u.sreg a
  let w := if lvl = 3 then 32 else 16
  let id := v.toNat
  if 2 ^ w ≤ id || !ownsId s u.ctx lvl id then sealedAnswer d 0x29 0 s u none
  else
    match cancelScope s (inScope u.ctx lvl id) with
    | (s, n) => sealedAnswer d 0 (BitVec.ofNat 32 (min n (2 ^ 32 - 1))) s (again s s.cur.1 u) none

def execCancelGraph (n : Nxt) (d a : SReg) (s : State) : Out := ctl s (actOf n) 1 (cancelEffect 0 d a)
def execCancelPhase (n : Nxt) (d a : SReg) (s : State) : Out := ctl s (actOf n) 1 (cancelEffect 1 d a)
def execCancelJob (n : Nxt) (d a : SReg) (s : State) : Out := ctl s (actOf n) 1 (cancelEffect 2 d a)
def execCancelLaunch (n : Nxt) (d a : SReg) (s : State) : Out := ctl s (actOf n) 1 (cancelEffect 3 d a)

end Sys2Proof.Machine
end

