-- ==== Sys2Proof/Machine/Dispatcher.lean ====
section
/-! DEFINITION. The dispatcher and the completion unit: serving queues (R332 to R334), placing units and tickets (R336 to R343,
R350), completion (R339), run-twice comparison (R340, R390), and the take-over by the standby core (R398 to R400). -/

namespace Sys2Proof.Machine

/-! ## Taking packets (R333, R334, R399) -/

/-- The priority of a queue's head packet. -/
def headPrio (s : State) (q : Nat) : Nat :=
  match s.queues.get? q with
  | some qu => ((qu.entries.head?).map fun e => pktPrio e.pkt + 1).getD 0
  | none => 0

/-- The queue served next: the highest head priority, then the earliest bit, then the lower identifier. -/
def nextQueue (s : State) : Option Nat :=
  (s.kicks.foldl (fun (best : Option (Nat × Nat)) e => match best with
    | none => some e
    | some b => if headPrio s b.1 < headPrio s e.1 || (headPrio s b.1 = headPrio s e.1 && e.2 < b.2) then some e else some b) none).map (·.1)

/-- A free launch slot (R398). -/
def freeSlot (s : State) : Option Nat := (List.range 1024).find? fun i => !s.launches.has i

/-- The launch whose packet is being taken. -/
def takingSlot (s : State) (q : Nat) : Option (Nat × Launch) :=
  s.launches.find? fun e => e.2.jstate = .taking && e.2.queue = q

/-- Advance a queue's head past its first packet. -/
def advanceHead (s : State) (q : Nat) : State :=
  match s.queues.get? q with
  | none => s
  | some qu =>
    let qu := { qu with head := (qu.head + 1) % 2 ^ 32, entries := qu.entries.drop 1 }
    let s := { s with queues := s.queues.put q qu }
    if qu.resident then s else objWrite s qu.ctx qu.oid qu.off (leBytes 4 qu.head)

/-- Drop a packet that no longer passes the checks (R333). -/
def dropPacket (s : State) (q lid : Nat) : State := post (advanceHead s q) 0x07 0x0920 false lid 0

/-- A slot that takes a packet: its launch line, in state taking. -/
def newLaunch (e : QEntry) (q ctx head : Nat) (pkt : List Double) : Launch :=
  { lid := e.lid, ctx := ctx, pkt := pkt, hov := e.hov, tick := e.tick, queue := q, headIdx := head, jstate := .taking,
    next := 0, placed := 0, retired := 0, ticketsOpen := 0, allPlaced := false, failed := false, cancelled := false,
    sigs := [], groves := 0 }

/-- Write the line of the queue's next packet, which a ring makes to be checked again. -/
def takeNext (s : State) (q : Nat) : State :=
  match s.queues.get? q with
  | none => { s with disp := { s.disp with serve := none } }
  | some qu =>
    match qu.entries.head? with
    | none => { s with disp := { s.disp with serve := none } }
    | some e =>
      let pkt := if qu.resident then e.pkt else ringPacket s qu qu.head
      if !qu.resident && acceptCode s qu.ctx pkt q false true != 0 then dropPacket s q e.lid
      else
        match freeSlot s with
        | none => s
        | some i => { s with launches := s.launches.put i (newLaunch e q qu.ctx qu.head pkt) }

/-- One write of the serving order of R399. -/
def serveStep (s : State) : State :=
  match s.disp.serve with
  | none =>
    match nextQueue s with
    | some q => { s with disp := { s.disp with serve := some q }, kicks := s.kicks.del q }
    | none => s
  | some q =>
    match takingSlot s q with
    | none => takeNext s q
    | some (i, l) =>
      if ((s.queues.get? l.queue).map (·.head)) = some l.headIdx then advanceHead s l.queue
      else updLaunch s i fun l => { l with jstate := .placing, next := 0 }

/-- The watchdog gives control to the standby core, and halt events are held from then on (R398). -/
def watchdog (s : State) : State :=
  if s.disp.standby then s else { s with disp := { s.disp with standby := true, holding := true } }

/-- An action of the active core: none between a hand-over and the acknowledgement. A check of its instruction SRAM that is armed
to fail hands over (R391, R398). -/
def onCore (s : State) (f : State → State) : Out :=
  .next (if s.disp.holding then s
    else match injected s 10 with
      | (s, true) => watchdog s
      | (s, false) => f s)

def execQueueServe (s : State) : Out := onCore s serveStep

/-- A queue becomes resident, its packets read from its ring and checked again, or stops being so (R332, R333). -/
def execQueueResidency (q : Nat) (resident : Bool) (s : State) : Out :=
  .next (match s.queues.get? q with
    | none => s
    | some qu =>
      if qu.resident = resident then s
      else if resident then
        let es := qu.entries.mapIdx fun i e => { e with pkt := ringPacket s qu (qu.head + i) }
        let good := fun (e : QEntry) => acceptCode s qu.ctx e.pkt q false true = 0
        let s := (es.filter fun e => !good e).foldl (fun s e => post s 0x07 0x0920 false e.lid 0) s
        { s with queues := s.queues.put q { qu with resident := true, entries := es.filter good } }
      else
        let qu := { qu with resident := false }
        { ringSync s qu with queues := s.queues.put q qu })

/-! ## Partitions (R350) -/

/-- Pantry banks of a grove that a predicate's partitions hold. -/
def heldBanks (s : State) (g : Nat) (p : Partition → Bool) : List Nat :=
  (s.partitions.filter fun e => e.2.grove = g && p e.2).flatMap fun e => e.2.banks

/-- The banks that a launch's partition in grove g takes: the lowest that are free and not retired; none when they do not
suffice or would pass the context's limit. -/
def pickBanks (s : State) (l : Launch) (g : Nat) : Option (List Nat) :=
  ((s.codes.get? (pktCode l.pkt)).bind fun c => bankCount s l.pkt c).bind fun nb =>
    let used := heldBanks s g fun _ => true
    let free := (List.range 64).filter fun b => !used.elem b && !isRetired s (.pantryBank g b)
    let mine := (heldBanks s g fun p => p.ctx = l.ctx).length
    if nb ≤ free.length && mine + nb ≤ ((ctxRec? s l.ctx).map (·.body.pbanks)).getD 0 then some (free.take nb) else none

/-- A launch has its partition in grove g, or can be given one. -/
def canAllot (s : State) (l : Launch) (g : Nat) : Bool := (partOf s l.lid g).isSome || (pickBanks s l g).isSome

/-- Give a launch its partition in a grove, all of it zero. -/
def allot (s : State) (l : Launch) (g : Nat) : State :=
  if (partOf s l.lid g).isSome then s
  else
    match pickBanks s l g with
    | none => s
    | some bs =>
      let n := s.partitions.fresh 1024 0
      { zeroFill s 0 (pantryAddr n 0) (pantryAddr (n + 1) 0) with
        partitions := s.partitions.put n { lid := l.lid, ctx := l.ctx, grove := g, banks := bs, bfr := [] } }

/-- The partition of a launch that is gone, with no unit or copy left, is freed. -/
def execPartitionFree (part : Nat) (s : State) : Out :=
  .next (match s.partitions.get? part with
    | none => s
    | some p =>
      if s.launches.any (fun e => e.2.lid = p.lid) || s.units.any (fun e => e.2.lid = p.lid) then s
      else { zeroFill s 0 (pantryAddr part 0) (pantryAddr (part + 1) 0) with partitions := s.partitions.del part })

/-! ## Placement (R336 to R340, R343) -/

/-- The work that bank k takes: the best of what waits in its grove and fits it. -/
def winner (s : State) (k : Nat) : Option Claim := bestClaim ((claims s (k / 16)).filter fun c => bankFree s c.ctx c.rows k)

/-- The lowest bank that a launch's next unit or one of its saved units is to take. -/
def bankFor (s : State) (slot : Nat) : Option (Nat × Work) :=
  (List.range 256).findSome? fun k =>
    if s.units.has k then none
    else
      match winner s k with
      | none => none
      | some c =>
        match c.work with
        | .launch i => if i = slot then some (k, c.work) else none
        | .saved j => if ((s.units.get? j).map (·.slot)) = some slot then some (k, c.work) else none
        | .ticket _ => none

/-- The bank of copy 1: the lowest free one of the lowest other grove that may be used (R340). -/
def twinBank (s : State) (l : Launch) (k : Nat) : Option Nat :=
  freeBank s l.ctx (pktRows l.pkt) fun g => g != k / 16 && (allowedGroves s l.ctx (pktGmask l.pkt)).elem g

/-- Start unit PLACED on bank k, and its copy on another grove's; PLACED advances. A partition that cannot be given holds the placement (R350). -/
def startNext (s : State) (slot : Nat) (l : Launch) (k : Nat) : State :=
  let go := fun (s : State) (k copy : Nat) => placeUnit (allot s l (k / 16)) slot (k / 2) (k % 2 == 1) l.placed copy none
  let count := fun (s : State) => updLaunch s slot fun l => { l with placed := l.placed + 1 }
  if !canAllot s l (k / 16) then s
  else if pktTwice l.pkt then
    match twinBank s l k with
    | some k' => if canAllot s l (k' / 16) then count (go (go s k 0) k' 1) else s
    | none => s
  else count (go s k 0)

/-- One write of the placing order of R399: NEXT before the start, and the end of placing. -/
def placeStep (s : State) (slot : Nat) : State :=
  match launchAt s slot with
  | none => s
  | some l =>
    if l.placing && l.placed = pktUnits l.pkt then
      updLaunch s slot fun l => { l with jstate := .allPlaced, allPlaced := true }
    else
      match bankFor s slot with
      | none => s
      | some (k, .saved j) => switchIn s j k
      | some (k, .launch _) =>
        if l.next = l.placed then updLaunch s slot fun l => { l with next := l.placed + 1 } else startNext s slot l k
      | some (_, .ticket _) => s

def execUnitPlace (slot : Nat) (s : State) : Out := onCore s fun s => placeStep s slot

/-- The ticket at the head of a grove's ready queue becomes a unit on the lowest free bank that it wins (R343). -/
def ticketStep (s : State) (g : Nat) : State :=
  match readyHead s g with
  | none => s
  | some (n, t) =>
    match launchAt s t.slot with
    | none => s
    | some l =>
      match ((List.range 16).map (16 * g + ·)).find? fun k => !s.units.has k && ((winner s k).map (·.work)) = some (.ticket n) with
      | none => s
      | some k =>
        if !canAllot s l g then s
        else
          let s := placeUnit (allot s l g) t.slot (k / 2) (k % 2 == 1) t.index 0 (some (n, t))
          { s with tickets := s.tickets.del n, ready := s.ready.put g ((Tab.getD [] s.ready g).filter (· != n)) }

def execTicketPlace (g : Nat) (s : State) : Out := onCore s fun s => ticketStep s g

/-! ## Completion (R339) -/

/-- What became of a completion write: made, dropped because it cannot be made, or waiting for a page or an object that migrates (R267). -/
inductive Written where
  | made (s : State)
  | dropped
  | waits
  deriving DecidableEq, Repr

/-- The completion write. -/
def completionWrite (s : State) (l : Launch) : Written :=
  let oid := pf l.pkt 6 23 0
  let off := 8 * pf l.pkt 6 63 26
  match objMem s l.ctx oid with
  | none => .dropped
  | some e =>
    if e.st = 2 then .waits
    else if e.st != 1 || 1 < e.lvl || e.size < off + 8 then .dropped
    else
      match hostTranslate s l.ctx oid off true with
      | (s, .phys key pa) => if isSync s pa then .dropped else .made (writeBytes s key pa (leBytes 8 (l.pkt.getD 7 0).toNat))
      | (_, .stall) => .waits
      | (_, .pantry _ _) | (_, .remote _ _) | (_, .fault _) => .dropped

/-- One completion counted at an identifier. -/
def countDone (t : Tab Ident) (k : Nat) : Tab Ident := t.upd k fun i => { i with counter := i.counter + 1 }

/-- The counts of a completed launch, and its slot freed. -/
def countLaunch (s : State) (slot : Nat) (l : Launch) : State :=
  { s with
    graphs := countDone s.graphs (pktGraph l.pkt)
    phases := countDone s.phases (pktPhase l.pkt)
    jobs := countDone s.jobs (pktJob l.pkt)
    launches := s.launches.del slot }

/-- The completion steps, in order; they begin when the write no longer waits. -/
def complete (s : State) (slot : Nat) (l : Launch) : State :=
  if pf l.pkt 6 24 24 = 1 then
    match completionWrite s l with
    | .made t => countLaunch t slot l
    | .dropped => countLaunch (post s 0x0C 0x0920 false l.lid 0) slot l
    | .waits => s
  else countLaunch s slot l

def execLaunchCompletion (slot : Nat) (s : State) : Out :=
  .next (match launchAt s slot with
    | none => s
    | some l => if l.allPlaced && l.outstanding = 0 && !l.failed && !l.cancelled then complete s slot l else s)

/-! ## Run-twice (R340, R390) -/

/-- Compare two copies' signatures; a launch that has failed or been cancelled compares nothing. -/
def compareCopies (s : State) (slot : Nat) (l : Launch) (unit : Nat) (a b : CopySig) : State :=
  let s := updLaunch s slot fun l => { l with sigs := l.sigs.filter fun c => c.index != unit }
  if l.failed || l.cancelled || a.sig = b.sig then retireUnit s slot false
  else
    let s := postGroup s 0x08 0x0920 (l.lid + unit % 2 ^ 32 * 2 ^ 32) (a.hearth + b.hearth * 2 ^ 16) a.sig.toNat b.sig.toNat
    let s := countEvent (countEvent (bumpLife s 0x1F2 1) (.hearth a.hearth)) (.hearth b.hearth)
    retireUnit (failLaunch s slot) slot false

def execRunTwiceCompare (slot unit : Nat) (s : State) : Out :=
  onCore s fun s =>
    match launchAt s slot with
    | none => s
    | some l =>
      match l.sigs.find? (fun c => c.index = unit && c.copy = 0), l.sigs.find? (fun c => c.index = unit && c.copy = 1) with
      | some a, some b => compareCopies s slot l unit a b
      | _, _ => s

/-! ## Take-over (R398 to R400) -/

def execHandOver (s : State) : Out := .next (watchdog s)

/-- Items 2 and 3: the served queue's bit is set, and lines in state taking are resolved. A serve line of 0xFFFF names none. -/
def readJournal (s : State) : State :=
  let s := match s.disp.serve with
    | none => s
    | some q =>
      { s with kicks := if q = 0xFFFF || s.kicks.has q then s.kicks else s.kicks.put q s.time, disp := { s.disp with serve := none } }
  s.launches.foldl (fun s e =>
    if e.2.jstate = .taking then
      if ((s.queues.get? e.2.queue).map (·.head)) = some e.2.headIdx then { s with launches := s.launches.del e.1 }
      else updLaunch s e.1 fun l => { l with jstate := .placing, next := 0 }
    else if e.2.jstate = .allPlaced then updLaunch s e.1 fun l => { l with allPlaced := true }
    else s) s

/-- Item 4: place what can be placed; `fuel` bounds the writes. -/
def placeAll (slot : Nat) : Nat → State → State
  | 0, s => s
  | n + 1, s => match launchAt s slot with
    | some l => if l.placing then placeAll slot n (placeStep s slot) else s
    | none => s

/-- The standby runs the journal, places on, and acknowledges; the holding buffer is then released in order (log 35). -/
def execTakeOver (s : State) : Out :=
  .next (if !s.disp.holding then s
    else
      let s := readJournal s
      let s := s.launches.foldl (fun s e => placeAll e.1 520 s) s
      let held := s.disp.held
      held.foldl (fun s e => completeHalt s e.1 e.2.1 e.2.2) { s with disp := { s.disp with holding := false, held := [] } })

end Sys2Proof.Machine
end

