-- ==== Sys2Proof/Machine/Forester.lean ====
section
/-! DEFINITION. The Forester: sensors (R395, R406), wear and life-of-part records (R393, R394), in-field test (R396, R397), supply
(R405), module reset (R28), and the management registers (R407, R408). -/

namespace Sys2Proof.Machine

/-! ## Sensors (R395, Table 15.11) -/

/-- A sensor before its first sample. -/
def Sensor.initial : Sensor := { raw := 0, val := 0, susp := false, perm := false, passes := 0, hist := [] }
def sensorAt (s : State) (i : Nat) : Sensor := Tab.getD Sensor.initial s.sensors i

/-- The neighbours of sensor 4g + k: the other sensors of its kind on its compute die of four groves. -/
def neighbours (i : Nat) : List Nat :=
  let die := i / 16
  ((List.range 16).map (16 * die + ·)).filter fun j => j != i && (if i % 4 = 3 then j % 4 = 3 else j % 4 != 3)

/-- The median of a list; of an even number of readings, the mean of the middle two, rounded down (log 32). -/
def median (l : List Int) : Option Int :=
  let m := sortBy (fun (a b : Int) => decide (a ≤ b)) l
  let n := m.length
  if n = 0 then none
  else if n % 2 = 1 then m[n / 2]?
  else match m[n / 2 - 1]?, m[n / 2]? with
    | some a, some b => some ((a + b) / 2)
    | _, _ => none

def absDiff (a b : Int) : Nat := (a - b).natAbs

/-- Whether a rule of Table 15.11 holds of a reading. -/
def sensorBad (i : Nat) (x : Sensor) (raw : Int) (med : Option Int) (stuck : Bool) : Bool :=
  let thermal := i % 4 != 3
  let range := if thermal then raw < -80 || 500 < raw else 800 < raw
  let rate := match x.hist.head? with
    | some (p, _) => decide ((if thermal then 16 else 200) < absDiff raw p)
    | none => false
  let still := match med, x.hist[1023]? with
    | some m, some (_, some m0) => x.hist.all (fun h => absDiff raw h.1 ≤ 1) && decide (2 < absDiff m m0)
    | _, _ => false
  let apart := match med with
    | some m => thermal && decide (48 < absDiff raw m)
    | none => false
  range || rate || still || apart || stuck

/-- The replacement of a suspect reading; with no neighbour or earlier sample to take it from, a free value. -/
def replacement (s : State) (i : Nat) (x : Sensor) (med : Option Int) : Int :=
  if i % 4 = 3 then
    match x.hist with
    | [] => (Config.freeWord s.free : Nat)
    | h :: r => r.foldl (fun m e => max m e.1) h.1
  else match med with
    | some m => m + 20
    | none => (Config.freeWord s.free : Nat)

/-- Sample one sensor; a replaced reading is logged. A sample that a rule catches is an event of the sensor (log 33). -/
def sampleOne (old : State) (raws : List Int) (s : State) (i : Nat) : State :=
  let x := sensorAt s i
  let raw := raws.getD i 0
  let med := median ((neighbours i).filterMap fun j => if (sensorAt old j).susp then none else some (raws.getD j 0))
  match injected s (9 + 16 * (i / 4) + 256 * (i % 4)) with
  | (s, inj) =>
    let bad := sensorBad i x raw med inj
    let passes := if bad then 0 else x.passes + 1
    let perm := x.perm || isRetired s (.sensor (i / 4) (i % 4))
    let susp := perm || bad || (x.susp && passes < 1024)
    let y : Sensor :=
      { raw := raw, val := if susp then replacement s i x med else raw, susp := susp, perm := perm, passes := passes
        hist := ((raw, med) :: x.hist).take 1024 }
    let s := { s with sensors := s.sensors.put i y, free := s.free + 1
                      sensorLog := if susp then (s.time, i, y.val) :: s.sensorLog else s.sensorLog }
    if bad then countEvent s (.sensor (i / 4) (i % 4)) else s

/-- The hottest non-suspect thermal reading of a grove. -/
def hottest (s : State) (g : Nat) : Option Int :=
  ([0, 1, 2].filterMap fun k => if (sensorAt s (4 * g + k)).susp then none else some (sensorAt s (4 * g + k)).raw).foldl
    (fun (b : Option Int) x => match b with
      | none => some x
      | some y => some (max x y)) none

/-- The bin of a temperature in quarter degrees (Table 15.10). -/
def tempBin (t : Int) : Nat := if t < 80 then 0 else min 15 (1 + ((t - 80) / 32).toNat)

/-- A grove after a sample: suspects, heat, and its temperature histogram. -/
def judgeGrove (s : State) (g : Nat) : State :=
  let suspects := ([0, 1, 2, 3].filter fun k => (sensorAt s (4 * g + k)).susp).length
  let s := updGrove s g fun x =>
    if 2 ≤ suspects then { x with safe := true, calmSince := none }
    else if x.safe && x.calmSince.isNone then { x with calmSince := some s.time } else x
  match hottest s g with
  | none => s
  | some t =>
    let s := if t ≥ 420 && !(groveAt s g).hot then post s 0x0A 0x0A00 false g t.toNat else s
    let s := if t ≥ 480 then { s with trip := true } else s
    let s := updGrove s g fun x =>
      if t ≥ 420 then { x with hot := true, coolSince := none }
      else if !x.hot || t ≥ 380 then { x with coolSince := none }
      else match x.coolSince with
        | none => { x with coolSince := some s.time }
        | some c => if 2 ^ 26 ≤ s.time - c then { x with hot := false, coolSince := none } else x
    if s.time % 2 ^ 26 = 0 then bumpLife s (16 * g + tempBin t) 1 else s

/-- Every sensor is sampled; the rail voltage, which no sensor of the spec reports, is a free value. -/
def execSensorSample (raw : List Int) (s : State) : Out :=
  let s := (List.range 64).foldl (sampleOne s raw) s
  let s := (List.range 16).foldl judgeGrove s
  .next (if s.time % 2 ^ 26 = 0 then { bumpLife s (0x100 + Config.freeWord s.free % 16) 1 with free := s.free + 1 } else s)

/-- A grove returns to its set frequency at a slot boundary (R395). -/
def execSafeFrequencyReturn (g : Nat) (s : State) : Out :=
  .next (match (groveAt s g).calmSince with
    | some t =>
      if (groveAt s g).safe && 2 ^ 26 ≤ s.time - t && s.time % 64 = 0 then
        let s := updGrove s g fun x => { x with safe := false, calmSince := none }
        setGroveFreq s g (groveAt s g).lowered
      else s
    | none => s)

/-- Below 40 V input every grove is held at 300 MHz, from the next slot boundary on (R30, R405). -/
def execSupplyUndervoltage (s : State) : Out := .next { s with lowSupply := true }
def execInputReturn (s : State) : Out := .next { s with lowSupply := false }

/-! ## Records over the life of the part -/

/-- Counters into flash; retirements stand there already. -/
def writeLife (s : State) : State :=
  { s with lifeFlash := s.life.foldl (fun t e => Tab.set 0 t e.1 e.2) (s.lifeFlash.filter fun e => 2 ^ 16 ≤ e.1) }

def execLifeRecordWrite (s : State) : Out := .next (writeLife s)

/-- A 30-day month in ticks. -/
def monthTicks : Nat := 30 * 86400 * 700000000

/-- Months until `left` is used up at a rise over a time; a rate of zero gives 1,023. -/
def monthsLeft (left rise time : Nat) : Nat := if rise = 0 then 1023 else min 1023 (left * time / (rise * monthTicks))

/-- A grove's wear is read: each rate is taken over the last 30 days, or over the whole life of the part (R394). -/
def execWearRead (g d e : Nat) (s : State) : Out :=
  let w := Tab.getD { d := 0, e := 0, eol := 0, hist := [] } s.wear g
  let now := s.lifeTicks + s.time
  let hist := w.hist.filter fun h => now ≤ h.1 + monthTicks
  let old := if now ≤ monthTicks then (0, 0, 0) else hist.getLastD (0, 0, 0)
  let t := now - old.1
  let eol := min (monthsLeft (30000 - d) (d - old.2.1) t) (monthsLeft (2 ^ 32 - e) (e - old.2.2) t)
  .next { s with wear := s.wear.put g { d := d, e := e, eol := eol, hist := (now, d, e) :: hist } }

/-! ## Module reset (R28, R407) -/

/-- The ports that the flash records as retired are down after a reset too (R366, R392). -/
def downPorts (retired : List Nat) : Tab Port :=
  (List.range 48).foldl (fun t p => if retired.elem (2048 * 5 + p) then t.put p { down := true, seq := 0, fails := 0 } else t) []

/-- What module reset keeps: the flash, with the retirements, the part's age and its earlier wear recorded there, and the model's counters of
free values and keys. What is retired of the Clearing and of HBM leaves the address map now (R392). Whatever else the module held is as at power-on. A sensor's retirement shows from its first sample on. -/
def resetModule (s : State) : State :=
  { State.reset with
    free := s.free, nextKey := s.nextKey, retired := s.retired, ports := downPorts s.retired, lifeFlash := s.lifeFlash
    leftOut := s.retired.filter fun k => k / 2048 = 3 || k / 2048 = 4
    lifeTicks := s.lifeTicks + s.time, wear := s.wear.map fun e => (e.1, { d := 0, e := 0, eol := 0, hist := e.2.hist })
    life := s.lifeFlash.filter fun e => e.1 < 2 ^ 16 }

/-- A thermal trip is recorded among the life-of-part records (R406); no counter of Table 18.3 names it. -/
def execModuleReset (s : State) : Out :=
  .next (resetModule (if s.trip then { s with lifeFlash := Tab.set 0 s.lifeFlash (2 ^ 20) (Tab.getD 0 s.lifeFlash (2 ^ 20) + 1) } else s))

/-! ## In-field test (R396, R397) -/

/-- All 44 calendars of a grove are free for the 192 slots from w on. -/
def windowFree (s : State) (g w : Nat) : Bool :=
  (chainsOf s).all fun c => c.g != g || c.steps.all fun st => 6 < st.cls || st.rem || st.spans.all fun i => i.2 ≤ w || w + 192 ≤ i.1

/-- The earliest window within the horizon. -/
def placeWindow (s : State) (g : Nat) : State :=
  match ((List.range 3904).map (curSlot s + 1 + ·)).find? (windowFree s g) with
  | some w => updGrove s g fun x => { x with window := some w, wantTest := false }
  | none => updGrove s g fun x => { x with wantTest := true }

/-- The test period expires: the next grove in rotation takes a window. -/
def execTestPeriod (s : State) : Out :=
  .next (placeWindow { s with testNext := (s.testNext + 1) % 16 } (s.testNext % 16))

/-- The slot boundary of a grove whose window found no place tries again. -/
def retryWindow (s : State) (g : Nat) : State := if (groveAt s g).wantTest then placeWindow s g else s

/-- The window runs: the engines of the grove are woken for the stored vectors, and what they held is lost. -/
def execTestWindow (g : Nat) (s : State) : Out :=
  .next (if inWindow s g (curSlot s) then
      let es := (s.engines.filter fun e => e.1 / 128 = g).filterMap fun e => engOfKey e.1
      es.foldl (fun s e => setEng s e Engine.off) (es.foldl (fun s e => evictOpen s e false) s)
    else s)

/-- Give the tickets of a retired grove their new homes (R342). -/
def rehome (s : State) (g : Nat) : State :=
  let home := fun (t : Ticket) => match launchAt s t.slot with
    | some l => homeGrove s l.ctx (pktGmask l.pkt) g
    | none => g
  let waiting := Tab.getD [] s.ready g
  let s := { s with tickets := s.tickets.map fun e => (e.1, if e.2.home = g then { e.2 with home := home e.2 } else e.2)
                    ready := s.ready.del g }
  waiting.foldl enterReady s

/-- A grove fails its test. -/
def failGrove (s : State) (g : Nat) : State :=
  let x := groveAt s g
  let s := updGrove s g fun x => { x with retired := true, window := none, wantTest := false }
  let ks := (s.units.filter fun e => e.1 % 256 / 16 = g).map (·.1)
  let s := ks.foldl (fun s k => match s.units.get? k with
    | some u => killUnit s k { causeC u 0 0 Acc.none with code := 0 } false
    | none => s) s
  let s := ((List.range 7).flatMap fun c => (List.range (classCount c)).map fun r => (c, r)).foldl (fun s e => cancelOn s e.1 g e.2) s
  let s := ((s.launches.filter fun e => pktTwice e.2.pkt && e.2.groves.getLsbD g).map (·.1)).foldl failLaunch s
  let s := { s with partitions := s.partitions.filter fun p => p.2.grove != g || s.units.any fun e => e.2.lid = p.2.lid && e.1 % 256 / 16 = g }
  let s := rehome s g
  let s := post s 0x09 0x0A00 false (g + (if x.logOvf then 2 ^ 4 else 0) + x.log.length * 2 ^ 8 + Config.deviceId.toNat * 2 ^ 32) x.lastPass
  let s := updGrove s g fun x => { x with logFrozen := true }
  { s with sent := s.sent ++ x.dests.map fun d => Sent.suspect d g x.lastPass s.time }

/-- The vectors' outcome at the window's end; whether they matched comes from outside the model (log 14). -/
def execTestResult (g : Nat) (pass : Bool) (s : State) : Out :=
  .next (match (groveAt s g).window with
    | none => s
    | some w =>
      if curSlot s + 1 < w + 192 then s
      else if pass then
        updGrove s g fun x =>
          { x with window := none, lastPass := 64 * (w + 192) - 1, dests := []
                   log := if x.logFrozen then x.log else [], logOvf := x.logFrozen && x.logOvf }
      else failGrove s g)

/-! ## Management registers (R407, Table 18.2) -/

def execMgmtRegisterWrite (off : Nat) (v : Double) (s : State) : Out :=
  let m := s.mgmt
  .next (match off with
    | 0x0000 => { s with mgmt := { m with gsel := bits v 11 0 } }
    | 0x0610 => { s with mgmt := { m with ptpctl := bit v 0 }, ptpstat := BitVec.ofNat 64 (putBits s.ptpstat.toNat 1 1 (bits v 0 0)) }
    | 0x0700 => { s with mgmt := { m with calsel := bits v 25 0 } }
    | 0x0800 => { s with mgmt := { m with lopsel := bits v 9 0 } }
    | 0x0A00 => { s with mgmt := { m with slogsel := bits v 15 0 } }
    | _ => s)

def execTper (v : Double) (s : State) : Out :=
  .next (let n := bits v 5 0
    if 30 ≤ n && n ≤ 40 then { s with mgmt := { s.mgmt with tper := n } } else s)

/-- Return a retired unit to service. -/
def execRetsvc (v : Double) (s : State) : Out :=
  let key := 2048 * bits v 2 0 + bits v 18 8
  .next (if !s.retired.elem key then s
    else
      let s := { s with retired := NSet.del s.retired key, lifeFlash := Tab.set 0 s.lifeFlash (2 ^ 16 + key) 0 }
      let i := bits v 18 8
      if bits v 2 0 = 5 then { s with ports := s.ports.upd i fun p => { p with down := false, fails := 0 } }
      else if bits v 2 0 = 6 then { s with sensors := s.sensors.upd i fun x => { x with perm := false } }
      else s)

def execMbcons (v : Double) (s : State) : Out :=
  let m := s.mailbox
  let n := bits v 31 0
  .next (if (n + 2 ^ 32 - m.cons) % 2 ^ 32 ≤ (m.prod + 2 ^ 32 - m.cons) % 2 ^ 32 then { s with mailbox := { m with cons := n, before := (m.prod, m.lost, m.ovf), ready := [] } } else s)

/-! ## Calendar entries (R301, Table 12.2) -/

/-- KIND of a step's slot. -/
def slotKind (st : BStep) (t : Nat) : Nat := if st.ext.elem t then 3 else if st.st == .held then 1 else 2

/-- The slot belongs to a prefix or a reload. -/
def inPrefix (st : BStep) (t : Nat) : Bool :=
  (decide (st.start - st.pfx ≤ t) && decide (t < st.start)) || match st.rmd with
    | some r => decide (r.start - r.reload - r.pfx ≤ t) && decide (t < r.start)
    | none => false

/-- The entry of an engine, Ladle or port; a test window's has no booking-table entry to name. -/
def stepEntry (s : State) (cls g r t : Nat) : Nat :=
  let es := (chainsOf s).flatMap fun c => (c.steps.mapIdx fun i st => (c, i, st)).filter fun e => onRes c e.2.2 cls g r && e.2.2.at t
  match (es.find? fun e => e.2.2.ext.elem t).orElse fun _ => es.head? with
  | some (c, i, st) => slotKind st t + boolN (inPrefix st t) 4 + bits c.handle 9 0 * 8 + i * 2 ^ 13 + c.ctx % 4096 * 2 ^ 16
  | none => if cls < 7 && inWindow s g t then 2 else 0

/-- The entry of a channel group: lanes and their owners. -/
def laneEntry (s : State) (r t : Nat) : Nat :=
  let es := (stepsOn (chainsOf s) 7 0 r).filter fun e => e.2.at t
  lanesAt (chainsOf s) r t + ((List.range 8).map fun i => match es.find? fun e => (e.2.lanesIn t).testBit i with
    | some (c, _) => bits c.handle 9 0 * 2 ^ (8 + 10 * i)
    | none => 0).foldl (· + ·) 0

def calEntry (s : State) (sel : Nat) : Nat :=
  let cls := sel % 16
  let r := sel / 16 % 64
  let g := sel / 1024 % 16
  let t := curSlot s + sel / 2 ^ 14 % 4096
  if cls = 7 then laneEntry s r t
  else if cls < 9 then stepEntry s cls g r t
  else if cls = 9 then powerUsed s (chainsOf s) g t
  else 0

def execCald0 (s : State) : Out := .next { s with mgmt := { s.mgmt with cald := BitVec.ofNat 88 (calEntry s s.mgmt.calsel) } }

/-! ## Reading a management register (R407) -/

/-- A 16-bit signed reading as its bits. -/
def reading16 (v : Int) : Nat := (v % 2 ^ 16).toNat

/-- A register of one grove, at an offset from its first (Table 18.2). GBUDg and GPOWg hold their reset value 0 at the tick of module reset, and
the grove's values after it (log 99). -/
def groveReg (s : State) (block g : Nat) : Nat :=
  let w := Tab.getD { d := 0, e := 0, eol := 0, hist := [] } s.wear g
  match block with
  | 0 => if s.time = 0 then 0 else byteBudget s g + (groveAt s g).used * 2 ^ 32
  | 1 =>
    if s.time = 0 then 0
    else (groveAt s g).freq + powerLimit s g * 2 ^ 8 + (powerUsed s (chainsOf s) g (curSlot s) + openUnits s g fun _ => true) * 2 ^ 16
  | 2 => w.d + w.eol * 2 ^ 16
  | _ => w.e % 2 ^ 32

def sensorReg (s : State) (i : Nat) : Nat :=
  let x := Tab.getD { raw := 0, val := 0, susp := false, perm := false, passes := 0, hist := [] } s.sensors i
  reading16 x.raw + reading16 x.val * 2 ^ 16 + boolN x.susp (2 ^ 32) + boolN x.perm (2 ^ 33)

/-- An entry of a frozen launch log (R397). -/
def slogData (s : State) : Nat :=
  let g := groveAt s (s.mgmt.slogsel % 16)
  let i := s.mgmt.slogsel / 16
  if g.logFrozen then g.log.getD i 0 % 2 ^ 32 + boolN (decide (i < g.log.length)) (2 ^ 32) + g.log.length * 2 ^ 33 else 0

/-- The identity that the management interface gives: the 48-byte public key, then the 18-bit device identifier (R368). Table 18.2 assigns it
no offset, so it is no register of `mgmtRead` (log 9). -/
def identityBytes : List Byte := leBytes 48 Config.devicePublicKey.toNat ++ leBytes 3 Config.deviceId.toNat

/-- The double that a read of a management register returns; an unassigned offset reads zero. A read of CALD0 is the
event `cald0`, which latches the entry first. -/
def mgmtRead (s : State) (off : Nat) : Double :=
  BitVec.ofNat 64 (
    match off with
    | 0x0000 => s.mgmt.gsel
    | 0x0008 => ((grantOf s s.mgmt.gsel).map grantWord).getD 0
    | 0x0010 => ((grantOf s s.mgmt.gsel).map (·.bb)).getD 0 % 2 ^ 24
    | 0x0600 => s.mgmt.tper
    | 0x0610 => boolN s.mgmt.ptpctl 1
    | 0x0700 => s.mgmt.calsel
    | 0x0708 => bits s.mgmt.cald 63 0
    | 0x0710 => bits s.mgmt.cald 87 64
    | 0x0800 => s.mgmt.lopsel
    | 0x0808 => Tab.getD 0 s.life s.mgmt.lopsel
    | 0x0900 => s.mailbox.prod
    | 0x0908 => s.mailbox.cons
    | 0x0910 => s.mailbox.lost
    | 0x0A00 => s.mgmt.slogsel
    | 0x0A08 => slogData s
    | _ =>
      if off % 8 != 0 then 0
      else if 0x0100 ≤ off && off < 0x0180 then groveReg s 0 ((off - 0x0100) / 8)
      else if 0x0180 ≤ off && off < 0x0200 then groveReg s 1 ((off - 0x0180) / 8)
      else if 0x0200 ≤ off && off < 0x0400 then sensorReg s ((off - 0x0200) / 8)
      else if 0x0400 ≤ off && off < 0x0500 then groveReg s (2 + off / 8 % 2) ((off - 0x0400) / 16)
      else if 0x1000 ≤ off && off < 0x9000 then
        ((Tab.getD [] s.mailbox.recs ((off - 0x1000) / 32)).getD (off / 8 % 4) 0).toNat
      else 0)

end Sys2Proof.Machine
end

