-- ==== Sys2Proof/Machine/FpOps.lean ====
section
/-! DEFINITION. FP32 instructions (R129 to R137) and the compares and predicate instructions (R138 to
R140). -/

namespace Sys2Proof.Machine

/-- A two-source FP32 instruction: `f d a b mode` gives the result and its flags. -/
def fpT (f : Word → Word → Word → Rnd → Word × Flags) (n : FNxt) (d a : SReg) (b : OpB) (s : State) : Out :=
  ctl s (factOf n) (opLen b) (guarded (opGuard b) fun s u =>
    let r := f (u.freg d) (u.freg a) (fpB s u b) (rndOf n)
    .ok s ((u.setF d r.1).addFlags r.2))

/-- A one-source FP32 instruction with an FP32 result. -/
def fpT1 (f : Word → Rnd → Word × Flags) (n : FNxt) (g : GReg) (d a : SReg) (s : State) : Out :=
  ctl s (factOf n) 1 (guarded g fun s u =>
    let r := f (u.freg a) (rndOf n)
    .ok s ((u.setF d r.1).addFlags r.2))

/-- An immediate-20 float operation (R137). -/
def fpI (f : Word → Word → Word × Flags) (n : INxt) (d : SReg) (i : BitVec 20) (s : State) : Out :=
  ctl s (iactOf n) 1 fun s u =>
    let r := f (u.freg d) (immF i)
    .ok s ((u.setF d r.1).addFlags r.2)

/-! ## The values of Tables 5.3 to 5.6 -/

def f32Add (a b : Word) (m : Rnd) : Word × Flags := f32Of (Val.add (f32Val a) (f32Val b) m) m
def f32Sub (a b : Word) (m : Rnd) : Word × Flags := f32Of (Val.add (f32Val a) (Val.neg (f32Val b)) m) m
def f32Mul (a b : Word) (m : Rnd) : Word × Flags := f32Of (Val.mul (f32Val a) (f32Val b)) m
def f32Div (a b : Word) (m : Rnd) : Word × Flags := f32Of (Val.div (f32Val a) (f32Val b)) m
def f32Fma (d a b : Word) (m : Rnd) : Word × Flags := f32Of (Val.fma (f32Val d) (f32Val a) (f32Val b) m) m
def f32Fnma (d a b : Word) (m : Rnd) : Word × Flags := f32Of (Val.fma (Val.neg (f32Val d)) (f32Val a) (f32Val b) m) m
def f32Sqrt (a : Word) (m : Rnd) : Word × Flags := f32Of (Val.sqrt (f32Val a)) m

def execFadd (n : FNxt) (d a : SReg) (b : OpB) (s : State) : Out := fpT (fun _ a b m => f32Add a b m) n d a b s
def execFsub (n : FNxt) (d a : SReg) (b : OpB) (s : State) : Out := fpT (fun _ a b m => f32Sub a b m) n d a b s
def execFmul (n : FNxt) (d a : SReg) (b : OpB) (s : State) : Out := fpT (fun _ a b m => f32Mul a b m) n d a b s
def execFdiv (n : FNxt) (d a : SReg) (b : OpB) (s : State) : Out := fpT (fun _ a b m => f32Div a b m) n d a b s
def execFma (n : FNxt) (d a : SReg) (b : OpB) (s : State) : Out := fpT f32Fma n d a b s
def execFnma (n : FNxt) (d a : SReg) (b : OpB) (s : State) : Out := fpT f32Fnma n d a b s
def execFmin (n : FNxt) (d a : SReg) (b : OpB) (s : State) : Out := fpT (fun _ a b _ => (f32MinMax true a b, 0)) n d a b s
def execFmax (n : FNxt) (d a : SReg) (b : OpB) (s : State) : Out := fpT (fun _ a b _ => (f32MinMax false a b, 0)) n d a b s
def execFsqrt (n : FNxt) (g : GReg) (d a : SReg) (s : State) : Out := fpT1 f32Sqrt n g d a s
def execFabs (n : FNxt) (g : GReg) (d a : SReg) (s : State) : Out := fpT1 (fun a _ => (f32Sign true a, 0)) n g d a s
def execFneg (n : FNxt) (g : GReg) (d a : SReg) (s : State) : Out := fpT1 (fun a _ => (f32Sign false a, 0)) n g d a s

/-- FCVT.FI writes an integer result (R121, R135). -/
def execFcvtFi (n : FNxt) (g : GReg) (d a : SReg) (s : State) : Out :=
  ctl s (factOf n) 1 (guarded g fun s u =>
    let r := f32ToInt (u.freg a) (rndOf n)
    .ok s ((u.setS d r.1).addFlags r.2))

/-- FCVT.IF reads a 64-bit integer (R135). -/
def execFcvtIf (n : FNxt) (g : GReg) (d a : SReg) (s : State) : Out :=
  ctl s (factOf n) 1 (guarded g fun s u =>
    let r := f32Round (Val.ofInt (u.sreg a).toInt) (rndOf n)
    .ok s ((u.setF d r.1).addFlags r.2))

/-- FCLASS writes an integer result (R136). -/
def execFclass (n : FNxt) (g : GReg) (d a : SReg) (s : State) : Out :=
  ctl s (factOf n) 1 (guarded g fun s u => .ok s (u.setS d (BitVec.ofNat 64 (f32Class (u.freg a)))))

/-- FSET writes F unchanged (R137). -/
def execFset (n : INxt) (d : SReg) (i : BitVec 20) (s : State) : Out := fpI (fun _ f => (f, 0)) n d i s
def execFaddImm (n : INxt) (d : SReg) (i : BitVec 20) (s : State) : Out := fpI (fun a f => f32Add a f .rne) n d i s
def execFmulImm (n : INxt) (d : SReg) (i : BitVec 20) (s : State) : Out := fpI (fun a f => f32Mul a f .rne) n d i s
def execFmaxImm (n : INxt) (d : SReg) (i : BitVec 20) (s : State) : Out := fpI (fun a f => (f32MinMax false a f, 0)) n d i s

/-! ## Compares (R138, R139) -/

/-- An integer compare: p[d] takes the relation. -/
def cmpT (zx : Bool) (f : Double → Double → Bool) (n : Nxt) (d : PReg) (a : SReg) (b : OpB) (s : State) : Out :=
  ctl s (actOf n) (opLen b) (guarded (opGuard b) fun s u => .ok s (u.setP d (f (u.sreg a) (intB s u zx b))))

/-- An FP32 compare: false with the flag `nan` on a NaN operand. -/
def fcmpT (f : Val → Val → Bool) (nan : Flags) (n : FNxt) (d : PReg) (a : SReg) (b : OpB) (s : State) : Out :=
  ctl s (factOf n) (opLen b) (guarded (opGuard b) fun s u =>
    let x := f32Val (u.freg a)
    let y := f32Val (fpB s u b)
    if x.isNan || y.isNan then .ok s ((u.setP d false).addFlags nan) else .ok s (u.setP d (f x y)))

def execCeq (n : Nxt) (d : PReg) (a : SReg) (b : OpB) (s : State) : Out := cmpT false (fun a b => decide (a = b)) n d a b s
def execCne (n : Nxt) (d : PReg) (a : SReg) (b : OpB) (s : State) : Out := cmpT false (fun a b => decide (a ≠ b)) n d a b s
def execClt (n : Nxt) (d : PReg) (a : SReg) (b : OpB) (s : State) : Out := cmpT false (fun a b => a.slt b) n d a b s
def execCle (n : Nxt) (d : PReg) (a : SReg) (b : OpB) (s : State) : Out := cmpT false (fun a b => a.sle b) n d a b s
def execCltU (n : Nxt) (d : PReg) (a : SReg) (b : OpB) (s : State) : Out := cmpT true (fun a b => a.ult b) n d a b s
def execCleU (n : Nxt) (d : PReg) (a : SReg) (b : OpB) (s : State) : Out := cmpT true (fun a b => a.ule b) n d a b s
def execFceq (n : FNxt) (d : PReg) (a : SReg) (b : OpB) (s : State) : Out := fcmpT Val.eq 0 n d a b s
def execFclt (n : FNxt) (d : PReg) (a : SReg) (b : OpB) (s : State) : Out := fcmpT Val.lt Fl.iv n d a b s
def execFcle (n : FNxt) (d : PReg) (a : SReg) (b : OpB) (s : State) : Out := fcmpT (fun x y => !Val.lt y x) Fl.iv n d a b s
/-- FCUN takes no rounding field (R51) and sets no flag. -/
def execFcun (n : Nxt) (d : PReg) (a : SReg) (b : OpB) (s : State) : Out :=
  ctl s (actOf n) (opLen b) (guarded (opGuard b) fun s u =>
    .ok s (u.setP d ((f32Val (u.freg a)).isNan || (f32Val (fpB s u b)).isNan)))

/-! ## Predicate instructions (R140) -/

def predT (f : Bool → Bool → Bool) (n : Nxt) (g : GReg) (d a b : PReg) (s : State) : Out :=
  ctl s (actOf n) 1 (guarded g fun s u => .ok s (u.setP d (f (u.preg a) (u.preg b))))

def execPand (n : Nxt) (g : GReg) (d a b : PReg) (s : State) : Out := predT (· && ·) n g d a b s
def execPor (n : Nxt) (g : GReg) (d a b : PReg) (s : State) : Out := predT (· || ·) n g d a b s
def execPxor (n : Nxt) (g : GReg) (d a b : PReg) (s : State) : Out := predT (· != ·) n g d a b s
def execPandn (n : Nxt) (g : GReg) (d a b : PReg) (s : State) : Out := predT (fun x y => x && !y) n g d a b s
def execPset (n : Nxt) (g : GReg) (d : PReg) (a : SReg) (s : State) : Out :=
  ctl s (actOf n) 1 (guarded g fun s u => .ok s (u.setP d (u.sreg a != 0)))

end Sys2Proof.Machine
end

