-- ==== Sys2Proof/Machine/Objects.lean ====
section
/-! DEFINITION. Objects as the control plane makes and removes them: memory that no other context owns (R364, log 4), object-table
entries, directories, leaves and sync objects (R213, R265, R266, R355). -/

namespace Sys2Proof.Machine

/-! ## Memory of the control plane -/

/-- Where the control plane's allocations of HBM and of the Clearing begin: below lie the host's tables and the journal. -/
def heapHbm : Nat := 2 ^ 30
def heapClr : Nat := clrBase + 2 ^ 26

def roundUp (x n : Nat) : Nat := (x + n - 1) / n * n

/-- The capacity that a left-out Clearing bank, or channel group of a stack, takes from the top of the Clearing or of its stack (R392, log 82). -/
def lostSpans (s : State) : List (Nat × Nat) :=
  let lost := fun (cls first count : Nat) => ((List.range count).filter fun i => s.leftOut.elem (2048 * cls + first + i)).length
  (clrTop - 2 ^ 18 * lost 3 0 1024, clrTop) :: (List.range 12).map fun i =>
    (48 * 2 ^ 30 * (i + 1) - 12 * 2 ^ 30 * lost 4 (4 * i) 4, 48 * 2 ^ 30 * (i + 1))

/-- Memory that is owned: allocations, the object tables of contexts, and what the address map lacks. -/
def owned (s : State) : List (Nat × Nat) :=
  (if s.leftOut.isEmpty then [] else lostSpans s) ++ (s.allocs.map fun a => (a.1, a.1 + a.2.size)) ++ s.ctxs.map fun c => (c.2.body.otbase, c.2.body.otbase + 64 * c.2.body.otlen)

/-- The lowest aligned run of n bytes of [lo, hi) that nothing owns. -/
def freeRun (os : List (Nat × Nat)) (lo hi align n : Nat) : Option Nat :=
  (((lo :: os.map (·.2)).map fun x => roundUp (max lo x) align).filter fun a =>
    a + n ≤ hi && os.all fun o => a + n ≤ o.1 || o.2 ≤ a).foldl (fun best a => match best with
      | none => some a
      | some b => some (min a b)) none

/-- Take n aligned bytes of HBM (level 0) or the Clearing for an object. -/
def takeMem (s : State) (lvl align n ctx oid : Nat) : Option (State × Nat) :=
  (if lvl = 1 then freeRun (owned s) heapClr clrTop align n else freeRun (owned s) heapHbm hbmTop align n).map fun a =>
    ({ s with allocs := s.allocs.put a { size := n, ctx := ctx, oid := oid } }, a)

/-- Take memory and write zeros to it under a key. -/
def takeZero (s : State) (key lvl align n ctx oid : Nat) : Option (State × Nat) :=
  (takeMem s lvl align n ctx oid).map fun r => (zeroFill r.1 key r.2 (r.2 + roundUp n 64), r.2)

def freeMem (s : State) (p : Alloc → Bool) : State := { s with allocs := s.allocs.filter fun a => !p a.2 }

/-! ## Entries -/

/-- The eight doubles of an entry (Table 10.5). -/
def ObjE.doubles (e : ObjE) : List Nat :=
  [e.st + e.psc * 2 ^ 2 + e.fmt * 2 ^ 4 + e.lvl * 2 ^ 8 + e.key * 2 ^ 10 + e.dev * 2 ^ 22 + (if e.plain then 2 ^ 40 else 0),
    e.size, e.root, e.sync, 0, 0, 0, 0]

def entryAddr (s : State) (ctx oid : Nat) : Nat := ((ctxRec? s ctx).map (·.body.otbase)).getD 0 + 64 * oid

/-- Write an entry into the context's object table, by plain accesses. -/
def writeEntry (s : State) (ctx oid : Nat) (e : ObjE) : State :=
  writeBytes s 0 (entryAddr s ctx oid) (e.doubles.flatMap (leBytes 8))

/-- Set ST of an entry, and remove what the module holds of it at system scope (R276). -/
def retireEntry (s : State) (ctx oid : Nat) : State :=
  let a := entryAddr s ctx oid
  tlbRemove (wr8 s a (putBits (rd8 s a) 0 2 3)) 0 3 ctx oid 0 0

/-- The lowest object id whose entry is invalid. -/
def freeOid (s : State) (ctx : Nat) : Nat → Nat → Option Nat
  | 0, _ => none
  | n + 1, i => if rd8 s (entryAddr s ctx i) % 4 = 0 then some i else freeOid s ctx n (i + 1)

def nextOid (s : State) (ctx : Nat) : Option Nat := freeOid s ctx (((ctxRec? s ctx).map (·.body.otlen)).getD 0) 0

/-! ## Page tables -/

def pagesOf (e : ObjE) : Nat := (e.size + 2 ^ pageShift e.psc - 1) / 2 ^ pageShift e.psc

/-- Write n doubles in ascending order. -/
def writeDoubles (s : State) (a : Nat) (n : Nat) (f : Nat → Nat) : State := writeBytes s 0 a ((List.range n).flatMap fun i => leBytes 8 (f i))

/-- Directory and leaves of an object, whose PTEs name consecutive frames from `frame` on, or are invalid. -/
def makeTables (s : State) (ctx oid : Nat) (e : ObjE) (frame : Option Nat) : Option (State × Nat) :=
  let pages := pagesOf e
  let leaves := (pages + 2047) / 2048
  let dir := roundUp (8 * leaves) (2 ^ 14)
  (takeZero s 0 0 (2 ^ 14) (dir + 2 ^ 14 * leaves) ctx oid).map fun r =>
    let s := writeDoubles r.1 r.2 leaves fun i => r.2 + dir + 2 ^ 14 * i + 1
    (match frame with
     | none => s
     | some f => writeDoubles s (r.2 + dir) pages fun i => f + i * 2 ^ pageShift e.psc + 1, r.2)

/-- The frames of an object of level 0 or 1, zeroed under its key (R355). -/
def makeFrames (s : State) (ctx oid : Nat) (e : ObjE) : Option (State × Option Nat) :=
  if 1 < e.lvl then some (s, none)
  else
    let key := if e.plain || e.lvl = 1 then 0 else keyNum s e.key
    (takeZero s key e.lvl (2 ^ pageShift e.psc) (pagesOf e * 2 ^ pageShift e.psc) ctx oid).map fun r => (r.1, some r.2)

/-- Binding granules of an object. -/
def bindGranules (size : Nat) : Nat := (size + 65535) / 65536

/-- A sync object of a context, in a line of its own. -/
def makeSync (s : State) (ctx oid nbind : Nat) : Option (State × Nat) :=
  (takeZero s 0 1 64 64 ctx oid).map fun r => (syncCreate r.1 r.2 ctx nbind, r.2)

/-- Make an object at a free id: frames, tables and its own sync object first, its entry last (R265, R364). A Pantry object keeps
the ROOT it is given. -/
def makeObject (s : State) (ctx oid : Nat) (e : ObjE) : Option State :=
  (makeFrames s ctx oid e).bind fun f =>
    (if e.lvl = 2 then some (f.1, e.root) else makeTables f.1 ctx oid e f.2).bind fun t =>
      (makeSync t.1 ctx oid (bindGranules e.size)).map fun y =>
        writeEntry y.1 ctx oid { e with st := 1, root := t.2, sync := y.2 }

/-- An object's sync object is retired, and its line is one no more. -/
def dropSync (s : State) (pa : Nat) : State := { syncRetire s pa with syncs := (syncRetire s pa).syncs.del (pa / 64) }

/-- Retire an object and free what it holds; granules of other objects stay bound as they were (R364). -/
def removeObject (s : State) (ctx oid : Nat) (e : ObjE) : State :=
  let s := retireEntry s ctx oid
  let s := { s with binds := s.binds.filter fun b => !(b.ctx = ctx && b.oid = oid) }
  freeMem (dropSync s e.sync) fun a => a.ctx = ctx && a.oid = oid

/-- An entry that names an object of another context: the owner's fields, with a sync object of the recipient (R357). -/
def makeSynonym (s : State) (ctx oid : Nat) (e : ObjE) : Option State :=
  (makeSync s ctx oid (bindGranules e.size)).map fun y => writeEntry y.1 ctx oid { e with st := 1, sync := y.2 }

end Sys2Proof.Machine
end

