-- ==== Sys2Proof/Machine/Loader.lean ====
section
/-! DEFINITION. The loader: the checks of Table 3.8, installation in the context's code areas, relocation and re-patching
(R78 to R91), and Pantry layout (R351). Where the control plane puts code areas and sections is the model's (log 4). -/

namespace Sys2Proof.Machine

/-! ## The image (Tables 3.2 to 3.6) -/

/-- The order of the sections. -/
def sectionStreams : List Stream := [.c, .vl, .va, .vs, .m, .d]

def sectionOf (img : CodeImage) (str : Stream) : SectionImage :=
  match (sectionStreams.zip img.sections).find? fun e => e.1 = str with
  | some e => e.2
  | none => { words := [], kinds := [] }

def mapBytes (x : SectionImage) : List Byte :=
  (List.range ((x.words.length + 15) / 16)).flatMap fun i =>
    leBytes 4 ((List.range 16).foldl (fun n j => n + (x.kinds.getD (16 * i + j) 0).toNat * 4 ^ j) 0)

/-- n bytes of the image's reserved fields from the i-th on: 36 of the header, 4 of each section, then 1 of each buffer and 4 of each segment. -/
def reservedAt (img : CodeImage) (i n : Nat) : List Byte := ((img.reserved ++ List.replicate (i + n) 0).drop i).take n

def imageBuffers (img : CodeImage) : List Byte :=
  (img.buffers.mapIdx fun i b =>
    (b.name ++ List.replicate 16 0).take 16 ++ leBytes 8 b.size ++ leBytes 1 b.psc ++ leBytes 1 b.fmt ++ leBytes 1 b.level ++
      leBytes 1 b.phase ++ leBytes 2 b.partner ++ leBytes 1 b.flags ++ reservedAt img (60 + i) 1).flatMap id

def imageSegments (img : CodeImage) : List Byte :=
  (img.segments.mapIdx fun i g =>
    leBytes 1 g.stream ++ leBytes 1 g.levels ++ leBytes 2 g.len ++ leBytes 4 g.start ++ leBytes 4 g.eOut ++ leBytes 4 g.e2 ++
      leBytes 4 g.e1 ++ leBytes 4 g.e0 ++ leBytes 4 g.sig.toNat ++ reservedAt img (60 + img.buffers.length + 4 * i) 4).flatMap id

def imageRelocs (img : CodeImage) : List Byte :=
  img.relocs.flatMap fun r => leBytes 1 r.kind ++ leBytes 1 r.stream ++ leBytes 2 r.aux ++ leBytes 4 r.site ++ leBytes 4 r.value

/-- The running sums of a list of lengths, from `n`. -/
def offsetsFrom : Nat → List Nat → List Nat
  | _, [] => []
  | n, k :: r => n :: offsetsFrom (n + k) r

/-- The image's bytes before its signature: the parts of Table 3.2 in their order, without gaps. -/
def imageBody (img : CodeImage) : List Byte :=
  let tables := (img.consts ++ List.replicate 128 (0 : Word)).take 128 |>.flatMap (fun w => leBytes 4 w.toNat)
  let tables := tables ++ imageBuffers img ++ imageSegments img ++ imageRelocs img
  let secs := sectionStreams.map (sectionOf img)
  let maps := secs.map mapBytes
  let words := secs.map fun x => x.words.flatMap fun w => leBytes 4 w.toNat
  let mapAt := offsetsFrom (64 + 96 + tables.length) (maps.map (·.length))
  let wordAt := offsetsFrom (64 + 96 + tables.length + (maps.flatMap id).length) (words.map (·.length))
  leBytes 4 img.magic.toNat ++ leBytes 2 img.version ++ leBytes 2 img.flags ++ leBytes 4 img.slip ++ leBytes 4 img.buffers.length ++
    leBytes 4 img.segments.length ++ leBytes 4 img.relocs.length ++ leBytes 4 img.entry ++ reservedAt img 0 36 ++
    ((List.range 6).flatMap fun i =>
      leBytes 4 ((secs.map (·.words.length)).getD i 0) ++ leBytes 4 (wordAt.getD i 0) ++ leBytes 4 (mapAt.getD i 0) ++ reservedAt img (36 + 4 * i) 4) ++
    tables ++ maps.flatMap id ++ words.flatMap id

/-! ## The checks (Table 3.8) -/

/-- Buffer i breaks R80. -/
def badPair (img : CodeImage) (i : Nat) (b : BufferEntry) : Bool :=
  if b.phase = 0 then b.partner != 0xFFFF
  else
    match img.buffers[b.partner]? with
    | none => true
    | some p =>
      !((b.phase = 1 && p.phase = 2) || (b.phase = 2 && p.phase = 1)) || p.partner != i || b.level != 2 || p.level != 2 ||
        b.size != p.size || b.fmt != p.fmt || b.psc != p.psc

def anyIdx {α : Type} (l : List α) (p : Nat → α → Bool) : Bool := (l.mapIdx p).any id

/-- A relocation site that Table 3.8 refuses; a kind that Table 3.7 does not list is refused so too (log 36). -/
def badSite (img : CodeImage) (r : RelocEntry) : Bool :=
  match streamOf r.stream with
  | none => true
  | some str =>
    let x := sectionOf img str
    let n := if r.kind = 1 then 4 else 1
    let pool := (List.range n).all fun i => x.kinds.getD (r.site + i) 0 = 2
    x.words.length < r.site + n ||
    match r.kind with
    | 1 => !pool || img.buffers.length ≤ r.aux
    | 2 => false
    | 3 => 4 < r.aux
    | 4 => !pool || img.buffers.length ≤ bits (x.words.getD r.site 0) 23 0
    | _ => true

/-- A Value that is more than a rights mask whose bit 7 is 0 (Table 3.6, R257), or not zero where no rights are given. -/
def badValue (r : RelocEntry) : Bool := if r.kind = 1 then 128 ≤ r.value else r.value != 0

def badSegment (img : CodeImage) (g : SegmentEntry) : Bool :=
  match streamOf g.stream with
  | none => true
  | some str => (sectionOf img str).words.length < g.start + g.len || (str != .c && 256 < g.len)

/-- The offsets of the Pantry buffers, and the end of the last (R351). -/
def pantryLayout : Nat → List BufferEntry → List Nat × Nat
  | need_, [] => ([], need_)
  | need_, b :: r =>
    if b.level = 2 then
      match pantryLayout (roundUp need_ 65536 + b.size) r with
      | (l, n) => (roundUp need_ 65536 :: l, n)
    else
      match pantryLayout need_ r with
      | (l, n) => (0 :: l, n)

/-- Words a section takes: whole binding granules, which no two code objects share (R90). -/
def sectionSpan (n : Nat) : Nat := roundUp n 16384

/-- Sections of a stream's area that installed code objects of a context hold. -/
def heldSections (s : State) (ctx : Nat) (str : Stream) : List (Nat × Nat) :=
  (s.codes.filter fun c => c.2.ctx = ctx).map fun c => (c.2.bases.get str, c.2.bases.get str + sectionSpan (c.2.counts.get str))

/-- The base of a section in its code area: the lowest that fits. -/
def sectionBase (s : State) (ctx : Nat) (img : CodeImage) (str : Stream) : Option Nat :=
  freeRun (heldSections s ctx str) 0 (2 ^ 24) 16384 (sectionSpan (sectionOf img str).words.length)

def sectionBases (s : State) (ctx : Nat) (img : CodeImage) : Option (Six Nat) :=
  (sectionBase s ctx img .vl).bind fun vl => (sectionBase s ctx img .va).bind fun va => (sectionBase s ctx img .vs).bind fun vs =>
    (sectionBase s ctx img .m).bind fun m => (sectionBase s ctx img .d).bind fun d => (sectionBase s ctx img .c).map fun c =>
      ⟨vl, va, vs, m, d, c⟩

/-! ## Installation (R87, R90) -/

/-- An object that no instruction names by its own entry's fields alone: a code area of HBM, a page of 64 MiB with its words, and the
word-kind map of its words from offset 2^26 on (R81, R226, log 79). -/
def areaEntry (ctx : Nat) : ObjE :=
  { st := 1, psc := 3, fmt := 1, lvl := 0, key := ctx, dev := 0, plain := false, size := 2 ^ 26 + 2 ^ 22, root := 0, sync := 0, bad := false }

/-- One code area of a context, when it has none. -/
def makeArea (ctx : Nat) (str : Stream) (s : State) : Option State :=
  match ctxRec? s ctx with
  | none => none
  | some r =>
    if (r.areas.get str).base != 0 then some s
    else
      (nextOid s ctx).bind fun oid =>
        (makeObject s ctx oid (areaEntry ctx)).map fun s =>
          let base := ((s.allocs.find? fun a => a.2.ctx = ctx && a.2.oid = oid && a.2.size = 2 ^ 27).map (·.1)).getD 0
          { s with ctxs := s.ctxs.upd ctx fun r => { r with areas := r.areas.set str { oid := oid, base := base, used := 0, map := base + 2 ^ 26 } } }

def makeAreas (s : State) (ctx : Nat) : Option State := sectionStreams.foldl (fun o str => o.bind (makeArea ctx str)) (some s)

/-- The object of a buffer. -/
def bufferEntry (ctx : Nat) (b : BufferEntry) (off : Nat) : ObjE :=
  { st := 1, psc := b.psc, fmt := b.fmt, lvl := b.level, key := ctx, dev := 0, plain := b.flags = 1, size := b.size, root := off / 64,
    sync := 0, bad := false }

/-- Make the buffers' objects in order; none when the table or memory is full. -/
def makeBuffers (ctx : Nat) : List (BufferEntry × Nat) → State → Option (State × List (BufferEntry × Nat))
  | [], s => some (s, [])
  | (b, off) :: r, s =>
    (nextOid s ctx).bind fun oid => (makeObject s ctx oid (bufferEntry ctx b off)).bind fun s =>
      (makeBuffers ctx r s).map fun x => (x.1, (b, oid) :: x.2)

/-- The address of a word of a code area, and the key it is stored under. -/
def wordAddr (s : State) (ctx : Nat) (str : Stream) (w : Nat) : Nat := (((ctxRec? s ctx).map fun r => (r.areas.get str).base).getD 0) + 4 * w
def codeKey (s : State) (ctx : Nat) : Nat := keyNum s ctx

def readCode (s : State) (ctx : Nat) (str : Stream) (w : Nat) : Nat := leNat (viewBytes s (codeKey s ctx) (wordAddr s ctx str w) 4)
def writeCode (s : State) (ctx : Nat) (str : Stream) (w v : Nat) : State :=
  writeBytes s (codeKey s ctx) (wordAddr s ctx str w) (leBytes 4 v)

/-- Place one section: its words, its word-kind map as the image holds it, and the binding of its granules. -/
def placeSection (ctx sync : Nat) (img : CodeImage) (bases : Six Nat) (s : State) (str : Stream) : State :=
  let x := sectionOf img str
  let b := bases.get str
  let n := x.words.length
  let s := writeBytes s (codeKey s ctx) (wordAddr s ctx str b) (x.words.flatMap fun w => leBytes 4 w.toNat)
  let a := ((ctxRec? s ctx).map fun r => r.areas.get str).getD Area.none
  let s := writeBytes s (codeKey s ctx) (a.map + b / 4) (mapBytes x)
  let s := { s with ctxs := s.ctxs.upd ctx fun r => { r with areas := r.areas.set str { a with used := max a.used (b + n) } } }
  (range' (b / 16384) ((b + sectionSpan n) / 16384)).foldl (bindOne ctx a.oid sync) s

/-- A tagged capability written into four pool words (R88); at a site that is no multiple of four words no granule holds it whole, and none is tagged
(R256, log 87). -/
def patchCap (s : State) (ctx : Nat) (str : Stream) (w : Nat) (c : Cap) : State :=
  let a := wordAddr s ctx str w
  let s := writeBytes s (codeKey s ctx) a (leBytes 16 c.v.toNat)
  if a % 16 = 0 then { s with tags := s.tags.ins (a / 16) } else s

/-- Apply one relocation record; `oids` are the buffers' objects with their sizes. -/
def relocate (ctx : Nat) (bases : Six Nat) (oids : List (Nat × Nat)) (s : State) (r : RelocEntry) : State :=
  match streamOf r.stream with
  | none => s
  | some str =>
    let w := bases.get str + r.site
    let old := readCode s ctx str w
    match r.kind with
    | 1 =>
      match oids[r.aux]? with
      | some (oid, size) => patchCap s ctx str w (Cap.mk' true oid (r.value % 256 &&& rightsLimit s ctx oid) 0 (min (2 ^ 24 - 1) (bindGranules size)) 0)
      | none => s
    | 2 => writeCode s ctx str w (old + bases.c)
    | 3 => writeCode s ctx str w (putBits old 0 24 (old % 2 ^ 24 + ((streamOf r.aux).map bases.get).getD 0))
    | _ =>
      match oids[r.aux]? with
      | some (oid, _) => writeCode s ctx str w (putBits old 0 24 oid)
      | none => s

/-- The records as they are kept: an OBJID record names the buffer that its site held. -/
def keptReloc (img : CodeImage) (r : RelocEntry) : RelocEntry :=
  if r.kind = 4 then
    match streamOf r.stream with
    | some str => { r with aux := bits ((sectionOf img str).words.getD r.site 0) 23 0 }
    | none => r
  else r

/-- The code sync object: the first line of a Clearing object of one binding granule (R90). -/
def makeCodeSync (s : State) (ctx : Nat) : Option (State × Nat × Nat) :=
  (nextOid s ctx).bind fun oid =>
    (makeObject s ctx oid { areaEntry ctx with psc := 0, lvl := 1, size := 65536 }).map fun s =>
      let line := ((s.allocs.find? fun a => a.2.ctx = ctx && a.2.oid = oid && a.2.size = 65536).map (·.1)).getD 0
      let own := ((objMem s ctx oid).map (·.sync)).getD 0
      let s := freeMem (dropSync s own) fun a => a.ctx = ctx && a.oid = oid && a.size = 64
      let s := syncCreate s line ctx 1
      (wr8 s (entryAddr s ctx oid + 24) line, oid, line)

/-- An image placed and not yet patched: the state, the code sync object and its line, and the buffers with their objects. -/
structure LoadedImage where
  s : State
  syncOid : Nat
  sync : Nat
  buffers : List (BufferEntry × Nat)

/-- Place an image; none when an object table or memory is full. -/
def placeImage (s : State) (ctx : Nat) (img : CodeImage) (bases : Six Nat) : Option LoadedImage :=
  (makeAreas s ctx).bind fun s => (makeCodeSync s ctx).bind fun y =>
  (makeBuffers ctx (img.buffers.zip (pantryLayout 0 img.buffers).1) y.1).map fun b =>
    { s := sectionStreams.foldl (placeSection ctx y.2.2 img bases) b.1, syncOid := y.2.1, sync := y.2.2, buffers := b.2 }

/-- The objects that an image's relocations name, with their sizes. -/
def LoadedImage.oids (x : LoadedImage) : List (Nat × Nat) := x.buffers.map fun e => (e.2, e.1.size)

/-- The index that a record patches, as it finds its site, passes 2^24 − 1: bits [23:0] of the word hold it (Tables 3.7, 16.2). A CODEIDX word is
summed whole: a label less a greater constant borrows, and the carry restores the upper bits (R402). -/
def indexPasses (s : State) (ctx : Nat) (bases : Six Nat) (r : RelocEntry) : Bool :=
  let word := ((streamOf r.stream).map fun str => readCode s ctx str (bases.get str + r.site)).getD 0
  match r.kind with
  | 2 => 2 ^ 24 ≤ word % 2 ^ 24 + bases.c && 2 ^ 24 ≤ (word + bases.c) % 2 ^ 32
  | 3 => 2 ^ 24 ≤ word % 2 ^ 24 + ((streamOf r.aux).map bases.get).getD 0
  | _ => false

/-- No patched index passes 2^24 − 1 when the records are applied in order. -/
def patchFits (s : State) (ctx : Nat) (img : CodeImage) (bases : Six Nat) : Bool :=
  match placeImage s ctx img bases with
  | none => true
  | some x => ((img.relocs.map (keptReloc img)).foldl (fun a r => (relocate ctx bases x.oids a.1 r, a.2 && !indexPasses a.1 ctx bases r)) (x.s, true)).2

/-- The first condition of Table 3.8 that an image breaks, or 0, and the section bases. A buffer's format byte above 0x0F names
no format of Table 2.18 and is refused like code 0x0 (log 79). -/
def loadCheck (s : State) (r : CtxRec) (ctx : Nat) (img : CodeImage) : Nat × Six Nat :=
  let none_ := Six.all 0
  let keys := r.body.sigkeys.filter (· != 0)
  if img.magic != 0x314F435A || img.version != 1 then (0x01, none_)
  else if !(keys.any fun k => Config.sigVerifies k (imageBody img) img.signature) then (0x02, none_)
  else if img.reserved.any (· != 0) || 1 < img.flags || img.buffers.any (fun b => 3 < b.phase || 1 < b.flags) || img.relocs.any badValue then (0x03, none_)
  else if img.buffers.any fun b =>
      3 < b.psc || b.fmt = 0 || 15 < b.fmt || 2 < b.level || b.size = 0 || 2 ^ 40 < b.size || (b.flags = 1 && b.level != 0) then (0x04, none_)
  else if anyIdx img.buffers (badPair img) then (0x05, none_)
  else
    match sectionBases s ctx img with
    | none => (0x06, none_)
    | some bases =>
      if !patchFits s ctx img bases then (0x06, none_)
      else if img.relocs.any (badSite img) then (0x07, none_)
      else if img.segments.any (badSegment img) then (0x08, none_)
      else if (img.flags = 1 && !r.body.priv) || (img.flags != 1 && img.buffers.any fun b => b.flags = 1) then (0x09, none_)
      else if img.slip = 0 || 32 < img.slip then (0x0A, none_)
      else if 64 * bankBytes < (pantryLayout 0 img.buffers).2 then (0x0B, none_)
      else (0, bases)

/-- Install a code object that passed the checks; none when an object table, the handles or memory is full. -/
def install (s : State) (ctx : Nat) (img : CodeImage) (bases : Six Nat) : Option (State × Nat) :=
  ((List.range 65536).find? fun h => !s.codes.has h).bind fun h => (placeImage s ctx img bases).map fun x =>
    let relocs := img.relocs.map (keptReloc img)
    let s := relocs.foldl (relocate ctx bases x.oids) x.s
    let count := fun str => (sectionOf img str).words.length
    ({ syncRelease s x.sync with
        nextOrder := s.nextOrder + 1
        codes := s.codes.put h
          { ctx := ctx, bases := bases, counts := ⟨count .vl, count .va, count .vs, count .m, count .d, count .c⟩, consts := img.consts,
            buffers := x.buffers, segments := img.segments, relocs := relocs, template := img.template, entry := img.entry, slip := img.slip,
            priv := img.flags = 1, syncOid := x.syncOid, sync := x.sync, pneed := (pantryLayout 0 img.buffers).2,
            digest := sha256 (imageBody img ++ img.signature), order := s.nextOrder } }, h)

/-! ## Re-patching (R89) -/

/-- The patch of R89: a buffer's object moves to a new id, its records are applied again, and the code sync object is released. -/
def rePatch (s : State) (code buf : Nat) (c : Code) (newOid : Nat) (e : ObjE) : State :=
  let oids := c.buffers.mapIdx fun i b => if i = buf then (newOid, e.size) else (b.2, b.1.size)
  let s := (c.relocs.filter fun r => (r.kind = 1 || r.kind = 4) && r.aux = buf).foldl (relocate c.ctx c.bases oids) s
  let c' := { c with buffers := c.buffers.mapIdx fun i b => if i = buf then (b.1, newOid) else b }
  syncRelease { s with codes := s.codes.put code c' } c.sync

/-- A re-patch waits while a unit of the code object stands: a unit that started before the release completes with the old values, one that
starts after it sees all the new ones, and none a mixture (R89, log 80). -/
def execRePatch (code buf newOid : Nat) (s : State) : Out :=
  .next (match s.codes.get? code with
    | none => { s with part := none }
    | some c =>
      match c.buffers[buf]?, objValid s c.ctx newOid with
      | some _, some e => if s.units.any fun u => u.2.code = code then { s with part := some 0 } else rePatch { s with part := none } code buf c newOid e
      | _, _ => { s with part := none })

end Sys2Proof.Machine
end

