-- ==== Sys2Proof/Machine/HostCmd.lean ====
section
/-! DEFINITION. The host interface: queue pairs (R359), commands and their answers (R362 to R364, Tables 14.3, 14.4), contexts made and
destroyed (R355), grants (R353, R357, R358), windows and RDMA (R360, R361), attestation (R369), PTP (R365). -/

namespace Sys2Proof.Machine

/-! ## Queue pairs and answers -/

/-- The queue pair that an operation of the host comes on. -/
def qpOf : Instr → Option Nat
  | .launchCommand h _ _ | .createCtx h _ | .destroyCtx h | .setGrant h _ | .load h _ | .unload h _ | .createObj h _ | .destroyObj h _
  | .createQueue h _ _ _ _ | .deleteQueue h _ | .release h _ | .grantCap h _ _ _ _ | .revoke h _ _ | .exportEntry h _ _ _ _ _
  | .releaseIds h _ _ | .attest h _ | .window h _ _ _ _ | .unknownCommand h _ => some h.qp
  | .rdmaWrite q _ _ _ | .rdmaRead q _ _ _ | .invalidRequest q => some q
  | _ => none

/-- An operation on a queue pair that is connected. One that has to wait leaves in `part` how far it has come; the operations of its pair
that come after it are performed after it (R361, R362; Machine/Agents.lean). -/
def onQp (qp : Nat) (s : State) (f : QPair → State) : Out :=
  .next (match s.qpairs.get? qp with
    | none => s
    | some q => f q)

def sendReply (s : State) (r : Reply) : State := { s with replies := s.replies ++ [r] }

/-- Answer a command (R362). -/
def answerCmd (s : State) (hd : CmdHeader) (cmd status : Nat) (result : List Nat) : State :=
  sendReply s (.answer hd.qp cmd status hd.tag hd.ctx (result.map (BitVec.ofNat 64)))

/-- A management command, on a queue pair of that role. -/
def mgmtCommand (hd : CmdHeader) (cmd : Nat) (s : State) (f : State) : Out :=
  onQp hd.qp s fun q => if q.bound.isSome then answerCmd s hd cmd 0x31 [] else f

/-- A context command: NOPRIV when CTX is not the context that the queue pair is bound to, BUSY while it is destroyed (log 37). -/
def ctxCommand (hd : CmdHeader) (cmd : Nat) (s : State) (f : Nat → CtxRec → State) : Out :=
  onQp hd.qp s fun q =>
    if q.bound != some hd.ctx then answerCmd s hd cmd 0x31 []
    else
      match ctxRec? s hd.ctx with
      | none => answerCmd s hd cmd 0x32 []
      | some r => if r.quiescing.isSome then answerCmd s hd cmd 0x33 [] else f hd.ctx r

/-- A reliable-connected queue pair is connected and bound for its whole life. -/
def execQueuePairConnect (qp : Nat) (bound : Option Nat) (port : Bool) (mtu : Nat) (s : State) : Out :=
  .next (
    let known := match bound with
      | some c => (ctxRec? s c).isSome
      | none => true
    if qp < 8192 && !s.qpairs.has qp && [1024, 2048, 4096].elem mtu && known then
      { s with qpairs := s.qpairs.put qp { bound := bound, port := port, mtu := mtu } }
    else s)

def execInvalidRequest (qp : Nat) (s : State) : Out := onQp qp s fun _ => sendReply s (.nakInvalid qp)

def execUnknownCommand (hd : CmdHeader) (cmd : Byte) (s : State) : Out :=
  onQp hd.qp s fun _ =>
    if 1 ≤ cmd.toNat && cmd.toNat ≤ 0x11 then s else answerCmd s hd cmd.toNat 0x30 []

/-! ## Contexts (R347, R348, R353, R355) -/

/-- A context record within its limits (Table 14.1). -/
def ctxBodyOk (b : CtxBody) : Bool :=
  b.ctx < 4096 && b.otbase % 64 = 0 && 1 ≤ b.otlen && b.otlen ≤ 2 ^ 24 && physLvl b.otbase == some 0 && b.otbase + 64 * b.otlen ≤ hbmTop &&
    b.pbanks ≤ 64 && b.quota.length = 9 && b.quota.all (fun q => q < 2 ^ 16) && b.save < 2 ^ 48 && b.sigkeys.length = 4

/-- A grant within the limits of R353. -/
def grantOk (g : GrantBody) : Bool :=
  12 ≤ g.units && g.units ≤ 40 && (g.units ≤ 28 || g.boost) && (g.minf = 0 || (12 ≤ g.minf && g.minf ≤ 38)) && (g.minf ≤ 28 || g.boost) &&
    1 ≤ g.maxp && g.maxp ≤ 2700 && 1 ≤ g.bb && g.bb ≤ 2 ^ 24

/-- The grant that CREATE_CTX installs: the default of 28 units (R22); no command gives its other fields, which are free within their limits
(log 38). -/
def firstGrant (n : Nat) : GrantBody :=
  { units := 28, boost := Config.freeWord n % 2 = 1
    minf := if Config.freeWord (n + 1) % 18 = 0 then 0 else 11 + Config.freeWord (n + 1) % 18
    maxp := 1 + Config.freeWord (n + 2) % 2700, bb := 1 + Config.freeWord (n + 3) % 2 ^ 24 }


def newCtx (s : State) (b : CtxBody) : State :=
  let g := firstGrant s.free
  { s with
    free := s.free + 4
    nextKey := s.nextKey + 1
    ctxs := s.ctxs.put b.ctx
      { quiescing := none, body := b, key := s.nextKey, grant := g, bb := g.bb, areas := Six.all Area.none } }

def execCreateCtx (hd : CmdHeader) (rec : CtxBody) (s : State) : Out :=
  mgmtCommand hd 0x01 s (
    if rec.ctx != hd.ctx || !ctxBodyOk rec then answerCmd s hd 0x01 0x32 []
    else if s.ctxs.has rec.ctx then answerCmd s hd 0x01 0x33 []
    else answerCmd (newCtx s rec) hd 0x01 0 [])

/-- A context has no unit and no launch left. -/
def ctxQuiet (s : State) (ctx : Nat) : Bool := !s.units.any (fun e => e.2.ctx = ctx) && !s.launches.any fun e => e.2.ctx = ctx

/-- The grants of an object, and the grants of what they made: the recipients' entries are retired, so that nothing reaches frames that are
freed (R354). A grant stands after the one that it builds on, so the number of grants bounds the depth. -/
def retireGrants : Nat → State → Nat → Nat → State
  | 0, s, _, _ => s
  | n + 1, s, ctx, oid => (s.grants.filter fun g => g.owner = ctx && g.oid = oid).foldl (fun s g =>
      retireGrants n { retireEntry s g.recipient g.roid with grants := s.grants.filter (· != g) } g.recipient g.roid) s

/-- The grants that a context gave (R355, R358). -/
def revokeFrom (s : State) (ctx : Nat) : State :=
  (((s.grants.filter fun g => g.owner = ctx).map (·.oid)).eraseDups).foldl (fun s oid => retireGrants s.grants.length s ctx oid) s

/-- Invalidate an object table's entries. -/
def clearTable (s : State) (ctx : Nat) : Nat → State
  | 0 => s
  | n + 1 => clearTable (if rd8 s (entryAddr s ctx n) % 4 = 0 then s else wr8 s (entryAddr s ctx n) (rd8 s (entryAddr s ctx n) / 4 * 4)) ctx n

/-- Steps 3 to 6 of R355. -/
def destroyRest (s : State) (ctx : Nat) (r : CtxRec) : State :=
  let s := ((chainsOf s).filter fun c => c.ctx = ctx).foldl (fun s c => abandonChain (endUnleased s c) c.handle) s
  let s := tlbRemoveCtx (clearTable (revokeFrom s ctx) ctx r.body.otlen) ctx
  let drop := fun (t : Tab Ident) => t.filter fun e => e.2.owner != ctx
  let s := (s.syncs.filter fun l => syncCtx s (64 * l) = ctx).foldl (fun s l => dropSync s (64 * l)) s
  { freeMem s (fun a => a.ctx = ctx) with
    partitions := s.partitions.filter fun p => p.2.ctx != ctx
    queues := s.queues.filter fun q => q.2.ctx != ctx
    kicks := s.kicks.filter fun e => ((s.queues.get? e.1).map (·.ctx)) != some ctx
    windows := s.windows.filter fun w => w.2.ctx != ctx
    remoteIn := s.remoteIn.filter fun x => x.ctx != ctx
    grants := s.grants.filter fun g => g.owner != ctx && g.recipient != ctx
    binds := s.binds.filter fun b => b.ctx != ctx
    codes := s.codes.filter fun c => c.2.ctx != ctx
    lastCtx := s.lastCtx.filter fun e => e.2 != ctx
    engines := s.engines.map fun e => if e.2.ctx = some ctx then (e.1, { e.2 with ctx := none, mem := EngMem.empty }) else e
    graphs := drop s.graphs, phases := drop s.phases, jobs := drop s.jobs
    ctxs := s.ctxs.del ctx }

/-- DESTROY_CTX, which waits for the context's units and is answered at its last step. -/
def destroyStep (hd : CmdHeader) (s0 : State) : State :=
  let s := { s0 with part := none }
  let go := fun (s : State) (r : CtxRec) =>
    if ctxQuiet s hd.ctx then answerCmd (destroyRest s hd.ctx r) hd 0x02 0 [] else { s with part := some 0 }
  match ctxRec? s hd.ctx with
  | none => answerCmd s hd 0x02 0x32 []
  | some r =>
    match r.quiescing with
    | none => go (cancelScope { s with ctxs := s.ctxs.put hd.ctx { r with quiescing := some hd.qp } } fun _ c _ => c = hd.ctx).1 r
    | some q => if q = hd.qp && s0.part.isSome then go s r else answerCmd s hd 0x02 0x33 []

def execDestroyCtx (hd : CmdHeader) (s : State) : Out := mgmtCommand hd 0x02 s (destroyStep hd s)

def execSetGrant (hd : CmdHeader) (gr : GrantBody) (s : State) : Out :=
  mgmtCommand hd 0x03 s (
    if grantOk gr && s.ctxs.has hd.ctx then
      answerCmd { s with ctxs := s.ctxs.upd hd.ctx fun r => { r with grant := gr } } hd 0x03 0 []
    else answerCmd s hd 0x03 0x32 [])

/-! ## Code and objects (R87 to R91, R364) -/

def execLoad (hd : CmdHeader) (img : CodeImage) (s : State) : Out :=
  ctxCommand hd 0x04 s fun ctx r =>
    match loadCheck s r ctx img with
    | (0, bases) =>
      match install s ctx img bases with
      | some (s, h) => answerCmd s hd 0x04 0 (h :: sectionStreams.map bases.get)
      | none => answerCmd s hd 0x04 0x34 []
    | (code, _) => answerCmd s hd 0x04 code []

/-- A launch, placed or queued, names a code object. -/
def codeUsed (s : State) (ctx code : Nat) : Bool :=
  s.launches.any (fun l => l.2.ctx = ctx && pktCode l.2.pkt = code) ||
    s.queues.any fun q => q.2.ctx = ctx && q.2.entries.any fun e => pktCode e.pkt = code

def execUnload (hd : CmdHeader) (code : Nat) (s : State) : Out :=
  ctxCommand hd 0x05 s fun ctx _ =>
    match s.codes.get? code with
    | none => answerCmd s hd 0x05 0x32 []
    | some c =>
      if c.ctx != ctx then answerCmd s hd 0x05 0x32 []
      else if codeUsed s ctx code then answerCmd s hd 0x05 0x33 []
      else answerCmd (syncRetire { s with codes := s.codes.del code } c.sync) hd 0x05 0 []

/-- A request of CREATE_OBJ within R364; the entry's ST is the control plane's. -/
def objRequestOk (r : CtxRec) (e : ObjE) : Bool :=
  !e.bad && e.key = 0 && e.root = 0 && e.sync = 0 && e.lvl != 2 && e.fmt != 0 && 1 ≤ e.size &&
    (e.lvl = 3 || e.dev = 0) && (!e.plain || (r.body.priv && e.lvl = 0))

def execCreateObj (hd : CmdHeader) (entry : List Double) (s : State) : Out :=
  ctxCommand hd 0x06 s fun ctx r =>
    let e := objOf entry
    if !objRequestOk r e then answerCmd s hd 0x06 0x32 []
    else
      match (nextOid s ctx).bind fun oid => (makeObject s ctx oid { e with key := ctx }).map fun s => (s, oid) with
      | some (s, oid) => answerCmd s hd 0x06 0 [oid]
      | none => answerCmd s hd 0x06 0x34 []

def execDestroyObj (hd : CmdHeader) (oid : Nat) (s : State) : Out :=
  ctxCommand hd 0x07 s fun ctx _ =>
    match objValid s ctx oid with
    | none => answerCmd s hd 0x07 0x32 []
    | some e =>
      if isCodeArea s ctx oid then answerCmd s hd 0x07 0x33 []
      else
        let s := retireGrants s.grants.length s ctx oid
        answerCmd (removeObject { s with grants := s.grants.filter fun g => !(g.recipient = ctx && g.roid = oid) } ctx oid e) hd 0x07 0 []

/-! ## Queues and launches (R331 to R334) -/

/-- A ring that R333 allows. -/
def ringOk (s : State) (ctx depth oid off : Nat) : Bool :=
  depth != 0 && depth ≤ 4096 && 2 ^ depth.log2 = depth && off % 64 = 0 &&
    match objValid s ctx oid with
    | some e => e.lvl ≤ 1 && off + 64 + 128 * depth ≤ e.size
    | none => false

def execCreateQueue (hd : CmdHeader) (q depth oid off : Nat) (s : State) : Out :=
  ctxCommand hd 0x08 s fun ctx r =>
    if 2 ^ 16 ≤ q || !ringOk s ctx depth oid off then answerCmd s hd 0x08 0x32 []
    else if s.queues.has q then answerCmd s hd 0x08 0x33 []
    else
      let qu : Queue := { ctx := ctx, depth := depth, oid := oid, off := off, resident := r.body.hmask != 0, head := 0, entries := [] }
      answerCmd { objWrite s ctx oid off (List.replicate 64 0) with queues := s.queues.put q qu } hd 0x08 0 []

/-- A queue that holds packets, or from which one is being taken, is in use (log 37). Launches taken from the deleted queue keep their order under a
number that no later queue has (R336). -/
def execDeleteQueue (hd : CmdHeader) (q : Nat) (s : State) : Out :=
  ctxCommand hd 0x09 s fun ctx _ =>
    match s.queues.get? q with
    | none => answerCmd s hd 0x09 0x32 []
    | some qu =>
      if qu.ctx != ctx then answerCmd s hd 0x09 0x32 []
      else if !qu.entries.isEmpty || (takingSlot s q).isSome then answerCmd s hd 0x09 0x33 []
      else
        let own := 2 ^ 16 * (s.nextOrder + 1)
        answerCmd { s with
          nextOrder := s.nextOrder + 1
          queues := s.queues.del q, kicks := s.kicks.del q
          launches := s.launches.map fun e => (e.1, if e.2.queue = q then { e.2 with queue := q + own } else e.2) } hd 0x09 0 []

def execLaunchCommand (hd : CmdHeader) (q : Nat) (pkt : List Double) (s : State) : Out :=
  ctxCommand hd 0x0A s fun ctx _ =>
    let code := acceptCode s ctx pkt q false false
    if code = 0 then
      match pushPacket s ctx pkt q with
      | (s, lid) => answerCmd s hd 0x0A 0 [lid]
    else answerCmd s hd 0x0A code [0]

/-! ## Releases and identifiers (R356, R363) -/

/-- The sync object that a RELEASE command names. -/
def releaseTarget (s : State) (ctx : Nat) (b : Double) : Option Nat :=
  let oid := bits b 23 0
  let gran := bits b 47 24
  match objValid s ctx oid with
  | none => none
  | some e =>
    if bits b 63 51 != 0 || (bit b 50 && gran != 0) || e.size ≤ 65536 * gran then none
    else if bit b 50 then some e.sync else syncOf s ctx oid gran

def execRelease (hd : CmdHeader) (body : Double) (s : State) : Out :=
  ctxCommand hd 0x0B s fun ctx _ =>
    match releaseTarget s ctx body with
    | none => answerCmd s hd 0x0B 0x32 []
    | some pa => let s := syncRelease s pa; answerCmd s hd 0x0B 0 [syncRseq s (pa / 64 * 64)]

/-- A launch, queued, running or cancelling, names an identifier of level 0 to 2. -/
def idUsed (s : State) (ctx lvl id : Nat) : Bool :=
  s.launches.any (fun l => inScope ctx lvl id l.2.lid l.2.ctx l.2.pkt) ||
    s.queues.any fun q => q.2.entries.any fun e => inScope ctx lvl id e.lid q.2.ctx e.pkt

def execReleaseIds (hd : CmdHeader) (level : BitVec 2) (id : Nat) (s : State) : Out :=
  ctxCommand hd 0x0F s fun ctx _ =>
    if level = 3 || !ownsId s ctx level.toNat id then answerCmd s hd 0x0F 0x32 []
    else if idUsed s ctx level.toNat id then answerCmd s hd 0x0F 0x33 []
    else
      answerCmd (if level = 0 then { s with graphs := s.graphs.del id }
        else if level = 1 then { s with phases := s.phases.del id }
        else { s with jobs := s.jobs.del id }) hd 0x0F 0 []

/-! ## Memory across contexts and modules (R357, R358, R367) -/

def execGrantCap (hd : CmdHeader) (owner oid recipient : Nat) (rights : BitVec 8) (s : State) : Out :=
  mgmtCommand hd 0x0C s (
    match objValid s owner oid with
    | none => answerCmd s hd 0x0C 0x32 []
    | some e =>
      if !s.ctxs.has recipient || rights.toNat ≥ 128 then answerCmd s hd 0x0C 0x32 []
      else
        match (nextOid s recipient).bind fun n => (makeSynonym s recipient n e).map fun s => (s, n) with
        | some (s, n) =>
          let g : GrantRec := { owner := owner, oid := oid, recipient := recipient, roid := n, rights := rights }
          answerCmd { s with grants := s.grants ++ [g] } hd 0x0C 0 [n]
        | none => answerCmd s hd 0x0C 0x34 [])

/-- REVOKE of a grant, and of what was granted from it: no access through the grant performs any more (R358). -/
def execRevoke (hd : CmdHeader) (recipient oid : Nat) (s : State) : Out :=
  mgmtCommand hd 0x0D s (
    if s.grants.any fun g => g.recipient = recipient && g.roid = oid then
      let s := { retireEntry s recipient oid with grants := s.grants.filter fun g => !(g.recipient = recipient && g.roid = oid) }
      answerCmd (retireGrants s.grants.length s recipient oid) hd 0x0D 0 []
    else answerCmd s hd 0x0D 0x32 [])

/-- An entry of the table of remote accesses allowed in, for bytes [lo, hi) of the context that the header names. -/
def execExportEntry (hd : CmdHeader) (dev rctx lo hi : Nat) (rights : BitVec 8) (s : State) : Out :=
  mgmtCommand hd 0x0E s (
    if s.ctxs.has hd.ctx && dev < 2 ^ 18 && rctx < 4096 && lo < hi && assigned lo && assigned (hi - 1) && physLvl lo == physLvl (hi - 1) &&
        hasRights (rR + rW + rA) rights.toNat then
      answerCmd { s with remoteIn := s.remoteIn ++ [{ ctx := hd.ctx, dev := dev, rctx := rctx, lo := lo, hi := hi, rights := rights }] } hd 0x0E 0 []
    else answerCmd s hd 0x0E 0x32 [])

/-! ## Windows and RDMA (R360, R361) -/

def execWindow (hd : CmdHeader) (oid lo hi : Nat) (rights : BitVec 8) (s : State) : Out :=
  ctxCommand hd 0x11 s fun ctx _ =>
    match objValid s ctx oid with
    | none => answerCmd s hd 0x11 0x32 []
    | some e =>
      if e.lvl = 2 || hi ≤ lo || e.size < hi || rights = 0 || !hasRights ((rR + rW) &&& rightsLimit s ctx oid) rights.toNat then
        answerCmd s hd 0x11 0x32 []
      else
        let k := s.windows.fresh (s.windows.length + 1) 1
        let w : WindowRec := { ctx := ctx, oid := oid, lo := lo, hi := hi, rights := rights }
        answerCmd { s with windows := s.windows.put k w } hd 0x11 0 [k]

/-- The window of a remote key, for bytes [addr, addr + n) of its object, when a queue pair's context may use it so. -/
def windowFor (s : State) (q : QPair) (rkey addr n need_ : Nat) : Option WindowRec :=
  (s.windows.get? rkey).bind fun w =>
    if q.bound = some w.ctx && hasRights w.rights.toNat need_ && w.lo ≤ addr && addr + n ≤ w.hi then some w else none

/-- Bytes up to the end of their granule. -/
def headGranule (addr : Nat) (bs : List Byte) : List Byte := bs.take (64 - addr % 64)

/-- Perform a write granule by granule; `fuel` bounds them. A fault leaves the earlier granules performed. A page that is migrating makes
the rest wait. -/
def rdmaPut (qp at_ : Nat) (w : WindowRec) : Nat → Nat → List Byte → State → State
  | 0, _, _, s => s
  | _ + 1, _, [], s => sendReply s (.ack qp)
  | n + 1, addr, bs, s =>
    let now := headGranule addr bs
    match hostTranslate s w.ctx w.oid addr true with
    | (s, .phys key pa) =>
      if isSync s pa then sendReply s (.nakAccess qp)
      else rdmaPut qp (at_ + now.length) w n (addr + now.length) (bs.drop now.length) (putBytes s key (now.mapIdx fun i b => (pa + i, b)))
    | (s, .stall) => { s with part := some at_ }
    | (s, _) => sendReply s (.nakAccess qp)

def execRdmaWrite (qp rkey addr : Nat) (data : List Byte) (s : State) : Out :=
  onQp qp s fun q =>
    match windowFor s q rkey addr data.length rW with
    | none => sendReply { s with part := none } (.nakAccess qp)
    | some w =>
      let n := s.part.getD 0
      rdmaPut qp n w (data.length + 1) (addr + n) (data.drop n) { s with part := none }

/-- What a read came to. -/
inductive Fetched where
  | bytes (bs : List Byte)
  | wait
  | error
  deriving DecidableEq, Repr

/-- Read granule by granule: the bytes as one read returns them. -/
def rdmaGet (w : WindowRec) : Nat → Nat → Nat → State → State × Fetched
  | 0, _, _, s => (s, .error)
  | _ + 1, _, 0, s => (s, .bytes [])
  | f + 1, addr, n, s =>
    let k := min n (64 - addr % 64)
    match hostTranslate s w.ctx w.oid addr false with
    | (s, .phys key pa) =>
      match readIn s key pa k with
      | (s, bs, p) =>
        match rdmaGet w f (addr + k) (n - k) (countPoison s p) with
        | (s, .bytes r) => (s, .bytes (bs ++ r))
        | r => r
    | (s, .stall) => (s, .wait)
    | (s, _) => (s, .error)

def execRdmaRead (qp rkey addr len : Nat) (s : State) : Out :=
  onQp qp s fun q =>
    match windowFor s q rkey addr len rR with
    | none => sendReply { s with part := none } (.nakAccess qp)
    | some w =>
      match rdmaGet w (len + 1) addr len { s with part := none } with
      | (s, .bytes bs) => sendReply s (.bytes qp bs)
      | (s, .wait) => { s with part := some 0 }
      | (s, .error) => sendReply s (.nakAccess qp)

/-! ## Attestation (R369) -/

/-- A digest's bytes, the most significant first. -/
def digestBytes (d : BitVec 256) : List Byte := (leBytes 32 d.toNat).reverse

/-- The measurement chain of a context's code objects, in load order. -/
def measure (s : State) (ctx : Nat) : BitVec 256 :=
  (sortBy (fun (a b : Code) => decide (a.order ≤ b.order)) ((s.codes.map (·.2)).filter fun c => c.ctx = ctx)).foldl
    (fun h c => sha256 (digestBytes h ++ digestBytes c.digest)) 0

/-- The fields of a grant entry, as $grant holds them, with the byte budget (log 39). -/
def grantBytes (g : GrantBody) : List Byte :=
  leBytes 8 (grantWord g) ++ leBytes 8 g.bb

/-- The report of Table 14.6 before its signature; a management request names no context. -/
def report (s : State) (ctx : Option (Nat × CtxRec)) (nonce : List Byte) : List Byte :=
  let who := match ctx with
    | some (c, r) => c + (if r.body.priv then 2 ^ 12 else 0) + if r.body.strict then 2 ^ 13 else 0
    | none => 0xFFFFFFFF
  leBytes 4 0x54415A4A ++ leBytes 4 1 ++ leBytes 4 Config.deviceId.toNat ++ leBytes 4 who ++ nonce ++ digestBytes Config.romHash ++
    digestBytes Config.foresterHash ++ digestBytes Config.dispatcherHash ++
    (match ctx with
     | some (c, r) => grantBytes r.grant ++ digestBytes (measure s c)
     | none => leBytes 48 0) ++ leBytes 64 0

def attestAnswer (s : State) (hd : CmdHeader) (ctx : Option (Nat × CtxRec)) (nonce : List Byte) : State :=
  if nonce.length != 32 then answerCmd s hd 0x10 0x32 []
  else
    let body := report s ctx nonce
    answerCmd s hd 0x10 0 ((doublesOf (body ++ Config.deviceSign body) 2060).map (·.toNat))

def execAttest (hd : CmdHeader) (nonce : List Byte) (s : State) : Out :=
  onQp hd.qp s fun q =>
    match q.bound with
    | none => attestAnswer s hd none nonce
    | some c =>
      if c != hd.ctx then answerCmd s hd 0x10 0x31 []
      else
        match ctxRec? s c with
        | some r => attestAnswer s hd (some (c, r)) nonce
        | none => answerCmd s hd 0x10 0x32 []

/-! ## PTP (R365) -/

/-- A message of the clock on the port in use moves the offset and the servo's state. -/
def execPtpMessage (port : Bool) (offset : Double) (err : BitVec 16) (lock : Bool) (s : State) : Out :=
  .next (if port = s.mgmt.ptpctl then
    { s with ptpoff := offset
             ptpstat := BitVec.ofNat 64 ((if lock then 1 else 0) + (if port then 2 else 0) + err.toNat * 2 ^ 16) }
  else s)

end Sys2Proof.Machine
end

