-- ==== Sys2Proof/Machine/IntOps.lean ====
section
/-! DEFINITION. Integer instructions: rows 0x00-0x17 (R125 to R127), the immediate-20 integer forms (R128),
and SEL (R141). -/

namespace Sys2Proof.Machine

/-- A two-source integer instruction: s[d] takes `f a b` (R125). `zx` zero-extends a 32-bit b (R122). -/
def intT (zx : Bool) (f : Double → Double → Double) (n : Nxt) (d a : SReg) (b : OpB) (s : State) : Out :=
  ctl s (actOf n) (opLen b) (guarded (opGuard b) fun s u => .ok s (u.setS d (f (u.sreg a) (intB s u zx b))))

/-- A one-source integer instruction. -/
def intT1 (f : Double → Double) (n : Nxt) (g : GReg) (d a : SReg) (s : State) : Out :=
  ctl s (actOf n) 1 (guarded g fun s u => .ok s (u.setS d (f (u.sreg a))))

/-- An immediate-20 integer operation on d (R128). -/
def intI (f : Double → Double) (n : INxt) (d : SReg) (s : State) : Out :=
  ctl s (iactOf n) 1 fun s u => .ok s (u.setS d (f (u.sreg d)))

/-! ## The values of Table 5.1 -/

def mulHigh (a b : Double) : Double := BitVec.ofInt 64 (a.toInt * b.toInt / 2 ^ 64)
def mulHighU (a b : Double) : Double := BitVec.ofNat 64 (a.toNat * b.toNat / 2 ^ 64)
/-- Truncated signed division with the cases of Table 5.2. -/
def divS (a b : Double) : Double := if b = 0 then BitVec.allOnes 64 else BitVec.ofInt 64 (a.toInt.tdiv b.toInt)
def divU64 (a b : Double) : Double := if b = 0 then BitVec.allOnes 64 else BitVec.ofNat 64 (a.toNat / b.toNat)
def remS (a b : Double) : Double := if b = 0 then a else BitVec.ofInt 64 (a.toInt.tmod b.toInt)
def remU64 (a b : Double) : Double := if b = 0 then a else BitVec.ofNat 64 (a.toNat % b.toNat)
/-- A shift amount: bits 5:0 of b. -/
def shAmt (b : Double) : Nat := bits b 5 0
def minS (a b : Double) : Double := if a.slt b then a else b
def maxS (a b : Double) : Double := if a.slt b then b else a
def minU64 (a b : Double) : Double := if a.ult b then a else b
def maxU64 (a b : Double) : Double := if a.ult b then b else a
/-- Leading zero bits of a. -/
def clz64 (a : Double) : Double := BitVec.ofNat 64 (if a = 0 then 64 else 63 - a.toNat.log2)
/-- One bits of a. -/
def popc64 (a : Double) : Double := BitVec.ofNat 64 (((List.range 64).filter fun i => a.getLsbD i).length)
def addWord (a b : Double) : Double := ((a + b).truncate 32).signExtend 64
/-- BFX by its control word; none is the operand-range trap (R127). -/
def bitField (a b : Double) : Option Double :=
  let lo := bits b 5 0
  let w := bits b 11 6 + 1
  if bits b 63 13 != 0 || 64 < lo + w then none
  else
    let f := bits a (lo + w - 1) lo
    some (if bit b 12 && 2 ^ (w - 1) ≤ f then BitVec.ofInt 64 ((f : Int) - 2 ^ w) else BitVec.ofNat 64 f)

/-! ## The instructions -/

def execAdd (n : Nxt) (d a : SReg) (b : OpB) (s : State) : Out := intT false (· + ·) n d a b s
def execSub (n : Nxt) (d a : SReg) (b : OpB) (s : State) : Out := intT false (· - ·) n d a b s
def execMul (n : Nxt) (d a : SReg) (b : OpB) (s : State) : Out := intT false (· * ·) n d a b s
def execMulh (n : Nxt) (d a : SReg) (b : OpB) (s : State) : Out := intT false mulHigh n d a b s
def execMulhU (n : Nxt) (d a : SReg) (b : OpB) (s : State) : Out := intT true mulHighU n d a b s
def execDiv (n : Nxt) (d a : SReg) (b : OpB) (s : State) : Out := intT false divS n d a b s
def execDivU (n : Nxt) (d a : SReg) (b : OpB) (s : State) : Out := intT true divU64 n d a b s
def execRem (n : Nxt) (d a : SReg) (b : OpB) (s : State) : Out := intT false remS n d a b s
def execRemU (n : Nxt) (d a : SReg) (b : OpB) (s : State) : Out := intT true remU64 n d a b s
def execAnd (n : Nxt) (d a : SReg) (b : OpB) (s : State) : Out := intT false (· &&& ·) n d a b s
def execOr (n : Nxt) (d a : SReg) (b : OpB) (s : State) : Out := intT false (· ||| ·) n d a b s
def execXor (n : Nxt) (d a : SReg) (b : OpB) (s : State) : Out := intT false (· ^^^ ·) n d a b s
def execAndn (n : Nxt) (d a : SReg) (b : OpB) (s : State) : Out := intT false (fun a b => a &&& ~~~b) n d a b s
def execShl (n : Nxt) (d a : SReg) (b : OpB) (s : State) : Out := intT false (fun a b => a <<< shAmt b) n d a b s
def execShr (n : Nxt) (d a : SReg) (b : OpB) (s : State) : Out := intT false (fun a b => a >>> shAmt b) n d a b s
def execSar (n : Nxt) (d a : SReg) (b : OpB) (s : State) : Out := intT false (fun a b => a.sshiftRight (shAmt b)) n d a b s
def execMin (n : Nxt) (d a : SReg) (b : OpB) (s : State) : Out := intT false minS n d a b s
def execMax (n : Nxt) (d a : SReg) (b : OpB) (s : State) : Out := intT false maxS n d a b s
def execMinU (n : Nxt) (d a : SReg) (b : OpB) (s : State) : Out := intT true minU64 n d a b s
def execMaxU (n : Nxt) (d a : SReg) (b : OpB) (s : State) : Out := intT true maxU64 n d a b s
def execClz (n : Nxt) (g : GReg) (d a : SReg) (s : State) : Out := intT1 clz64 n g d a s
def execPopc (n : Nxt) (g : GReg) (d a : SReg) (s : State) : Out := intT1 popc64 n g d a s
def execAddw (n : Nxt) (d a : SReg) (b : OpB) (s : State) : Out := intT false addWord n d a b s

def execBfx (n : Nxt) (d a : SReg) (b : OpB) (s : State) : Out :=
  ctl s (actOf n) (opLen b) (guarded (opGuard b) fun s u =>
    match bitField (u.sreg a) (intB s u false b) with
    | some v => .ok s (u.setS d v)
    | none => .trap s 0x07 0 Acc.none)

/-- The guard is the selector, and d is always written (R141). -/
def execSel (n : Nxt) (d a : SReg) (b : OpB) (s : State) : Out :=
  ctl s (actOf n) (opLen b) fun s u =>
    .ok s (u.setS d (if u.guard (opGuard b) then u.sreg a else intB s u false b))

def execIset (n : INxt) (d : SReg) (i : BitVec 20) (s : State) : Out := intI (fun _ => i.signExtend 64) n d s
def execIadd (n : INxt) (d : SReg) (i : BitVec 20) (s : State) : Out := intI (fun x => x + i.signExtend 64) n d s
def execIand (n : INxt) (d : SReg) (i : BitVec 20) (s : State) : Out := intI (fun x => x &&& i.signExtend 64) n d s
def execIshi (n : INxt) (d : SReg) (i : BitVec 20) (s : State) : Out :=
  intI (fun x => (x <<< 20) + i.zeroExtend 64) n d s

end Sys2Proof.Machine
end

