-- ==== Sys2Proof/Machine/Links.lean ====
section
/-! DEFINITION. Ebith as the module meets it: flits (R366), remote accesses through the export table (R367), reduce elements and release
flags filtered by sequence (R223, R224, R251), hold requests of other modules (R313), suspect notices (R397), and the alignment of the
time base (R366). -/

namespace Sys2Proof.Machine

/-! ## Flits and ports (R366) -/

def portAt (s : State) (p : Nat) : Port := (s.ports.get? p).getD { down := false, seq := 0, fails := 0 }

/-- A flit with a good CRC and the next sequence is accepted; any other is answered with a retry request, and the sixteenth replay that fails in a
row declares the port down. An armed CRC detector makes the flit bad (R391). A bad flit is a correctable error of the port: an event, with its record
(R392, log 65). -/
def execEbithFlitReceive (port : Nat) (linkSeq : Nat) (crcOk : Bool) (s : State) : Out :=
  .next (
    let x := portAt s port
    if 48 ≤ port || x.down then s
    else
      let a := injected s (11 + 256 * port)
      let s := a.1
      if crcOk && !a.2 && linkSeq = x.seq then { s with ports := s.ports.put port { x with seq := x.seq + 1, fails := 0 } }
      else
        let s := { s with ports := s.ports.put port { x with fails := x.fails + 1 }, sent := s.sent ++ [.retry port x.seq] }
        let s := if crcOk && !a.2 then s else takeReport s (.ebithPort port) false a.2 0
        if 16 ≤ x.fails then portDown s port else s)

def execEbithPortDown (port : Nat) (s : State) : Out := .next (if port < 48 then portDown s port else s)

def execTimeBaseAlignment (exceeded : Bool) (s : State) : Out := .next { s with misaligned := exceeded }

/-! ## Remote accesses (R367) -/

def sendOut (s : State) (x : Sent) : State := { s with sent := s.sent ++ [x] }

/-- Mark every granule of [a, a + n). Poison that comes over Ebith counts as marked by the port (log 85). -/
def markAll (s : State) (a n : Nat) (m : FaultUnit × Bool) : State :=
  ((List.range n).map fun i => (a + i) / 64).eraseDups.foldl (fun s g => markMoved s (64 * g) (some m)) s

/-- The bytes of another module's read, past the detectors of their banks, and whether one is poisoned: a flit moves poison and does not
consume it (R389). -/
def remoteRead (s : State) (a n : Nat) : State × List Byte × Bool :=
  let gs := ((List.range n).map fun i => (a + i) / 64).eraseDups
  let s := gs.foldl eccRead s
  (s, viewBytes s 0 a n, gs.any s.poison.has)

/-- A write of another module, at physical addresses, as plain bytes (log 40); one that meets a sync object writes nothing (R212). -/
def remoteWrite (s : State) (src : RemoteSource) (a : Nat) (bs : List Byte) (poisoned : Bool) : State :=
  if (List.range bs.length).any fun i => isSync s (a + i) then sendOut s (.accessRefused src.dev)
  else sendOut (if poisoned then markAll (writeBytes s 0 a bs) a bs.length (.ebithPort src.port, false) else writeBytes s 0 a bs)
    (.accessDone src.dev [] false)

def execRemoteAccess (src : RemoteSource) (acc : RemoteAcc) (s : State) : Out :=
  .next (match acc with
    | .read a n =>
      if allowsIn s src rR a n then
        match remoteRead s a n with
        | (s, bs, p) => sendOut s (.accessDone src.dev bs p)
      else sendOut s (.accessRefused src.dev)
    | .write a bs p => if allowsIn s src rW a bs.length then remoteWrite s src a bs p else sendOut s (.accessRefused src.dev)
    | .stamp a v => if allowsIn s src rA a 8 then remoteWrite s src a (leBytes 8 v.toNat) false else sendOut s (.accessRefused src.dev))

/-! ## Reduce elements and release flags (R223, R224, R251) -/

/-- An element from another module; one whose target has no watermark left waits. One that is discarded marks nothing. -/
def execReduceElementApply (src : RemoteSource) (el : ReduceElement) (s : State) : Out :=
  .next (
    let w := (Fmt.ofCode el.fmt.toNat).width / 8
    let s := { s with part := none }
    let banks := (bankAt s el.addr).toList
    if !allowsIn s src rA el.addr w then sendOut s (.accessRefused src.dev)
    else if !banks.all (mayServe s (256 + src.port)) then { s with part := some 0 }
    else
      match applyReduce (noteServed s (256 + src.port) banks) src.port 0 el.addr el.fmt.toNat el.rop.toNat (el.v.toNat % 2 ^ (8 * w)) src.dev src.ctx el.id el.sequence with
      | (t, .done fl) =>
        sendOut (if el.poisoned && !reduceSeen s el.addr src.port src.dev src.ctx el.id el.sequence then
            markMoved t el.addr (some (.ebithPort src.port, false)) else t)
          (.reduceDone src.dev src.ctx el.id el.sequence fl)
      | (s, .wait) => { s with part := some 0 }
      | (s, .sync) => sendOut s (.accessRefused src.dev))

/-- The latest flag accepted of a source key. -/
def lastFlag (s : State) (src : RemoteSource) (id : Word) : Option Nat :=
  (s.flagsIn.find? fun f => f.1 = src.dev && f.2.1 = src.ctx && f.2.2.1 = id).map (·.2.2.2)

/-- A release flag is written once; one sent again along another path is dropped. -/
def execReleaseFlagAccept (src : RemoteSource) (id : Word) (linkSeq addr : Nat) (v : Double) (s : State) : Out :=
  .next (
    let seen := match lastFlag s src id with
      | some q => decide (linkSeq ≤ q)
      | none => false
    if seen then s
    else if !allowsIn s src rA addr 8 then sendOut s (.accessRefused src.dev)
    else
      let rest := s.flagsIn.filter fun f => !(f.1 = src.dev && f.2.1 = src.ctx && f.2.2.1 = id)
      remoteWrite { s with flagsIn := rest ++ [(src.dev, src.ctx, id, linkSeq)] } src addr (leBytes 8 v.toNat) false)

/-- A watermark is freed 65,536 ticks after its copy completed; another module's copies are known complete by the event (log 14). -/
def execWatermarkFree (target : Nat) (dev ctx : Nat) (id : Word) (s : State) : Out :=
  .next (
    let old := fun (w : WMark) => wmIs target dev ctx id w && match w.doneAt with
      | some t => decide (t + 65536 ≤ s.time)
      | none => dev != Config.deviceId.toNat
    { s with watermarks := s.watermarks.filter fun w => !old w })

/-! ## Hold requests of other modules (R313) -/

/-- A request is well formed, and names only channel groups or ports. -/
def holdOk (r : HoldReq) : Bool := (r.cls = 7 || r.cls = 8) && 1 ≤ r.dur && r.dur ≤ 4095 && 1 ≤ r.lanes && r.lanes ≤ 8

/-- Resource i is free for the whole span. -/
def spanFree (s : State) (r : HoldReq) (i : Nat) : Bool :=
  r.cmask.testBit i && !resRetired s r.cls 0 i && curSlot s < r.start && r.start + r.dur ≤ curSlot s + 4096 &&
    (range' r.start (r.start + r.dur)).all fun t =>
      if r.cls = 7 then decide (r.lanes ≤ ((List.range 8).filter fun l => !(lanesAt (chainsOf s) i t).testBit l).length)
      else !(stepsOn (chainsOf s) r.cls 0 i).any fun e => e.2.at t

/-- The chain that holds a span for another module; its context is none of this module's, and its grove none (log 41). -/
def holdChain (s : State) (src : RemoteSource) (r : HoldReq) (key i : Nat) : Chain :=
  let st : BStep :=
    { cls := r.cls, mov := false, ret := false, rem := false, lanes := r.lanes, cmask := r.cmask, dur := r.dur, marg := 0, gap := 0, lag := none,
      rld := 0, dev := src.dev, ridx := i, laneMasks := [], pfx := 0, start := r.start, st := .held, ext := [], endSlot := none, rmd := none,
      wasSusp := false, intr := [0, 0, 0, 0, 0, 0], lease := none, heldAt := curSlot s, handleRem := r.handle }
  { handle := mkHandle s 16 key, ctx := 4096 + src.ctx, g := 16, who := (0, 0, 0), orph := false, pers := true, prio := 0, lead := 0,
    dep := none, depEnd := none, dgap := 0, age := s.nextOrder, test := false, remote := some src.dev
    steps := [{ st.placed (chainsOf s) .held i r.start 0 with heldAt := curSlot s }] }

/-- Hold the lowest free candidate for the whole span, or refuse; a module out of alignment refuses (R366). -/
def execHoldRequest (src : RemoteSource) (req : HoldReq) (s : State) : Out :=
  .next (
    let refuse := sendOut s (.holdReply src.dev none req.handle)
    if s.misaligned || !holdOk req then refuse
    else
      match (List.range 48).find? (spanFree s req), freeIndex s 16 with
      | some i, some n =>
        let c := holdChain s src req n i
        sendOut { s with books := s.books.put (chainKey c.handle) c, nextOrder := s.nextOrder + 1 } (.holdReply src.dev (some i) req.handle)
      | _, _ => refuse)

/-- The chains that hold spans for a handle of another module. -/
def heldFor (s : State) (dev : Nat) (handle : BitVec 32) : List Chain :=
  (chainsOf s).filter fun c => c.remote = some dev && c.steps.any fun st => st.handleRem = handle

/-- CONFIRM or ABANDON of another module: its holds here are committed, or freed; a committed one that is abandoned is cancelled. -/
def execRemoteHoldCommit (src : RemoteSource) (handle : BitVec 32) (commit : Bool) (s : State) : Out :=
  .next ((heldFor s src.dev handle).foldl (fun s c =>
    if commit then
      updChain s c.handle fun c => { c with steps := c.steps.map fun st => if st.st = .held then { st with st := .committed } else st }
    else if c.isHeld then
      backfill (sweepChain (updChain s c.handle fun c => { c with steps := c.steps.map fun st => { st with st := .cancelled } }) c.handle) 16
    else abandonChain s c.handle) s)

/-! ## Suspect notices (R397) -/

/-- A notice of another module: a record and its continuation with the failing tick. -/
def execRemoteSuspectNotice (dev grove lastPass failTick : Nat) (s : State) : Out :=
  .next (postGroup s 0x09 0x0A01 (grove + dev * 2 ^ 32) lastPass failTick 0)

end Sys2Proof.Machine
end

