-- ==== Sys2Proof/Machine/TnOps.lean ====
section
/-! DEFINITION. The translation instructions (R274 to R278) and `trap 0` (R375). Every access of the model translates and
performs in one step, so SHOOT finds none between the two; REMAP takes a step for each of its six (log 28). -/

namespace Sys2Proof.Machine

/-- A privileged word without a guard. -/
def privC (n : Nxt) (f : State → Unit → Res) (s : State) : Out := ctl s (actOf n) 1 (priv f)

/-- TFENCE.W waits as FENCE does, and then closes to the walkers of its scope what the unit's stores wrote over (R272, R275). -/
def execTfenceW (n : Nxt) (sc : BitVec 2) (s : State) : Out :=
  privC n (fun s u => if u.replay.isEmpty then .ok (fenceWalks s u.who (hearthOf s.cur.1) sc.toNat) u else .wait s u .replay) s

/-- The removal of R276 for $tnctx. -/
def removeEffect (c : CReg) (a : SReg) (sc : BitVec 2) (b : SReg) (s : State) (u : Unit) : Res :=
  .ok (tlbRemove s (hearthOf s.cur.1) sc.toNat u.tnctx (u.creg c).oid (u.sreg a).toNat (u.sreg b).toNat) u

def execTlbinv (n : Nxt) (c : CReg) (a : SReg) (sc : BitVec 2) (b : SReg) (s : State) : Out := privC n (removeEffect c a sc b) s
def execShoot (n : Nxt) (c : CReg) (a : SReg) (sc : BitVec 2) (b : SReg) (s : State) : Out := privC n (removeEffect c a sc b) s

/-! ## REMAP (R278) -/

/-- Every granule of a range is stored under a key. -/
def allUnder (s : State) (key g n : Nat) : Bool :=
  keyAt s g = key && !s.gkeys.any fun e => g < e.1 && e.1 < g + n

/-- The granules of a frame that its copy must visit: all of them, but in frames stored under the page's own key those that
either frame lists. -/
def frameGrans (s : State) (key old new sh : Nat) : List Nat :=
  let n := 2 ^ (sh - 6)
  if !(allUnder s key (old / 64) n && allUnder s key (new / 64) n) then List.range n
  else
    (((s.mem.map fun (e : Nat × Byte) => e.1 / 64) ++
      (s.poison.map fun (e : Nat × FaultUnit × Bool) => e.1) ++ s.tags.map fun (t : Nat) => t / 4).filterMap fun g =>
      if old / 64 ≤ g && g < old / 64 + n then some (g - old / 64)
      else if new / 64 ≤ g && g < new / 64 + n then some (g - new / 64)
      else none).eraseDups

/-- Copy one granule with its tags and its poison. -/
def copyGran (key old new : Nat) (s : State) (i : Nat) : State :=
  let o := old + 64 * i
  let w := new + 64 * i
  let s' := putBytes s key ((viewBytes s key o 64).mapIdx fun j b => (w + j, b))
  let s' := [0, 1, 2, 3].foldl (fun t j => if s.tags.has (o / 16 + j) then { t with tags := t.tags.ins (w / 16 + j) } else t) s'
  match s.poison.get? (o / 64) with
  | some m => { s' with poison := s'.poison.put (w / 64) m }
  | none => s'

def copyFrame (s : State) (key old new sh : Nat) : State := (frameGrans s key old new sh).foldl (copyGran key old new) s

/-- A page on another module: its frames are read and written there through a port, with bytes that this module does not hold (log 3), up to the
first access that is refused (R367). -/
def copyRemote (k ctx dev port old new : Nat) : List Nat → State → State × Bool
  | [], s => (s, true)
  | i :: r, s =>
    match remoteAnswer (sendRemote s k dev (.read dev port ctx (old + 64 * i) 64)) dev with
    | (s, false) => (s, false)
    | (s, true) =>
      match remoteAnswer (sendRemote { s with free := s.free + 64 } k dev
          (.write dev port ctx (new + 64 * i) ((List.range 64).map fun j => (j, freeByte (s.free + j))) false)) dev with
      | (s, false) => (s, false)
      | (s, true) => copyRemote k ctx dev port old new r s

/-- Step 3 of REMAP: copy the page, in this module's memory, as the export table allows it for an object that names this module as its device, or
on the other module; false when an access is refused (R278, R367). -/
def copyPage (s : State) (k ctx : Nat) (r : Remap) (new : Nat) : State × Bool :=
  match r.dev with
  | none => (copyFrame s r.key r.old new r.sh, true)
  | some dev =>
    if dev = Config.deviceId.toNat then
      if allowsIn s ⟨dev, ctx, 0⟩ rR r.old (2 ^ r.sh) && allowsIn s ⟨dev, ctx, 0⟩ rW new (2 ^ r.sh) then (copyFrame s r.key r.old new r.sh, true)
      else (s, false)
    else
      match portFor s ctx dev with
      | none => (s, false)
      | some p => copyRemote k ctx dev p r.old new (List.range (2 ^ (r.sh - 6))) s

/-- A code area, or its word-kind map, that the page holds is fetched from its new frame (log 4). -/
def moveAreas (s : State) (ctx oid page new : Nat) : State :=
  let mv := fun (a : Area) => if a.base != 0 && a.oid = oid then (if page = 0 then { a with base := new } else { a with map := new }) else a
  { s with ctxs := s.ctxs.upd ctx fun r =>
      { r with areas := ⟨mv r.areas.vl, mv r.areas.va, mv r.areas.vs, mv r.areas.m, mv r.areas.d, mv r.areas.c⟩ } }

/-- The level at which a new frame of an object must lie: the Clearing for an object of level 1, HBM for the others, one of level 3 among them
(log 96). -/
def frameLvl (lvl : Nat) : Nat := if lvl = 1 then 1 else 0

/-- The object's frames lie on another module. -/
def away (e : ObjE) : Bool := e.lvl = 3 && e.dev != Config.deviceId.toNat

/-- Every walker sees the newest value of a word: M = 1 from step 1 to step 6, and what step 6 leaves (R278). -/
def seenByAll (s : State) (a : Nat) : State := { s with older := s.older.filter fun o => o.addr != a }

/-- REMAP from the object's entry on, with step 1: the entry's M is set (R278). A malformed entry is the walk's translation fault (log 96). -/
def remapEntry (e : ObjE) (ctx oid page new : Nat) (s : State) (u : Unit) : Res :=
  let sh := pageShift e.psc
  let trap := Res.trap s 0x07 0 Acc.none
  if e.st = 2 then .wait s u .memory
  else if e.st != 1 || (e.size + 2 ^ sh - 1) / 2 ^ sh ≤ page || e.lvl = 2 || new % 2 ^ sh != 0 || physLvl new != some (frameLvl e.lvl) then trap
  else
    match walk s ctx oid (page * 2 ^ sh) with
    | (_, .fault 4) | (_, .fault 5) => trap
    | (_, .fault kind) => .trap s 0x20 kind ⟨oid, page * 2 ^ sh, true, false⟩
    | (_, .stall) => .wait s u .memory
    | (_, .pantry _) => trap
    | (_, .ok t) =>
      if t.fa = new then trap
      else if away e && (portFor s u.ctx e.dev).isNone then .trap s 0x21 0 ⟨oid, page * 2 ^ sh, true, true⟩
      else
        .wait (seenByAll (wr8 s t.pte (rd8 s t.pte + 8)) t.pte)
          { u with sealed := true
                   remap := some { step := 1, pte := t.pte, old := t.fa, key := t.key, sh := sh, dev := if e.lvl = 3 then some e.dev else none, ad := 0 } } .memory

/-- Steps 2 to 6, each an ordered event of its own: SHOOT; the copy; the new entry, still migrating; TFENCE.W, which waits for the parked stores;
and the entry's M cleared. A copy that is refused ends the REMAP with the entry as it was before step 1 (log 96). -/
def remapNext (r : Remap) (ctx oid page new sc : Nat) (s : State) (u : Unit) : Res :=
  let k := s.cur.1
  let on := fun (s : State) (r : Remap) => Res.wait s { u with remap := some { r with step := r.step + 1 } } .memory
  let ended := fun (s : State) => seenByAll (wr8 s r.pte (putBits (rd8 s r.pte) 3 1 0)) r.pte
  match r.step with
  | 1 => on (tlbRemove s (hearthOf k) sc ctx oid page 1) { r with ad := bits (BitVec.ofNat 64 (rd8 s r.pte)) 2 1 }
  | 2 =>
    match copyPage s k u.ctx r new with
    | (s, true) => on s r
    | (s, false) => .trap (updUnit (ended s) k fun u => { u with remap := none }) 0x21 0 ⟨oid, page * 2 ^ r.sh, true, true⟩
  | 3 => on (seenByAll (moveAreas (wr8 s r.pte (9 + 2 * r.ad + new)) ctx oid page new) r.pte) r
  | 4 => if u.replay.isEmpty then on (fenceWalks s u.who (hearthOf k) sc) r else .wait s u .replay
  | _ => .ok (ended s) { u with remap := none }

/-- The phase is sealed at the word's issue, a word that faults among them (R385). -/
def remapEffect (c : CReg) (a : SReg) (sc : BitVec 2) (b : SReg) (s : State) (u : Unit) : Res :=
  if sc.toNat < 2 then .trap s 0x03 0 Acc.none
  else
    match u.remap with
    | some r => remapNext r u.tnctx (u.creg c).oid (u.sreg a).toNat (u.sreg b).toNat sc.toNat s u
    | none =>
      match objAt s u.tnctx (u.creg c).oid with
      | none => .trap s 0x07 0 Acc.none
      | some e => sealing s.cur.1 (remapEntry e u.tnctx (u.creg c).oid (u.sreg a).toNat (u.sreg b).toNat s u)

def execRemap (n : Nxt) (c : CReg) (a : SReg) (sc : BitVec 2) (b : SReg) (s : State) : Out := privC n (remapEffect c a sc b) s

/-! ## trap 0 -/

/-- `trap 0` in a handler: the flushes of $tres, M's with the close of its runs, then the resumption, with the copies that a cause of class U held
(R189, R221, R375). -/
def execTrapResume (s : State) : Out :=
  ctl s .seq 1 fun s u =>
    if !u.inh then .trap s 0x04 0 Acc.none
    else
      let k := s.cur.1
      let s := if bit u.r.tres 27 then closeRuns s k else s
      .whole (deliverCause2 (putUnit s k (releaseHeld ((again s k u).leave.issuedAt .c s.time))) k)

end Sys2Proof.Machine
end

