-- ==== Sys2Proof/Machine/Dispatch.lean ====
section
/-! DEFINITION. Dispatch: one arm per constructor of Instr, each one call of its meaning. -/

namespace Sys2Proof.Machine

def exec (i : Instr) (s : State) : Host.Outcome State Fault Refusal :=
  match i with
  | .add n d a b => Sys2Proof.Machine.execAdd n d a b s
  | .sub n d a b => Sys2Proof.Machine.execSub n d a b s
  | .mul n d a b => Sys2Proof.Machine.execMul n d a b s
  | .mulh n d a b => Sys2Proof.Machine.execMulh n d a b s
  | .mulhU n d a b => Sys2Proof.Machine.execMulhU n d a b s
  | .div n d a b => Sys2Proof.Machine.execDiv n d a b s
  | .divU n d a b => Sys2Proof.Machine.execDivU n d a b s
  | .rem n d a b => Sys2Proof.Machine.execRem n d a b s
  | .remU n d a b => Sys2Proof.Machine.execRemU n d a b s
  | .and n d a b => Sys2Proof.Machine.execAnd n d a b s
  | .or n d a b => Sys2Proof.Machine.execOr n d a b s
  | .xor n d a b => Sys2Proof.Machine.execXor n d a b s
  | .andn n d a b => Sys2Proof.Machine.execAndn n d a b s
  | .shl n d a b => Sys2Proof.Machine.execShl n d a b s
  | .shr n d a b => Sys2Proof.Machine.execShr n d a b s
  | .sar n d a b => Sys2Proof.Machine.execSar n d a b s
  | .min n d a b => Sys2Proof.Machine.execMin n d a b s
  | .max n d a b => Sys2Proof.Machine.execMax n d a b s
  | .minU n d a b => Sys2Proof.Machine.execMinU n d a b s
  | .maxU n d a b => Sys2Proof.Machine.execMaxU n d a b s
  | .clz n g d a => Sys2Proof.Machine.execClz n g d a s
  | .popc n g d a => Sys2Proof.Machine.execPopc n g d a s
  | .addw n d a b => Sys2Proof.Machine.execAddw n d a b s
  | .bfx n d a b => Sys2Proof.Machine.execBfx n d a b s
  | .fadd n d a b => Sys2Proof.Machine.execFadd n d a b s
  | .fsub n d a b => Sys2Proof.Machine.execFsub n d a b s
  | .fmul n d a b => Sys2Proof.Machine.execFmul n d a b s
  | .fdiv n d a b => Sys2Proof.Machine.execFdiv n d a b s
  | .fma n d a b => Sys2Proof.Machine.execFma n d a b s
  | .fnma n d a b => Sys2Proof.Machine.execFnma n d a b s
  | .fmin n d a b => Sys2Proof.Machine.execFmin n d a b s
  | .fmax n d a b => Sys2Proof.Machine.execFmax n d a b s
  | .fsqrt n g d a => Sys2Proof.Machine.execFsqrt n g d a s
  | .fabs n g d a => Sys2Proof.Machine.execFabs n g d a s
  | .fneg n g d a => Sys2Proof.Machine.execFneg n g d a s
  | .fcvtFi n g d a => Sys2Proof.Machine.execFcvtFi n g d a s
  | .fcvtIf n g d a => Sys2Proof.Machine.execFcvtIf n g d a s
  | .fclass n g d a => Sys2Proof.Machine.execFclass n g d a s
  | .ceq n d a b => Sys2Proof.Machine.execCeq n d a b s
  | .cne n d a b => Sys2Proof.Machine.execCne n d a b s
  | .clt n d a b => Sys2Proof.Machine.execClt n d a b s
  | .cle n d a b => Sys2Proof.Machine.execCle n d a b s
  | .cltU n d a b => Sys2Proof.Machine.execCltU n d a b s
  | .cleU n d a b => Sys2Proof.Machine.execCleU n d a b s
  | .fceq n d a b => Sys2Proof.Machine.execFceq n d a b s
  | .fclt n d a b => Sys2Proof.Machine.execFclt n d a b s
  | .fcle n d a b => Sys2Proof.Machine.execFcle n d a b s
  | .fcun n d a b => Sys2Proof.Machine.execFcun n d a b s
  | .pand n g d a b => Sys2Proof.Machine.execPand n g d a b s
  | .por n g d a b => Sys2Proof.Machine.execPor n g d a b s
  | .pxor n g d a b => Sys2Proof.Machine.execPxor n g d a b s
  | .pandn n g d a b => Sys2Proof.Machine.execPandn n g d a b s
  | .sel n d a b => Sys2Proof.Machine.execSel n d a b s
  | .pset n g d a => Sys2Proof.Machine.execPset n g d a s
  | .fset n d im => Sys2Proof.Machine.execFset n d im s
  | .faddImm n d im => Sys2Proof.Machine.execFaddImm n d im s
  | .fmulImm n d im => Sys2Proof.Machine.execFmulImm n d im s
  | .fmaxImm n d im => Sys2Proof.Machine.execFmaxImm n d im s
  | .iset n d im => Sys2Proof.Machine.execIset n d im s
  | .iadd n d im => Sys2Proof.Machine.execIadd n d im s
  | .iand n d im => Sys2Proof.Machine.execIand n d im s
  | .ishi n d im => Sys2Proof.Machine.execIshi n d im s
  | .pbr n bt pr sn off => Sys2Proof.Machine.execPbr n bt pr sn off s
  | .pbrRegister n bt pr sn a => Sys2Proof.Machine.execPbrRegister n bt pr sn a s
  | .brx bt pr sn => Sys2Proof.Machine.execBrx bt pr sn s
  | .loop n lv c => Sys2Proof.Machine.execLoop n lv c s
  | .loopRegister n lv a => Sys2Proof.Machine.execLoopRegister n lv a s
  | .halt => Sys2Proof.Machine.execHalt s
  | .ifsync n => Sys2Proof.Machine.execIfsync n s
  | .ldb n d c m => Sys2Proof.Machine.execLdb n d c m s
  | .ldbz n d c m => Sys2Proof.Machine.execLdbz n d c m s
  | .ldh n d c m => Sys2Proof.Machine.execLdh n d c m s
  | .ldhz n d c m => Sys2Proof.Machine.execLdhz n d c m s
  | .ldw n d c m => Sys2Proof.Machine.execLdw n d c m s
  | .ldwz n d c m => Sys2Proof.Machine.execLdwz n d c m s
  | .ldd n d c m => Sys2Proof.Machine.execLdd n d c m s
  | .ldc n d c m => Sys2Proof.Machine.execLdc n d c m s
  | .stb n d c m => Sys2Proof.Machine.execStb n d c m s
  | .sth n d c m => Sys2Proof.Machine.execSth n d c m s
  | .stw n d c m => Sys2Proof.Machine.execStw n d c m s
  | .std n d c m => Sys2Proof.Machine.execStd n d c m s
  | .stc n d c m => Sys2Proof.Machine.execStc n d c m s
  | .aadd n d a c o sc w => Sys2Proof.Machine.execAadd n d a c o sc w s
  | .aand n d a c o sc w => Sys2Proof.Machine.execAand n d a c o sc w s
  | .aor n d a c o sc w => Sys2Proof.Machine.execAor n d a c o sc w s
  | .axor n d a c o sc w => Sys2Proof.Machine.execAxor n d a c o sc w s
  | .amin n d a c o sc w => Sys2Proof.Machine.execAmin n d a c o sc w s
  | .amax n d a c o sc w => Sys2Proof.Machine.execAmax n d a c o sc w s
  | .aswap n d a c o sc w => Sys2Proof.Machine.execAswap n d a c o sc w s
  | .acas n d a c o sc w => Sys2Proof.Machine.execAcas n d a c o sc w s
  | .afadd n d a c o sc => Sys2Proof.Machine.execAfadd n d a c o sc s
  | .acq n c sc => Sys2Proof.Machine.execAcq n c sc s
  | .rel n c sc => Sys2Proof.Machine.execRel n c sc s
  | .bind n m a c sc => Sys2Proof.Machine.execBind n m a c sc s
  | .fence n sc => Sys2Proof.Machine.execFence n sc s
  | .tlwait n d str => Sys2Proof.Machine.execTlwait n d str s
  | .mwait n d a c => Sys2Proof.Machine.execMwait n d a c s
  | .cmov n x ca => Sys2Proof.Machine.execCmov n x ca s
  | .cinc n x ca a => Sys2Proof.Machine.execCinc n x ca a s
  | .cset n x ca a => Sys2Proof.Machine.execCset n x ca a s
  | .cnarrow n x ca a f => Sys2Proof.Machine.execCnarrow n x ca a f s
  | .cdrop n x ca a f => Sys2Proof.Machine.execCdrop n x ca a f s
  | .cget n x ca f => Sys2Proof.Machine.execCget n x ca f s
  | .ctst n x ca a f => Sys2Proof.Machine.execCtst n x ca a f s
  | .disp n str ps desc cs => Sys2Proof.Machine.execDisp n str ps desc cs s
  | .dispRegister n str ps ad cs => Sys2Proof.Machine.execDispRegister n str ps ad cs s
  | .cfg n str ls idx a => Sys2Proof.Machine.execCfg n str ls idx a s
  | .tokPut n tk c => Sys2Proof.Machine.execTokPut n tk c s
  | .tokGet n tk c => Sys2Proof.Machine.execTokGet n tk c s
  | .phase n => Sys2Proof.Machine.execPhase n s
  | .tile n t c fe => Sys2Proof.Machine.execTile n t c fe s
  | .book n d c a => Sys2Proof.Machine.execBook n d c a s
  | .reserve n d c a => Sys2Proof.Machine.execReserve n d c a s
  | .confirm n d a => Sys2Proof.Machine.execConfirm n d a s
  | .abandon n d a => Sys2Proof.Machine.execAbandon n d a s
  | .lease n d a => Sys2Proof.Machine.execLease n d a s
  | .leaseOpen n d a => Sys2Proof.Machine.execLeaseOpen n d a s
  | .unlease n d a => Sys2Proof.Machine.execUnlease n d a s
  | .unleaseRet n d a => Sys2Proof.Machine.execUnleaseRet n d a s
  | .launch n d c a => Sys2Proof.Machine.execLaunch n d c a s
  | .postQueued n d c => Sys2Proof.Machine.execPostQueued n d c s
  | .postParked n d c m => Sys2Proof.Machine.execPostParked n d c m s
  | .depdec n d c a => Sys2Proof.Machine.execDepdec n d c a s
  | .cancelGraph n d a => Sys2Proof.Machine.execCancelGraph n d a s
  | .cancelPhase n d a => Sys2Proof.Machine.execCancelPhase n d a s
  | .cancelJob n d a => Sys2Proof.Machine.execCancelJob n d a s
  | .cancelLaunch n d a => Sys2Proof.Machine.execCancelLaunch n d a s
  | .tfenceW n sc => Sys2Proof.Machine.execTfenceW n sc s
  | .tlbinv n c a sc b => Sys2Proof.Machine.execTlbinv n c a sc b s
  | .shoot n c a sc b => Sys2Proof.Machine.execShoot n c a sc b s
  | .remap n c a sc b => Sys2Proof.Machine.execRemap n c a sc b s
  | .gets n d r => Sys2Proof.Machine.execGets n d r s
  | .sets n a r => Sys2Proof.Machine.execSets n a r s
  | .trap n c => Sys2Proof.Machine.execTrap n c s
  | .trapResume => Sys2Proof.Machine.execTrapResume s
  | .inject n a b => Sys2Proof.Machine.execInject n a b s
  | .vl vd ag fmt vp => Sys2Proof.Machine.execVl vd ag fmt vp s
  | .vlG vd ag fmt ix vp => Sys2Proof.Machine.execVlG vd ag fmt ix vp s
  | .vlT vd ag fmt vp => Sys2Proof.Machine.execVlT vd ag fmt vp s
  | .vlBf vd ag fmt vp bf => Sys2Proof.Machine.execVlBf vd ag fmt vp bf s
  | .vlBc vd ag fmt vp => Sys2Proof.Machine.execVlBc vd ag fmt vp s
  | .vlPop vd sq fmt vp => Sys2Proof.Machine.execVlPop vd sq fmt vp s
  | .tokPutVl tk c => Sys2Proof.Machine.execTokPutVl tk c s
  | .tokGetVl tk c => Sys2Proof.Machine.execTokGetVl tk c s
  | .vadd x vd a b vp ha hb => Sys2Proof.Machine.execVadd x vd a b vp ha hb s
  | .vsub x vd a b vp ha hb => Sys2Proof.Machine.execVsub x vd a b vp ha hb s
  | .vmul x vd a b vp ha hb => Sys2Proof.Machine.execVmul x vd a b vp ha hb s
  | .vfma x vd a b vp ha hb => Sys2Proof.Machine.execVfma x vd a b vp ha hb s
  | .vfnma x vd a b vp ha hb => Sys2Proof.Machine.execVfnma x vd a b vp ha hb s
  | .vmin x vd a b vp ha hb => Sys2Proof.Machine.execVmin x vd a b vp ha hb s
  | .vmax x vd a b vp ha hb => Sys2Proof.Machine.execVmax x vd a b vp ha hb s
  | .vabs x vd a vp ha => Sys2Proof.Machine.execVabs x vd a vp ha s
  | .vand x vd a b vp ha hb => Sys2Proof.Machine.execVand x vd a b vp ha hb s
  | .vor x vd a b vp ha hb => Sys2Proof.Machine.execVor x vd a b vp ha hb s
  | .vxor x vd a b vp ha hb => Sys2Proof.Machine.execVxor x vd a b vp ha hb s
  | .vshl x vd a b vp ha hb => Sys2Proof.Machine.execVshl x vd a b vp ha hb s
  | .vshr x vd a b vp ha hb => Sys2Proof.Machine.execVshr x vd a b vp ha hb s
  | .vceq x d a b vp ha hb => Sys2Proof.Machine.execVceq x d a b vp ha hb s
  | .vclt x d a b vp ha hb => Sys2Proof.Machine.execVclt x d a b vp ha hb s
  | .vcle x d a b vp ha hb => Sys2Proof.Machine.execVcle x d a b vp ha hb s
  | .vsel x vd a b vp ha hb => Sys2Proof.Machine.execVsel x vd a b vp ha hb s
  | .vcvt x vd a fmt rnd vp ha => Sys2Proof.Machine.execVcvt x vd a fmt rnd vp ha s
  | .vexp2 x vd a vp ha => Sys2Proof.Machine.execVexp2 x vd a vp ha s
  | .vlog2 x vd a vp ha => Sys2Proof.Machine.execVlog2 x vd a vp ha s
  | .vrcp x vd a vp ha => Sys2Proof.Machine.execVrcp x vd a vp ha s
  | .vrsq x vd a vp ha => Sys2Proof.Machine.execVrsq x vd a vp ha s
  | .vrsum x vd a vp ha => Sys2Proof.Machine.execVrsum x vd a vp ha s
  | .vrmax x vd a vp ha => Sys2Proof.Machine.execVrmax x vd a vp ha s
  | .vrmin x vd a vp ha => Sys2Proof.Machine.execVrmin x vd a vp ha s
  | .vscan x vd a vp ha => Sys2Proof.Machine.execVscan x vd a vp ha s
  | .vperm x vd a b vp ha hb => Sys2Proof.Machine.execVperm x vd a b vp ha hb s
  | .vtopk x vd a vp ha => Sys2Proof.Machine.execVtopk x vd a vp ha s
  | .vtopkm x vd a b => Sys2Proof.Machine.execVtopkm x vd a b s
  | .vqres x vd a b vp ha hb => Sys2Proof.Machine.execVqres x vd a b vp ha hb s
  | .vbstat x vd a vp ha => Sys2Proof.Machine.execVbstat x vd a vp ha s
  | .vmov x vd a vp ha => Sys2Proof.Machine.execVmov x vd a vp ha s
  | .vclamp x vd a b vp ha hb => Sys2Proof.Machine.execVclamp x vd a b vp ha hb s
  | .tokPutVa tk c => Sys2Proof.Machine.execTokPutVa tk c s
  | .tokGetVa tk c => Sys2Proof.Machine.execTokGetVa tk c s
  | .vst ag fmt a vp => Sys2Proof.Machine.execVst ag fmt a vp s
  | .vstS ag fmt a ix vp => Sys2Proof.Machine.execVstS ag fmt a ix vp s
  | .vpush sq fmt a vp => Sys2Proof.Machine.execVpush sq fmt a vp s
  | .vsta ag fmt a vp => Sys2Proof.Machine.execVsta ag fmt a vp s
  | .tokPutVs tk c => Sys2Proof.Machine.execTokPutVs tk c s
  | .tokGetVs tk c => Sys2Proof.Machine.execTokGetVs tk c s
  | .matAt off => Sys2Proof.Machine.execMatAt off s
  | .mlb ls tb => Sys2Proof.Machine.execMlb ls tb s
  | .mza ls acc n => Sys2Proof.Machine.execMza ls acc n s
  | .mla ls acc ta n => Sys2Proof.Machine.execMla ls acc ta n s
  | .mmul ls acc ta n => Sys2Proof.Machine.execMmul ls acc ta n s
  | .mmac ls acc ta n => Sys2Proof.Machine.execMmac ls acc ta n s
  | .mprom ls n => Sys2Proof.Machine.execMprom ls n s
  | .mpert ls row col v => Sys2Proof.Machine.execMpert ls row col v s
  | .wld ls tb => Sys2Proof.Machine.execWld ls tb s
  | .wmul ls acc ta n => Sys2Proof.Machine.execWmul ls acc ta n s
  | .wmac ls acc ta n => Sys2Proof.Machine.execWmac ls acc ta n s
  | .svscore ls ta tb n => Sys2Proof.Machine.execSvscore ls ta tb n s
  | .svtopk ls tb n => Sys2Proof.Machine.execSvtopk ls tb n s
  | .svgath ls ta tb => Sys2Proof.Machine.execSvgath ls ta tb s
  | .ktexp ls acc ta n => Sys2Proof.Machine.execKtexp ls acc ta n s
  | .ktsmax ls acc ta n => Sys2Proof.Machine.execKtsmax ls acc ta n s
  | .gtqnt ls ta tb n => Sys2Proof.Machine.execGtqnt ls ta tb n s
  | .gtsum ls ta tb n => Sys2Proof.Machine.execGtsum ls ta tb n s
  | .spred ls ta tb n => Sys2Proof.Machine.execSpred ls ta tb n s
  | .spbc ls ta n => Sys2Proof.Machine.execSpbc ls ta n s
  | .tokPutM tk c => Sys2Proof.Machine.execTokPutM tk c s
  | .tokGetM tk c => Sys2Proof.Machine.execTokGetM tk c s
  | .dset dim side ext stride => Sys2Proof.Machine.execDset dim side ext stride s
  | .dgo ags agd nd sf df => Sys2Proof.Machine.execDgo ags agd nd sf df s
  | .cpyAt tick => Sys2Proof.Machine.execCpyAt tick s
  | .dmask m => Sys2Proof.Machine.execDmask m s
  | .dred rop id => Sys2Proof.Machine.execDred rop id s
  | .dbind sq ag => Sys2Proof.Machine.execDbind sq ag s
  | .dstamp ag => Sys2Proof.Machine.execDstamp ag s
  | .dfill => Sys2Proof.Machine.execDfill s
  | .dcancel => Sys2Proof.Machine.execDcancel s
  | .dcvt rnd sat => Sys2Proof.Machine.execDcvt rnd sat s
  | .tokPutD tk c => Sys2Proof.Machine.execTokPutD tk c s
  | .tokGetD tk c => Sys2Proof.Machine.execTokGetD tk c s
  | .faultResume n a => Sys2Proof.Machine.execFaultResume n a s
  | .faultTerminate n a => Sys2Proof.Machine.execFaultTerminate n a s
  | .faultDeliver n a => Sys2Proof.Machine.execFaultDeliver n a s
  | .fringWrite n a => Sys2Proof.Machine.execFringWrite n a s
  | .bfrAccess n sel x => Sys2Proof.Machine.execBfrAccess n sel x s
  | .lfsrAccess n copy x => Sys2Proof.Machine.execLfsrAccess n copy x s
  | .mstatAccess n slot x => Sys2Proof.Machine.execMstatAccess n slot x s
  | .tileRegisterWrite n t a => Sys2Proof.Machine.execTileRegisterWrite n t a s
  | .flagsWrite n a => Sys2Proof.Machine.execFlagsWrite n a s
  | .seqModeWrite n a => Sys2Proof.Machine.execSeqModeWrite n a s
  | .accessPerform p str num => Sys2Proof.Machine.execAccessPerform p str num s
  | .vaWriteback p num => Sys2Proof.Machine.execVaWriteback p num s
  | .vlRowWrite p num => Sys2Proof.Machine.execVlRowWrite p num s
  | .strandStart p str => Sys2Proof.Machine.execStrandStart p str s
  | .strandEnd p str cycles => Sys2Proof.Machine.execStrandEnd p str cycles s
  | .engineCommandComplete p num => Sys2Proof.Machine.execEngineCommandComplete p num s
  | .stampedCommandIssue p => Sys2Proof.Machine.execStampedCommandIssue p s
  | .copyStart p num => Sys2Proof.Machine.execCopyStart p num s
  | .granuleWrite p num => Sys2Proof.Machine.execGranuleWrite p num s
  | .copyComplete p num => Sys2Proof.Machine.execCopyComplete p num s
  | .haltRetire p => Sys2Proof.Machine.execHaltRetire p s
  | .stallDeadlock p => Sys2Proof.Machine.execStallDeadlock p s
  | .trapDelivery p => Sys2Proof.Machine.execTrapDelivery p s
  | .faultRecordPost p => Sys2Proof.Machine.execFaultRecordPost p s
  | .rollback p => Sys2Proof.Machine.execRollback p s
  | .unitKill p => Sys2Proof.Machine.execUnitKill p s
  | .correctableError fu => Sys2Proof.Machine.execCorrectableError fu s
  | .uncorrectableError fu site => Sys2Proof.Machine.execUncorrectableError fu site s
  | .slotBoundary bku => Sys2Proof.Machine.execSlotBoundary bku s
  | .holdExpiry handle => Sys2Proof.Machine.execHoldExpiry handle s
  | .earlyFinish handle step => Sys2Proof.Machine.execEarlyFinish handle step s
  | .stepLate handle step => Sys2Proof.Machine.execStepLate handle step s
  | .slipEvent handle step => Sys2Proof.Machine.execSlipEvent handle step s
  | .remainderStart handle step => Sys2Proof.Machine.execRemainderStart handle step s
  | .bookedStepStart handle step => Sys2Proof.Machine.execBookedStepStart handle step s
  | .reservationExecute handle step => Sys2Proof.Machine.execReservationExecute handle step s
  | .openLeaseGrant g => Sys2Proof.Machine.execOpenLeaseGrant g s
  | .openLeaseEviction e => Sys2Proof.Machine.execOpenLeaseEviction e s
  | .engineAwake e lost => Sys2Proof.Machine.execEngineAwake e lost s
  | .groveRetention g enter lost => Sys2Proof.Machine.execGroveRetention g enter lost s
  | .budgetIntervalStart g => Sys2Proof.Machine.execBudgetIntervalStart g s
  | .frequencyChange g steps => Sys2Proof.Machine.execFrequencyChange g steps s
  | .sensorSample raw => Sys2Proof.Machine.execSensorSample raw s
  | .safeFrequencyReturn g => Sys2Proof.Machine.execSafeFrequencyReturn g s
  | .supplyUndervoltage => Sys2Proof.Machine.execSupplyUndervoltage s
  | .moduleReset => Sys2Proof.Machine.execModuleReset s
  | .lifeRecordWrite => Sys2Proof.Machine.execLifeRecordWrite s
  | .wearRead g d e => Sys2Proof.Machine.execWearRead g d e s
  | .testPeriod => Sys2Proof.Machine.execTestPeriod s
  | .testWindow g => Sys2Proof.Machine.execTestWindow g s
  | .testResult g pass => Sys2Proof.Machine.execTestResult g pass s
  | .queueServe => Sys2Proof.Machine.execQueueServe s
  | .queueResidency q resident => Sys2Proof.Machine.execQueueResidency q resident s
  | .unitPlace slot => Sys2Proof.Machine.execUnitPlace slot s
  | .ticketPlace g => Sys2Proof.Machine.execTicketPlace g s
  | .launchCompletion slot => Sys2Proof.Machine.execLaunchCompletion slot s
  | .runTwiceCompare slot unit => Sys2Proof.Machine.execRunTwiceCompare slot unit s
  | .partitionFree part => Sys2Proof.Machine.execPartitionFree part s
  | .handOver => Sys2Proof.Machine.execHandOver s
  | .takeOver => Sys2Proof.Machine.execTakeOver s
  | .launchCommand hd q pkt => Sys2Proof.Machine.execLaunchCommand hd q pkt s
  | .createCtx hd rec => Sys2Proof.Machine.execCreateCtx hd rec s
  | .destroyCtx hd => Sys2Proof.Machine.execDestroyCtx hd s
  | .setGrant hd gr => Sys2Proof.Machine.execSetGrant hd gr s
  | .load hd img => Sys2Proof.Machine.execLoad hd img s
  | .unload hd code => Sys2Proof.Machine.execUnload hd code s
  | .createObj hd entry => Sys2Proof.Machine.execCreateObj hd entry s
  | .destroyObj hd oid => Sys2Proof.Machine.execDestroyObj hd oid s
  | .createQueue hd q depth oid off => Sys2Proof.Machine.execCreateQueue hd q depth oid off s
  | .deleteQueue hd q => Sys2Proof.Machine.execDeleteQueue hd q s
  | .release hd body => Sys2Proof.Machine.execRelease hd body s
  | .grantCap hd owner oid recipient rights => Sys2Proof.Machine.execGrantCap hd owner oid recipient rights s
  | .revoke hd recipient oid => Sys2Proof.Machine.execRevoke hd recipient oid s
  | .exportEntry hd dev rctx lo hi rights => Sys2Proof.Machine.execExportEntry hd dev rctx lo hi rights s
  | .releaseIds hd level id => Sys2Proof.Machine.execReleaseIds hd level id s
  | .attest hd nonce => Sys2Proof.Machine.execAttest hd nonce s
  | .window hd oid lo hi rights => Sys2Proof.Machine.execWindow hd oid lo hi rights s
  | .rdmaWrite qp rkey addr data => Sys2Proof.Machine.execRdmaWrite qp rkey addr data s
  | .rdmaRead qp rkey addr len => Sys2Proof.Machine.execRdmaRead qp rkey addr len s
  | .ptpMessage port offset err lock => Sys2Proof.Machine.execPtpMessage port offset err lock s
  | .ebithFlitReceive port linkSeq crcOk => Sys2Proof.Machine.execEbithFlitReceive port linkSeq crcOk s
  | .ebithPortDown port => Sys2Proof.Machine.execEbithPortDown port s
  | .remoteAccess src acc => Sys2Proof.Machine.execRemoteAccess src acc s
  | .reduceElementApply src el => Sys2Proof.Machine.execReduceElementApply src el s
  | .releaseFlagAccept src id linkSeq addr v => Sys2Proof.Machine.execReleaseFlagAccept src id linkSeq addr v s
  | .holdRequest src req => Sys2Proof.Machine.execHoldRequest src req s
  | .watermarkFree target dev ctx id => Sys2Proof.Machine.execWatermarkFree target dev ctx id s
  | .remoteSuspectNotice dev grove lastPass failTick => Sys2Proof.Machine.execRemoteSuspectNotice dev grove lastPass failTick s
  | .mgmtRegisterWrite off v => Sys2Proof.Machine.execMgmtRegisterWrite off v s
  | .tper v => Sys2Proof.Machine.execTper v s
  | .retsvc v => Sys2Proof.Machine.execRetsvc v s
  | .mbcons v => Sys2Proof.Machine.execMbcons v s
  | .cald0 => Sys2Proof.Machine.execCald0 s
  | .inputReturn => Sys2Proof.Machine.execInputReturn s
  | .queuePairConnect qp bound port mtu => Sys2Proof.Machine.execQueuePairConnect qp bound port mtu s
  | .invalidRequest qp => Sys2Proof.Machine.execInvalidRequest qp s
  | .unknownCommand hd cmd => Sys2Proof.Machine.execUnknownCommand hd cmd s
  | .remoteHoldCommit src handle commit => Sys2Proof.Machine.execRemoteHoldCommit src handle commit s
  | .rePatch code buf newOid => Sys2Proof.Machine.execRePatch code buf newOid s
  | .timeBaseAlignment exceeded => Sys2Proof.Machine.execTimeBaseAlignment exceeded s

end Sys2Proof.Machine
end

