-- ==== Sys2Proof/Machine/Fetch.lean ====
section
/-! DEFINITION. Fetching and issuing a word: the checks of R37 to R39, the loop buffer (R288), control segments (R83 to R86), and the
streams that may issue (R19, R372 to R376). -/

namespace Sys2Proof.Machine

/-! ## Who may issue -/

/-- The control stream may issue: its bank runs, its grove is not in retention, and nothing stops it; a word under way ends before its unit
drains, for a trap or a rollback, and a REMAP under way also when its unit is killed (R372, R381, R386). -/
def mayIssueC (s : State) (k : Nat) (u : Unit) : Bool :=
  decide (k < 256) && !(groveAt s (k / 16)).retention && !u.halting && !u.owes &&
    (if u.killed.isSome then u.remap.isSome
     else runningBank s (k / 2) == (k % 2 == 1) && u.ready && ((u.cause.isNone && u.roll.isNone) || underWay s k u))

/-- An engine stream may issue: a strand of it runs and has words left. -/
def mayIssueE (s : State) (k : Nat) (u : Unit) (str : Stream) : Bool :=
  decide (k < 256) && runningBank s (k / 2) == (k % 2 == 1) && !(groveAt s (k / 16)).retention && u.enginesRun &&
    (u.seqr.get str).run.isSome && !(u.seqr.get str).ending

/-! ## The checks of a word -/

/-- The words of an instruction with their kinds, in order. -/
abbrev Words := List (Word × BitVec 2)

/-- The first word of a kind it may not have (R39 item 1): its place among the words, and its kind. -/
def badKind (ws : Words) : Option (Nat × BitVec 2) :=
  ((ws.mapIdx fun i w => (i, w.2)).find? fun e => e.2 != (if e.1 = 0 then 0 else 1))

/-- The sequencing checks of plain mode on a control word (R39 item 2). -/
def plainBad (w : Word) : Bool := fld w 30 2 != 0 || (!bit w 29 && opOf w == 0x3A)

/-- The cause code of a decode error. -/
def decCause : DecErr → Nat
  | .illegal => 0x02
  | .reserved => 0x03

/-! ## The loop buffer (R288) -/

/-- The word at an index as a held body gives it. -/
def heldWord (u : Unit) (w : Nat) : Option (Word × BitVec 2) :=
  u.body.bind fun b => if b.start ≤ w then b.words[w - b.start]? else none

/-- A control word with its kind: from the loop buffer, or from the code area. -/
def controlWord (s : State) (u : Unit) (w : Nat) : State × (Word × BitVec 2) × Option Poison :=
  match heldWord u w with
  | some x => (s, x, none)
  | none => match codeWord s u .c (w % 2 ^ 24) with
    | (s, x, kd, p) => (s, (x, kd), p)

/-- n control words from index w on. -/
def controlWords (u : Unit) : Nat → Nat → State → State × Words × Option Poison
  | 0, _, s => (s, [], none)
  | n + 1, w, s =>
    match controlWord s u w with
    | (s, x, p) =>
      match controlWords u n (w + 1) s with
      | (s, r, q) => (s, x :: r, p.orElse fun _ => q)

/-- Captures take the words that issued at `pc`. -/
def captureWords (cs : List Capture) (pc : Nat) (ws : Words) : List Capture :=
  cs.map fun c => { c with words := (ws.mapIdx fun i w => (pc + i, w)).foldl (fun t e => Tab.put t e.1 e.2) c.words }

/-- The body that a capture holds, when every word of the span was captured. -/
def bodyOf (c : Capture) (stop : Nat) : Option LoopBody :=
  let ws := (range' c.start stop).filterMap fun i => c.words.get? i
  if stop - c.start ≤ 256 && ws.length = stop - c.start then some { level := c.level, start := c.start, words := ws } else none

/-- The level, if any, that went back to its start at this word. -/
def loopedBack (u u' : Unit) : Option Nat :=
  [0, 1, 2].find? fun l => (u.level l).active && (u'.level l).active && (u'.level l).iter = (u.level l).iter + 1 && u'.r.pc = (u'.level l).start

/-- Whether the word of `ws` took a jump, a call, a return or a BRX, `u'` being the unit it left (R43, R288). -/
def takesTransfer (u' : Unit) (w : Word) : Bool :=
  let imm := bit w 29
  let taken := fun (q : BReg) => u'.preg (u'.breg q).pr != (u'.breg q).sn
  match fld w 30 2 with
  | 1 => taken (if imm then 0 else fld w 26 3)
  | 2 => true
  | _ => !imm && opOf w == 0x39 && u'.preg (fld w 13 3) != bit w 12

/-- The loop buffer after a word of `ws` that took unit `u` to `u'`. A LOOP starts a capture; the end of a level's first iteration
completes it; any other transfer breaks it. -/
def noteLoops (u u' : Unit) (ws : Words) : Unit :=
  let next := u.r.pc + ws.length
  let w := (ws.head?.map (·.1)).getD 0
  let cs := captureWords u'.capts u.r.pc ws
  let loop := !bit w 29 && opOf w == 0x3A
  let lv := bits w 18 17
  let cs := if loop then (cs.filter fun c => lv < c.level) ++ [{ level := lv, start := next % 2 ^ 24, words := [] }] else cs
  let body := if loop then u'.body.filter fun b => decide (lv < b.level) else u'.body
  let r : List Capture × Option LoopBody := match loopedBack u u' with
    | some l =>
      (cs.filter fun (c : Capture) => c.level != l,
        if (u.level l).iter = 0 then ((cs.find? fun (c : Capture) => c.level = l).bind fun c => bodyOf c next).orElse fun _ => body else body)
    | none => if takesTransfer u' w then ([], body) else (cs, body)
  { u' with capts := r.1.filter fun c => (u'.level c.level).active, body := r.2.filter fun b => (u'.level b.level).active }

/-! ## Control segments (R83 to R86) -/

/-- The segment ends when control leaves its span, to a word outside it or to its first word again: after its last word, which ends at `stop`, it is
compared, and otherwise abandoned (R86, log 90). -/
def endSegment (s : State) (k stop : Nat) : State :=
  match s.units.get? k with
  | none => s
  | some u =>
    match u.cseg.bind fun g => (segmentAt s u .c g.entry).map fun e => (g, e) with
    | none => s
    | some (g, e) =>
      let at_ := (u.r.pc + 2 ^ 24 - g.entry) % 2 ^ 24
      if 0 < at_ && at_ < e.len then s
      else if stop = (g.entry + e.len) % 2 ^ 24 then compareSegment s k u g e
      else putUnit s k { u with cseg := none }

/-! ## Issue -/

/-- What the issue of a control word leaves beside its effect: the loop buffer and the running segment, which a trap, a switch and the end of a
handler abandon (R85, log 90). `s0` is the state it issued in. -/
def afterC (s0 : State) (k : Nat) (u : Unit) (ws : Words) (s : State) : State :=
  match s.units.get? k with
  | none => s
  | some u' =>
    if u'.words = u.words + 1 then
      let g := noteSegment s0 u ((ws.head?.map (·.1)).getD 0)
      let stopped := u'.cause.isSome || u'.roll.isSome || u'.killed.isSome || u'.inh != u.inh || runningBank s (k / 2) != (k % 2 == 1)
      endSegment (putUnit s k { noteLoops u u' ws with cseg := if stopped then none else g }) k ((u.r.pc + ws.length) % 2 ^ 24)
    else s

/-- The booking units that a booking or lease word needs, which serve the requests of one cycle in order (R302, R321). Other words need none. -/
def resourcesOf (k : Nat) (u : Unit) : Instr → List Nat
  | .book _ _ _ _ | .reserve _ _ _ _ => [1024 + groveOf k, 1040]
  | .confirm _ _ a | .abandon _ _ a | .lease _ _ a => [1024 + bits (u.sreg a) 31 27]
  | .leaseOpen _ _ _ | .unlease _ _ _ | .unleaseRet _ _ _ => [1024 + groveOf k]
  | _ => []

/-- Every resource of the word may serve it in this cycle. -/
def inOrder (s : State) (k : Nat) (u : Unit) (i : Instr) : Bool := (resourcesOf k u i).all (mayServe s (hearthOf k))

/-- The outcome of a word, followed by `f`. -/
def thenState (o : Out) (f : State → State) : Out :=
  match o with
  | .next s => .next (f s)
  | .fault r => .fault r
  | .refused r => .refused r

/-- A control word whose kinds are right: the checks of plain mode, decoding, execution. One that a resource has to serve after a request of a
higher hearth in the same cycle waits for the next (R16). -/
def runC (s : State) (k : Nat) (u : Unit) (ws : Words) : Out :=
  let w := (ws.head?.map (·.1)).getD 0
  if u.r.plain && plainBad w then .next (raise s k (causeC u 0x04 0 Acc.none))
  else
    match decode .c (ws.map (·.1)) with
    | .error e => .next (raise s k (causeC u (decCause e) 0 Acc.none))
    | .ok i =>
      if inOrder s k u i then
        thenState (exec i { s with cur := (k, .c) }) fun t => noteServed (afterC s k u ws t) (hearthOf k) (resourcesOf k u i)
      else .next s

/-- The cause of a word of the wrong kind. -/
def kindCause (c : Cause) (at_ : Nat) (kind : BitVec 2) : Cause :=
  { c with code := 0x01, kind := kind.toNat, word := (c.word + at_) % 2 ^ 24, wkind := kind.toNat }

/-- A bank whose served fault has been answered, and which runs: what the answer says is done before anything issues (R378). -/
def mayWake (s : State) (k : Nat) (u : Unit) : Bool :=
  decide (k < 256) && runningBank s (k / 2) == (k % 2 == 1) && !(groveAt s (k / 16)).retention && u.killed.isNone &&
    u.served.any fun v => v.answer.isSome

/-- Fetch and issue one control word. -/
def issueC (s : State) (k : Nat) (u : Unit) : Out :=
  match controlWord s u u.r.pc with
  | (s, x, p) =>
    match controlWords u (if x.2 = 0 then trailing .c x.1 else 0) (u.r.pc + 1) s with
    | (s, r, q) =>
      let ws := x :: r
      match p.orElse fun _ => q with
      | some z => .next (raise (poisonEvent s z) k { causeC u 0x31 z.lvl Acc.none with inj := z.inj })
      | none =>
        match badKind ws with
        | some (i, kd) => .next (raise s k (kindCause (causeC u 0x01 0 Acc.none) i kd))
        | none => runC s k u ws

/-- The stream registers that have given entries between two states of the unit at `k`. -/
def popped (s t : State) (k : Nat) : List Nat :=
  match s.units.get? k, t.units.get? k with
  | some u, some v => (List.range 8).filter fun i => (v.sqAt i).entries.length < (u.sqAt i).entries.length
  | _, _ => []

/-- A word that pops a stream register after a later stream has done so in the same cycle waits for the next (R297). -/
def popInOrder (str : Stream) (k : Nat) (s : State) (o : Out) : Out :=
  match o with
  | .next t =>
    let rs := (popped s t k).map (sqPort k)
    if rs.all (mayServe s (streamCode str)) then .next (noteServed t (streamCode str) rs) else .next s
  | .fault r => .fault r
  | .refused r => .refused r

/-- Issue one word of a strand from its store. Trailing words past the strand's length are none of its words (R38). -/
def issueE (s : State) (k : Nat) (u : Unit) (str : Stream) (r : Strand) : Out :=
  let all := r.store.drop r.off
  let n := 1 + trailing str ((all.head?.map (·.1)).getD 0)
  let ws := all.take (if (all.head?.map (·.2)) = some 0 then n else 1)
  let c := causeE u str 0x02 0 0 Acc.none
  match badKind ws with
  | some (i, kd) => .next (raise s k (kindCause c i kd))
  | none =>
    if ws.length < n then .next (raise s k c)
    else
      match decode str (ws.map (·.1)) with
      | .error e => .next (raise s k { c with code := decCause e })
      | .ok i => popInOrder str k s (exec i { s with cur := (k, str) })

/-- A VL or VS sub-stream is held until its last access is performed, or its store parked (R244). -/
def Unit.outstanding (u : Unit) (str : Stream) : Bool :=
  u.ops.any fun o => o.str = str && match o.body with
    | .vl x => x.value.isNone
    | .vs x => !x.writes.isEmpty
    | .va _ | .m _ | .d _ => false

/-- The turn of a stream: a bank whose served fault has been answered runs again first (R378); a unit of a cancelled scope that is in an excused
wait is killed and issues nothing more (R346); a stream that may not issue does nothing. -/
def issueTurn (k : Nat) (str : Stream) (s : State) : Out :=
  match s.units.get? k with
  | none => .next s
  | some u =>
    if u.doomed s then .next (killCancelled s k u)
    else if mayWake s k u then .next (bankRuns s k)
    else if str = .c then
      if !mayIssueC s k u then .next s else issueC s k u
    else
      match (u.seqr.get str).run with
      | some r =>
        if !mayIssueE s k u str then .next s
        else if u.outstanding str then .next (putUnit s k (u.setWait str (some .memory)))
        else issueE s k u str r
      | none => .next s

end Sys2Proof.Machine
end

