-- ==== Sys2Proof/Machine/Agents.lean ====
section
/-! DEFINITION. The turns of the agents: one tick of the time base with the work it starts (R28, R317, R325 to R328, R393 to R396), what the
units, engines, groves and the control plane may do next, host operations that wait (R361), and the free choice among them (log 1). -/

namespace Sys2Proof.Machine

/-! ## The time base -/

/-- The state after a meaning; none of the agents' meanings stops. -/
def after (f : State → Out) (s : State) : State :=
  match f s with
  | .next s' => s'
  | .fault _ | .refused _ => s

def forAll {α : Type} (l : List α) (f : α → State → State) (s : State) : State := l.foldl (fun s x => f x s) s

/-- An access of the step is held by its grove's spent budget: a command of its lease slot that accesses memory, or a copy of its D stream, is in
progress. -/
def budgetHolds (s : State) (c : Chain) (st : BStep) : Bool :=
  spent s c.g && match st.lease with
    | none => false
    | some (k, ls) => ((s.units.get? k).map (·.ops)).any fun ops => ops.any fun o => match o.body with
      | .m m => st.cls < 6 && m.slot = ls && !o.held && m.cmd.accesses
      | .d x => st.cls = 6 && x.started && !o.held && x.next < prodExt x.desc.dstDims
      | .vl _ | .va _ | .vs _ => false

/-- A tick that a grove below its set frequency loses: of every `set` ticks, `set - freq` (R326, log 3). -/
def slowTick (s : State) (g : Nat) : Bool :=
  let f := setFreq s g
  let lost := f - (groveAt s g).freq
  decide (s.time * lost / f < (s.time + 1) * lost / f)

/-- The lease slot of the engine command at which the M stream stands. -/
def waitingSlot (u : Unit) : Option Nat := (u.seqr.m.run.bind fun r => r.store[r.off]?).map fun w => bits w.1 25 24

/-- What keeps a running step from its work in this tick: causes 1, 2 and 5 from the state, 3, 4 and 6 free (R328, log 3). -/
def intrusionAt (s : State) (c : Chain) (st : BStep) (n : Nat) : List Nat :=
  let u := st.lease.bind fun l => s.units.get? l.1
  let w := u.bind fun u => if st.cls = 6 then u.waits.get .d else if waitingSlot u = st.lease.map (·.2) then u.waits.get .m else none
  let asleep := match engOf c st with
    | some e => (engAt s e).power != .awake
    | none => false
  let free := fun i => Config.freeWord (n + i) % 2
  [boolN (w == some .tile || w == some .streamReg) 1, boolN (budgetHolds s c st || slowTick s c.g) 1, free 0, free 1, boolN asleep 1, free 2]

/-- Count the tick of every step that runs. -/
def countIntrusions (s : State) : State :=
  if (chainsOf s).any fun c => c.steps.any BStep.runs then
    { s with
      free := s.free + 3
      books := s.books.map fun c => (c.1, { c.2 with steps := c.2.steps.map fun st =>
        if st.runs && st.cls < 7 then { st with intr := (st.intr.zip (intrusionAt s c.2 st s.free)).map fun e => e.1 + e.2 } else st }) }
  else s

/-- Frequencies that change, or return, at this slot boundary. -/
def frequencies (s : State) : State :=
  forAll (List.range 16) (fun g s =>
    let s := after (execSafeFrequencyReturn g) s
    if groveFreq s g (groveAt s g).lowered = (groveAt s g).freq then s
    else after (execFrequencyChange g (groveAt s g).lowered) s) s

/-- Test windows that end or begin at this slot boundary. Whether a window's vectors matched is outside the model: none fails here, and
a failure is an event of the agenda (log 14). -/
def testWindows (s : State) : State :=
  forAll (List.range 16) (fun g s =>
    let s := match (groveAt s g).window with
      | some w => if w + 192 ≤ curSlot s then after (execTestResult g true) s else s
      | none => s
    let s := retryWindow s g
    if (groveAt s g).window = some (curSlot s) then after (execTestWindow g) s else s) s

/-- A free signed reading of 16 bits. -/
def freeReading (n : Nat) : Int := sxt 16 (Config.freeWord n)

/-- What the Forester does at its periods. -/
def periodic (s : State) : State :=
  let s := if s.time % 2 ^ 16 = 0 then
      after (execSensorSample ((List.range 64).map fun i => freeReading (s.free + i))) { s with free := s.free + 64 }
    else s
  let s := if s.time % 2 ^ 36 = 0 then
      forAll (List.range 16) (fun g s =>
        after (execWearRead g (Config.freeWord s.free % 2 ^ 16) (Config.freeWord (s.free + 1) % 2 ^ 32)) { s with free := s.free + 2 })
        (after execLifeRecordWrite s)
    else s
  if s.time % 2 ^ s.mgmt.tper = 0 then after execTestPeriod s else s

/-- The work of a slot boundary: a trip of the rail, frequencies, byte budgets, test windows, then each booking unit (Table 12.8). -/
def slotWork (s : State) : State :=
  if s.trip then after execModuleReset s
  else
    let s := frequencies s
    let s := if curSlot s % 64 = 0 then forAll (List.range 16) (fun g s => after (execBudgetIntervalStart g) s) s else s
    forAll (List.range 17) (fun b s => after (execSlotBoundary b) s) (testWindows s)

/-- Units of cancelled scopes that are in an excused wait are killed before it ends with time (R346). -/
def killDoomed (s : State) : State :=
  forAll (s.units.filterMap fun e => if e.2.doomed s then some e.1 else none) (fun k s => match s.units.get? k with
    | some u => if u.doomed s then killCancelled s k u else s
    | none => s) s

/-- One tick. -/
def clock (s : State) : State :=
  let s := countIntrusions { killDoomed s with time := (s.time + 1) % 2 ^ 64 }
  let s := if s.time % 64 = 0 then slotWork s else s
  periodic s

/-! ## The accesses of a turn (R215, R272) -/

abbrev Act := State → Out

/-- The words of the granules that a turn accessed outside the Pantry and left with another value. -/
def changed (s t : State) : List Nat :=
  (t.touched.reverse.eraseDups.flatMap fun g => (List.range 8).map fun i => 64 * g + 8 * i).filter fun a => rd8 s a != rd8 t a

/-- The word is the entry that a REMAP of the unit changes with atomics of its own, or the turn set no more than A and D of an entry in use
(R273, R278). -/
def seenAtOnce (s t : State) (k a : Nat) : Bool :=
  [s, t].any (fun x => (x.units.get? k).any fun u => u.remap.any fun r => r.pte = a) ||
    (rd8 s a / 8 == rd8 t a / 8 && rd8 s a % 2 == rd8 t a % 2 && (Tab.getD [] t.tlb1 (hearthOf k)).any fun e => e.pte = a)

/-- The plain words that a turn of a privileged unit stored over may still be read by walkers as they were (R272, log 94). -/
def noteOlder (s t : State) (k : Nat) : State :=
  match s.units.get? k with
  | none => t
  | some u =>
    if privileged s u then
      { t with older := t.older ++ ((changed s t).filter fun a => keyAt s (a / 64) = 0 && keyAt t (a / 64) = 0 && !seenAtOnce s t k a).map fun a =>
          { addr := a, val := rd8 s a, who := u.who, hearths := BitVec.allOnes 128 } }
    else t

/-- A store of any other agent is the newest value of its word to every walker. -/
def noteOthers (s t : State) : State :=
  if t.older.isEmpty then t
  else
    let l := changed s t
    { t with older := t.older.filter fun o => !l.elem o.addr }

/-- A turn's accesses through a bank port: those of one tick that reach a Clearing bank are performed in the order of the ports, so a turn that
comes too late for its place leaves things as they are, as `late` says (R16, R215). -/
def atPort (port : Nat) (a : Act) (late : State → State) (s : State) : Out :=
  match a s with
  | .next t =>
    let banks := t.touched.flatMap fun g => (bankAt t (64 * g)).toList
    if banks.all (mayServe s port) then .next (noteServed t port banks) else .next (late s)
  | .fault r => .fault r
  | .refused r => .refused r

/-- A turn of the unit at `k`, whose D stream accesses the banks through its Ladle. -/
def unitTurn (k : Nat) (str : Stream) (a : Act) (s : State) : Out :=
  thenState (atPort (if str = .d then 128 + hearthOf k else hearthOf k) a id s) fun t => { noteOlder s t k with touched := [] }

/-- A turn of another agent. -/
def otherTurn (a : Act) (s : State) : Out := thenState (a s) fun t => { noteOthers s t with touched := [] }

/-! ## What may happen next -/

def whenB (c : Bool) (a : Act) : List Act := if c then [a] else []

def placeOf (k : Nat) : Place := ⟨BitVec.ofNat 7 (k / 2), k % 2 == 1⟩

/-- What an operation in flight may do. -/
def opActs (p : Place) (o : Op) : List Act :=
  List.map (unitTurn (placeKey p) o.str) (match o.body with
  | .vl x => [if x.value.isSome then execVlRowWrite p o.num else execAccessPerform p .vl o.num]
  | .va _ => [execVaWriteback p o.num]
  | .vs _ => [execAccessPerform p .vs o.num]
  | .m _ => [execEngineCommandComplete p o.num]
  | .d x => [if x.started then (if x.next < prodExt x.desc.srcDims then execGranuleWrite p o.num else execCopyComplete p o.num) else execCopyStart p o.num])

/-- The cycles observed of a strand: those its segment expects, since the model holds no timing (log 7). -/
def observed (s : State) (u : Unit) (str : Stream) : Nat :=
  match (u.seqr.get str).run with
  | some r => ((segmentAt s u str r.rcd.start).map fun e => expectedCount e r.rcd.counts).getD 0
  | none => 0

/-- What a stream's sequencer may do. -/
def streamActs (s : State) (k : Nat) (u : Unit) (str : Stream) : List Act :=
  let q := u.seqr.get str
  whenB (q.run.isNone && !q.queue.isEmpty) (execStrandStart (placeOf k) str) ++
    whenB q.ending (execStrandEnd (placeOf k) str (observed s u str)) ++
    whenB (mayIssueE s k u str) (issueTurn k str)

/-- What a unit on a bank may do. -/
def unitActs (s : State) (k : Nat) (u : Unit) : List Act :=
  let p := placeOf k
  u.ops.flatMap (opActs p) ++ List.map (unitTurn k .c)
  (if u.killed.isSome then whenB (mayIssueC s k u) (issueTurn k .c) ++ whenB (u.ops.isEmpty && u.remap.isNone) (execUnitKill p)
   else
    engineStreams.flatMap (streamActs s k u) ++ whenB (mayIssueC s k u || mayWake s k u) (issueTurn k .c) ++
    whenB (!u.replay.isEmpty) (execAccessPerform p .c 0) ++ whenB u.halting (execHaltRetire p) ++
    whenB u.cause.isSome (execTrapDelivery p) ++ whenB (u.cause.isSome || u.served.any fun v => !v.posted) (execFaultRecordPost p) ++ whenB u.roll.isSome (execRollback p) ++
    whenB (u.puts.any fun e => e.2.1 ≤ u.done e.1) (fun s => .next (flushPuts s k)) ++ whenB u.cancelled (execUnitKill p) ++ whenB u.matAt.isSome (execStampedCommandIssue p) ++
    whenB (runningBank s (k / 2) == (k % 2 == 1)) (execStallDeadlock p))

/-- What the engines and groves may do. -/
def groveActs (s : State) : List Act :=
  (s.engines.filterMap fun e => if e.2.isWaking then (engOfKey e.1).map fun id => execEngineAwake id false else none) ++
    (List.range 16).map fun g => execGroveRetention g (!(groveAt s g).retention) []

/-- What the dispatcher and the completion unit may do. -/
def controlActs (s : State) : List Act :=
  whenB (!s.kicks.isEmpty || s.disp.serve.isSome) execQueueServe ++
    s.launches.flatMap (fun e => [execUnitPlace e.1, execLaunchCompletion e.1] ++
      (e.2.sigs.map (·.index)).eraseDups.map fun i => execRunTwiceCompare e.1 i) ++
    (s.ready.map fun e => execTicketPlace e.1) ++ (s.partitions.map fun e => execPartitionFree e.1) ++ whenB s.disp.holding execTakeOver

/-! ## Host operations (R361) -/

/-- The unit and the stream whose operation an event performs. -/
def eventStream : Instr → Option (Nat × Stream)
  | .accessPerform p str _ => some (placeKey p, str)
  | .engineCommandComplete p _ | .stampedCommandIssue p => some (placeKey p, .m)
  | .copyStart p _ | .granuleWrite p _ | .copyComplete p _ => some (placeKey p, .d)
  | _ => none

/-- The Ebith port through which an event reaches the module's memory. -/
def eventPort : Instr → Option Nat
  | .remoteAccess src _ | .reduceElementApply src _ | .releaseFlagAccept src _ _ _ _ => some src.port
  | _ => none

/-- An event as a turn of who performs it; one that comes too late for its port is kept (R215). -/
def eventAct (i : Instr) : Act :=
  match eventStream i, eventPort i with
  | some (k, str), _ => unitTurn k str (exec i)
  | none, some p => otherTurn (atPort (256 + p) (exec i) fun s => { s with part := some 0 })
  | none, none => otherTurn (exec i)

/-- Perform an event; one that has to wait is kept with how far it has come. -/
def performEvent (i : Instr) (s : State) (keep : State → Nat → State) : Out :=
  thenState (eventAct i s) fun s => match s.part with
    | some n => keep { s with part := none } n
    | none => s

/-- An event that arrives; an operation of a queue pair waits behind one of that pair. -/
def eventTurn (i : Instr) (s : State) : Out :=
  if (qpOf i).isSome && s.waiting.any fun w => qpOf w.1 == qpOf i then .next { s with waiting := s.waiting ++ [(i, 0)] }
  else performEvent i s fun s n => { s with waiting := s.waiting ++ [(i, n)] }

/-- Take up the n-th waiting operation again. -/
def resumeWaiting (n : Nat) (s : State) : Out :=
  match s.waiting[n]? with
  | none => .next s
  | some (i, m) =>
    let first := s.waiting.take n
    let rest := s.waiting.drop (n + 1)
    if (qpOf i).isSome && first.any fun w => qpOf w.1 == qpOf i then .next s
    else performEvent i { s with waiting := first ++ rest, part := some m } fun s m => { s with waiting := first ++ (i, m) :: rest }

/-! ## The choice -/

/-- Everything that may happen next beside the passing of a tick. -/
def acts (s : State) : List Act :=
  (s.units.filter fun e => e.1 < 256).flatMap (fun e => unitActs s e.1 e.2) ++ (groveActs s ++ controlActs s).map otherTurn ++
    (List.range s.waiting.length).map resumeWaiting

/-- A turn of the agenda. -/
def runTurn (t : Turn) (s : State) : Out :=
  match t with
  | .issue h bank str =>
    let k := 2 * h.toNat + if bank then 1 else 0
    unitTurn k str (issueTurn k str) s
  | .event i => eventTurn i s
  | .report fu unc inj lvl => .next (takeReport s fu unc inj lvl)
  | .tick => otherTurn (fun s => .next (clock s)) s

/-- With nothing on the agenda one of the agents, or the time base, takes a turn. -/
def chooseTurn (s : State) : Out :=
  let l := acts s
  match l[Config.choice s.free % (l.length + 1)]? with
  | some a => a { s with free := s.free + 1 }
  | none => otherTurn (fun s => .next (clock s)) { s with free := s.free + 1 }

end Sys2Proof.Machine
end

