-- ==== Sys2Proof/Machine/Bench.lean ====
section
/-! DEFINITION. A unit placed with the words of one instruction where its stream issues next: what a launch from outside would have set up
(log 15). -/

namespace Sys2Proof.Machine

/-- A privileged context with every hearth and the largest grant within R353; its code stands in plain HBM at 2^30. -/
def benchCtx (words : Nat) : CtxRec :=
  { quiescing := none
    body := { ctx := 0, priv := true, strict := false, otbase := 0, otlen := 1, hmask := BitVec.allOnes 128, pbanks := 64,
              emask := BitVec.allOnes 48, quota := List.replicate 9 0xFFFF, save := 0, sigkeys := [0, 0, 0, 0] }
    key := 0
    grant := { units := 40, boost := true, minf := 0, maxp := 2700, bb := 2 ^ 24 }
    bb := 2 ^ 24
    areas := { Six.all Area.none with
      c := { oid := 0, base := 2 ^ 30, used := words, map := 2 ^ 30 + 2 ^ 26 } } }

/-- The word-kind map of an instruction and its trailing words (R81). -/
def benchMap (words : Nat) : List Byte :=
  leBytes ((words + 3) / 4) ((List.range words).foldl (fun n i => n + (if i = 0 then 0 else 4 ^ i)) 0)

/-- A code object whose control section is those words. -/
def benchCode (words : Nat) : Code :=
  { ctx := 0, bases := Six.all 0, counts := { Six.all 0 with c := words }, consts := [], buffers := [], segments := [], relocs := [],
    template := none, entry := 0, slip := 16, priv := true, syncOid := 0, sync := 0, pneed := 0, digest := 0, order := 0 }

/-- A strand of those words about to issue its first. -/
def benchStrand (ws : List Word) : Strand :=
  Strand.start { start := 0, len := ws.length, counts := [], push := 0, caps := Vector.replicate 16 Cap.none }
    (ws.mapIdx fun i w => (w, if i = 0 then 0 else 1)) []

/-- A unit that has just started, with a strand on an engine stream. -/
def benchUnit (s : State) (str : Stream) (ws : List Word) : Unit :=
  let u := startUnit 0 0 0 0 0 none 0 0 (startRegs 0 [] Cap.none Cap.none Cap.none) (startCoupling 16) s.time
  if str = .c then u else { u with seqr := u.seqr.set str { Seqr.idle with run := some (benchStrand ws) } }

/-- The state with the unit on bank 0 of hearth 0, whose turn is next. -/
def placeBench (s : State) (str : Stream) (ws : List Word) : State :=
  { s with
    agenda := [.issue 0 false str]
    mem := pokes (pokes s.mem ((ws.flatMap fun w => leBytes 4 w.toNat).mapIdx fun i b => (2 ^ 30 + i, b)))
      ((benchMap ws.length).mapIdx fun i b => (2 ^ 30 + 2 ^ 26 + i, b))
    ctxs := s.ctxs.put 0 (benchCtx ws.length)
    codes := s.codes.put 0 (benchCode ws.length)
    units := s.units.put 0 (benchUnit s str ws)
    running := Tab.set false s.running 0 false }

/-- The stream whose decoder takes the words (log 16). -/
def benchStream (w : Nat) : Stream := ((firstDecode (tableWords w) (tableStreams (BitVec.ofNat 32 w))).map (·.1)).getD .c

end Sys2Proof.Machine
end

