-- ==== Sys2Proof/Machine/Step.lean ====
section
/-! DEFINITION. The step: the next turn of the agenda, or with none a turn that the machine's agents take (log 1). -/

namespace Sys2Proof.Machine

/-- One step of the machine. -/
def step (s : State) : Host.Outcome State Fault Refusal :=
  match s.agenda with
  | t :: rest => runTurn t { s with agenda := rest }
  | [] => chooseTurn s

/-- The state with one instruction's words where the next step fetches: the turn of the stream that decodes them (log 15). -/
def State.withFetchWord (s : State) (nbits w : Nat) : State :=
  if nbits = 32 then placeBench s (benchStream w) (tableWords w) else s

end Sys2Proof.Machine
end

