-- ==== Sys2Proof/Laws/Ops.lean ====
section
/-! SUPPORT. What the shared skeletons of a word do: a control word and an engine word, by the result of their effect, and
a turn at a bank's port. A lemma about an instruction cites these instead of unfolding the course of a word. -/

namespace Sys2Proof.Machine

variable {s s' : State} {u u' v : Unit} {n : NextAct} {len : Nat} {f : State → Unit → Res}

/-! ## Control words -/

/-- A control word in a mode that allows its next-address action runs its effect. -/
theorem ctl_eq (hu : s.units.get? s.cur.1 = some u) (hp : u.r.plain = true → n = .seq) :
    ctl s n len f = .next (courseC s s.cur.1 u n len (f s u)) := by
  unfold ctl
  rw [hu]
  by_cases h : u.r.plain = true
  · simp [hp h]
  · simp [Bool.eq_false_iff.mpr h]

/-- A control word in plain mode with another next-address action is the sequencing trap (R45). -/
theorem ctl_plain (hu : s.units.get? s.cur.1 = some u) (hp : u.r.plain = true) (hn : n ≠ .seq) :
    ctl s n len f = .next (raise s s.cur.1 (causeC u 0x04 0 Acc.none)) := by
  unfold ctl
  rw [hu]
  simp [hp, hn]

/-- An effect that succeeds, with a next address. -/
theorem ctl_ok (hu : s.units.get? s.cur.1 = some u) (hp : u.r.plain = true → n = .seq) (hf : f s u = .ok s' u')
    (hv : u'.next len n = some v) : ctl s n len f = .next (putUnit s' s.cur.1 (v.issuedAt .c s'.time)) := by
  rw [ctl_eq hu hp, hf]
  simp [courseC, hv]

/-- An effect that succeeds, with no next address: the sequencing trap, and nothing of the effect (R44). -/
theorem ctl_noNext (hu : s.units.get? s.cur.1 = some u) (hp : u.r.plain = true → n = .seq) (hf : f s u = .ok s' u')
    (hv : u'.next len n = none) : ctl s n len f = .next (raise s s.cur.1 (causeC u 0x04 0 Acc.none)) := by
  rw [ctl_eq hu hp, hf]
  simp [courseC, hv]

/-- An effect that traps, but for an access's fault. -/
theorem ctl_trap {code kind : Nat} {a : Acc} (hu : s.units.get? s.cur.1 = some u) (hp : u.r.plain = true → n = .seq) (hc : classOf code ≠ .s)
    (hf : f s u = .trap s' code kind a) : ctl s n len f = .next (raise s' s.cur.1 (causeC u code kind a)) := by
  rw [ctl_eq hu hp, hf]
  simp [courseC, hc]

/-- A trap of an effect whose word has a next address. -/
theorem ctl_fault {code kind : Nat} {a : Acc} (hu : s.units.get? s.cur.1 = some u) (hp : u.r.plain = true → n = .seq) (hn : u.next len n = some v)
    (hf : f s u = .trap s' code kind a) : ctl s n len f = .next (raise s' s.cur.1 (causeC u code kind a)) := by
  rw [ctl_eq hu hp, hf]
  simp [courseC, hn]

/-- An effect that waits: the word has not issued. -/
theorem ctl_wait {w : WaitKind} (hu : s.units.get? s.cur.1 = some u) (hp : u.r.plain = true → n = .seq) (hn : u.next len n = some v)
    (hf : f s u = .wait s' u' w) : ctl s n len f = .next (putUnit s' s.cur.1 (u'.setWait .c (some w))) := by
  rw [ctl_eq hu hp, hf]
  simp [courseC, hn]

/-- An effect that would wait, with no next address: the sequencing trap at once (R44). -/
theorem ctl_wait_noNext {w : WaitKind} (hu : s.units.get? s.cur.1 = some u) (hp : u.r.plain = true → n = .seq) (hn : u.next len n = none)
    (hf : f s u = .wait s' u' w) : ctl s n len f = .next (raise s s.cur.1 (causeC u 0x04 0 Acc.none)) := by
  rw [ctl_eq hu hp, hf]
  simp [courseC, hn]

/-- An effect that is a state of its own. -/
theorem ctl_whole (hu : s.units.get? s.cur.1 = some u) (hp : u.r.plain = true → n = .seq) (hf : f s u = .whole s') :
    ctl s n len f = .next s' := by
  rw [ctl_eq hu hp, hf]
  rfl

/-- A control word with a unit always answers a next state. -/
theorem ctl_next (hu : s.units.get? s.cur.1 = some u) : ∃ t, ctl s n len f = .next t := by
  unfold ctl
  rw [hu]
  by_cases h : (u.r.plain && n != .seq) = true
  · exact ⟨_, if_pos h⟩
  · exact ⟨_, if_neg h⟩

/-- A guard that holds lets the effect run. -/
theorem guarded_on {g : GReg} (h : u.guard g = true) : guarded g f s u = f s u := by simp [guarded, h]

/-- A guard that is false leaves nothing but the next-address action (R44). -/
theorem guarded_off {g : GReg} (h : u.guard g = false) : guarded g f s u = .ok s u := by simp [guarded, h]

/-- A privileged effect in a context with privilege. -/
theorem priv_on (h : privileged s u = true) : priv f s u = f s u := by simp [priv, h]

/-- A privileged effect in a context without privilege is the privilege trap (R39). -/
theorem priv_off (h : privileged s u = false) : priv f s u = .trap s 0x05 0 Acc.none := by simp [priv, h]

/-! ## Engine words -/

variable {str : Stream} {r : Strand} {g : State → Unit → Strand → Res}

/-- A word of a strand that runs. -/
theorem eng_eq (hu : s.units.get? s.cur.1 = some u) (hr : (u.seqr.get str).run = some r) :
    eng s str len g = .next (courseE s s.cur.1 str u len (g s u r)) := by
  unfold eng
  simp only [hu, hr]

/-- An effect that succeeds: the sequencer goes on. -/
theorem eng_ok (hu : s.units.get? s.cur.1 = some u) (hr : (u.seqr.get str).run = some r) (hf : g s u r = .ok s' u') :
    eng s str len g =
      .next (putUnit s' s.cur.1 ({ u' with seqr := u'.seqr.set str ((u'.seqr.get str).advance len) }.issuedAt str s'.time)) := by
  rw [eng_eq hu hr, hf]
  rfl

theorem eng_trap {code kind : Nat} {a : Acc} (hu : s.units.get? s.cur.1 = some u) (hr : (u.seqr.get str).run = some r)
    (hf : g s u r = .trap s' code kind a) : eng s str len g = .next (raise s' s.cur.1 (causeE u str code kind 0 a)) := by
  rw [eng_eq hu hr, hf]
  rfl

theorem eng_wait {w : WaitKind} (hu : s.units.get? s.cur.1 = some u) (hr : (u.seqr.get str).run = some r)
    (hf : g s u r = .wait s' u' w) : eng s str len g = .next (putUnit s' s.cur.1 (u'.setWait str (some w))) := by
  rw [eng_eq hu hr, hf]
  rfl

/-- A word of a strand that runs always answers a next state. -/
theorem eng_next (hu : s.units.get? s.cur.1 = some u) (hr : (u.seqr.get str).run = some r) : ∃ t, eng s str len g = .next t :=
  ⟨_, eng_eq hu hr⟩

/-! ## Turns -/

theorem thenState_next {g : State → State} (t : State) : thenState (.next t) g = .next (g t) := rfl

/-- A turn whose banks may all serve it is performed, and noted at them (R215). -/
theorem atPort_served {port : Nat} {a : Act} {late : State → State} {t : State} (ha : a s = .next t)
    (hm : ∀ g ∈ t.touched, ∀ b ∈ bankAt t (64 * g), mayServe s port b = true) :
    atPort port a late s = .next (noteServed t port (t.touched.flatMap fun g => (bankAt t (64 * g)).toList)) := by
  have : (t.touched.flatMap fun g => (bankAt t (64 * g)).toList).all (mayServe s port) = true := by
    simpa [List.all_eq_true] using hm
  simp [atPort, ha, this]

end Sys2Proof.Machine
end

