-- ==== Sys2Proof/Safety.lean ====
section
/-! DEFINITION. What the claims call a sound state and a safe run: the memory in its one canonical form, the time base
within its 64 bits, and a step that stops with no fault. -/

namespace Sys2Proof.Machine

/-- The one canonical form of the memory: addresses strictly rise and no entry lists what an unlisted address reads
as, which is 0 (log 2). -/
abbrev Memory.wf (m : Tab Byte) : Prop := Tab.risingFrom none m = true ∧ ∀ e ∈ m, e.2 ≠ 0

/-- A sound state: canonical memory, the tagged granules in order (R231), the runs of granules of one key in order (R268),
and the time base a double (R7). -/
abbrev State.sound (s : State) : Prop :=
  Memory.wf s.mem ∧ NSet.risingFrom none s.tags = true ∧ Tab.risingFrom none s.gkeys = true ∧ s.time < 2 ^ 64

/-- A run of n steps that meets no fault and no refusal. -/
def safeFor : Nat → State → Bool
  | 0, _ => true
  | n + 1, s => match step s with
    | .next t => safeFor n t
    | .fault _ => false
    | .refused _ => false

end Sys2Proof.Machine
end

