-- ==== Sys2Proof/Certificates/Slice0/Obligations.lean ====
section
/-! DEFINITION. The statements for the provers, from the spec's numbered rules. The parts of a statement, and the words and tables that they use, stand in `Claims`. -/

namespace Sys2Proof.Claims
open Sys2Proof.Machine

/-! ## Words -/

/-- Unit `u` executes a control word whose next-address action is `n`; in plain mode that is the next sequential word (R45). -/
def Issuing (s : State) (u : Machine.Unit) (n : NextAct) : Prop :=
  s.units.get? s.cur.1 = some u ∧ (u.r.plain = true → n = .seq)

/-- The machine as a control word leaves it: its effects stand in `s'`, and its unit stands as `v`, issued. -/
def left (s s' : State) (v : Machine.Unit) : State := putUnit s' s.cur.1 (v.issuedAt .c s'.time)

/-- The machine as a control word leaves it that traps with no effect (R371). -/
def trapped (s : State) (u : Machine.Unit) (code kind : Nat) (a : Acc) : State := raise s s.cur.1 (causeC u code kind a)

/-- The machine as a control word leaves it that waits: it has not issued. -/
def waiting (s s' : State) (u : Machine.Unit) (w : WaitKind) : State := putUnit s' s.cur.1 (u.setWait .c (some w))

/-- Strand `r` of stream `str` of unit `u` executes its next word. -/
def Running (s : State) (str : Stream) (u : Machine.Unit) (r : Strand) : Prop :=
  s.units.get? s.cur.1 = some u ∧ (u.seqr.get str).run = some r

/-- The machine as an engine word of `len` words leaves it: its effects stand in `s'` and its unit as `u'`, issued. -/
def leftE (s : State) (str : Stream) (len : Nat) (s' : State) (u' : Machine.Unit) : State :=
  putUnit s' s.cur.1 ({ u' with seqr := u'.seqr.set str ((u'.seqr.get str).advance len) }.issuedAt str s'.time)

/-! ## Tables of instructions of one shape -/

/-- Table 5.1: the two-source integer instructions, whether a 32-bit b is zero-extended (R122), and the result, each from
exact integers narrowed to 64 bits. -/
def integerRows : List ((Nxt → SReg → SReg → OpB → Instr) × Bool × (Double → Double → Double)) := [
  (.add, false, fun a b => BitVec.ofInt 64 (a.toInt + b.toInt)),
  (.sub, false, fun a b => BitVec.ofInt 64 (a.toInt - b.toInt)),
  (.mul, false, fun a b => BitVec.ofInt 64 (a.toInt * b.toInt)),
  (.mulh, false, fun a b => BitVec.ofInt 64 (a.toInt * b.toInt / 2 ^ 64)),
  (.mulhU, true, fun a b => BitVec.ofNat 64 (a.toNat * b.toNat / 2 ^ 64)),
  (.div, false, fun a b => if b.toInt = 0 then BitVec.ofInt 64 (-1) else BitVec.ofInt 64 (a.toInt.tdiv b.toInt)),
  (.divU, true, fun a b => if b.toNat = 0 then BitVec.ofNat 64 (2 ^ 64 - 1) else BitVec.ofNat 64 (a.toNat / b.toNat)),
  (.rem, false, fun a b => if b.toInt = 0 then a else BitVec.ofInt 64 (a.toInt.tmod b.toInt)),
  (.remU, true, fun a b => if b.toNat = 0 then a else BitVec.ofNat 64 (a.toNat % b.toNat)),
  (.and, false, fun a b => BitVec.ofNat 64 (a.toNat &&& b.toNat)),
  (.or, false, fun a b => BitVec.ofNat 64 (a.toNat ||| b.toNat)),
  (.xor, false, fun a b => BitVec.ofNat 64 (a.toNat ^^^ b.toNat)),
  (.andn, false, fun a b => BitVec.ofNat 64 (a.toNat &&& (2 ^ 64 - 1 - b.toNat))),
  (.shl, false, fun a b => BitVec.ofNat 64 (a.toNat * 2 ^ (b.toNat % 64))),
  (.shr, false, fun a b => BitVec.ofNat 64 (a.toNat / 2 ^ (b.toNat % 64))),
  (.sar, false, fun a b => BitVec.ofInt 64 (a.toInt / 2 ^ (b.toNat % 64))),
  (.min, false, fun a b => if a.toInt ≤ b.toInt then a else b),
  (.max, false, fun a b => if a.toInt ≤ b.toInt then b else a),
  (.minU, true, fun a b => if a.toNat ≤ b.toNat then a else b),
  (.maxU, true, fun a b => if a.toNat ≤ b.toNat then b else a),
  (.addw, false, fun a b => BitVec.ofInt 64 ((a.toInt + b.toInt).bmod (2 ^ 32)))]

/-- Table 5.3: the FP32 instructions with operands d, a and b, and the result with its flags in a rounding mode. -/
def floatRows : List ((FNxt → SReg → SReg → OpB → Instr) × (Word → Word → Word → Rnd → Word × Flags)) := [
  (.fadd, fun _ a b m => f32Of (Val.add (f32Val a) (f32Val b) m) m),
  (.fsub, fun _ a b m => f32Of (Val.add (f32Val a) (f32Val b).neg m) m),
  (.fmul, fun _ a b m => f32Of (Val.mul (f32Val a) (f32Val b)) m),
  (.fdiv, fun _ a b m => f32Of (Val.div (f32Val a) (f32Val b)) m),
  (.fma, fun d a b m => f32Of (Val.fma (f32Val d) (f32Val a) (f32Val b) m) m),
  (.fnma, fun d a b m => f32Of (Val.fma (f32Val d).neg (f32Val a) (f32Val b) m) m),
  (.fmin, fun _ a b _ => (f32MinMax true a b, 0)),
  (.fmax, fun _ a b _ => (f32MinMax false a b, 0))]

/-- Table 5.3: the FP32 instructions with one operand and an FP32 result. -/
def floatRows1 : List ((FNxt → GReg → SReg → SReg → Instr) × (Word → Rnd → Word × Flags)) := [
  (.fsqrt, fun a m => f32Of (Val.sqrt (f32Val a)) m),
  (.fabs, fun a _ => (if (f32Val a).isNan then 0x7FC00000 else a &&& 0x7FFFFFFF, 0)),
  (.fneg, fun a _ => (if (f32Val a).isNan then 0x7FC00000 else a ^^^ 0x80000000, 0))]

/-- R137: the float immediate-20 operations on d and F. -/
def floatImmRows : List ((INxt → SReg → BitVec 20 → Instr) × (Word → Word → Word × Flags)) := [
  (.fset, fun _ f => (f, 0)),
  (.faddImm, fun d f => f32Of (Val.add (f32Val d) (f32Val f) .rne) .rne),
  (.fmulImm, fun d f => f32Of (Val.mul (f32Val d) (f32Val f)) .rne),
  (.fmaxImm, fun d f => (f32MinMax false d f, 0))]

/-- Table 2.5: the integer immediate-20 operations on d and the 20-bit immediate. -/
def integerImmRows : List ((INxt → SReg → BitVec 20 → Instr) × (Double → BitVec 20 → Double)) := [
  (.iset, fun _ i => BitVec.ofInt 64 i.toInt),
  (.iadd, fun d i => BitVec.ofInt 64 (d.toInt + i.toInt)),
  (.iand, fun d i => d &&& BitVec.ofInt 64 i.toInt),
  (.ishi, fun d i => BitVec.ofNat 64 (d.toNat * 2 ^ 20 + i.toNat))]

/-- R138: the integer compares, whether a 32-bit b is zero-extended, and the relation. -/
def compareRows : List ((Nxt → PReg → SReg → OpB → Instr) × Bool × (Double → Double → Bool)) := [
  (.ceq, false, fun a b => decide (a = b)),
  (.cne, false, fun a b => decide (a ≠ b)),
  (.clt, false, fun a b => decide (a.toInt < b.toInt)),
  (.cle, false, fun a b => decide (a.toInt ≤ b.toInt)),
  (.cltU, true, fun a b => decide (a.toNat < b.toNat)),
  (.cleU, true, fun a b => decide (a.toNat ≤ b.toNat))]

/-- Table 5.7: the FP32 compares that write 0 on a NaN operand, the flag that a NaN sets, and the relation. -/
def floatCompareRows : List ((FNxt → PReg → SReg → OpB → Instr) × Flags × (Val → Val → Bool)) := [
  (.fceq, 0, Val.eq),
  (.fclt, Fl.iv, Val.lt),
  (.fcle, Fl.iv, fun x y => !Val.lt y x)]

/-- R140: the predicate instructions. -/
def predicateRows : List ((Nxt → GReg → PReg → PReg → PReg → Instr) × (Bool → Bool → Bool)) := [
  (.pand, fun a b => a && b),
  (.por, fun a b => a || b),
  (.pxor, fun a b => a != b),
  (.pandn, fun a b => a && !b)]

end Sys2Proof.Claims

open Sys2Proof Sys2Proof.Machine Sys2Proof.Claims

/-! ## Scalar arithmetic (chapter 05) -/

/-- R125, R126: an enabled two-source integer instruction writes its result to s[d], and takes its next address; it does nothing else. -/
def Obligations.IntegerResults : Prop :=
  ∀ e ∈ integerRows, ∀ (s : State) (u v : Machine.Unit) (n : Nxt) (d a : SReg) (b : OpB),
    Issuing s u (actOf n) → u.guard (opGuard b) = true →
    (u.setS d (e.2.2 (u.sreg a) (intB s u e.2.1 b))).next (opLen b) (actOf n) = some v →
    exec (e.1 n d a b) s = .next (left s s v)

/-- R125, R141: CLZ counts the zero bits above the highest one bit, POPC the one bits, and SEL chooses by its guard and always writes. -/
def Sys2Proof.Claims.CountAndSelectResults : Prop :=
  (∀ (s : State) (u v : Machine.Unit) (n : Nxt) (g : GReg) (d a : SReg) (z : Nat),
    Issuing s u (actOf n) → u.guard g = true →
    z ≤ 64 → (∀ i, 64 - z ≤ i → (u.sreg a).getLsbD i = false) → (z < 64 → (u.sreg a).getLsbD (63 - z) = true) →
    (u.setS d (BitVec.ofNat 64 z)).next 1 (actOf n) = some v → exec (.clz n g d a) s = .next (left s s v)) ∧
  (∀ (s : State) (u v : Machine.Unit) (n : Nxt) (g : GReg) (d a : SReg),
    Issuing s u (actOf n) → u.guard g = true →
    (u.setS d (BitVec.ofNat 64 ((List.range 64).countP fun i => (u.sreg a).getLsbD i))).next 1 (actOf n) = some v →
    exec (.popc n g d a) s = .next (left s s v)) ∧
  (∀ (s : State) (u v : Machine.Unit) (n : Nxt) (d a : SReg) (b : OpB),
    Issuing s u (actOf n) →
    (u.setS d (if u.guard (opGuard b) = true then u.sreg a else intB s u false b)).next (opLen b) (actOf n) = some v →
    exec (.sel n d a b) s = .next (left s s v))

/-- R127: BFX writes the field of w bits at lo, bit by bit, with copies of its top bit above it under sx; a control value with a bit
above 12, or a field that passes bit 63, is the operand-range trap. -/
def Sys2Proof.Claims.BitFieldExtract : Prop :=
  (∀ (s : State) (u v : Machine.Unit) (n : Nxt) (d a : SReg) (b : OpB) (x : Double),
    Issuing s u (actOf n) → u.guard (opGuard b) = true →
    (intB s u false b).toNat < 2 ^ 13 → bits (intB s u false b) 5 0 + (bits (intB s u false b) 11 6 + 1) ≤ 64 →
    (∀ i < 64, x.getLsbD i =
      if i < bits (intB s u false b) 11 6 + 1 then (u.sreg a).getLsbD (bits (intB s u false b) 5 0 + i)
      else bit (intB s u false b) 12 && (u.sreg a).getLsbD (bits (intB s u false b) 5 0 + bits (intB s u false b) 11 6)) →
    (u.setS d x).next (opLen b) (actOf n) = some v → exec (.bfx n d a b) s = .next (left s s v)) ∧
  (∀ (s : State) (u : Machine.Unit) (n : Nxt) (d a : SReg) (b : OpB),
    Issuing s u (actOf n) → u.guard (opGuard b) = true →
    (2 ^ 13 ≤ (intB s u false b).toNat ∨ 64 < bits (intB s u false b) 5 0 + (bits (intB s u false b) 11 6 + 1)) →
    exec (.bfx n d a b) s = .next (trapped s u 0x07 0 Acc.none))

/-- R128, R137: the immediate-20 operations read d and write d. -/
def Sys2Proof.Claims.ImmediateResults : Prop :=
  (∀ e ∈ integerImmRows, ∀ (s : State) (u v : Machine.Unit) (n : INxt) (d : SReg) (i : BitVec 20),
    Issuing s u (iactOf n) → (u.setS d (e.2 (u.sreg d) i)).next 1 (iactOf n) = some v →
    exec (e.1 n d i) s = .next (left s s v)) ∧
  (∀ e ∈ floatImmRows, ∀ (s : State) (u v : Machine.Unit) (n : INxt) (d : SReg) (i : BitVec 20),
    Issuing s u (iactOf n) →
    ((u.setS d ((e.2 ((u.sreg d).truncate 32) (i ++ 0#12)).1.zeroExtend 64)).addFlags (e.2 ((u.sreg d).truncate 32) (i ++ 0#12)).2).next 1 (iactOf n)
      = some v →
    exec (e.1 n d i) s = .next (left s s v))

/-- R121, R129 to R136: an enabled FP32 instruction writes its rounded result, zero-extended, to s[d], and ORs its flags into $flags. -/
def Obligations.FloatResults : Prop :=
  (∀ e ∈ floatRows, ∀ (s : State) (u v : Machine.Unit) (n : FNxt) (d a : SReg) (b : OpB) (x : Word) (fl : Flags),
    Issuing s u (factOf n) → u.guard (opGuard b) = true →
    e.2 ((u.sreg d).truncate 32) ((u.sreg a).truncate 32) (fpB s u b) (rndOf n) = (x, fl) →
    ((u.setS d (x.zeroExtend 64)).addFlags fl).next (opLen b) (factOf n) = some v →
    exec (e.1 n d a b) s = .next (left s s v)) ∧
  (∀ e ∈ floatRows1, ∀ (s : State) (u v : Machine.Unit) (n : FNxt) (g : GReg) (d a : SReg) (x : Word) (fl : Flags),
    Issuing s u (factOf n) → u.guard g = true → e.2 ((u.sreg a).truncate 32) (rndOf n) = (x, fl) →
    ((u.setS d (x.zeroExtend 64)).addFlags fl).next 1 (factOf n) = some v →
    exec (e.1 n g d a) s = .next (left s s v)) ∧
  (∀ (s : State) (u v : Machine.Unit) (n : FNxt) (g : GReg) (d a : SReg) (i : Int) (fl : Flags),
    Issuing s u (factOf n) → u.guard g = true →
    encodeInt (-(2 ^ 63)) (2 ^ 63 - 1) (f32Val ((u.sreg a).truncate 32)) (rndOf n) false 0 = (i, fl) →
    ((u.setS d (BitVec.ofInt 64 i)).addFlags fl).next 1 (factOf n) = some v →
    exec (.fcvtFi n g d a) s = .next (left s s v)) ∧
  (∀ (s : State) (u v : Machine.Unit) (n : FNxt) (g : GReg) (d a : SReg) (x : Word) (fl : Flags),
    Issuing s u (factOf n) → u.guard g = true → f32Round (Val.ofInt (u.sreg a).toInt) (rndOf n) = (x, fl) →
    ((u.setS d (x.zeroExtend 64)).addFlags fl).next 1 (factOf n) = some v →
    exec (.fcvtIf n g d a) s = .next (left s s v)) ∧
  (∀ (s : State) (u v : Machine.Unit) (n : FNxt) (g : GReg) (d a : SReg),
    Issuing s u (factOf n) → u.guard g = true →
    (u.setS d (BitVec.ofNat 64 (f32Class ((u.sreg a).truncate 32)))).next 1 (factOf n) = some v →
    exec (.fclass n g d a) s = .next (left s s v))

/-- R138 to R140: an enabled compare or predicate instruction writes p[d]; only an ordered FP32 compare of a NaN sets a flag. -/
def Obligations.CompareResults : Prop :=
  (∀ e ∈ compareRows, ∀ (s : State) (u v : Machine.Unit) (n : Nxt) (d : PReg) (a : SReg) (b : OpB),
    Issuing s u (actOf n) → u.guard (opGuard b) = true →
    (u.setP d (e.2.2 (u.sreg a) (intB s u e.2.1 b))).next (opLen b) (actOf n) = some v →
    exec (e.1 n d a b) s = .next (left s s v)) ∧
  (∀ e ∈ floatCompareRows, ∀ (s : State) (u v : Machine.Unit) (n : FNxt) (d : PReg) (a : SReg) (b : OpB) (x y : Val),
    Issuing s u (factOf n) → u.guard (opGuard b) = true →
    f32Val ((u.sreg a).truncate 32) = x → f32Val (fpB s u b) = y →
    (if x.isNan ∨ y.isNan then (u.setP d false).addFlags e.2.1 else u.setP d (e.2.2 x y)).next (opLen b) (factOf n) = some v →
    exec (e.1 n d a b) s = .next (left s s v)) ∧
  (∀ (s : State) (u v : Machine.Unit) (n : Nxt) (d : PReg) (a : SReg) (b : OpB),
    Issuing s u (actOf n) → u.guard (opGuard b) = true →
    (u.setP d ((f32Val ((u.sreg a).truncate 32)).isNan || (f32Val (fpB s u b)).isNan)).next (opLen b) (actOf n) = some v →
    exec (.fcun n d a b) s = .next (left s s v)) ∧
  (∀ e ∈ predicateRows, ∀ (s : State) (u v : Machine.Unit) (n : Nxt) (g : GReg) (d a b : PReg),
    Issuing s u (actOf n) → u.guard g = true → (u.setP d (e.2 (u.preg a) (u.preg b))).next 1 (actOf n) = some v →
    exec (e.1 n g d a b) s = .next (left s s v)) ∧
  (∀ (s : State) (u v : Machine.Unit) (n : Nxt) (g : GReg) (d : PReg) (a : SReg),
    Issuing s u (actOf n) → u.guard g = true → (u.setP d (decide (u.sreg a ≠ 0))).next 1 (actOf n) = some v →
    exec (.pset n g d a) s = .next (left s s v))

/-- R44: with its guard false, an instruction of classes T does nothing but take its next address. -/
def Obligations.GuardOffOnlyMovesOn : Prop :=
  (∀ e ∈ integerRows, ∀ (s : State) (u v : Machine.Unit) (n : Nxt) (d a : SReg) (b : OpB),
    Issuing s u (actOf n) → u.guard (opGuard b) = false → u.next (opLen b) (actOf n) = some v →
    exec (e.1 n d a b) s = .next (left s s v)) ∧
  (∀ e ∈ floatRows, ∀ (s : State) (u v : Machine.Unit) (n : FNxt) (d a : SReg) (b : OpB),
    Issuing s u (factOf n) → u.guard (opGuard b) = false → u.next (opLen b) (factOf n) = some v →
    exec (e.1 n d a b) s = .next (left s s v)) ∧
  (∀ e ∈ floatRows1, ∀ (s : State) (u v : Machine.Unit) (n : FNxt) (g : GReg) (d a : SReg),
    Issuing s u (factOf n) → u.guard g = false → u.next 1 (factOf n) = some v →
    exec (e.1 n g d a) s = .next (left s s v)) ∧
  (∀ e ∈ compareRows, ∀ (s : State) (u v : Machine.Unit) (n : Nxt) (d : PReg) (a : SReg) (b : OpB),
    Issuing s u (actOf n) → u.guard (opGuard b) = false → u.next (opLen b) (actOf n) = some v →
    exec (e.1 n d a b) s = .next (left s s v)) ∧
  (∀ e ∈ predicateRows, ∀ (s : State) (u v : Machine.Unit) (n : Nxt) (g : GReg) (d a b : PReg),
    Issuing s u (actOf n) → u.guard g = false → u.next 1 (actOf n) = some v →
    exec (e.1 n g d a b) s = .next (left s s v)) ∧
  (∀ e ∈ floatCompareRows, ∀ (s : State) (u v : Machine.Unit) (n : FNxt) (d : PReg) (a : SReg) (b : OpB),
    Issuing s u (factOf n) → u.guard (opGuard b) = false → u.next (opLen b) (factOf n) = some v →
    exec (e.1 n d a b) s = .next (left s s v)) ∧
  (∀ (s : State) (u v : Machine.Unit) (n : FNxt) (g : GReg) (d a : SReg),
    Issuing s u (factOf n) → u.guard g = false → u.next 1 (factOf n) = some v →
    ∀ i ∈ [Instr.fcvtFi n g d a, .fcvtIf n g d a, .fclass n g d a], exec i s = .next (left s s v)) ∧
  (∀ (s : State) (u v : Machine.Unit) (n : Nxt) (g : GReg) (d a : SReg) (pd : PReg),
    Issuing s u (actOf n) → u.guard g = false → u.next 1 (actOf n) = some v →
    ∀ i ∈ [Instr.clz n g d a, .popc n g d a, .pset n g pd a], exec i s = .next (left s s v)) ∧
  (∀ (s : State) (u v : Machine.Unit) (n : Nxt) (d a : SReg) (pd : PReg) (b : OpB),
    Issuing s u (actOf n) → u.guard (opGuard b) = false → u.next (opLen b) (actOf n) = some v →
    ∀ i ∈ [Instr.bfx n d a b, .fcun n pd a b], exec i s = .next (left s s v))

/-- Table 5.4, Table 5.5 and R132: the operand cases that need no rounding, on FP32 codes. -/
def Obligations.FloatOperandCases : Prop :=
  let nan := fun (x : Word) => 0x7F800000 < x.toNat % 2 ^ 31
  let inf := fun (x : Word) => x.toNat % 2 ^ 31 = 0x7F800000
  let zero := fun (x : Word) => x.toNat % 2 ^ 31 = 0
  let fin := fun (x : Word) => x.toNat % 2 ^ 31 < 0x7F800000
  let sg := fun (x : Word) => x.getLsbD 31
  ∀ (a b d : Word) (m : Rnd),
    (nan a ∨ nan b → f32Add a b m = (0x7FC00000, 0) ∧ f32Sub a b m = (0x7FC00000, 0) ∧ f32Mul a b m = (0x7FC00000, 0) ∧
      f32Div a b m = (0x7FC00000, 0)) ∧
    (inf a → inf b → sg a ≠ sg b → f32Add a b m = (0x7FC00000, Fl.iv)) ∧
    (inf a → fin b → f32Add a b m = (a, 0) ∧ f32Add b a m = (a, 0)) ∧
    (zero a → zero b → sg a = sg b → f32Add a b m = (a, 0)) ∧
    (zero a → zero b → sg a ≠ sg b → f32Add a b m = (if m = .rdn then 0x80000000 else 0, 0)) ∧
    (inf a → zero b → f32Mul a b m = (0x7FC00000, Fl.iv) ∧ f32Mul b a m = (0x7FC00000, Fl.iv)) ∧
    (zero a → fin b → f32Mul a b m = (if sg a ≠ sg b then 0x80000000 else 0, 0)) ∧
    (zero a → zero b → f32Div a b m = (0x7FC00000, Fl.iv)) ∧
    (inf a → inf b → f32Div a b m = (0x7FC00000, Fl.iv)) ∧
    (fin a → ¬ zero a → zero b → f32Div a b m = (if sg a ≠ sg b then 0xFF800000 else 0x7F800000, Fl.dz)) ∧
    (fin a → inf b → f32Div a b m = (if sg a ≠ sg b then 0x80000000 else 0, 0)) ∧
    (inf d → zero a → f32Fma d a b m = (0x7FC00000, Fl.iv)) ∧
    (zero a → f32Sqrt a m = (a, 0)) ∧
    (¬ zero a → ¬ nan a → sg a = true → f32Sqrt a m = (0x7FC00000, Fl.iv))

/-- R93, R94, R101: every code of every floating-point format that is no NaN, rounded back to its format, is itself with no flag, in every
mode and with or without saturation; an infinity saturates. -/
def Sys2Proof.Claims.EveryCodeRoundsToItself : Prop :=
  ∀ f ∈ [fp32, fp16, bf16, e4m3, e5m2, e2m3, e3m2, e2m1], ∀ (x : Nat) (m : Rnd) (sat : Bool) (r : Nat),
    x < 2 ^ f.width → (f.decode x).isNan = false →
    f.encode (f.decode x) m sat r =
      match f.decode x with
      | .inf s => if sat then (f.signBit s + f.large, Fl.of) else (x, 0)
      | .nan | .fin _ _ _ => (x, 0)

/-- R101: rounding of m × 2^e to a multiple of 2^q is to the nearest, ties to even, under RNE; to the nearest, ties away from zero, under
.rna; toward zero, down and up in their modes; and it reports whether anything was discarded. -/
def Sys2Proof.Claims.RoundingIsCorrect : Prop :=
  ∀ (sg : Bool) (m k : Nat) (e : Int) (r : Nat),
    let n := fun (mode : Rnd) => (quant sg m e (e + k) mode r).1
    2 * n .rne * 2 ^ k ≤ 2 * m + 2 ^ k ∧ 2 * m ≤ 2 * n .rne * 2 ^ k + 2 ^ k ∧
    (2 * n .rne * 2 ^ k = 2 * m + 2 ^ k ∨ 2 * m = 2 * n .rne * 2 ^ k + 2 ^ k → n .rne % 2 = 0 ∨ 2 ^ k = 1) ∧
    n .rtz * 2 ^ k ≤ m ∧ m < (n .rtz + 1) * 2 ^ k ∧
    2 * n .rna * 2 ^ k ≤ 2 * m + 2 ^ k ∧ 2 * m < 2 * n .rna * 2 ^ k + 2 ^ k ∧
    (sg = false → n .rdn = n .rtz) ∧ (sg = true → n .rup = n .rtz) ∧
    (sg = true → m ≤ n .rdn * 2 ^ k ∧ n .rdn * 2 ^ k < m + 2 ^ k) ∧
    (sg = false → m ≤ n .rup * 2 ^ k ∧ n .rup * 2 ^ k < m + 2 ^ k) ∧
    ∀ mode, (quant sg m e (e + k) mode r).2 = decide (m % 2 ^ k ≠ 0)

/-- CLZ, POPC, SEL (which always writes), BFX with its control read from b, and the immediate-20 operations ISET, IADD, IAND, ISHI, FSET, FADD, FMUL
and FMAX: exec answers the state with the result in s[d] and the unit moved on. BFX with a control bit above 12, or a field that passes bit 63, is the
operand-range trap. -/
def Obligations.FieldCountAndImmediateResults : Prop :=
  Claims.CountAndSelectResults ∧ Claims.BitFieldExtract ∧ Claims.ImmediateResults

/-- Every non-NaN code of every floating-point format, rounded back to its format, is itself with no flag (an infinity saturates where saturation is
asked). Rounding to a multiple of a power of two takes the nearest (ties to even, or away from zero), the one toward zero, the one not greater or the
one not less, by its mode, and reports whether anything was discarded. -/
def Obligations.RoundingResults : Prop :=
  Claims.EveryCodeRoundsToItself ∧ Claims.RoundingIsCorrect

namespace Sys2Proof.Claims
open Sys2Proof.Machine

/-- Register instructions that write one scalar register, with the register they write. -/
def KeepsAllBut (u w : Machine.Unit) : Prop :=
  w.r.b = u.r.b ∧ w.r.c = u.r.c ∧ w.r.vp = u.r.vp ∧ w.r.lfsrv = u.r.lfsrv ∧ w.r.lfsrd = u.r.lfsrd ∧ w.r.bfsel = u.r.bfsel ∧
  w.r.tvec = u.r.tvec ∧ w.r.tres = u.r.tres ∧ w.r.plain = u.r.plain ∧ w.cpl = u.cpl ∧ w.frame = u.frame ∧ w.mstat = u.mstat ∧
  w.sq = u.sq ∧ w.leases = u.leases ∧ w.ops = u.ops ∧ w.replay = u.replay

/-- Every other unit, every register outside the units and every byte of memory, read under any key, stays. -/
def OnlyIssuer (s t : State) (w : Machine.Unit) : Prop :=
  t = { s with units := t.units } ∧ t.units.get? s.cur.1 = some w ∧ (∀ k, k ≠ s.cur.1 → t.units.get? k = s.units.get? k) ∧
  ∀ key a, viewByte t key a = viewByte s key a

/-- An access of n bytes at `off` through `cp` passes checks 1 to 5 of R227, for an instruction that may access the levels `lv`. -/
def Permitted (s : State) (u : Machine.Unit) (cp : Cap) (need_ off n : Nat) (lv : List Nat) : Prop :=
  cp.tag = true ∧ cp.rights &&& need_ = need_ ∧ 65536 * cp.base ≤ off ∧ off + n ≤ 65536 * (cp.base + cp.len) ∧ off % n = 0 ∧
  ∃ l ∈ lv, levelOf s u.ctx cp.oid = some l

/-- The access is not held: no store to its page is parked (R220), the grove's byte budget is not spent (R325), and its
translation answers key `key` and address `pa`, leaving `s'` (R267, R273). -/
def Reached (s : State) (u : Machine.Unit) (oid off : Nat) (wr : Bool) (s' : State) (key pa : Nat) : Prop :=
  parkedOn s u oid off = false ∧ spent s (s.cur.1 / 16) = false ∧ translate s (s.cur.1 / 2) u.ctx oid off wr = (s', .phys key pa)

/-- A read of n bytes meets neither poison nor an armed detector (R389, R391). -/
def NoPoison (s : State) (pa n : Nat) : Prop := s.arms = [] ∧ ∀ i < n, s.poison.get? ((pa + i) / 64) = none

/-- No parked store holds an atomic back: with a release half none of the unit's, with an acquire half none of the control stream's (R214,
R215). -/
def NotHeld (u : Machine.Unit) (o : BitVec 2) : Prop :=
  (o.getLsbD 1 = true → u.replay = []) ∧ (o.getLsbD 0 = true → ∀ p ∈ u.replay, p.str ≠ .c)

/-- Table 9.2: the loads of a scalar register with their width and the extension of the value read. -/
def loadRows : List ((Nxt → SReg → CReg → AMode → Instr) × Nat × (Nat → Double)) := [
  (.ldb, 1, fun v => BitVec.ofInt 64 ((v : Int).bmod (2 ^ 8))), (.ldbz, 1, BitVec.ofNat 64),
  (.ldh, 2, fun v => BitVec.ofInt 64 ((v : Int).bmod (2 ^ 16))), (.ldhz, 2, BitVec.ofNat 64),
  (.ldw, 4, fun v => BitVec.ofInt 64 ((v : Int).bmod (2 ^ 32))), (.ldwz, 4, BitVec.ofNat 64),
  (.ldd, 8, BitVec.ofNat 64)]

/-- Table 9.2: the stores of a scalar register with their width. -/
def storeRows : List ((Nxt → SReg → CReg → AMode → Instr) × Nat) := [(.stb, 1), (.sth, 2), (.stw, 4), (.std, 8)]

/-- Table 9.3: the atomics of both widths w, with the value written, if any, from the old value, s[a] and s[d], each modulo 2^w. -/
def atomicRows : List ((Nxt → SReg → SReg → CReg → BitVec 2 → BitVec 2 → Bool → Instr) × (Nat → Nat → Nat → Nat → Option Nat)) := [
  (.aadd, fun w old v _ => some ((old + v) % 2 ^ w)),
  (.aand, fun _ old v _ => some (old &&& v)),
  (.aor, fun _ old v _ => some (old ||| v)),
  (.axor, fun _ old v _ => some (old ^^^ v)),
  (.amin, fun w old v _ => some (if (old : Int).bmod (2 ^ w) ≤ (v : Int).bmod (2 ^ w) then old else v)),
  (.amax, fun w old v _ => some (if (old : Int).bmod (2 ^ w) ≤ (v : Int).bmod (2 ^ w) then v else old)),
  (.aswap, fun _ _ v _ => some v),
  (.acas, fun _ old v e => if old = e then some v else none)]

/-- A granule at `pa` keeps every byte but the n at `pa`, read under `key`, and those are `v` with its least byte first (R9). -/
def Stores (s t : State) (key pa n v : Nat) : Prop :=
  (∀ i < n, viewByte t key (pa + i) = BitVec.ofNat 8 (v / 256 ^ i)) ∧
  (∀ a, a < pa ∨ pa + n ≤ a → viewByte t key a = viewByte s key a)

end Sys2Proof.Claims

/-! ## The register file, the next address and loops (chapters 02 and 11) -/

/-- R50, R140, R158: s0 reads 0, p0 reads 1 and vp0 all ones, and their writes are discarded; any other register reads back what was
written, and no other changes. -/
def Obligations.HardwiredRegisters : Prop :=
  ∀ (u : Machine.Unit),
    (u.sreg 0 = 0 ∧ ∀ v, u.setS 0 v = u) ∧ (u.preg 0 = true ∧ ∀ v, u.setP 0 v = u) ∧
    (u.vpreg 0 = BitVec.allOnes 256 ∧ ∀ v, u.setVp 0 v = u) ∧
    (∀ i v, i ≠ 0 → (u.setS i v).sreg i = v ∧ ∀ j, j ≠ i → (u.setS i v).sreg j = u.sreg j) ∧
    (∀ i v, i ≠ 0 → (u.setP i v).preg i = v ∧ ∀ j, j ≠ i → (u.setP i v).preg j = u.preg j) ∧
    (∀ i v, i ≠ 0 → (u.setVp i v).vpreg i = v ∧ ∀ j, j ≠ i → (u.setVp i v).vpreg j = u.vpreg j) ∧
    (∀ i v, (u.setC i v).creg i = v ∧ ∀ j, j ≠ i → (u.setC i v).creg j = u.creg j) ∧
    (∀ i v, (u.setB i v).breg i = v ∧ ∀ j, j ≠ i → (u.setB i v).breg j = u.breg j)

/-- Table 2.4, R284: where the next sequential word, a jump, a call and a return lead, and which of them trap. -/
def Sys2Proof.Claims.NextAddressActions : Prop :=
  ∀ (u : Machine.Unit) (len : Nat),
    u.next len .seq = some (u.setPc (u.r.pc + len)) ∧
    (∀ q, ((u.breg q).valid = false → u.next len (.jump q) = none ∧ u.next len (.call q) = none) ∧
      ((u.breg q).valid = true →
        u.next len (.jump q) = some (u.setPc (if xor (u.preg (u.breg q).pr) (u.breg q).sn then (u.breg q).target else u.r.pc + len)) ∧
        (u.r.ret.length < 16 → ∃ v, u.next len (.call q) = some v ∧ v.r.ret = (u.r.pc + len) % 2 ^ 24 :: u.r.ret ∧
          v.r.pc = (u.breg q).target % 2 ^ 24 ∧ v.r.s = u.r.s ∧ v.r.loops = u.r.loops) ∧
        (16 ≤ u.r.ret.length → u.next len (.call q) = none))) ∧
    (u.r.ret = [] → u.next len .ret = none) ∧
    (∀ a rest, u.r.ret = a :: rest → ∃ v, u.next len .ret = some v ∧ v.r.ret = rest ∧ v.r.pc = a % 2 ^ 24 ∧ v.r.s = u.r.s)

/-- R286, R287: LOOP abandons the levels at and below its own and activates it; a loop end counts the level, goes back to its start
while iterations are left, and abandons the levels below. -/
def Sys2Proof.Claims.LoopLevels : Prop :=
  (∀ (s : State) (u v : Machine.Unit) (n : Nxt) (lv : BitVec 2) (c : BitVec 12),
    Issuing s u (actOf n) → u.r.plain = false → lv ≠ 3 → (startLoop lv (c.toNat + 1) u).next 1 (actOf n) = some v →
    exec (.loop n lv c) s = .next (left s s v)) ∧
  (∀ (s : State) (u v : Machine.Unit) (n : Nxt) (lv : BitVec 2) (a : SReg),
    Issuing s u (actOf n) → u.r.plain = false → lv ≠ 3 → u.sreg a ≠ 0 → (u.sreg a).toNat ≤ 2 ^ 32 →
    (startLoop lv (u.sreg a).toNat u).next 1 (actOf n) = some v → exec (.loopRegister n lv a) s = .next (left s s v)) ∧
  (∀ (s : State) (u : Machine.Unit) (n : Nxt) (lv : BitVec 2) (a : SReg),
    Issuing s u (actOf n) → u.r.plain = false → (u.sreg a = 0 ∨ 2 ^ 32 < (u.sreg a).toNat) →
    exec (.loopRegister n lv a) s = .next (trapped s u 0x07 0 Acc.none)) ∧
  (∀ (u : Machine.Unit) (lv : BitVec 2) (c : Nat), lv ≠ 3 →
    (startLoop lv c u).level lv.toNat = { active := true, start := (u.r.pc + 1) % 2 ^ 24, count := c, iter := 0 } ∧
    (∀ l < lv.toNat, ((startLoop lv c u).level l).active = false) ∧
    (∀ l, lv.toNat < l → (startLoop lv c u).level l = u.level l) ∧ (startLoop lv c u).r.pc = u.r.pc) ∧
  (∀ (u : Machine.Unit) (len l : Nat), l < 3 →
    ((u.level l).active = false → u.next len (.endLoop l) = none) ∧
    ((u.level l).active = true → ∃ v, u.next len (.endLoop l) = some v ∧
      v.level l = { u.level l with iter := (u.level l).iter + 1, active := decide ((u.level l).iter + 1 < (u.level l).count) } ∧
      v.r.pc = (if (u.level l).iter + 1 < (u.level l).count then (u.level l).start else u.r.pc + len) % 2 ^ 24 ∧
      (∀ j < l, (v.level j).active = false) ∧ ∀ j, l < j → v.level j = u.level j) ∧
    ((u.level l).active = true → (∀ j < l, (u.level j).active = false) → u.next len .endInner = u.next len (.endLoop l)) ∧
    ((∀ j < 3, (u.level j).active = false) → u.next len .endInner = none) ∧
    (∀ (q : BReg) (v : Machine.Unit), ∀ n ∈ [NextAct.seq, .jump q, .call q, .ret], u.next len n = some v → v.r.loops = u.r.loops))

/-- R283, R285: PBR, in both forms, binds a target, predicate and sense within the control code area and traps outside it; that the area's limit
is the words in use (`areaWords`) is the model's reading (log 51). BRX transfers on its own predicate, in both modes, and traps on an invalid b
register. -/
def Sys2Proof.Claims.BranchTargets : Prop :=
  (∀ (s : State) (u v : Machine.Unit) (n : Nxt) (bt : BReg) (pr : PReg) (sn : Bool) (off : Word) (t : Nat),
    Issuing s u (actOf n) → (u.r.pc : Int) + off.toInt = t → t < areaWords s u →
    (u.setB bt { valid := true, target := t, pr := pr, sn := sn }).next 2 (actOf n) = some v →
    exec (.pbr n bt pr sn off) s = .next (left s s v)) ∧
  (∀ (s : State) (u v : Machine.Unit) (n : Nxt) (bt : BReg) (pr : PReg) (sn : Bool) (a : SReg),
    Issuing s u (actOf n) → (u.sreg a).toNat < areaWords s u →
    (u.setB bt { valid := true, target := (u.sreg a).toNat, pr := pr, sn := sn }).next 1 (actOf n) = some v →
    exec (.pbrRegister n bt pr sn a) s = .next (left s s v)) ∧
  (∀ (s : State) (u : Machine.Unit) (n : Nxt) (bt : BReg) (pr : PReg) (sn : Bool) (off : Word),
    Issuing s u (actOf n) → ((u.r.pc : Int) + off.toInt < 0 ∨ areaWords s u ≤ (u.r.pc : Int) + off.toInt) →
    exec (.pbr n bt pr sn off) s = .next (trapped s u 0x07 0 Acc.none)) ∧
  (∀ (s : State) (u : Machine.Unit) (n : Nxt) (bt : BReg) (pr : PReg) (sn : Bool) (a : SReg),
    Issuing s u (actOf n) → areaWords s u ≤ (u.sreg a).toNat →
    exec (.pbrRegister n bt pr sn a) s = .next (trapped s u 0x07 0 Acc.none)) ∧
  (∀ (s : State) (u : Machine.Unit) (bt : BReg) (pr : PReg) (sn : Bool), s.units.get? s.cur.1 = some u →
    exec (.brx bt pr sn) s =
      if (u.breg bt).valid then
        .next (left s s (u.setPc (if xor (u.preg pr) sn then (u.breg bt).target else u.r.pc + 1)))
      else .next (trapped s u 0x04 0 Acc.none))

/-- R44, R45: in plain mode any action but the next sequential word, and in either mode an action that its check refuses, is the
sequencing trap, and nothing of the word's own effect stands. -/
def Sys2Proof.Claims.SequencingTraps : Prop :=
  (∀ e ∈ integerRows, ∀ (s : State) (u : Machine.Unit) (n : Nxt) (d a : SReg) (b : OpB),
    s.units.get? s.cur.1 = some u → u.guard (opGuard b) = true →
    (u.r.plain = true ∧ actOf n ≠ .seq ∨
      u.r.plain = false ∧ (u.setS d (e.2.2 (u.sreg a) (intB s u e.2.1 b))).next (opLen b) (actOf n) = none) →
    exec (e.1 n d a b) s = .next (trapped s u 0x04 0 Acc.none)) ∧
  (∀ e ∈ compareRows, ∀ (s : State) (u : Machine.Unit) (n : Nxt) (d : PReg) (a : SReg) (b : OpB),
    s.units.get? s.cur.1 = some u → u.guard (opGuard b) = true →
    (u.r.plain = true ∧ actOf n ≠ .seq ∨
      u.r.plain = false ∧ (u.setP d (e.2.2 (u.sreg a) (intB s u e.2.1 b))).next (opLen b) (actOf n) = none) →
    exec (e.1 n d a b) s = .next (trapped s u 0x04 0 Acc.none)) ∧
  (∀ e ∈ floatRows, ∀ (s : State) (u : Machine.Unit) (n : FNxt) (d a : SReg) (b : OpB) (x : Word) (fl : Flags),
    s.units.get? s.cur.1 = some u → u.guard (opGuard b) = true →
    e.2 ((u.sreg d).truncate 32) ((u.sreg a).truncate 32) (fpB s u b) (rndOf n) = (x, fl) →
    (u.r.plain = true ∧ factOf n ≠ .seq ∨
      u.r.plain = false ∧ ((u.setS d (x.zeroExtend 64)).addFlags fl).next (opLen b) (factOf n) = none) →
    exec (e.1 n d a b) s = .next (trapped s u 0x04 0 Acc.none)) ∧
  (∀ e ∈ floatRows1, ∀ (s : State) (u : Machine.Unit) (n : FNxt) (g : GReg) (d a : SReg) (x : Word) (fl : Flags),
    s.units.get? s.cur.1 = some u → u.guard g = true → e.2 ((u.sreg a).truncate 32) (rndOf n) = (x, fl) →
    (u.r.plain = true ∧ factOf n ≠ .seq ∨ u.r.plain = false ∧ ((u.setS d (x.zeroExtend 64)).addFlags fl).next 1 (factOf n) = none) →
    exec (e.1 n g d a) s = .next (trapped s u 0x04 0 Acc.none)) ∧
  (∀ e ∈ floatCompareRows, ∀ (s : State) (u : Machine.Unit) (n : FNxt) (d : PReg) (a : SReg) (b : OpB) (x y : Val),
    s.units.get? s.cur.1 = some u → u.guard (opGuard b) = true →
    f32Val ((u.sreg a).truncate 32) = x → f32Val (fpB s u b) = y →
    (u.r.plain = true ∧ factOf n ≠ .seq ∨
      u.r.plain = false ∧
        (if x.isNan ∨ y.isNan then (u.setP d false).addFlags e.2.1 else u.setP d (e.2.2 x y)).next (opLen b) (factOf n) = none) →
    exec (e.1 n d a b) s = .next (trapped s u 0x04 0 Acc.none)) ∧
  (∀ (s : State) (u : Machine.Unit) (n : Nxt) (lv : BitVec 2) (c : BitVec 12) (a : SReg),
    s.units.get? s.cur.1 = some u → u.r.plain = true →
    exec (.loop n lv c) s = .next (trapped s u 0x04 0 Acc.none) ∧ exec (.loopRegister n lv a) s = .next (trapped s u 0x04 0 Acc.none)) ∧
  (∀ (s : State) (u : Machine.Unit) (n : Nxt) (lv : BitVec 2) (c : BitVec 12) (a : SReg),
    s.units.get? s.cur.1 = some u → u.r.plain = false → lv ≠ 3 →
    ((startLoop lv (c.toNat + 1) u).next 1 (actOf n) = none → exec (.loop n lv c) s = .next (trapped s u 0x04 0 Acc.none)) ∧
    (u.sreg a ≠ 0 → (u.sreg a).toNat ≤ 2 ^ 32 → (startLoop lv (u.sreg a).toNat u).next 1 (actOf n) = none →
      exec (.loopRegister n lv a) s = .next (trapped s u 0x04 0 Acc.none)))

/-- The frame of the instructions that write one scalar register or one predicate: every other register, every other unit and all of
memory stay. -/
def Obligations.RegisterWordFrame : Prop :=
  (∀ e ∈ integerRows, ∀ (s : State) (u v : Machine.Unit) (n : Nxt) (d a : SReg) (b : OpB),
    Issuing s u (actOf n) → u.guard (opGuard b) = true →
    (u.setS d (e.2.2 (u.sreg a) (intB s u e.2.1 b))).next (opLen b) (actOf n) = some v →
    ∃ t w, exec (e.1 n d a b) s = .next t ∧ OnlyIssuer s t w ∧ KeepsAllBut u w ∧ w.r.p = u.r.p ∧ w.r.flags = u.r.flags ∧
      ∀ i, i ≠ d → w.sreg i = u.sreg i) ∧
  (∀ e ∈ compareRows, ∀ (s : State) (u v : Machine.Unit) (n : Nxt) (d : PReg) (a : SReg) (b : OpB),
    Issuing s u (actOf n) → u.guard (opGuard b) = true →
    (u.setP d (e.2.2 (u.sreg a) (intB s u e.2.1 b))).next (opLen b) (actOf n) = some v →
    ∃ t w, exec (e.1 n d a b) s = .next t ∧ OnlyIssuer s t w ∧ KeepsAllBut u w ∧ w.r.s = u.r.s ∧ w.r.flags = u.r.flags ∧
      ∀ i, i ≠ d → w.preg i = u.preg i) ∧
  (∀ e ∈ floatRows, ∀ (s : State) (u v : Machine.Unit) (n : FNxt) (d a : SReg) (b : OpB) (x : Word) (fl : Flags),
    Issuing s u (factOf n) → u.guard (opGuard b) = true →
    e.2 ((u.sreg d).truncate 32) ((u.sreg a).truncate 32) (fpB s u b) (rndOf n) = (x, fl) →
    ((u.setS d (x.zeroExtend 64)).addFlags fl).next (opLen b) (factOf n) = some v →
    ∃ t w, exec (e.1 n d a b) s = .next t ∧ OnlyIssuer s t w ∧ KeepsAllBut u w ∧ w.r.p = u.r.p ∧ w.r.flags = orFlags u.r.flags fl ∧
      ∀ i, i ≠ d → w.sreg i = u.sreg i)

/-! ## Scalar memory (chapters 08 to 10) -/

/-- R227 to R230, Table 9.2: a permitted load that reaches memory writes the bytes it reads, least significant first, extended, and its
cursor increment. -/
def Obligations.LoadResults : Prop :=
  (∀ e ∈ loadRows, ∀ (s s' : State) (u v : Machine.Unit) (n : Nxt) (d : SReg) (c : CReg) (m : AMode) (off key pa : Nat),
    Issuing s u (actOf n) → modeOffset u (u.creg c) e.2.1 m = off → Permitted s u (u.creg c) rR off e.2.1 [0, 1] →
    Reached s u (u.creg c).oid off false s' key pa → NoPoison s' pa e.2.1 →
    ((u.setS d (e.2.2 (leNat (viewBytes s' key pa e.2.1)))).advance c (u.creg c).cursor e.2.1 m).next (modeLen m) (actOf n) = some v →
    exec (e.1 n d c m) s = .next (left s (touch (charge s' (s.cur.1 / 16) 1) (pa / 64)) v)) ∧
  (∀ (s s' : State) (u v : Machine.Unit) (n : Nxt) (d c : CReg) (m : AMode) (off key pa : Nat),
    Issuing s u (actOf n) → modeOffset u (u.creg c) 16 m = off → Permitted s u (u.creg c) rR off 16 [0, 1] →
    Reached s u (u.creg c).oid off false s' key pa → NoPoison s' pa 16 →
    ((u.setC d ⟨s'.tags.has (pa / 16), BitVec.ofNat 128 (leNat (viewBytes s' key pa 16))⟩).advance c (u.creg c).cursor 16 m).next
      (modeLen m) (actOf n) = some v →
    exec (.ldc n d c m) s = .next (left s (touch (charge s' (s.cur.1 / 16) 1) (pa / 64)) v))

/-- R227, R230, R231: a permitted store that reaches memory writes its bytes, least significant first, and no other byte; STC stores
the tag, any other store clears it. -/
def Sys2Proof.Claims.StoreResults : Prop :=
  (∀ e ∈ storeRows, ∀ (s s' : State) (u v : Machine.Unit) (n : Nxt) (d : SReg) (c : CReg) (m : AMode) (off key pa : Nat),
    Issuing s u (actOf n) → modeOffset u (u.creg c) e.2 m = off → Permitted s u (u.creg c) rW off e.2 [0, 1] →
    Reached s u (u.creg c).oid off true s' key pa → isSync s' pa = false → pa % e.2 = 0 → s'.sound →
    (u.advance c (u.creg c).cursor e.2 m).next (modeLen m) (actOf n) = some v →
    ∃ t x, exec (e.1 n d c m) s = .next (left s t { v with sig := x }) ∧ (isTwice s' u = false → x = u.sig) ∧
      Stores s' t key pa e.2 (u.sreg d).toNat ∧ t.tags.has (pa / 16) = false ∧
      ∀ g, g ≠ pa / 16 → t.tags.has g = s'.tags.has g) ∧
  (∀ (s s' : State) (u v : Machine.Unit) (n : Nxt) (d c : CReg) (m : AMode) (off key pa : Nat),
    Issuing s u (actOf n) → modeOffset u (u.creg c) 16 m = off →
    Permitted s u (u.creg c) (if (u.creg d).tag then rW + rC else rW) off 16 [0, 1] →
    Reached s u (u.creg c).oid off true s' key pa → isSync s' pa = false → pa % 16 = 0 → s'.sound →
    (u.advance c (u.creg c).cursor 16 m).next (modeLen m) (actOf n) = some v →
    ∃ t x, exec (.stc n d c m) s = .next (left s t { v with sig := x }) ∧ (isTwice s' u = false → x = u.sig) ∧ Stores s' t key pa 16 (u.creg d).v.toNat ∧
      t.tags.has (pa / 16) = (u.creg d).tag ∧ ∀ g, g ≠ pa / 16 → t.tags.has g = s'.tags.has g)

/-- R215, R232, R233: an atomic writes its new value and answers the old one, sign-extended from its width; one with a release half first
releases the sync object that binds its target, and waits for the parked stores before; one with an acquire half waits for the control
stream's parked stores. A compare that fails is no write for its translation. -/
def Sys2Proof.Claims.AtomicResults : Prop :=
  (∀ e ∈ atomicRows, ∀ (s s' s1 : State) (u v : Machine.Unit) (n : Nxt) (d a : SReg) (c : CReg) (o sc : BitVec 2) (w : Bool) (key pa : Nat),
    Issuing s u (actOf n) → NotHeld u o → isTwice s u = false →
    Permitted s u (u.creg c) rA (u.creg c).cursor (widthOf w / 8) [1] →
    Reached s u (u.creg c).oid (u.creg c).cursor (atomicWrites s s.cur.1 u (u.creg c) (u.creg c).cursor (widthOf w) fun old =>
      e.2 (widthOf w) old ((u.sreg a).toNat % 2 ^ widthOf w) ((u.sreg d).toNat % 2 ^ widthOf w)) s' key pa → isSync s' pa = false →
        pa % (widthOf w / 8) = 0 → s'.sound →
    (if o.getLsbD 1 = true then releaseBound s' u.ctx (u.creg c).oid (u.creg c).cursor else s') = s1 → NoPoison s1 pa (widthOf w / 8) →
    ({ u.setS d (BitVec.ofInt 64 ((leNat (viewBytes s1 key pa (widthOf w / 8)) : Int).bmod (2 ^ widthOf w))) with sealed := true }).next 1
      (actOf n) = some v →
    ∃ t, exec (e.1 n d a c o sc w) s = .next (left s t v) ∧
      match e.2 (widthOf w) (leNat (viewBytes s1 key pa (widthOf w / 8))) ((u.sreg a).toNat % 2 ^ widthOf w) ((u.sreg d).toNat % 2 ^ widthOf w) with
      | some x => Stores s1 t key pa (widthOf w / 8) x ∧ t.tags.has (pa / 16) = false ∧ ∀ g, g ≠ pa / 16 → t.tags.has g = s1.tags.has g
      | none => (∀ k b, viewByte t k b = viewByte s1 k b) ∧ t.tags = s1.tags) ∧
  (∀ (s s' s1 : State) (u v : Machine.Unit) (n : Nxt) (d a : SReg) (c : CReg) (o sc : BitVec 2) (key pa : Nat) (old x : Word) (fl : Flags),
    Issuing s u (actOf n) → NotHeld u o → isTwice s u = false →
    Permitted s u (u.creg c) rA (u.creg c).cursor 4 [1] →
    Reached s u (u.creg c).oid (u.creg c).cursor true s' key pa → isSync s' pa = false → pa % 4 = 0 → s'.sound →
    (if o.getLsbD 1 = true then releaseBound s' u.ctx (u.creg c).oid (u.creg c).cursor else s') = s1 → NoPoison s1 pa 4 →
    leNat (viewBytes s1 key pa 4) = old.toNat → f32Of (Val.add (f32Val old) (f32Val ((u.sreg a).truncate 32)) .rne) .rne = (x, fl) →
    ({ (u.setS d (old.signExtend 64)).addFlags fl with sealed := true }).next 1 (actOf n) = some v →
    ∃ t, exec (.afadd n d a c o sc) s = .next (left s t v) ∧ Stores s1 t key pa 4 x.toNat ∧ t.tags.has (pa / 16) = false ∧
      ∀ g, g ≠ pa / 16 → t.tags.has g = s1.tags.has g) ∧
  (∀ e ∈ atomicRows, ∀ (s : State) (u : Machine.Unit) (n : Nxt) (d a : SReg) (c : CReg) (o sc : BitVec 2) (w : Bool),
    Issuing s u (actOf n) → ¬ NotHeld u o → isTwice s u = false →
    Permitted s u (u.creg c) rA (u.creg c).cursor (widthOf w / 8) [1] →
    u.next 1 (actOf n) ≠ none → exec (e.1 n d a c o sc w) s = .next (waiting s s u .replay)) ∧
  (∀ (s : State) (u : Machine.Unit) (n : Nxt) (d a : SReg) (c : CReg) (o sc : BitVec 2),
    Issuing s u (actOf n) → ¬ NotHeld u o → isTwice s u = false → Permitted s u (u.creg c) rA (u.creg c).cursor 4 [1] →
    u.next 1 (actOf n) ≠ none → exec (.afadd n d a c o sc) s = .next (waiting s s u .replay)) ∧
  (∀ e ∈ atomicRows, ∀ (s : State) (u : Machine.Unit) (n : Nxt) (d a : SReg) (c : CReg) (o sc : BitVec 2) (w : Bool),
    Issuing s u (actOf n) → isTwice s u = true → exec (e.1 n d a c o sc w) s = .next (trapped s u 0x07 0 Acc.none) ∧
      exec (.afadd n d a c o sc) s = .next (trapped s u 0x07 0 Acc.none))

/-- The next sequential word, a jump on its bound predicate, a call and a return lead where Table 2.4 says; an invalid b register, an empty or full
return stack are the sequencing trap. In plain mode any other action, and in service mode an action whose check fails against the state as the word's
own effect would leave it, is the sequencing trap with nothing of the word's effect, for the two-source integer instructions, the integer and FP32
compares, the FP32 instructions and LOOP in both forms; in plain mode LOOP itself is that trap. -/
def Obligations.NextAddress : Prop :=
  Claims.NextAddressActions ∧ Claims.SequencingTraps

/-- LOOP, in both forms, abandons the levels at and below its own and makes its level active; a loop end abandons the levels below, counts its level,
and goes back while iterations are left; ending an inactive level is refused, as is an innermost end with none active; no transfer changes a level.
PBR, in both forms, writes its b register within the code area and is the operand-range trap beyond it (that the area ends with the words in use is
the model's reading, log 51). BRX transfers on its own predicate in both modes. -/
def Obligations.LoopsAndBranches : Prop :=
  Claims.LoopLevels ∧ Claims.BranchTargets

/-- STB, STH, STW, STD and STC in every addressing form, and AADD, AAND, AOR, AXOR, AMIN, AMAX, ASWAP, ACAS and AFADD: exec answers the state in which
the bytes at the translated address are the value's, least significant first, every other byte under the access's key reads as before, a store or an
atomic that writes clears the tag of its own 16-byte granule (STC writes its own) and changes no other's, and s[d] of an atomic is the old value,
sign-extended. An ACAS whose compare fails writes nothing and clears no tag; that it is translated as a read is the model's reading (log 70). An
atomic with a release half waits while the unit has parked stores, one with an acquire half while the control stream has; in a run-twice unit an
atomic traps (R340); an atomic that completes seals its phase (R385). -/
def Obligations.StoreAndAtomicResults : Prop :=
  Claims.StoreResults ∧ Claims.AtomicResults

namespace Sys2Proof.Claims
open Sys2Proof.Machine

/-- The first of the checks of R227 that an access fails, in their order: tag, rights, window, alignment, level; with the cause code and
its KIND. -/
def Refused (s : State) (u : Machine.Unit) (cp : Cap) (need_ off n : Nat) (lv : List Nat) (code kind : Nat) : Prop :=
  let tag := cp.tag = true
  let rights := cp.rights &&& need_ = need_
  let window := 65536 * cp.base ≤ off ∧ off + n ≤ 65536 * (cp.base + cp.len)
  (¬ tag ∧ code = 0x0A ∧ kind = 1) ∨ (tag ∧ ¬ rights ∧ code = 0x0A ∧ kind = 2) ∨
  (tag ∧ rights ∧ ¬ window ∧ code = 0x0A ∧ kind = 3) ∨ (tag ∧ rights ∧ window ∧ off % n ≠ 0 ∧ code = 0x0B ∧ kind = 0) ∨
  (tag ∧ rights ∧ window ∧ off % n = 0 ∧ (∃ l, levelOf s u.ctx cp.oid = some l ∧ l ∉ lv) ∧ code = 0x0C ∧ kind = 0)

/-- The translation of an access that nothing holds answers the fault KIND. -/
def Faulted (s : State) (u : Machine.Unit) (oid off : Nat) (wr : Bool) (s' : State) (kind : Nat) : Prop :=
  parkedOn s u oid off = false ∧ spent s (s.cur.1 / 16) = false ∧ translate s (s.cur.1 / 2) u.ctx oid off wr = (s', .fault kind)

/-- The fields of a capability (Table 10.1). -/
def Fields (c : Cap) (tag : Bool) (oid rights base len cursor : Nat) : Prop :=
  c.tag = tag ∧ c.oid = oid ∧ c.rights = rights ∧ c.base = base ∧ c.len = len ∧ c.cursor = cursor

/-- `b` gives no more than `a`: its object, no right that `a` lacks, and no byte outside the window of `a`. -/
def NoWider (a b : Cap) : Prop :=
  b.tag = true → a.tag = true ∧ b.oid = a.oid ∧ b.rights &&& a.rights = b.rights ∧ a.base ≤ b.base ∧ b.base + b.len ≤ a.base + a.len

/-- The instructions of Table 10.3. -/
def capabilityWords (n : Nxt) (x ca : CReg) (a : SReg) (sx : SReg) (px : PReg) (f : BitVec 4) : List Instr :=
  [.cmov n x ca, .cinc n x ca a, .cset n x ca a, .cnarrow n x ca a f, .cdrop n x ca a f, .cget n sx ca f, .ctst n px ca a f]

end Sys2Proof.Claims

/-! ## Checks of an access, translation and ordering (chapters 08 to 10) -/

/-- R227: a load, a store and an atomic trap at the first check that their access fails, and do nothing else. -/
def Sys2Proof.Claims.AccessChecks : Prop :=
  (∀ e ∈ loadRows, ∀ (s : State) (u : Machine.Unit) (n : Nxt) (d : SReg) (c : CReg) (m : AMode) (code kind : Nat),
    Issuing s u (actOf n) → Refused s u (u.creg c) rR (modeOffset u (u.creg c) e.2.1 m) e.2.1 [0, 1] code kind →
    exec (e.1 n d c m) s = .next (trapped s u code kind (accOf s u (u.creg c) (modeOffset u (u.creg c) e.2.1 m) false))) ∧
  (∀ e ∈ storeRows, ∀ (s : State) (u : Machine.Unit) (n : Nxt) (d : SReg) (c : CReg) (m : AMode) (code kind : Nat),
    Issuing s u (actOf n) → Refused s u (u.creg c) rW (modeOffset u (u.creg c) e.2 m) e.2 [0, 1] code kind →
    exec (e.1 n d c m) s = .next (trapped s u code kind (accOf s u (u.creg c) (modeOffset u (u.creg c) e.2 m) true))) ∧
  (∀ e ∈ atomicRows, ∀ (s : State) (u : Machine.Unit) (n : Nxt) (d a : SReg) (c : CReg) (o sc : BitVec 2) (w : Bool) (code kind : Nat),
    Issuing s u (actOf n) → isTwice s u = false →
    Refused s u (u.creg c) rA (u.creg c).cursor (widthOf w / 8) [1] code kind →
    exec (e.1 n d a c o sc w) s = .next (trapped s u code kind (accOf s u (u.creg c) (u.creg c).cursor true)))

/-- R220, R228, R267: a load whose translation faults raises the translation fault and writes nothing; a store is parked, its thread goes
on, and the fault is raised beside it. -/
def Sys2Proof.Claims.TranslationFaults : Prop :=
  (∀ e ∈ loadRows, ∀ (s s' : State) (u : Machine.Unit) (n : Nxt) (d : SReg) (c : CReg) (m : AMode) (off kind : Nat),
    Issuing s u (actOf n) → modeOffset u (u.creg c) e.2.1 m = off → Permitted s u (u.creg c) rR off e.2.1 [0, 1] →
    Faulted s u (u.creg c).oid off false s' kind → u.next (modeLen m) (actOf n) ≠ none →
    exec (e.1 n d c m) s = .next (raise s' s.cur.1 (causeC u 0x20 kind (accOf s u (u.creg c) off false)))) ∧
  (∀ e ∈ storeRows, ∀ (s s' : State) (u v : Machine.Unit) (n : Nxt) (d : SReg) (c : CReg) (m : AMode) (off kind : Nat),
    Issuing s u (actOf n) → modeOffset u (u.creg c) e.2 m = off → Permitted s u (u.creg c) rW off e.2 [0, 1] →
    Faulted s u (u.creg c).oid off true s' kind → u.replay.length < 32 →
    (({ u with replay := u.replay ++ [{ str := .c, num := 0, cap := u.creg c, page := pageNo s u.ctx (u.creg c).oid off, pc := u.r.pc,
                                        writes := bytesAt off (leBytes e.2 (u.sreg d).toNat), stc := none }] } : Machine.Unit).advance c
      (u.creg c).cursor e.2 m).next (modeLen m) (actOf n) = some v →
    exec (e.1 n d c m) s =
      .next (raise (left s s' v) s.cur.1 (causeC u 0x20 kind (accOf s u (u.creg c) off true))))

/-- R267: a walk's faults in their order of checks, up to the page tables; of the control plane's walks, and of a hearth's where no store is open
to it as it was before (R272). -/
def Sys2Proof.Claims.WalkFaults : Prop :=
  ∀ (s : State) (h : Option Nat) (ctx oid off : Nat), (h = none ∨ s.older = []) →
    (objAt s ctx oid = none → (walkOf h s ctx oid off).2 = .fault 1) ∧
    ∀ e, objAt s ctx oid = some e →
      (e.st = 0 ∨ e.st = 3 → (walkOf h s ctx oid off).2 = .fault 2) ∧ (e.st = 2 → (walkOf h s ctx oid off).2 = .stall) ∧
      (e.st = 1 → e.size ≤ off → (walkOf h s ctx oid off).2 = .fault 3) ∧
      (e.st = 1 → off < e.size → e.bad = true → (walkOf h s ctx oid off).2 = .fault 6) ∧
      (e.st = 1 → off < e.size → e.bad = false → e.lvl = 2 → (walkOf h s ctx oid off).2 = .pantry e) ∧
      (e.st = 1 → off < e.size → e.bad = false → e.lvl ≠ 2 → assigned e.root = true →
        rd8 s (e.root + 8 * (off / 2 ^ pageShift e.psc / 2048)) % 2 = 0 → (walkOf h s ctx oid off).2 = .fault 4)

/-- R272, R275: a walker reads a word as it is, or as a store that no TFENCE.W has closed to it found it, and reads no older value after; what it
reads of a word changes nothing but this. After a unit's TFENCE.W at module scope no walker reads what the unit's stores found. That these stores
are those of privileged units is the model's reading (log 94). -/
def Sys2Proof.Claims.WalkerReads : Prop :=
  (∀ (s : State) (h a : Nat),
    (∃ n l, (walkerRead s (some h) a).1 = { s with free := n, older := l } ∧ (∀ b, b ≠ a → oldAt { s with older := l } h b = oldAt s h b) ∧
      oldAt { s with older := l } h a <:+ oldAt s h a ∧
      (oldAt { s with older := l } h a = [] ∧ (walkerRead s (some h) a).2 = rd8 s a ∨
        ∃ o r, oldAt { s with older := l } h a = o :: r ∧ (walkerRead s (some h) a).2 = o.val)) ∧
    ((∀ o ∈ s.older, o.addr ≠ a ∨ o.hearths.getLsbD h = false) → walkerRead s (some h) a = (s, rd8 s a)) ∧
    walkerRead s none a = (s, rd8 s a)) ∧
  (∀ (s : State) (who : Nat × Nat × Nat) (h sc : Nat),
    (2 ≤ sc → ∀ o ∈ (fenceWalks s who h sc).older, o.who ≠ who) ∧
    (∀ o ∈ (fenceWalks s who h sc).older, o.who = who → o.hearths &&& scopeHearths h sc = 0) ∧
    ((∀ o ∈ s.older, o.who ≠ who) → fenceWalks s who h sc = s) ∧ (fenceWalks s who h sc).mem = s.mem)

/-- R270, R273: a page whose walk has set what the access needs is served again from the TLB, at the same address. -/
def Sys2Proof.Claims.TlbServesAgain : Prop :=
  ∀ (s s' : State) (h ctx oid off key pa : Nat) (wr : Bool),
    (Tab.getD [] s.tlb1 h).find? (tlbHit ctx oid off) = none → (Tab.getD [] s.tlb2 (h / 8)).find? (tlbHit ctx oid off) = none →
    translate s h ctx oid off wr = (s', .phys key pa) →
    translate s' h ctx oid off wr = (s', .phys key pa)

/-- R214, R235, R237 to R239: ACQ, REL, FENCE, TLWAIT and MWAIT on what they find. -/
def Sys2Proof.Claims.SynchronisationResults : Prop :=
  (∀ (s s' : State) (u v : Machine.Unit) (n : Nxt) (c : CReg) (sc : BitVec 2) (key pa : Nat),
    Issuing s u (actOf n) → (∀ p ∈ u.replay, p.str ≠ .c) → Permitted s u (u.creg c) rA (u.creg c).cursor 64 [1] →
    Reached s u (u.creg c).oid (u.creg c).cursor false s' key pa → liveSync s' pa = true → u.next 1 (actOf n) = some v →
    exec (.acq n c sc) s = .next (left s (touch (charge s' (s.cur.1 / 16) 1) (pa / 64)) v)) ∧
  (∀ (s : State) (u : Machine.Unit) (n : Nxt) (c : CReg) (sc : BitVec 2),
    Issuing s u (actOf n) → (∃ p ∈ u.replay, p.str = .c) → u.next 1 (actOf n) ≠ none → exec (.acq n c sc) s = .next (waiting s s u .replay)) ∧
  (∀ (s s' : State) (u v : Machine.Unit) (n : Nxt) (c : CReg) (sc : BitVec 2) (key pa : Nat),
    Issuing s u (actOf n) → u.replay = [] → Permitted s u (u.creg c) rA (u.creg c).cursor 64 [1] →
    Reached s u (u.creg c).oid (u.creg c).cursor true s' key pa → liveSync s' pa = true → s'.sound → u.next 1 (actOf n) = some v →
    ∃ t, exec (.rel n c sc) s = .next (left s t v) ∧ Stores s' t 0 (pa / 64 * 64) 8 (syncRseq s' pa + 1)) ∧
  (∀ (s : State) (u v : Machine.Unit) (n : Nxt) (sc : BitVec 2),
    Issuing s u (actOf n) → u.replay = [] → u.next 1 (actOf n) = some v → exec (.fence n sc) s = .next (left s s v)) ∧
  (∀ (s : State) (u : Machine.Unit) (n : Nxt) (sc : BitVec 2) (c : CReg),
    Issuing s u (actOf n) → u.replay ≠ [] → u.next 1 (actOf n) ≠ none → exec (.fence n sc) s = .next (waiting s s u .replay) ∧
      exec (.rel n c sc) s = .next (waiting s s u .replay)) ∧
  (∀ (s : State) (u v : Machine.Unit) (n : Nxt) (d : SReg) (str : BitVec 5) (t : Stream),
    Issuing s u (actOf n) → streamOf str.toNat = some t → (u.sreg d).toNat ≤ u.done t → u.next 1 (actOf n) = some v →
    exec (.tlwait n d str) s = .next (left s s v)) ∧
  (∀ (s : State) (u : Machine.Unit) (n : Nxt) (d : SReg) (str : BitVec 5) (t : Stream),
    Issuing s u (actOf n) → streamOf str.toNat = some t → u.done t < (u.sreg d).toNat →
    u.next 1 (actOf n) ≠ none → exec (.tlwait n d str) s = .next (waiting s s u .timeline)) ∧
  (∀ (s s' : State) (u v : Machine.Unit) (n : Nxt) (d a : SReg) (c : CReg) (key pa : Nat),
    Issuing s u (actOf n) → Permitted s u (u.creg c) rR (u.creg c).cursor 8 [0, 1] →
    Reached s u (u.creg c).oid (u.creg c).cursor false s' key pa → NoPoison s' pa 8 →
    (u.sreg a).toNat ≤ leNat (viewBytes s' key pa 8) →
    (u.setS d (BitVec.ofNat 64 (leNat (viewBytes s' key pa 8)))).next 1 (actOf n) = some v →
    exec (.mwait n d a c) s = .next (left s (touch (charge s' (s.cur.1 / 16) 1) (pa / 64)) v)) ∧
  (∀ (s s' : State) (u : Machine.Unit) (n : Nxt) (d a : SReg) (c : CReg) (key pa : Nat),
    Issuing s u (actOf n) → Permitted s u (u.creg c) rR (u.creg c).cursor 8 [0, 1] →
    Reached s u (u.creg c).oid (u.creg c).cursor false s' key pa → NoPoison s' pa 8 →
    leNat (viewBytes s' key pa 8) < (u.sreg a).toNat →
    u.next 1 (actOf n) ≠ none → exec (.mwait n d a c) s = .next (waiting s (touch (charge s' (s.cur.1 / 16) 1) (pa / 64)) u .mwait))

/-- R213, R236: BIND of a range of granules: each of them ends bound to the new sync object, and no other binding changes. -/
def Sys2Proof.Claims.BindResults : Prop :=
  ∀ (s s' : State) (u v : Machine.Unit) (n : Nxt) (m c : CReg) (a : SReg) (sc : BitVec 2) (key pa len : Nat) (e : ObjE) (r : CtxRec),
    Issuing s u (actOf n) → (u.sreg a).toNat = len → (u.creg c).cursor % 65536 = 0 → len % 65536 = 0 → 65536 ≤ len →
    (u.creg c).check rW (u.creg c).cursor ((u.creg c).cursor + len) = none → isCodeArea s u.ctx (u.creg c).oid = false → u.replay = [] →
    Permitted s u (u.creg m) rA (u.creg m).cursor 64 [1] →
    Reached s u (u.creg m).oid (u.creg m).cursor true s' key pa → liveSync s' pa = true → syncCtx s' pa = u.ctx →
    objMem s' u.ctx (u.creg c).oid = some e → e.st = 1 → s'.sound → ctxRec? s' u.ctx = some r → r.body.otbase % 64 = 0 →
    s'.syncs.has (r.body.otbase / 64 + (u.creg c).oid) = false → u.next 1 (actOf n) = some v →
    ∃ t, exec (.bind n m a c sc) s = .next (left s t v) ∧
      (∀ g, (u.creg c).cursor / 65536 ≤ g → g < ((u.creg c).cursor + len) / 65536 →
        syncOf t u.ctx (u.creg c).oid g = some (pa / 64 * 64)) ∧
      (∀ ctx oid g, ¬ (ctx = u.ctx ∧ oid = (u.creg c).oid ∧ (u.creg c).cursor / 65536 ≤ g ∧ g < ((u.creg c).cursor + len) / 65536) →
        t.binds.find? (fun b => b.ctx = ctx && b.oid = oid && b.gran = g) = s'.binds.find? (fun b => b.ctx = ctx && b.oid = oid && b.gran = g))

/-- R240, R274, R298: HALT begins its bundle and waits; IFSYNC with no stream at work discards the loop buffer; TFENCE.W waits as FENCE. -/
def Sys2Proof.Claims.WaitWords : Prop :=
  (∀ (s : State) (u : Machine.Unit), s.units.get? s.cur.1 = some u →
    exec .halt s = .next (waiting s s { u with halting := true } .drain)) ∧
  (∀ (s : State) (u v : Machine.Unit) (n : Nxt),
    Issuing s u (actOf n) → (∀ t ∈ engineStreams, u.streamBusy t = false) →
    ({ u with body := none, capts := [] } : Machine.Unit).next 1 (actOf n) = some v → exec (.ifsync n) s = .next (left s s v)) ∧
  (∀ (s : State) (u : Machine.Unit) (n : Nxt),
    Issuing s u (actOf n) → (∃ t ∈ engineStreams, u.streamBusy t = true) → u.next 1 (actOf n) ≠ none →
    exec (.ifsync n) s = .next (waiting s s u .strands)) ∧
  (∀ (s : State) (u v : Machine.Unit) (n : Nxt) (sc : BitVec 2),
    Issuing s u (actOf n) → privileged s u = true → u.replay = [] → u.next 1 (actOf n) = some v →
    exec (.tfenceW n sc) s = .next (left s (fenceWalks s u.who (hearthOf s.cur.1) sc.toNat) v)) ∧
  (∀ (s : State) (u : Machine.Unit) (n : Nxt) (sc : BitVec 2),
    Issuing s u (actOf n) → privileged s u = true → u.replay ≠ [] → u.next 1 (actOf n) ≠ none →
    exec (.tfenceW n sc) s = .next (waiting s s u .replay))

/-! ## Capabilities (chapter 10) -/

/-- Table 10.3, R260 to R263: the capability instructions, by the fields of their result. -/
def Sys2Proof.Claims.CapabilityResults : Prop :=
  (∀ (s : State) (u v : Machine.Unit) (n : Nxt) (x ca : CReg),
    Issuing s u (actOf n) → (u.setC x (u.creg ca)).next 1 (actOf n) = some v → exec (.cmov n x ca) s = .next (left s s v)) ∧
  (∀ (s : State) (u v : Machine.Unit) (n : Nxt) (x ca : CReg) (a : SReg) (c w : Cap),
    Issuing s u (actOf n) → u.creg ca = c →
    Fields w c.tag c.oid c.rights c.base c.len ((c.cursor + (u.sreg a).toNat) % 2 ^ 48) →
    (u.setC x w).next 1 (actOf n) = some v → exec (.cinc n x ca a) s = .next (left s s v)) ∧
  (∀ (s : State) (u v : Machine.Unit) (n : Nxt) (x ca : CReg) (a : SReg) (c w : Cap),
    Issuing s u (actOf n) → u.creg ca = c → Fields w c.tag c.oid c.rights c.base c.len ((u.sreg a).toNat % 2 ^ 48) →
    (u.setC x w).next 1 (actOf n) = some v → exec (.cset n x ca a) s = .next (left s s v)) ∧
  (∀ (s : State) (u v : Machine.Unit) (n : Nxt) (x ca : CReg) (a : SReg) (c w : Cap) (f : BitVec 4) (nb nl : Nat),
    Issuing s u (actOf n) → u.creg ca = c →
    (f = 0 ∧ (u.sreg a).toNat < 2 ^ 48 ∧ nb = (u.sreg a).toNat % 2 ^ 24 ∧ nl = (u.sreg a).toNat / 2 ^ 24 ∨
      f = 1 ∧ (u.sreg a).toNat < 2 ^ 24 ∧ nb = c.cursor / 65536 ∧ nl = (u.sreg a).toNat) →
    (c.tag = true → c.rights &&& rD = rD ∧ nl ≠ 0 ∧ c.base ≤ nb ∧ nb + nl ≤ c.base + c.len) →
    Fields w c.tag c.oid c.rights (nb % 2 ^ 24) nl c.cursor →
    (u.setC x w).next 1 (actOf n) = some v → exec (.cnarrow n x ca a f) s = .next (left s s v)) ∧
  (∀ (s : State) (u v : Machine.Unit) (n : Nxt) (x ca : CReg) (a : SReg) (c w : Cap) (f : BitVec 4),
    Issuing s u (actOf n) → u.creg ca = c → (u.sreg a).toNat < 2 ^ 7 →
    Fields w c.tag c.oid (c.rights &&& (255 - (f.toNat ||| (u.sreg a).toNat))) c.base c.len c.cursor →
    (u.setC x w).next 1 (actOf n) = some v → exec (.cdrop n x ca a f) s = .next (left s s v)) ∧
  (∀ (s : State) (u v : Machine.Unit) (n : Nxt) (x : SReg) (ca : CReg) (c : Cap) (f : BitVec 4) (y : Nat),
    Issuing s u (actOf n) → u.creg ca = c →
    [c.oid, c.rights, c.base, c.len, c.cursor, c.tag.toNat, 65536 * c.base, 65536 * (c.base + c.len), c.v.toNat % 2 ^ 64,
      c.v.toNat / 2 ^ 64][f.toNat]? = some y →
    (u.setS x (BitVec.ofNat 64 y)).next 1 (actOf n) = some v → exec (.cget n x ca f) s = .next (left s s v)) ∧
  (∀ (s : State) (u v : Machine.Unit) (n : Nxt) (x : PReg) (ca : CReg) (a : SReg) (c : Cap) (f : BitVec 4) (y : Bool),
    Issuing s u (actOf n) → u.creg ca = c →
    [c.tag, c.tag && decide (c.rights &&& ((u.sreg a).toNat % 256) = (u.sreg a).toNat % 256),
      c.tag && decide (1 ≤ (u.sreg a).toNat ∧ 65536 * c.base ≤ c.cursor ∧ c.cursor + (u.sreg a).toNat ≤ 65536 * (c.base + c.len))][f.toNat]?
      = some y →
    (u.setP x y).next 1 (actOf n) = some v → exec (.ctst n x ca a f) s = .next (left s s v))

/-- R261, R262: what CNARROW and CDROP refuse, in their order, with nothing written. -/
def Sys2Proof.Claims.CapabilityTraps : Prop :=
  (∀ (s : State) (u : Machine.Unit) (n : Nxt) (x ca : CReg) (a : SReg) (f : BitVec 4),
    Issuing s u (actOf n) → (f = 0 ∧ 2 ^ 48 ≤ (u.sreg a).toNat ∨ f = 1 ∧ 2 ^ 24 ≤ (u.sreg a).toNat) →
    exec (.cnarrow n x ca a f) s = .next (trapped s u 0x07 0 Acc.none)) ∧
  (∀ (s : State) (u : Machine.Unit) (n : Nxt) (x ca : CReg) (a : SReg) (c : Cap) (f : BitVec 4) (nb nl : Nat),
    Issuing s u (actOf n) → u.creg ca = c → c.tag = true →
    (f = 0 ∧ (u.sreg a).toNat < 2 ^ 48 ∧ nb = (u.sreg a).toNat % 2 ^ 24 ∧ nl = (u.sreg a).toNat / 2 ^ 24 ∨
      f = 1 ∧ (u.sreg a).toNat < 2 ^ 24 ∧ nb = c.cursor / 65536 ∧ nl = (u.sreg a).toNat) →
    (c.rights &&& rD ≠ rD → exec (.cnarrow n x ca a f) s = .next (trapped s u 0x0A 2 ⟨c.oid, 0, false, false⟩)) ∧
    (c.rights &&& rD = rD → nl = 0 ∨ nb < c.base ∨ c.base + c.len < nb + nl →
      exec (.cnarrow n x ca a f) s = .next (trapped s u 0x0A 3 ⟨c.oid, 0, false, false⟩))) ∧
  (∀ (s : State) (u : Machine.Unit) (n : Nxt) (x ca : CReg) (a : SReg) (f : BitVec 4),
    Issuing s u (actOf n) → 2 ^ 7 ≤ (u.sreg a).toNat → exec (.cdrop n x ca a f) s = .next (trapped s u 0x07 0 Acc.none))

/-- No capability instruction sets a right or moves a window boundary outward: a capability register that one leaves tagged gives no more
than some register gave before it. -/
def Obligations.NoCapabilityGrows : Prop :=
  ∀ (n : Nxt) (x ca : CReg) (a sx : SReg) (px : PReg) (f : BitVec 4), ∀ i ∈ capabilityWords n x ca a sx px f,
    ∀ (s t : State) (u w : Machine.Unit), s.units.get? s.cur.1 = some u → exec i s = .next t → t.units.get? s.cur.1 = some w →
    ∀ j, ∃ k, NoWider (u.creg k) (w.creg j)

/-- A load, a store or an atomic whose tag, rights, window, alignment or level check fails raises that check's cause, the first in order, with nothing
done. A load whose translation faults raises the translation fault and writes nothing; a store is parked, its thread goes on, and the fault is raised
beside it. -/
def Obligations.AccessChecksAndFaults : Prop :=
  Claims.AccessChecks ∧ Claims.TranslationFaults

/-- The walk of an object offset answers the faults of R267 in the order of its checks, a stall for an object in migration, and a partition offset for
a Pantry object. A translation that walked and answered an address answers the same address from the TLB, with nothing more set. A walker reads a word
as it is, or as a privileged unit's store found it, and never an older value after a newer one; a TFENCE.W of that unit closes the older values to the
walkers in its scope (log 94 says whose stores are read late). -/
def Obligations.Translation : Prop :=
  Claims.WalkFaults ∧ Claims.TlbServesAgain ∧ Claims.WalkerReads

/-- ACQ and REL on a live sync object complete, REL counting the release in RSEQ; ACQ waits while a store of the control stream is parked, FENCE and
REL while any store is; TLWAIT completes when the timeline has come to s[d] and waits otherwise; MWAIT completes with the value it reads when it is at
least s[a] and waits otherwise; IFSYNC waits for the engine streams and then discards the loop buffer; TFENCE.W completes in a privileged context with
no parked store, its stores then closed to the walkers of its scope (log 94), and waits with one; HALT begins its bundle. BIND whose checks pass binds
each granule of its range to the sync object of c[m], and every other granule of every object stays bound as before. -/
def Obligations.SynchronisationAndWaits : Prop :=
  Claims.SynchronisationResults ∧ Claims.WaitWords ∧ Claims.BindResults

/-- The capability instructions answer the state with the fields of Table 10.3 in c[x], s[x] or p[x]. CNARROW computes its window in both modes, with
its checks on a tagged capability: an operand with bits out of range is the operand-range trap, a missing right D and a window not inside the old are
the capability fault; that its KIND is 2 or 3, with the access that it records, is the model's reading (log 51). CDROP with an operand above bit 6 is
the operand-range trap. -/
def Obligations.CapabilityResults : Prop :=
  Claims.CapabilityResults ∧ Claims.CapabilityTraps

namespace Sys2Proof.Claims
open Sys2Proof.Machine

/-- A loop-count word as a count (R54): an immediate, or the register it names. -/
def IsCount (u : Machine.Unit) (w : Word) (c : Nat) : Prop :=
  if w.getLsbD 31 then c = (u.sreg (w.truncate 5)).toNat ∧ c ≤ 2 ^ 24 else c = w.toNat % 2 ^ 24 + 1

/-- A strand descriptor and its counts name a strand that stream t of the unit's code holds (R54). -/
def StrandNamed (s : State) (u : Machine.Unit) (t : Stream) (desc : Word) (cs : List Word) (ns : List Nat) : Prop :=
  (∃ c, codeOf s u = some c ∧ desc.toNat % 2 ^ 24 + (desc.toNat / 2 ^ 24 + 1) ≤ c.bases.get t + c.counts.get t) ∧
  cs.length = ns.length ∧ ∀ (i : Nat) (w : Word) (c : Nat), cs[i]? = some w → ns[i]? = some c → IsCount u w c

/-- The unit with a dispatch record at the end of stream t's queue (R290, R293). -/
def withRecord (u : Machine.Unit) (t : Stream) (desc : Word) (ns : List Nat) (ps : SReg) : Machine.Unit :=
  { u.joinPos t with
    seqr := u.seqr.set t { u.seqr.get t with queue := (u.seqr.get t).queue ++
      [{ start := desc.toNat % 2 ^ 24, len := desc.toNat / 2 ^ 24 + 1, counts := ns, push := u.sreg ps, caps := u.r.c }] } }

/-- The engine streams' token words (Table 2.22). -/
def tokenWords : List (Stream × (BitVec 4 → BitVec 8 → Instr) × (BitVec 4 → BitVec 8 → Instr)) :=
  [(.vl, .tokPutVl, .tokGetVl), (.va, .tokPutVa, .tokGetVa), (.vs, .tokPutVs, .tokGetVs), (.m, .tokPutM, .tokGetM), (.d, .tokPutD, .tokGetD)]

/-- A GET of stream `str` is first at its counter: it waits at the head of the order, or no GET waits and it issues in its place of this grove
cycle, which `s'` keeps (R294). -/
def FirstGet (s : State) (u : Machine.Unit) (str : Stream) (tk : Nat) (s' : State) : Prop :=
  (u.tokAt tk).order.head? = some str ∧ s' = s ∨
  (u.tokAt tk).order = [] ∧ mayServe s (tokenRank str) (tokenPort s.cur.1 tk) = true ∧
    s' = noteServed s (tokenRank str) [tokenPort s.cur.1 tk]

/-- A GET of n tokens that issues, or waits behind another or for tokens: it is in the order, or may join it now, and is not first or finds too
few. -/
def MustWait (s : State) (u : Machine.Unit) (str : Stream) (tk n : Nat) : Prop :=
  (str ∈ (u.tokAt tk).order ∨ mayServe s (tokenRank str) (tokenPort s.cur.1 tk) = true) ∧
  ((u.tokAt tk).count < n ∨ ∃ t, (u.tokAt tk).order.head? = some t ∧ t ≠ str)

/-- The unit with n tokens of a counter taken by a GET, which leaves the order. -/
def taken (u : Machine.Unit) (str : Stream) (tk n : Nat) : Machine.Unit :=
  u.setTok tk { count := (u.tokAt tk).count - n, order := (u.tokAt tk).order.filter (· ≠ str) }

/-- The unit with a GET of `str` in the order of a counter, at its end unless it waits there already. -/
def queued (u : Machine.Unit) (str : Stream) (tk : Nat) : Machine.Unit :=
  if str ∈ (u.tokAt tk).order then u else u.setTok tk { u.tokAt tk with order := (u.tokAt tk).order ++ [str] }

/-- The words that only a context with privilege executes, and the special registers of machine control (R39, R56). -/
def privilegedWords (n : Nxt) (c : CReg) (a b d : SReg) (sc : BitVec 2) (r : BitVec 10) : List Instr :=
  [.tfenceW n sc, .tlbinv n c a sc b, .shoot n c a sc b, .remap n c a sc b, .inject n a b, .faultResume n a, .faultTerminate n a,
    .faultDeliver n a, .fringWrite n a] ++ (if 0x180 ≤ r.toNat ∧ r.toNat < 0x200 then [.gets n d r, .sets n a r] else [])

/-- A cause that finds its unit with nothing raised, served, rolled back or killed. -/
def Quiet (u : Machine.Unit) : Prop :=
  u.cause = none ∧ u.cause2 = none ∧ u.served = none ∧ u.roll = none ∧ u.killed = none ∧ u.owed = [] ∧ u.remap = none

end Sys2Proof.Claims

/-! ## Strand dispatch and coupling (chapter 11) -/

/-- R54, R290: DISP appends a record with its strand, its counts and the values of s[ps] and of the capability registers; a register
count of 0 appends nothing; a full queue waits; a count or descriptor out of range traps. -/
def Sys2Proof.Claims.DispatchResults : Prop :=
  (∀ (s : State) (u v : Machine.Unit) (n : Nxt) (str : BitVec 3) (t : Stream) (ps ad : SReg) (desc : Word) (cs : List Word) (ns : List Nat),
    Issuing s u (actOf n) → streamOf str.toNat = some t → StrandNamed s u t desc cs ns → 0 ∉ ns → (u.seqr.get t).queue.length < 4 →
    ((withRecord u t desc ns ps).next (2 + cs.length) (actOf n) = some v → exec (.disp n str ps desc cs) s = .next (left s s v)) ∧
    ((u.sreg ad).truncate 32 = desc → (withRecord u t desc ns ps).next (1 + cs.length) (actOf n) = some v →
      exec (.dispRegister n str ps ad cs) s = .next (left s s v))) ∧
  (∀ (s : State) (u v : Machine.Unit) (n : Nxt) (str : BitVec 3) (t : Stream) (ps : SReg) (desc : Word) (cs : List Word) (ns : List Nat),
    Issuing s u (actOf n) → streamOf str.toNat = some t → StrandNamed s u t desc cs ns → 0 ∈ ns →
    u.next (2 + cs.length) (actOf n) = some v → exec (.disp n str ps desc cs) s = .next (left s s v)) ∧
  (∀ (s : State) (u : Machine.Unit) (n : Nxt) (str : BitVec 3) (t : Stream) (ps : SReg) (desc : Word) (cs : List Word) (ns : List Nat),
    Issuing s u (actOf n) → streamOf str.toNat = some t → StrandNamed s u t desc cs ns → 0 ∉ ns → 4 ≤ (u.seqr.get t).queue.length →
    u.next (2 + cs.length) (actOf n) ≠ none → exec (.disp n str ps desc cs) s = .next (waiting s s u .queueFull)) ∧
  (∀ (s : State) (u : Machine.Unit) (n : Nxt) (str : BitVec 3) (t : Stream) (ps : SReg) (desc : Word) (cs : List Word) (c : Code),
    Issuing s u (actOf n) → streamOf str.toNat = some t → codeOf s u = some c →
    ((∃ w ∈ cs, w.getLsbD 31 = true ∧ 2 ^ 24 < (u.sreg (w.truncate 5)).toNat) ∨
      c.bases.get t + c.counts.get t < desc.toNat % 2 ^ 24 + (desc.toNat / 2 ^ 24 + 1)) →
    exec (.disp n str ps desc cs) s = .next (trapped s u 0x07 0 Acc.none))

/-- R149, R181, R292: CFG of an assigned index writes the shadow set, in range and with its zero bits zero; M's set of an idle slot is
swapped in at once; an unassigned index or a value out of range traps. -/
def Sys2Proof.Claims.ConfigurationResults : Prop :=
  (∀ (s : State) (u v : Machine.Unit) (n : Nxt) (str : BitVec 3) (t : Stream) (ls : BitVec 2) (idx : BitVec 8) (a : SReg) (z : Nat),
    Issuing s u (actOf n) → streamOf str.toNat = some t → cfgZeros t idx.toNat = some z →
    ((u.sreg a).truncate 32 : Word).toNat &&& z = 0 → cfgInRange t idx.toNat ((u.sreg a).truncate 32) = true →
    (t = .m ∨ (u.seqr.get t).queue = []) → (u.cfgWrite t ls.toNat idx.toNat ((u.sreg a).truncate 32)).next 1 (actOf n) = some v →
    exec (.cfg n str ls idx a) s = .next (left s s v)) ∧
  (∀ (s : State) (u : Machine.Unit) (n : Nxt) (str : BitVec 3) (t : Stream) (ls : BitVec 2) (idx : BitVec 8) (a : SReg),
    Issuing s u (actOf n) → streamOf str.toNat = some t →
    (cfgZeros t idx.toNat = none ∨ (∃ z, cfgZeros t idx.toNat = some z ∧ ((u.sreg a).truncate 32 : Word).toNat &&& z ≠ 0) ∨
      cfgInRange t idx.toNat ((u.sreg a).truncate 32) = false) →
    exec (.cfg n str ls idx a) s = .next (trapped s u 0x03 0 Acc.none)) ∧
  (∀ (u : Machine.Unit) (t : Stream) (ls i : Nat) (x : Word), t ≠ .m → Tab.risingFrom none (u.cpl.cfg.get t) = true →
    cfgRead t ((u.cfgWrite t ls i x).cpl.cfg.get t) i = x ∧
    (∀ j, j ≠ i → cfgRead t ((u.cfgWrite t ls i x).cpl.cfg.get t) j = cfgRead t (u.cpl.cfg.get t) j) ∧
    ∀ t', t' ≠ t → (u.cfgWrite t ls i x).cpl.cfg.get t' = u.cpl.cfg.get t') ∧
  (∀ (u : Machine.Unit) (ls : Fin 4) (i : Nat) (x : Word), u.slotIdle ls = true → Tab.risingFrom none u.cpl.mcfg[ls] = true →
    cfgRead .m (u.cfgWrite .m ls i x).cpl.mcfg[ls] i = x ∧ (u.cfgWrite .m ls i x).cpl.mactive[ls] = (u.cfgWrite .m ls i x).cpl.mcfg[ls])

/-- R218, R294: a put adds to its counter, and past 65,535 traps and adds nothing; a get that is first in the order and finds enough takes
its tokens; another waits in the order. An engine stream's put with earlier operations incomplete is kept, and its stream goes on; the control
stream's waits for its parked stores. -/
def Sys2Proof.Claims.TokenResults : Prop :=
  (∀ (s : State) (u v : Machine.Unit) (n : Nxt) (tk : BitVec 4) (c : BitVec 8),
    Issuing s u (actOf n) → (∀ p ∈ u.replay, p.str ≠ .c) →
    ((u.tokAt tk.toNat).count + (c.toNat + 1) ≤ 65535 →
      (u.setTok tk.toNat { u.tokAt tk.toNat with count := (u.tokAt tk.toNat).count + (c.toNat + 1) }).next 1 (actOf n) = some v →
      exec (.tokPut n tk c) s = .next (left s s v)) ∧
    (65535 < (u.tokAt tk.toNat).count + (c.toNat + 1) → exec (.tokPut n tk c) s = .next (trapped s u 0x07 0 Acc.none))) ∧
  (∀ (s : State) (u : Machine.Unit) (n : Nxt) (tk : BitVec 4) (c : BitVec 8),
    Issuing s u (actOf n) → (∃ p ∈ u.replay, p.str = .c) → u.next 1 (actOf n) ≠ none →
    exec (.tokPut n tk c) s = .next (waiting s s u .replay)) ∧
  (∀ (s s' : State) (u v : Machine.Unit) (n : Nxt) (tk : BitVec 4) (c : BitVec 8),
    Issuing s u (actOf n) → FirstGet s u .c tk.toNat s' → c.toNat + 1 ≤ (u.tokAt tk.toNat).count →
    (taken u .c tk.toNat (c.toNat + 1)).next 1 (actOf n) = some v → exec (.tokGet n tk c) s = .next (left s s' v)) ∧
  (∀ (s : State) (u : Machine.Unit) (n : Nxt) (tk : BitVec 4) (c : BitVec 8),
    Issuing s u (actOf n) → u.next 1 (actOf n) ≠ none → MustWait s u .c tk.toNat (c.toNat + 1) →
    ∃ s', exec (.tokGet n tk c) s = .next (waiting s s' (queued u .c tk.toNat) .token)) ∧
  (∀ e ∈ tokenWords, ∀ (s : State) (u : Machine.Unit) (r : Strand) (tk : BitVec 4) (c : BitVec 8), Running s e.1 u r →
    (u.done e.1 < u.cpl.issued.get e.1 →
      exec (e.2.1 tk c) s =
        .next (leftE s e.1 1 s { u with puts := u.puts ++ [(e.1, u.cpl.issued.get e.1, tk.toNat, c.toNat + 1)] })) ∧
    (u.cpl.issued.get e.1 ≤ u.done e.1 → (u.tokAt tk.toNat).count + (c.toNat + 1) ≤ 65535 →
      exec (e.2.1 tk c) s =
        .next (leftE s e.1 1 s (u.setTok tk.toNat { u.tokAt tk.toNat with count := (u.tokAt tk.toNat).count + (c.toNat + 1) }))) ∧
    (u.cpl.issued.get e.1 ≤ u.done e.1 → 65535 < (u.tokAt tk.toNat).count + (c.toNat + 1) →
      exec (e.2.1 tk c) s = .next (raise s s.cur.1 (causeE u e.1 0x07 0 0 Acc.none))) ∧
    (∀ s', FirstGet s u e.1 tk.toNat s' → c.toNat + 1 ≤ (u.tokAt tk.toNat).count →
      exec (e.2.2 tk c) s = .next (leftE s e.1 1 s' (taken u e.1 tk.toNat (c.toNat + 1)))) ∧
    (MustWait s u e.1 tk.toNat (c.toNat + 1) →
      ∃ s', exec (e.2.2 tk c) s = .next (putUnit s' s.cur.1 ((queued u e.1 tk.toNat).setWait e.1 (some .token)))))

/-- R295, R382: TILE registers a region once no operation of the tile is incomplete, and until then waits; PHASE commits once nothing of the unit
is at work, until then waits, and traps in a handler or with an entry in a stream register. -/
def Sys2Proof.Claims.TileAndPhaseResults : Prop :=
  (∀ (s : State) (u v : Machine.Unit) (n : Nxt) (t : BitVec 4) (c : CReg) (fe : Bool) (p : Nat × Partition),
    Issuing s u (actOf n) → (u.creg c).tag = true → (u.creg c).rights &&& rR = rR → 65536 * (u.creg c).base ≤ (u.creg c).cursor →
    levelOf s u.ctx (u.creg c).oid = some 2 → partOf s u.lid (groveOf s.cur.1) = some p → (u.creg c).cursor % 64 = 0 →
    (u.creg c).cursor < 65536 * ((u.creg c).base + (u.creg c).len) → u.tileBusy t.toNat = false →
    (u.setTile t.toNat { f := fe, reads := (u.tileAt t.toNat).reads, remain := (u.tileAt t.toNat).reads, reg := true, cap := u.creg c }).next
      1 (actOf n) = some v →
    exec (.tile n t c fe) s = .next (left s s v)) ∧
  (∀ (s : State) (u v : Machine.Unit) (n : Nxt) (t : BitVec 4) (a : SReg),
    Issuing s u (actOf n) → u.tileBusy t.toNat = false →
    (u.setTile t.toNat { u.tileAt t.toNat with reads := (u.sreg a).toNat / 2 % 2 ^ 8 }).next 1 (actOf n) = some v →
    exec (.tileRegisterWrite n t a) s = .next (left s s v)) ∧
  (∀ (s : State) (u v : Machine.Unit) (n : Nxt),
    Issuing s u (actOf n) → u.inh = false → (∀ t ∈ engineStreams, u.streamBusy t = false) → u.replay = [] →
    (∀ q ∈ u.sq.toList, q.entries = []) → u.cancelled = false → (u.commit (actOf n)).next 1 (actOf n) = some v →
    exec (.phase n) s = .next (atPreemption (left s s v) s.cur.1) ∧
    v.role = !u.role ∧ v.count = (u.count + 1) % 2 ^ 32 ∧ v.sealed = false ∧ v.retry = 0 ∧ v.fills = u.building ∧ v.building = [] ∧
    v.written = 0 ∧ v.ckpt = { regs := v.r, cpl := v.cpl } ∧ v.r.s = u.r.s ∧ v.cpl = u.cpl) ∧
  (∀ (s : State) (u : Machine.Unit) (n : Nxt) (t : BitVec 4) (a : SReg),
    Issuing s u (actOf n) → u.next 1 (actOf n) ≠ none → u.tileBusy t.toNat = true →
    exec (.tileRegisterWrite n t a) s = .next (waiting s s u .control)) ∧
  (∀ (s : State) (u : Machine.Unit) (n : Nxt), Issuing s u (actOf n) →
    (u.inh = true → exec (.phase n) s = .next (trapped s u 0x04 0 Acc.none)) ∧
    (u.inh = false → u.next 1 (actOf n) ≠ none → (∃ t ∈ engineStreams, u.streamBusy t = true) →
      exec (.phase n) s = .next (waiting s s u .strands)) ∧
    (u.inh = false → u.next 1 (actOf n) ≠ none → (∀ t ∈ engineStreams, u.streamBusy t = false) → u.replay ≠ [] →
      exec (.phase n) s = .next (waiting s s u .replay)) ∧
    (u.inh = false → (∀ t ∈ engineStreams, u.streamBusy t = false) → u.replay = [] → (∃ q ∈ u.sq.toList, q.entries ≠ []) →
      exec (.phase n) s = .next (trapped s u 0x07 0 Acc.none)))

/-! ## Special registers (chapters 05, 11 and 15) -/

/-- R56, R142 to R145: GETS answers the value of the register it names, and an unassigned number traps. That the write-only $fans (0x181) reads 0
is the model's choice (log 17). -/
def Sys2Proof.Claims.GetsResults : Prop :=
  (∀ (s : State) (u v : Machine.Unit) (n : Nxt) (d : SReg) (r : BitVec 10) (x : Double),
    Issuing s u (actOf n) → (srPriv r.toNat = true → privileged s u = true) → srRead s s.cur.1 u r.toNat = some x →
    srWait u r.toNat false = false → (u.setS d x).next 1 (actOf n) = some v → exec (.gets n d r) s = .next (left s s v)) ∧
  (∀ (s : State) (u : Machine.Unit) (n : Nxt) (d : SReg) (r : BitVec 10),
    Issuing s u (actOf n) → (srPriv r.toNat = true → privileged s u = true) → srRead s s.cur.1 u r.toNat = none →
    exec (.gets n d r) s = .next (trapped s u 0x06 0 Acc.none)) ∧
  (∀ (s : State) (k : Nat) (u : Machine.Unit),
    srRead s k u 0x000 = some (BitVec.ofNat 64 s.time) ∧ srRead s k u 0x001 = some u.r.flags ∧
    srRead s k u 0x002 = some (u.r.lfsrv.zeroExtend 64) ∧ srRead s k u 0x003 = some (u.r.lfsrd.zeroExtend 64) ∧
    srRead s k u 0x004 = some (BitVec.ofNat 64 (u.index % 2 ^ 24)) ∧ srRead s k u 0x006 = some (if u.r.plain then 1 else 0) ∧
    srRead s k u 0x014 = some u.r.tvec ∧ srRead s k u 0x015 = some u.r.tres ∧ srRead s k u 0x082 = some u.frame.taddr ∧
    srRead s k u 0x181 = some 0 ∧ srRead s k u 0x182 = some s.ring.fring ∧
    (∀ i < 16, srRead s k u (0x060 + i) = some (BitVec.ofNat 64 (u.tokAt i).count)) ∧
    (∀ r, 0x200 ≤ r → srRead s k u r = none))

/-- R99, R105, R143, R182, R285, R373: SETS writes the fields a program may write, and no other; a register none of whose fields it may
write traps. -/
def Sys2Proof.Claims.SetsResults : Prop :=
  (∀ (s s' : State) (u u' v : Machine.Unit) (n : Nxt) (a : SReg) (r : BitVec 10),
    Issuing s u (actOf n) → (srPriv r.toNat = true → privileged s u = true) → srWait u r.toNat true = false →
    srWrite s s.cur.1 u r.toNat (u.sreg a) = .ok s' u' → u'.next 1 (actOf n) = some v → exec (.sets n a r) s = .next (left s s' v)) ∧
  (∀ (s : State) (u v : Machine.Unit) (n : Nxt) (a : SReg), Issuing s u (actOf n) →
    ({ u with r := { u.r with flags := BitVec.ofNat 64 ((u.sreg a).toNat % 2 ^ 6) } } : Machine.Unit).next 1 (actOf n) = some v →
    exec (.flagsWrite n a) s = .next (left s s v)) ∧
  (∀ (s : State) (u v : Machine.Unit) (n : Nxt) (a : SReg), Issuing s u (actOf n) →
    ({ u with r := { u.r with plain := (u.sreg a).getLsbD 0 } } : Machine.Unit).next 1 (actOf n) = some v →
    exec (.seqModeWrite n a) s = .next (left s s v)) ∧
  (∀ (s : State) (u v : Machine.Unit) (n : Nxt) (a : SReg) (x : Word), Issuing s u (actOf n) → u.streamBusy .va = false →
    x.toNat = max 1 ((u.sreg a).toNat % 2 ^ 32) →
    ({ u with r := { u.r with lfsrv := x } } : Machine.Unit).next 1 (actOf n) = some v →
    exec (.lfsrAccess n false (.set a)) s = .next (left s s v)) ∧
  (∀ (s : State) (u v : Machine.Unit) (n : Nxt) (a : SReg) (x : Word), Issuing s u (actOf n) → u.streamBusy .d = false →
    x.toNat = max 1 ((u.sreg a).toNat % 2 ^ 32) →
    ({ u with r := { u.r with lfsrd := x } } : Machine.Unit).next 1 (actOf n) = some v →
    exec (.lfsrAccess n true (.set a)) s = .next (left s s v)) ∧
  (∀ (s : State) (u v : Machine.Unit) (n : Nxt) (copy : Bool) (d : SReg), Issuing s u (actOf n) →
    u.streamBusy (if copy then .d else .va) = false →
    (u.setS d ((if copy then u.r.lfsrd else u.r.lfsrv).zeroExtend 64)).next 1 (actOf n) = some v →
    exec (.lfsrAccess n copy (.get d)) s = .next (left s s v)) ∧
  (∀ (s : State) (u v : Machine.Unit) (n : Nxt) (slot : BitVec 2) (a : SReg), Issuing s u (actOf n) → u.streamBusy .m = false →
    ({ u with mstat := vmodify u.mstat slot.toNat fun m =>
        { m with accovf := m.accovf && !(u.sreg a).getLsbD 0, chkf := m.chkf && !(u.sreg a).getLsbD 2,
                 pdisc := m.pdisc && !(u.sreg a).getLsbD 3 } } : Machine.Unit).next 1 (actOf n) = some v →
    exec (.mstatAccess n slot (.set a)) s = .next (left s s v)) ∧
  (∀ (s : State) (u v : Machine.Unit) (n : Nxt) (slot : BitVec 2) (d : SReg), Issuing s u (actOf n) → u.streamBusy .m = false →
    (u.setS d (BitVec.ofNat 64 (mstatWord s u slot.toNat))).next 1 (actOf n) = some v →
    exec (.mstatAccess n slot (.get d)) s = .next (left s s v)) ∧
  (∀ (s : State) (u : Machine.Unit) (n : Nxt) (a : SReg) (r : BitVec 10), Issuing s u (actOf n) → 0x07 ≤ r.toNat → r.toNat < 0x10 →
    exec (.sets n a r) s = .next (trapped s u 0x06 0 Acc.none))

/-- R116, R117: $bfsel takes a logical bank that the partition has, and $bfr the register of the selected bank; SWZ stands in bank 0, and the
others mirror it; a write that leaves SWZ as it is changes nothing but the register. -/
def Sys2Proof.Claims.BankFormatResults : Prop :=
  (∀ (s : State) (u v : Machine.Unit) (n : Nxt) (a : SReg) (k : Nat) (p : Partition),
    Issuing s u (actOf n) → (∀ t ∈ [Stream.vl, .vs, .m, .d], u.streamBusy t = false) → ownPart s s.cur.1 u = some (k, p) →
    ((u.sreg a).toNat < p.banks.length →
      ({ u with r := { u.r with bfsel := (u.sreg a).toNat } } : Machine.Unit).next 1 (actOf n) = some v →
      exec (.bfrAccess n true (.set a)) s = .next (left s s v)) ∧
    (p.banks.length ≤ (u.sreg a).toNat → exec (.bfrAccess n true (.set a)) s = .next (trapped s u 0x07 0 Acc.none))) ∧
  (∀ (s : State) (u v : Machine.Unit) (n : Nxt) (d : SReg) (k : Nat) (p : Partition),
    Issuing s u (actOf n) → (∀ t ∈ [Stream.vl, .vs, .m, .d], u.streamBusy t = false) → ownPart s s.cur.1 u = some (k, p) →
    ((u.setS d (BitVec.ofNat 64 (p.reg u.r.bfsel))).next 1 (actOf n) = some v →
      exec (.bfrAccess n false (.get d)) s = .next (left s s v)) ∧
    ((u.setS d (BitVec.ofNat 64 u.r.bfsel)).next 1 (actOf n) = some v → exec (.bfrAccess n true (.get d)) s = .next (left s s v))) ∧
  (∀ (s : State) (u v : Machine.Unit) (n : Nxt) (a : SReg) (k : Nat) (p : Partition) (x : Double),
    Issuing s u (actOf n) → (∀ t ∈ [Stream.vl, .vs, .m, .d], u.streamBusy t = false) → ownPart s s.cur.1 u = some (k, p) →
    s.partitions.get? k = some p → u.sreg a = x → x.toNat / 2 ^ 5 % 2 ^ 3 ≤ 1 → x.toNat < 2 ^ 56 → Tab.risingFrom none p.bfr = true →
      u.next 1 (actOf n) = some v →
    ∃ t q, exec (.bfrAccess n false (.set a)) s = .next (left s t v) ∧ ownPart t s.cur.1 u = some (k, q) ∧
      (q.reg u.r.bfsel = if u.r.bfsel = 0 then x.toNat else x.toNat - x.toNat / 2 ^ 5 % 2 ^ 3 * 2 ^ 5 + p.reg 0 / 2 ^ 5 % 2 ^ 3 * 2 ^ 5) ∧
      (∀ lb, lb ≠ u.r.bfsel → u.r.bfsel ≠ 0 → q.reg lb = p.reg lb) ∧
      (u.r.bfsel ≠ 0 ∨ x.toNat / 2 ^ 5 % 2 ^ 3 = p.reg 0 / 2 ^ 5 % 2 ^ 3 → t = { s with partitions := t.partitions }))

/-- R39, R56: in a context without privilege a privileged word is the privilege trap, and nothing else. -/
def Sys2Proof.Claims.PrivilegeTrap : Prop :=
  ∀ (n : Nxt) (c : CReg) (a b d : SReg) (sc : BitVec 2) (r : BitVec 10), ∀ i ∈ privilegedWords n c a b d sc r,
    ∀ (s : State) (u : Machine.Unit), Issuing s u (actOf n) → privileged s u = false → exec i s = .next (trapped s u 0x05 0 Acc.none)

/-! ## Traps and served faults (chapter 15) -/

/-- R372, R373, R375: TRAP with an enabled handler and nothing in flight enters it: the frame, $tmode, $tres and INH are written, the mode
becomes plain, and control goes on at $tvec.HANDLER. -/
def Sys2Proof.Claims.TrapEntry : Prop :=
  ∀ (s : State) (u : Machine.Unit) (n : Nxt) (c : BitVec 8),
    Issuing s u (actOf n) → Quiet u → u.inh = false → u.r.tvec.getLsbD 24 = true → u.ops = [] → (∀ q ∈ s.openReqs, q.key ≠ s.cur.1) →
    ∃ t w, exec (.trap n c) s = .next t ∧ OnlyIssuer s t w ∧
      w.r = { u.r with plain := true, tres := BitVec.ofNat 64 ((u.r.pc + 1) % 2 ^ 24), pc := u.r.tvec.toNat % 2 ^ 24 } ∧
      w.inh = true ∧ w.cause = none ∧ w.latches = [] ∧
      w.frame.tcause = BitVec.ofNat 64 (0x14 + 5 * 2 ^ 8 + c.toNat % 16 * 2 ^ 12) ∧
      w.frame.tword = BitVec.ofNat 64 (u.r.pc % 2 ^ 24 + c.toNat * 2 ^ 26) ∧ w.frame.taddr = 0 ∧ w.frame.tobj = 0 ∧
      w.frame.tmode = (if u.r.plain then 1 else 0)

/-- R372, R373: any cause of class U that finds nothing in flight, and no handler to take it, kills the unit as a double trap; with an
operation in flight the unit drains first, and a second cause is kept. -/
def Sys2Proof.Claims.TrapWithoutHandler : Prop :=
  ∀ (s : State) (k : Nat) (u : Machine.Unit) (c : Cause), s.units.get? k = some u → classOf c.code = .u → u.killed = none → u.roll = none →
    u.served = none →
    (u.cause = none → u.drained s k = true → (u.inh = true ∨ u.r.tvec.getLsbD 24 = false) →
      raise s k c = killUnit s k { c with code := 0x39, kind := if u.inh then 1 else 2 } false) ∧
    (u.cause = none → u.drained s k = false → raise s k c = putUnit s k { u with cause := some c }) ∧
    (u.cause.isSome = true → u.cause2 = none → raise s k c = putUnit s k { u with cause2 := some c }) ∧
    (u.cause.isSome = true → u.cause2.isSome = true → raise s k c = s)

/-- R375: `trap 0` in a handler leaves it: the mode of $tmode, no INH, control at $tres.RESUME, and the streams of $tres.FLUSH flushed;
outside a handler it is the sequencing trap. -/
def Sys2Proof.Claims.TrapReturn : Prop :=
  (∀ (s : State) (u : Machine.Unit), s.units.get? s.cur.1 = some u → u.inh = true → u.cause2 = none → u.owed = [] →
    u.r.tres.getLsbD 27 = false →
    ∃ t w, exec .trapResume s = .next t ∧ OnlyIssuer s t w ∧
      w.r = { u.r with plain := u.frame.tmode.getLsbD 0, pc := u.r.tres.toNat % 2 ^ 24 } ∧ w.inh = false ∧ w.frame = u.frame ∧
      (∀ p ∈ [(24, Stream.vl), (25, .va), (26, .vs), (28, .d)],
        w.seqr.get p.2 = if u.r.tres.getLsbD p.1 then Seqr.idle else u.seqr.get p.2) ∧
      w.seqr.get .m = u.seqr.get .m ∧ w.setup = if u.r.tres.getLsbD 28 then DSetup.none else u.setup) ∧
  (∀ (s : State) (u : Machine.Unit), s.units.get? s.cur.1 = some u → u.inh = true → u.cause2 = none → u.owed = [] →
    u.r.tres.getLsbD 27 = true → ∃ t, exec .trapResume s = .next t) ∧
  (∀ (s : State) (u : Machine.Unit), s.units.get? s.cur.1 = some u → u.inh = false →
    exec .trapResume s = .next (trapped s u 0x04 0 Acc.none))

/-- R377 to R379: an answer to an unanswered fault is accepted, counted, and closes it; any other value, and ACT 3, trap. -/
def Sys2Proof.Claims.FaultAnswers : Prop :=
  (∀ (s s' : State) (u u' v : Machine.Unit) (n : Nxt) (a : SReg) (fid act : Nat) (an : Answer),
    Issuing s u (actOf n) → privileged s u = true → (u.sreg a).toNat = fid + act * 2 ^ 32 → fid < 2 ^ 32 → answerOf act = some an →
    answerFault (putUnit s s.cur.1 { u with sealed := true }) fid an = some s' → s'.units.get? s.cur.1 = some u' →
    u'.next 1 (actOf n) = some v →
    exec (.faultResume n a) s = .next (left s s' v) ∧ exec (.faultTerminate n a) s = .next (left s s' v) ∧
    exec (.faultDeliver n a) s = .next (left s s' v)) ∧
  (∀ (s : State) (u : Machine.Unit) (n : Nxt) (a : SReg),
    Issuing s u (actOf n) → privileged s u = true →
    (2 ^ 34 ≤ (u.sreg a).toNat ∨ (u.sreg a).toNat / 2 ^ 32 = 3 ∨ ∀ e ∈ s.ring.open_, e.1 ≠ (u.sreg a).toNat % 2 ^ 32) →
    exec (.faultResume n a) s = .next (trapped s u 0x07 0 Acc.none)) ∧
  (∀ (s : State) (fid k : Nat) (an : Answer) (w : Machine.Unit) (v : Served),
    s.ring.open_.find? (fun e => e.1 = fid) = some (fid, k) → s.units.get? k = some w → w.served = some v →
    ∃ s', answerFault s fid an = some s' ∧ s'.ring.ans = (s.ring.ans + 1) % 2 ^ 32 ∧ ∀ e ∈ s'.ring.open_, e.1 ≠ fid)

/-- R377: a SETS of $fring stores a ring with nothing unanswered, its checks in order. -/
def Sys2Proof.Claims.FaultRingWrite : Prop :=
  ∀ (s : State) (u v : Machine.Unit) (n : Nxt) (a : SReg) (base logn top : Nat),
    Issuing s u (actOf n) → privileged s u = true → (u.sreg a).toNat = base + logn * 2 ^ 48 + top * 2 ^ 52 → base < 2 ^ 48 → logn < 16 →
    (top ≠ 0 → exec (.fringWrite n a) s = .next (trapped s u 0x03 0 Acc.none)) ∧
    (top = 0 → s.ring.open_ ≠ [] → exec (.fringWrite n a) s = .next (trapped s u 0x07 0 Acc.none)) ∧
    (top = 0 → (1 ≤ logn ∧ logn ≤ 3 ∨ 13 ≤ logn ∨ 4 ≤ logn ∧ (base % 4096 ≠ 0 ∨ physLvl base ≠ some 1)) →
      exec (.fringWrite n a) s = .next (trapped s u 0x07 0 Acc.none)) ∧
    (top = 0 → s.ring.open_ = [] → (logn = 0 ∨ 4 ≤ logn ∧ logn ≤ 12 ∧ base % 4096 = 0 ∧ physLvl base = some 1) →
      u.next 1 (actOf n) = some v →
      exec (.fringWrite n a) s = .next (left s { s with ring := { s.ring with fring := u.sreg a, prod := 0 } } v))

/-- R274 to R278, R391: the privileged words: TLBINV and SHOOT leave no cached translation of the pages named, and INJECT arms its
detector with the count given. -/
def Sys2Proof.Claims.PrivilegedResults : Prop :=
  (∀ (s : State) (u v : Machine.Unit) (n : Nxt) (c : CReg) (a b : SReg) (sc : BitVec 2),
    Issuing s u (actOf n) → privileged s u = true → u.next 1 (actOf n) = some v →
    ∃ t, exec (.tlbinv n c a sc b) s = .next (left s t v) ∧ exec (.shoot n c a sc b) s = .next (left s t v) ∧
      t = { s with tlb1 := t.tlb1, tlb2 := t.tlb2, objCache := t.objCache } ∧
      (∀ e ∈ Tab.getD [] t.tlb1 (hearthOf s.cur.1), inPages u.tnctx (u.creg c).oid (u.sreg a).toNat (u.sreg b).toNat e = false) ∧
      (2 ≤ sc.toNat → (∀ x ∈ t.tlb1 ++ t.tlb2, ∀ e ∈ x.2, inPages u.tnctx (u.creg c).oid (u.sreg a).toNat (u.sreg b).toNat e = false) ∧
        ∀ e ∈ t.objCache, ¬ (e.1 = u.tnctx ∧ e.2.1 = (u.creg c).oid))) ∧
  (∀ (s : State) (u v : Machine.Unit) (n : Nxt) (a b : SReg) (c : Nat),
    Issuing s u (actOf n) → privileged s u = true → detectorOk (u.sreg a) = true → (u.sreg b).toNat = c → 1 ≤ c → c ≤ 65535 →
    u.next 1 (actOf n) = some v →
    ∃ t, exec (.inject n a b) s = .next (left s t v) ∧ t = { s with arms := t.arms, injarm := (u.sreg a).toNat } ∧
      t.arms.get? (u.sreg a).toNat = some c ∧ ∀ d, d ≠ (u.sreg a).toNat → t.arms.get? d = s.arms.get? d) ∧
  (∀ (s : State) (u : Machine.Unit) (n : Nxt) (a b : SReg),
    Issuing s u (actOf n) → privileged s u = true →
    (detectorOk (u.sreg a) = false ∨ u.sreg b = 0 ∨ 65535 < (u.sreg b).toNat) →
    exec (.inject n a b) s = .next (trapped s u 0x07 0 Acc.none))

/-- R272, R278: REMAP of a page to another frame of its level goes through its six steps in order: the entry migrates; no cached translation of
the page is left; the page's bytes stand in the new frame; the entry names that frame, still migrating, with A and D as they were after the
second step; the parked stores are performed and what the unit stored is seen by the walkers of the scope; the entry migrates no more, and the
word has issued. Until then it waits. Every walker sees what REMAP makes of the entry. That the new frame of an object of level 3 lies in HBM, and
how a copy that another module refuses ends the REMAP, are the model's reading (log 96). -/
def Sys2Proof.Claims.RemapResults : Prop :=
  (∀ (s : State) (u : Machine.Unit) (n : Nxt) (c : CReg) (a b : SReg) (sc : BitVec 2) (e : ObjE) (w : TlbEntry) (new page : Nat),
    Issuing s u (actOf n) → privileged s u = true → 2 ≤ sc.toNat → (u.sreg a).toNat = page → (u.sreg b).toNat = new → u.remap = none →
    objAt s u.tnctx (u.creg c).oid = some e → e.st = 1 → page < (e.size + 2 ^ pageShift e.psc - 1) / 2 ^ pageShift e.psc → e.lvl ≠ 2 →
    new % 2 ^ pageShift e.psc = 0 → physLvl new = some (if e.lvl = 1 then 1 else 0) →
    (e.lvl = 3 → e.dev = Config.deviceId.toNat ∨ ∃ p, portFor s u.ctx e.dev = some p) →
    (walk s u.tnctx (u.creg c).oid (page * 2 ^ pageShift e.psc)).2 = .ok w → w.fa ≠ new → u.next 1 (actOf n) ≠ none →
    exec (.remap n c a sc b) s = .next (waiting s (seenByAll (wr8 s w.pte (rd8 s w.pte + 8)) w.pte)
      { u with sealed := true
               remap := some { step := 1, pte := w.pte, old := w.fa, key := w.key, sh := pageShift e.psc,
                               dev := if e.lvl = 3 then some e.dev else none, ad := 0 } } .memory)) ∧
  (∀ (s : State) (u : Machine.Unit) (n : Nxt) (c : CReg) (a b : SReg) (sc : BitVec 2) (r : Remap) (new page : Nat),
    Issuing s u (actOf n) → privileged s u = true → 2 ≤ sc.toNat → (u.sreg a).toNat = page → (u.sreg b).toNat = new → u.remap = some r →
    (r.step = 1 → u.next 1 (actOf n) ≠ none →
      exec (.remap n c a sc b) s = .next (waiting s (tlbRemove s (hearthOf s.cur.1) sc.toNat u.tnctx (u.creg c).oid page 1)
        { u with remap := some { r with step := 2, ad := rd8 s r.pte % 2 ^ 64 / 2 % 4 } } .memory)) ∧
    (∀ s', (r.step = 2 ∧ (r.dev = none ∧ s' = copyFrame s r.key r.old new r.sh ∨ copyPage s s.cur.1 u.ctx r new = (s', true)) ∨
        r.step = 3 ∧ s' = seenByAll (moveAreas (wr8 s r.pte (9 + 2 * r.ad + new)) u.tnctx (u.creg c).oid page new) r.pte ∨
        r.step = 4 ∧ u.replay = [] ∧ s' = fenceWalks s u.who (hearthOf s.cur.1) sc.toNat) → u.next 1 (actOf n) ≠ none →
      exec (.remap n c a sc b) s = .next (waiting s s' { u with remap := some { r with step := r.step + 1 } } .memory)) ∧
    (∀ s', r.step = 2 → copyPage s s.cur.1 u.ctx r new = (s', false) → u.next 1 (actOf n) ≠ none →
      exec (.remap n c a sc b) s = .next (raise
        (updUnit (seenByAll (wr8 s' r.pte (putBits (rd8 s' r.pte) 3 1 0)) r.pte) s.cur.1 fun u => { u with remap := none }) s.cur.1
        (causeC u 0x21 0 ⟨(u.creg c).oid, page * 2 ^ r.sh, true, true⟩))) ∧
    (r.step = 4 → u.replay ≠ [] → u.next 1 (actOf n) ≠ none → exec (.remap n c a sc b) s = .next (waiting s s u .replay)) ∧
    (∀ v, r.step = 5 → ({ u with remap := none } : Machine.Unit).next 1 (actOf n) = some v →
      exec (.remap n c a sc b) s = .next (left s (seenByAll (wr8 s r.pte (putBits (rd8 s r.pte) 3 1 0)) r.pte) v)))

/-- DISP, in both forms, appends a record with its strand, counts, pushed value and capabilities; with a register count of 0 it queues nothing; a full
queue waits; a count or a descriptor out of range traps. CFG writes one register of its stream's set (of M: of its slot's, live at once when the slot
is idle), and traps for an unassigned index or a value out of range. -/
def Obligations.DispatchAndConfiguration : Prop :=
  Claims.DispatchResults ∧ Claims.ConfigurationResults

/-- Each of these forms completes (exec answers the next state) for every state and operands that meet the conditions given on them alone. tokPut,
tokPutVl, tokPutVa, tokPutVs, tokPutM and tokPutD add to their counter or, past 65,535, trap and add nothing; an engine stream's put behind incomplete
operations is kept for later, and the control stream's waits for its parked stores. tokGet, tokGetVl, tokGetVa, tokGetVs, tokGetM and tokGetD take
their tokens when they are first in the order of their counter (R294: the GETs of one grove cycle stand in stream order) and find enough, and
otherwise wait in that order. tile registers a region, and tileRegisterWrite sets READS, when no operation on the tile is incomplete, and the write
waits otherwise; phase commits the phase with a checkpoint of the registers when nothing of the unit is at work, waits while something is, and traps
in a handler or with an entry in a stream register. -/
def Obligations.CouplingResults : Prop :=
  Claims.TokenResults ∧ Claims.TileAndPhaseResults

/-- GETS answers the register's value and traps for an unassigned number; that GETS of the write-only $fans answers 0 is the model's choice (log 17).
SETS writes the fields that a program may write, and traps for a register with none. $flags, $seq, the two random states, $mstat, $bfsel and $bfr are
read and written as their tables say. -/
def Obligations.SpecialRegisterResults : Prop :=
  Claims.GetsResults ∧ Claims.SetsResults ∧ Claims.BankFormatResults

/-- TRAP with an enabled handler and nothing in flight enters it: $tcause, $tword, $taddr, $tobj, $tmode and $tres hold what the spec says, INH is
set, the mode is plain and control stands at the handler; every other register stays. A class-U cause with no handler, or in one, kills the unit as a
double trap; with operations in flight the unit drains first, and a second cause is kept. `trap 0` restores the mode, clears INH, goes to RESUME and
flushes the streams of FLUSH; outside a handler it is the sequencing trap. -/
def Obligations.TrapEntryAndReturn : Prop :=
  Claims.TrapEntry ∧ Claims.TrapWithoutHandler ∧ Claims.TrapReturn

/-- FAULT.RESUME, FAULT.TERMINATE and FAULT.DELIVER (writes of $fans) with an unanswered id close that fault and count the answer; ACT 3, an unknown
id or high bits are the operand-range trap. SETS of $fring checks its reserved bits, the unanswered faults and its base in this order, and then holds
the ring with nothing in it (log 25). -/
def Obligations.FaultAnswers : Prop :=
  Claims.FaultAnswers ∧ Claims.FaultRingWrite

/-- TFENCE.W, TLBINV, SHOOT, REMAP, INJECT, the fault-answer words, the $fring write, and GETS and SETS of a machine-control register are the
privilege trap in a context without privilege. With it TLBINV and SHOOT leave no cached translation of the pages they name, INJECT arms its detector
(a bad detector or count traps), and REMAP goes through its six steps in order, waiting between them: the entry's M bit is set; the page's cached
translations are removed; its bytes are moved to the new frame; the entry names that frame; the unit's parked stores are performed; and the M bit is
cleared as the word completes (the steps as turns of the model: log 28). The copy of an object on another module, which may refuse it, and the frame's
level are the model's readings (log 96). -/
def Obligations.PrivilegedResults : Prop :=
  Claims.PrivilegeTrap ∧ Claims.PrivilegedResults ∧ Claims.RemapResults

namespace Sys2Proof.Claims
open Sys2Proof.Machine

/-! ## Vector words -/

/-- A VA word of sources `names`, destination `d` and predicate `vp` issues at once: its strand runs, its rows lie within the unit's and
have been written, none of them is still to be written back, its pops find entries, and it leads no busy sub-stream too far. `rows` are its
sources (R149, R154, R159, R160, R293, R337, R384). -/
def VaIssues (s : State) (u : Machine.Unit) (r : Strand) (names : List Src) (cmp two : Bool) (d : Nat) (vp : PReg) (rows : List Row) : Prop :=
  let row0 := row0Of .va r.cfg
  let reads := names.flatMap (srcRows row0)
  let writes := if cmp then [] else (row0 + d) :: if two then [row0 + d + 1] else []
  Running s .va u r ∧ rowsOut s u (reads ++ writes) = false ∧ (∀ n ∈ reads ++ writes, n ∉ pendingRows u) ∧ vp.toNat ∉ pendingPreds u ∧
  (cmp = true → d ∉ pendingPreds u) ∧ sqReady u (names.flatMap srcSq) = true ∧ (∀ n ∈ reads, unwritten u n = false) ∧ slips u .va = false ∧
  (readSrcs s.cur.1 row0 (etypeOf .va r.cfg) r.rcd.push names s
    (if u.groupSwitch then { u with latches := [], opbuf := [], groupSwitch := false } else u)).2.2.1 = rows

/-- A VA word has issued in `t` with unit `w`: its operation holds the next number of VA, its flags and what is to be written back. -/
def VaIssued (u w : Machine.Unit) (back : VaOp) (fl : Flags) (lfsr : Word) : Prop :=
  w.r.lfsrv = lfsr ∧ w.cpl.issued.get .va = u.cpl.issued.get .va + 1 ∧
  ∃ op, w.ops = u.ops ++ [op] ∧ op.str = .va ∧ op.num = u.cpl.issued.get .va + 1 ∧ op.flags = fl ∧ op.body = .va back

/-- What a lane-wise word writes back: nothing under D (`x`) or with no lane enabled (R156). -/
def laneBack (x : Bool) (et row : Nat) (mask : BitVec 256) (lanes : List Nat) : VaOp :=
  { rows := if x || !anyLane et mask then [] else [(row, rowOf (laneBits et) lanes, mask, laneBits et)], preds := [] }

/-- The flags of the enabled lanes. -/
def laneFlags (et : Nat) (mask : BitVec 256) (fls : Nat → Flags) : Flags :=
  if anyLane et mask then (List.range (width et)).foldl (fun f i => if mask.getLsbD i then f ||| fls i else f) 0 else 0

/-- A result rounded to the element type. -/
def rounded (et : Nat) (m : Rnd) (v : Val × Flags) : Nat × Flags :=
  (((etFloat et).encode v.1 m false 0).1, v.2 ||| ((etFloat et).encode v.1 m false 0).2)

/-- The lane functions of the element-wise two-source VA words (R161 to R164): element type, rounding mode, and the lanes of a, b and vd. -/
def vectorRows : List ((Bool → BitVec 6 → Src → Src → PReg → Bool → Bool → Instr) × Bool × (Nat → Rnd → Nat → Nat → Nat → Nat × Flags)) :=
  let v := fun (et : Nat) => (etFloat et).decode
  let int := fun (z : Int) => (z % 2 ^ 32).toNat
  [(.vadd, false, fun et m a b _ => if et = 1 then (int (a + b), 0) else rounded et m (Val.add (v et a) (v et b) m)),
   (.vsub, false, fun et m a b _ => if et = 1 then (int ((a : Int) - b), 0) else rounded et m (Val.add (v et a) (v et b).neg m)),
   (.vmul, false, fun et m a b _ => if et = 1 then (int (a * b), 0) else rounded et m (Val.mul (v et a) (v et b))),
   (.vfma, true, fun et m a b d => if et = 1 then (int (d + a * b), 0) else rounded et m (Val.fma (v et a) (v et b) (v et d) m)),
   (.vfnma, true, fun et m a b d => if et = 1 then (int ((d : Int) - a * b), 0) else rounded et m (Val.fma (v et a).neg (v et b) (v et d) m)),
   (.vmin, false, fun et _ a b _ => (minMaxLane et true a b, 0)),
   (.vmax, false, fun et _ a b _ => (minMaxLane et false a b, 0)),
   (.vclamp, true, fun et _ a b d => (minMaxLane et true (minMaxLane et false d a) b, 0)),
   (.vand, false, fun _ _ a b _ => (a &&& b, 0)),
   (.vor, false, fun _ _ a b _ => (a ||| b, 0)),
   (.vxor, false, fun _ _ a b _ => (a ^^^ b, 0)),
   (.vshl, false, fun et _ a b _ => (a * 2 ^ (b % laneBits et) % 2 ^ laneBits et, 0)),
   (.vshr, false, fun et _ a b _ =>
     (if et = 1 then int ((a : Int).bmod (2 ^ 32) / 2 ^ (b % 32)) else a / 2 ^ (b % laneBits et), 0))]

/-- The one-source words: the types they take, and their lane functions (R163, R164, R169). -/
def vectorRows1 : List ((Bool → BitVec 6 → Src → PReg → Bool → Instr) × (Nat → Bool) × (Nat → Rnd → Nat → Nat × Flags)) :=
  let tr := fun (f : Val → Val × Flags) et m a => rounded et m (f ((etFloat et).decode a))
  [(.vabs, anyType, fun et _ a => (absLane et a, 0)), (.vmov, anyType, fun _ _ a => (a, 0)),
   (.vexp2, floatType, tr exp2Val), (.vlog2, floatType, tr log2Val), (.vrcp, floatType, tr rcpVal), (.vrsq, floatType, tr rsqVal)]

/-- The compares (R165): whether a NaN sets IV, the relation of integers and that of floating-point values. -/
def vectorCompares : List ((Bool → PReg → Src → Src → PReg → Bool → Bool → Instr) × Bool × (Int → Int → Bool) × (Val → Val → Bool)) :=
  [(.vceq, false, fun a b => decide (a = b), Val.eq), (.vclt, true, fun a b => decide (a < b), Val.lt),
   (.vcle, true, fun a b => decide (a ≤ b), fun a b => Val.lt a b || Val.eq a b)]

/-- The words that compute on whole rows (R166 to R175), with their forms. -/
def vectorForms : List ((Bool → BitVec 6 → Src → PReg → Bool → Instr) × VaForm) :=
  [(.vrsum, reduceForm VaIn.plus fun _ => 0),
   (.vrmax, reduceForm (fun x p q => (minMaxLane x.et false p q, 0)) (extreme true)),
   (.vrmin, reduceForm (fun x p q => (minMaxLane x.et true p q, 0)) (extreme false)),
   (.vscan, scanForm), (.vbstat, bstatForm),
   (.vtopk, topkForm fun x => topK x ((List.range (width x.et)).filterMap fun i => if x.on i then some (x.at 0 i, i) else none))]

/-! ## Vector accesses -/

/-- The forms of VL that read memory. -/
def loadForms : List ((BitVec 6 → BitVec 3 → BitVec 4 → PReg → Src → BitVec 2 → Instr) × (Src → BitVec 2 → VlForm)) :=
  [(fun vd ag f vp _ _ => .vl vd ag f vp, fun _ _ => .plain), (fun vd ag f vp ix _ => .vlG vd ag f ix vp, fun ix _ => .gather ix),
   (fun vd ag f vp _ _ => .vlT vd ag f vp, fun _ _ => .trans), (fun vd ag f vp _ bf => .vlBf vd ag f vp bf, fun _ bf => .field bf),
   (fun vd ag f vp _ _ => .vlBc vd ag f vp, fun _ _ => .bcast)]

/-- The forms of VS that write memory: the source of the row, the form, and, for VSTA, its reading as 32-bit lanes. -/
def storeForms : List ((BitVec 3 → BitVec 4 → Src → BitVec 6 → Src → PReg → Instr) × (Src → BitVec 6 → Src) × (Src → VlForm) × Bool) :=
  [(fun ag f a _ _ vp => .vst ag f a vp, fun a _ => a, fun _ => .plain, false),
   (fun ag f a _ ix vp => .vstS ag f a ix vp, fun a _ => a, .gather, false),
   (fun ag f _ v _ vp => .vsta ag f v vp, fun _ v => .v v, fun _ => .plain, true)]

/-- The lanes of an access with their places: the format of the first, the width read at each, and every element. -/
def accessPlaces (s : State) (u : Machine.Unit) (r : Strand) (str : Stream) (f : VlForm) (ag : BitVec 3) (fmt : BitVec 4) (et : Nat) (ix : Row)
    (mask : BitVec 256) : Info × Nat × List Elem :=
  vlPlaces f r (sideOf s s.cur.1 u (agCap str r ag.toNat) fmt.toNat) (agAddr str r ag.toNat) (laneStride str r ag.toNat).1
    (laneStride str r ag.toNat).2 et ix ((List.range (width et)).filter mask.getLsbD)

end Sys2Proof.Claims

/-! ## Vector arithmetic (chapter 06) -/

/-- R150: what each source of a VA word reads. -/
def Sys2Proof.Claims.SourceValues : Prop :=
  ∀ (s : State) (k row0 et : Nat) (u : Machine.Unit) (push : Double),
    (∀ n, s.rowPoison.get? (rowBase s k u + (row0 + n.toNat)) = none →
      readSrc s k u row0 et push (.v n) = (s, u, Tab.getD 0 s.rows (rowBase s k u + (row0 + n.toNat)), none)) ∧
    (∀ n, readSrc s k u row0 et push (.latch n) = (s, u, u.latches.getD n.toNat 0, none)) ∧
    (∀ n, (readSrc s k u row0 et push (.sq n)).2.2.1 = (u.sqAt n.toNat).entries.headD 0 ∧
      ((readSrc s k u row0 et push (.sq n)).2.1.sqAt n.toNat).entries = (u.sqAt n.toNat).entries.drop 1) ∧
    (∀ i, i < width et → et < 4 →
      laneOf (readSrc s k u row0 et push .pushed).2.2.1 (laneBits et) i = push.toNat % 2 ^ laneBits et ∧
      laneOf (readSrc s k u row0 et push .zero).2.2.1 (laneBits et) i = 0 ∧
      laneOf (readSrc s k u row0 et push .one).2.2.1 (laneBits et) i = [0x3F800000, 1, 0x3F80, 0x3C00].getD et 0 ∧
      (et = 1 → laneOf (readSrc s k u row0 et push .lane).2.2.1 (laneBits et) i = i) ∧
      (et ≠ 1 → (etFloat et).encode (Val.ofInt (i : Nat)) .rne false 0 = (laneOf (readSrc s k u row0 et push .lane).2.2.1 (laneBits et) i, 0)))

/-- R155, R156, R161 to R164: an element-wise two-source VA word computes each lane from the lanes of its sources alone, takes the next
number of VA, and is written back for its enabled lanes. -/
def Sys2Proof.Claims.VectorLaneResults : Prop :=
  ∀ e ∈ vectorRows, ∀ (s : State) (u : Machine.Unit) (r : Strand) (x : Bool) (vd : BitVec 6) (a b : Src) (vp : PReg) (ha hb : Bool)
    (rows : List Row) (et lb : Nat) (lane : Nat → Nat × Flags),
    VaIssues s u r ([a, b] ++ if e.2.1 then [.v vd] else []) false false vd.toNat vp rows → etypeOf .va r.cfg = et → laneBits et = lb →
    (∀ i, lane i = e.2.2 et (Rnd.ofCode (BitVec.ofNat 3 (cfgRead .va r.cfg 2).toNat)) (laneOf (rows.getD 0 0) lb i) (laneOf (rows.getD 1 0) lb i)
      (laneOf (rows.getD 2 0) lb i)) →
    ∃ t w, exec (e.1 x vd a b vp ha hb) s = .next (leftE s .va 1 t w) ∧
      VaIssued u w (laneBack x et (row0Of .va r.cfg + vd.toNat) (u.vpreg vp) ((List.range (width et)).map fun i => (lane i).1))
        (laneFlags et (u.vpreg vp) fun i => (lane i).2) u.r.lfsrv

/-- R163, R164, R167, R169: the one-source element-wise words; a type that one does not take is the operand-range trap. -/
def Sys2Proof.Claims.VectorUnaryResults : Prop :=
  (∀ e ∈ vectorRows1, ∀ (s : State) (u : Machine.Unit) (r : Strand) (x : Bool) (vd : BitVec 6) (a : Src) (vp : PReg) (ha : Bool)
    (rows : List Row) (et lb : Nat) (lane : Nat → Nat × Flags),
    VaIssues s u r [a] false false vd.toNat vp rows → etypeOf .va r.cfg = et → laneBits et = lb → e.2.1 et = true →
    (∀ i, lane i = e.2.2 et (Rnd.ofCode (BitVec.ofNat 3 (cfgRead .va r.cfg 2).toNat)) (laneOf (rows.getD 0 0) lb i)) →
    ∃ t w, exec (e.1 x vd a vp ha) s = .next (leftE s .va 1 t w) ∧
      VaIssued u w (laneBack x et (row0Of .va r.cfg + vd.toNat) (u.vpreg vp) ((List.range (width et)).map fun i => (lane i).1))
        (laneFlags et (u.vpreg vp) fun i => (lane i).2) u.r.lfsrv) ∧
  (∀ (s : State) (u : Machine.Unit) (r : Strand) (x : Bool) (vd : BitVec 6) (a : Src) (fmt : BitVec 4) (rnd : BitVec 3) (vp : PReg) (ha : Bool)
    (rows : List Row) (et lb : Nat) (lane : Nat → Nat × Flags),
    VaIssues s u r [a] false false vd.toNat vp rows → etypeOf .va r.cfg = et → laneBits et = lb → (cvtKind et fmt.toNat).isSome = true →
    (∀ i, lane i = cvtLane et fmt.toNat (Rnd.ofCode rnd)
      ((if Rnd.ofCode rnd = .sr then lfsrs (width et) u.r.lfsrv else []).getD i 0) (laneOf (rows.getD 0 0) lb i)) →
    ∃ t w, exec (.vcvt x vd a fmt rnd vp ha) s = .next (leftE s .va 1 t w) ∧
      VaIssued u w (laneBack x et (row0Of .va r.cfg + vd.toNat) (u.vpreg vp) ((List.range (width et)).map fun i => (lane i).1))
        (laneFlags et (u.vpreg vp) fun i => (lane i).2) (if Rnd.ofCode rnd = .sr then lfsrN (width et) u.r.lfsrv else u.r.lfsrv)) ∧
  (∀ e ∈ vectorRows1, ∀ (s : State) (u : Machine.Unit) (r : Strand) (x : Bool) (vd : BitVec 6) (a : Src) (vp : PReg) (ha : Bool),
    Running s .va u r → e.2.1 (etypeOf .va r.cfg) = false →
    exec (e.1 x vd a vp ha) s = .next (raise s s.cur.1 (causeE u .va 0x07 0 0 Acc.none)))

/-- R165: a compare writes its predicate at the enabled lanes of the width, and keeps every other bit. -/
def Sys2Proof.Claims.VectorCompareResults : Prop :=
  ∀ e ∈ vectorCompares, ∀ (s : State) (u : Machine.Unit) (r : Strand) (x : Bool) (d : PReg) (a b : Src) (vp : PReg) (ha hb : Bool)
    (rows : List Row) (et lb : Nat),
    VaIssues s u r [a, b] true false d.toNat vp rows → etypeOf .va r.cfg = et → laneBits et = lb →
    ∃ t w p, exec (e.1 x d a b vp ha hb) s = .next (leftE s .va 1 t w) ∧
      VaIssued u w { rows := [], preds := if x || !anyLane et (u.vpreg vp) then [] else [(d.toNat, p)] }
        (laneFlags et (u.vpreg vp) fun i =>
          if et ≠ 1 ∧ e.2.1 = true ∧ (((etFloat et).decode (laneOf (rows.getD 0 0) lb i)).isNan = true ∨
            ((etFloat et).decode (laneOf (rows.getD 1 0) lb i)).isNan = true) then Fl.iv else 0) u.r.lfsrv ∧
      ∀ i < 256, p.getLsbD i =
        if i < width et ∧ (u.vpreg vp).getLsbD i = true then
          (if et = 1 then e.2.2.1 ((laneOf (rows.getD 0 0) lb i : Int).bmod (2 ^ 32)) ((laneOf (rows.getD 1 0) lb i : Int).bmod (2 ^ 32))
           else e.2.2.2 ((etFloat et).decode (laneOf (rows.getD 0 0) lb i)) ((etFloat et).decode (laneOf (rows.getD 1 0) lb i)))
        else (u.vpreg d).getLsbD i

/-- R166, R168, R170 to R175: the words that compute on whole rows, and VSEL, VPERM and the VTOPK merge, write one row or two. -/
def Obligations.VectorRowResults : Prop :=
  (∀ e ∈ vectorForms, ∀ (s : State) (u : Machine.Unit) (r : Strand) (vd : BitVec 6) (a : Src) (vp : PReg) (ha : Bool)
    (rows : List Row) (et : Nat) (o : VaOut),
    VaIssues s u r [a] false e.2.two vd.toNat vp rows → etypeOf .va r.cfg = et → e.2.ok et r.cfg = true → (e.2.two = true → vd ≠ 63) →
    (e.2.every = false → anyLane et (u.vpreg vp) = true) →
    e.2.f { et := et, cfg := r.cfg, mask := u.vpreg vp, rows := rows, lfsr := u.r.lfsrv } = o →
    ∃ t w, exec (e.1 false vd a vp ha) s = .next (leftE s .va 1 t w) ∧
      VaIssued u w { rows := (row0Of .va r.cfg + vd.toNat, rowOf (laneBits et) o.lo, if e.2.every then BitVec.allOnes 256 else u.vpreg vp, laneBits et) ::
          (match o.hi with
            | some h => [(row0Of .va r.cfg + vd.toNat + 1, rowOf (laneBits et) h, if e.2.every then BitVec.allOnes 256 else u.vpreg vp, laneBits et)]
            | none => []), preds := [] } o.fl o.lfsr) ∧
  (∀ (s : State) (u : Machine.Unit) (r : Strand) (vd : BitVec 6) (a b : Src) (vp : PReg) (ha hb : Bool) (rows : List Row) (et lb : Nat),
    VaIssues s u r [a, b] false false vd.toNat vp rows → etypeOf .va r.cfg = et → laneBits et = lb →
    (∃ t w, exec (.vsel false vd a b vp ha hb) s = .next (leftE s .va 1 t w) ∧
      VaIssued u w { rows := [(row0Of .va r.cfg + vd.toNat, rowOf lb ((List.range (width et)).map fun i =>
        laneOf (rows.getD (if (u.vpreg vp).getLsbD i then 0 else 1) 0) lb i), BitVec.allOnes 256, lb)], preds := [] } 0 u.r.lfsrv) ∧
    (∃ t w, exec (.vperm false vd a b vp ha hb) s = .next (leftE s .va 1 t w) ∧
      VaIssued u w (laneBack false et (row0Of .va r.cfg + vd.toNat) (u.vpreg vp) ((List.range (width et)).map fun i =>
        laneOf (rows.getD 0 0) lb (laneOf (rows.getD 1 0) lb i % width et))) 0 u.r.lfsrv)) ∧
  (∀ (s : State) (u : Machine.Unit) (r : Strand) (vd : BitVec 6) (a b : Src) (vp : PReg) (ha hb : Bool) (rows : List Row) (et : Nat) (o : VaOut),
    VaIssues s u r [a, b] false true vd.toNat vp rows → etypeOf .va r.cfg = et → et ≠ 1 → vd ≠ 63 → qresForm.ok et r.cfg = true →
    anyLane et (u.vpreg vp) = true → qresForm.f { et := et, cfg := r.cfg, mask := u.vpreg vp, rows := rows, lfsr := u.r.lfsrv } = o →
    ∃ t w h, exec (.vqres false vd a b vp ha hb) s = .next (leftE s .va 1 t w) ∧ o.hi = some h ∧
      VaIssued u w { rows := [(row0Of .va r.cfg + vd.toNat, rowOf (laneBits et) o.lo, u.vpreg vp, laneBits et),
        (row0Of .va r.cfg + vd.toNat + 1, rowOf (laneBits et) h, u.vpreg vp, laneBits et)], preds := [] } o.fl o.lfsr) ∧
  (∀ (s : State) (u : Machine.Unit) (r : Strand) (vd a b : BitVec 6) (rows : List Row) (et : Nat) (o : VaOut),
    VaIssues s u r [.v a, .v (a + 1), .v b, .v (b + 1)] false true vd.toNat 0 rows → etypeOf .va r.cfg = et → a ≠ 63 → b ≠ 63 → vd ≠ 63 →
    bits (cfgRead .va r.cfg 3) 7 0 + 1 ≤ width et →
    (let x : VaIn := { et := et, cfg := r.cfg, mask := BitVec.allOnes 256, rows := rows, lfsr := u.r.lfsrv }
     topK x (listOf x 0 ++ listOf x 2)) = o →
    ∃ t w h, exec (.vtopkm false vd a b) s = .next (leftE s .va 1 t w) ∧ o.hi = some h ∧
      VaIssued u w { rows := [(row0Of .va r.cfg + vd.toNat, rowOf (laneBits et) o.lo, BitVec.allOnes 256, laneBits et),
        (row0Of .va r.cfg + vd.toNat + 1, rowOf (laneBits et) h, BitVec.allOnes 256, laneBits et)], preds := [] } o.fl o.lfsr)

/-- R170, R171, R174 on INT32: the sum over the enabled lanes modulo 2^32, the running sums, and the greatest enabled lane, which every
lane of the result holds. -/
def Obligations.IntegerReductions : Prop :=
  ∀ (x : VaIn), x.et = 1 →
    (((reduceForm VaIn.plus fun _ => 0).f x).lo =
      List.replicate 128 (((List.range 128).foldl (fun n i => if x.on i then n + x.at 0 i else n) 0) % 2 ^ 32)) ∧
    (∀ j < 128, x.on j = true → (scanForm.f x).lo.getD j 0 =
      ((List.range (j + 1)).foldl (fun n i => if x.on i then n + x.at 0 i else n) 0) % 2 ^ 32) ∧
    (∀ g, ((reduceForm (fun x p q => (minMaxLane x.et false p q, 0)) (extreme true)).f x).lo = List.replicate 128 g →
      (∀ i < 128, x.on i = true → (x.at 0 i : Int).bmod (2 ^ 32) ≤ (g : Int).bmod (2 ^ 32)) ∧
      ((∃ i < 128, x.on i = true) → ∃ i < 128, x.on i = true ∧ x.at 0 i = g))

/-- R153, R154: a write-back writes the enabled lanes of its rows, and only those, and its predicates; its number completes. -/
def Sys2Proof.Claims.WriteBackResults : Prop :=
  (∀ (s : State) (k n : Nat) (new : Row) (lb : Nat) (mask : BitVec 256) (u : Machine.Unit),
    s.units.get? k = some u → (lb = 16 ∨ lb = 32) → Tab.risingFrom none s.rows = true →
    ∀ a i, i < 4096 / lb → laneOf (Tab.getD 0 (writeRow s k n new lb mask).rows a) lb i =
      if a = rowBase s k u + n ∧ mask.getLsbD i = true then laneOf new lb i else laneOf (Tab.getD 0 s.rows a) lb i) ∧
  (∀ (s : State) (p : Place) (num : Nat) (u : Machine.Unit) (o : Op) (x : VaOp),
    s.units.get? (placeKey p) = some u → findOp u .va num = some o → o.body = .va x →
    exec (.vaWriteback p num) s =
      .next (completeOp (updUnit (x.rows.foldl (fun s r => writeRow s (placeKey p) r.1 r.2.1 r.2.2.2 r.2.2.1) s) (placeKey p)
        fun u => x.preds.foldl (fun u q => u.setVp (BitVec.ofNat 3 q.1) q.2) u) (placeKey p) o)) ∧
  (∀ (s : State) (p : Place) (num : Nat) (u : Machine.Unit) (o : Op) (x : VlOp) (v : Row),
    s.units.get? (placeKey p) = some u → findOp u .vl num = some o → o.body = .vl x → x.value = some v →
    (∀ q ∈ u.ops, q.str = .vl → num ≤ q.num) →
    exec (.vlRowWrite p num) s = .next (completeOp (writeRow s (placeKey p) x.row v (laneBits x.ety) x.mask) (placeKey p) o)) ∧
  (∀ (s : State) (k : Nat) (u : Machine.Unit) (o : Op), s.units.get? k = some u → o.poison = none → o.readsT = [] → o.writesT = [] →
    u.puts = [] → u.killed = none →
    ∃ w, (completeOp s k o).units.get? k = some w ∧ w.ops = u.ops.filter (fun p => !(p.str = o.str && p.num = o.num)) ∧
      w.r.flags = orFlags u.r.flags o.flags ∧ w.r.s = u.r.s)

/-! ## Vector accesses (chapter 09) -/

/-- R242, R243, R293, R296: a VL that reads memory issues when its access is permitted, its tiles are ready and it leads no busy sub-stream
too far; it takes the next number of VL and reads each enabled lane at its own place. With no lane enabled it only takes its number. -/
def Sys2Proof.Claims.VectorLoadIssue : Prop :=
  (∀ e ∈ loadForms, ∀ (s t : State) (u u' : Machine.Unit) (r : Strand) (vd : BitVec 6) (ag : BitVec 3) (fmt : BitVec 4) (vp : PReg) (ix : Src) (bf : BitVec 2)
    (f : VlForm) (et : Nat) (rows : List Row) (w0 : Info × Nat × List Elem) (cap : Cap) (sd : Side)
    (p : Option Poison),
    e.2 ix bf = f → Running s .vl u r → etypeOf .vl r.cfg = et →
    rowsOut s u ((row0Of .vl r.cfg + vd.toNat) :: f.src.flatMap (srcRows (row0Of .vl r.cfg))) = false → sqReady u (f.src.flatMap srcSq) = true →
    readSrcs s.cur.1 (row0Of .vl r.cfg) et r.rcd.push f.src s u = (t, u', rows, p) →
    (∃ i < width et, (u.vpreg vp).getLsbD i = true) →
    agCap .vl r ag.toNat = cap → sideOf t s.cur.1 u cap fmt.toNat = sd →
    accessPlaces t u r .vl f ag fmt et (rows.headD 0) (vlMask u vp (width et)) = w0 →
    cap.tag = true → cap.rights &&& rR = rR →
    vlBad f w0.1 (rawLane sd (w0.2.2.map (·.bit))) w0.2.1 et (laneStride .vl r ag.toNat).1 (laneStride .vl r ag.toNat).2 = false →
    (match f with
      | .field bf => (patternOf r bf.toNat).bad w0.1
      | .plain | .gather _ | .trans | .bcast => false) = false →
    (∀ n ∈ f.src.flatMap (srcRows (row0Of .vl r.cfg)), n ∉ pendingVl u) →
    sideFault t u sd w0.1 rR w0.2.1 [0, 2] (match f with
      | .field _ => [8 * agAddr .vl r ag.toNat]
      | .plain | .gather _ | .trans | .bcast => w0.2.2.map (·.bit)) (w0.2.2.map (·.bit)) = none →
    tilesReady u (tilesOf t s.cur.1 u sd w0.2.1 true (w0.2.2.map (·.bit))) [] = true → slips u .vl = false →
    (splits t u sd w0.2.1 true (w0.2.2.map (·.bit)) = true → strictMode t u = false) →
    ∃ w op, exec (e.1 vd ag fmt vp ix bf) s = .next (leftE s .vl 1 t w) ∧ w.ops = u.ops ++ [op] ∧ op.str = .vl ∧
      op.num = u.cpl.issued.get .vl + 1 ∧ w.cpl.issued.get .vl = op.num ∧ w.pos.vl = u.pos.vl + 1 ∧
      op.body = .vl { cap := cap, code := fmt.toNat, els := w0.2.2, row := row0Of .vl r.cfg + vd.toNat, ety := et,
                      mask := vlMask u vp (width et), value := none }) ∧
  (∀ (s : State) (u : Machine.Unit) (r : Strand) (vd : BitVec 6) (ag : BitVec 3) (fmt : BitVec 4) (vp : PReg),
    Running s .vl u r → rowsOut s u [row0Of .vl r.cfg + vd.toNat] = false → slips u .vl = false →
    (∀ i < width (etypeOf .vl r.cfg), (u.vpreg vp).getLsbD i = false) →
    ∃ w, exec (.vl vd ag fmt vp) s = .next (leftE s .vl 1 s w) ∧ w.ops = u.ops ∧ w.cpl.issued.get .vl = u.cpl.issued.get .vl + 1) ∧
  (∀ (s : State) (u : Machine.Unit) (r : Strand) (vd : BitVec 6) (sq : BitVec 3) (vp : PReg) (x : Row) (rest : List Row),
    Running s .vl u r → rowsOut s u [row0Of .vl r.cfg + vd.toNat] = false → (u.sqAt sq.toNat).entries = x :: rest → slips u .vl = false →
    ∃ w op, exec (.vlPop vd sq 0 vp) s = .next (leftE s .vl 1 s w) ∧ w.ops = u.ops ++ [op] ∧ (w.sqAt sq.toNat).entries = rest ∧
      op.body = .vl { cap := Cap.none, code := 0, els := [], row := row0Of .vl r.cfg + vd.toNat, ety := etypeOf .vl r.cfg,
                      mask := vlMask u vp (width (etypeOf .vl r.cfg)), value := some x })

/-- R245, R246, R293, R296, R297: a VS that writes memory issues under the same conditions with what it writes; that it takes the operand-range
traps of R243 is the model's reading (log 75). VPUSH appends an entry to a stream register that has room. -/
def Sys2Proof.Claims.VectorStoreIssue : Prop :=
  (∀ e ∈ storeForms, ∀ (s t : State) (u u' : Machine.Unit) (r : Strand) (ag : BitVec 3) (fmt : BitVec 4) (a : Src) (v : BitVec 6) (ix : Src)
    (vp : PReg) (f : VlForm) (et : Nat) (rows : List Row) (w0 : Info × Nat × List Elem) (cap : Cap) (sd : Side) (p : Option Poison)
    (data : List (Nat × Nat)) (out : List BitWrite × Flags),
    e.2.2.1 ix = f → Running s .vs u r → (if e.2.2.2 then (if etypeOf .vs r.cfg = 1 then 1 else 0) else etypeOf .vs r.cfg) = et →
    rowsOut s u ((e.2.1 a v :: f.src).flatMap (srcRows (row0Of .vs r.cfg))) = false → sqReady u ((e.2.1 a v :: f.src).flatMap srcSq) = true →
    readSrcs s.cur.1 (row0Of .vs r.cfg) et r.rcd.push (e.2.1 a v :: f.src) s u = (t, u', rows, p) →
    (∃ i < width et, (u.vpreg vp).getLsbD i = true) →
    agCap .vs r ag.toNat = cap → sideOf t s.cur.1 u cap fmt.toNat = sd →
    accessPlaces t u r .vs f ag fmt et (rows.getD 1 0) (vlMask u vp (width et)) = w0 →
    cap.tag = true → cap.rights &&& rW = rW →
    vlBad f w0.1 (rawLane sd (w0.2.2.map (·.bit))) w0.2.1 et (laneStride .vs r ag.toNat).1 0 = false →
    (w0.1.b48 = true → f = .plain ∧ wholeBlocks sd w0.1 (w0.2.2.map (·.bit)) = true) →
    sideFault t u sd w0.1 rW w0.2.1 [0, 2] (w0.2.2.map (·.bit)) (w0.2.2.map (·.bit)) = none →
    tileWriteFault u (tilesOf t s.cur.1 u sd w0.2.1 true (w0.2.2.map (·.bit))) = false →
    tilesReady u [] (tilesOf t s.cur.1 u sd w0.2.1 true (w0.2.2.map (·.bit))) = true →
    (e.2.2.2 = true → ∀ n ∈ (e.2.1 a v :: f.src).flatMap (srcRows (row0Of .vs r.cfg)), unwritten u n = false) → slips u .vs = false →
    (splits t u sd w0.2.1 true (w0.2.2.map (·.bit)) = true → strictMode t u = false) →
    (w0.2.2.map fun x => (x.bit, laneOf (rows.getD 0 0) (laneBits et) x.lane)) = data →
    (if w0.1.b48 then blockWrites sd et (data.length / 48) data else plainWrites sd et data) = out →
    ∃ w op, exec (e.1 ag fmt a v ix vp) s = .next (leftE s .vs 1 t w) ∧ w.ops = u.ops ++ [op] ∧ op.str = .vs ∧
      op.num = u.cpl.issued.get .vs + 1 ∧ w.cpl.issued.get .vs = op.num ∧
      op.writesT = tilesOf t s.cur.1 u sd w0.2.1 true (w0.2.2.map (·.bit)) ∧ op.flags = out.2 ∧
      op.body = .vs { cap := cap, writes := out.1.flatMap (cutWrite (shiftOf t u.ctx sd.oid)) }) ∧
  (∀ (s t : State) (u u' : Machine.Unit) (r : Strand) (sq : BitVec 3) (a : Src) (vp : PReg) (row : Row) (et : Nat),
    Running s .vs u r → etypeOf .vs r.cfg = et → rowsOut s u (srcRows (row0Of .vs r.cfg) a) = false → sqReady u (srcSq a) = true →
    vsMayPush (u.sqAt sq.toNat) = true → (u.sqAt sq.toNat).entries.length < 4 → slips u .vs = false →
    readSrc s s.cur.1 u (row0Of .vs r.cfg) et r.rcd.push a = (t, u', row, none) →
    ∃ w x, exec (.vpush sq 0 a vp) s = .next (leftE s .vs 1 t w) ∧ (w.sqAt sq.toNat).entries = (u'.sqAt sq.toNat).entries ++ [x] ∧
      (w.sqAt sq.toNat).producer = some (.vs false) ∧ w.cpl.issued.get .vs = u.cpl.issued.get .vs + 1 ∧
      ∀ i < width et, laneOf x (laneBits et) i = if (u.vpreg vp).getLsbD i then laneOf row (laneBits et) i else 0)

/-- The seven kinds of source read what R150 says. VA and VL write-backs write the enabled lanes of their destination rows and no other lane or row,
VA its lane predicates, and the number's operation is gone from the unit's operations in flight, with its flags in $flags. -/
def Obligations.SourcesAndWriteBacks : Prop :=
  Claims.SourceValues ∧ Claims.WriteBackResults

/-- VADD, VSUB, VMUL, VFMA, VFNMA, VMIN, VMAX, VCLAMP, VAND, VOR, VXOR, VSHL, VSHR, VABS, VMOV, VEXP2, VLOG2, VRCP, VRSQ, VCVT, VCEQ, VCLT and VCLE,
when they may issue: exec answers a state in which the word has taken the next number of VA, with the lane results to be written back for the enabled
lanes (none under D) and the flags of the enabled lanes; a type that a word does not take is the operand-range trap. The compares write the bit of
each enabled lane and keep every other. The precision of the four transcendental functions is the model's (log 13). -/
def Obligations.VectorElementResults : Prop :=
  Claims.VectorLaneResults ∧ Claims.VectorUnaryResults ∧ Claims.VectorCompareResults

/-- VL, VL.G, VL.T, VL.BF, VL.BC, VL.POP, VST, VST.S, VSTA and VPUSH, when their checks pass and nothing makes them wait: exec answers a state in
which the word has taken the next number of its stream, with an operation that reads or writes each enabled lane at its place, in the format of the
bank in which each lies; a load with no lane enabled takes its number alone. That a store takes the operand-range traps of R243 is the model's reading
(log 75). -/
def Obligations.VectorAccessIssue : Prop :=
  Claims.VectorLoadIssue ∧ Claims.VectorStoreIssue

namespace Sys2Proof.Claims
open Sys2Proof.Machine

/-! ## Engine commands -/

/-- An engine command: what it does, its slot and class, its rows (R179, R337), the tile registers it names with their format codes, what it
asks for, and its words. -/
structure Command where
  cmd : MCmd
  ls : BitVec 2
  cls : EngineClass
  acc : Nat
  n : Nat
  tiles : List (Nat × Nat)
  plan : State → Machine.Unit → EngMem → Tab Word → List Operand → Plan
  len : Nat

/-- The capability and the block indices of an SVGATH's source: those of the selection that its tile holds (R197). -/
def sourceOf (s : State) (u : Machine.Unit) (r : Strand) (ls : BitVec 2) (ta : BitVec 4) : Cap × List Nat :=
  (r.rcd.caps.toList.getD (bits (cfgRead .m (u.cpl.mactive.toList.getD ls.toNat []) 0x11) 3 0) Cap.none,
    (selectionOf s (operandOf s s.cur.1 u ta.toNat 0)).getD [])

/-- The command of an M word; SVGATH's names the selection that its tile holds. -/
def commandOf (s : State) (u : Machine.Unit) (r : Strand) : Instr → Option Command
  | .mlb ls tb => some ⟨.mlb tb.toNat, ls, .griddle, 0, 0, [(tb.toNat, 0)], mlbPlan, 1⟩
  | .mza ls acc n => some ⟨.mza acc.toNat (n.toNat + 1), ls, .griddle, acc.toNat, n.toNat + 1, [], closePlan, 1⟩
  | .mla ls acc ta n => some ⟨.mla acc.toNat ta.toNat (n.toNat + 1), ls, .griddle, acc.toNat, n.toNat + 1, [(ta.toNat, 0)], mlaPlan (n.toNat + 1), 1⟩
  | .mmul ls acc ta n =>
    some ⟨.mmul acc.toNat ta.toNat (n.toNat + 1), ls, .griddle, acc.toNat, n.toNat + 1, [(ta.toNat, 0)], mmulPlan acc.toNat (n.toNat + 1), 1⟩
  | .mmac ls acc ta n =>
    some ⟨.mmac acc.toNat ta.toNat (n.toNat + 1), ls, .griddle, acc.toNat, n.toNat + 1, [(ta.toNat, 0)], mmacPlan acc.toNat (n.toNat + 1), 1⟩
  | .mprom ls n => some ⟨.mprom (n.toNat + 1), ls, .griddle, 0, 0, [], closePlan, 1⟩
  | .mpert ls row col v => some ⟨.mpert row.toNat col.toNat v, ls, .griddle, 0, 0, [], mpertPlan, 2⟩
  | .wld ls tb => some ⟨.wld tb.toNat, ls, .whisk, 0, 0, [(tb.toNat, 0)], wldPlan, 1⟩
  | .wmul ls acc ta n =>
    some ⟨.wmul acc.toNat ta.toNat (n.toNat + 1), ls, .whisk, acc.toNat, n.toNat + 1, [(ta.toNat, 0)], whiskPlan false acc.toNat (n.toNat + 1), 1⟩
  | .wmac ls acc ta n =>
    some ⟨.wmac acc.toNat ta.toNat (n.toNat + 1), ls, .whisk, acc.toNat, n.toNat + 1, [(ta.toNat, 0)], whiskPlan true acc.toNat (n.toNat + 1), 1⟩
  | .svscore ls ta tb n => some ⟨.svscore ta.toNat tb.toNat (n.toNat + 1), ls, .sieve, 0, 0, [(ta.toNat, 0), (tb.toNat, 0)], svscorePlan (n.toNat + 1), 1⟩
  | .svtopk ls tb n => some ⟨.svtopk tb.toNat (n.toNat + 1), ls, .sieve, 0, 0, [(tb.toNat, 0)], svtopkPlan (n.toNat + 1), 1⟩
  | .svgath ls ta tb =>
    some ⟨.svgath ta.toNat tb.toNat, ls, .sieve, 0, 0, [(ta.toNat, 0), (tb.toNat, 0)], svgathPlan (selectionOf s (operandOf s s.cur.1 u ta.toNat 0))
      (gatherTiles s s.cur.1 u (sourceOf s u r ls ta).1 (u.cpl.mactive.toList.getD ls.toNat []) (sourceOf s u r ls ta).2), 1⟩
  | .ktexp ls acc ta n => some ⟨.ktexp acc.toNat ta.toNat (n.toNat + 1), ls, .kettle, acc.toNat, n.toNat + 1, [(ta.toNat, 0)], ktexpPlan (n.toNat + 1), 1⟩
  | .ktsmax ls acc ta n => some ⟨.ktsmax acc.toNat ta.toNat (n.toNat + 1), ls, .kettle, acc.toNat, 0, [(ta.toNat, 0)], ktsmaxPlan acc.toNat (n.toNat + 1), 1⟩
  | .gtqnt ls ta tb fmt => some ⟨.gtqnt ta.toNat tb.toNat fmt.toNat, ls, .grater, 0, 0, [(ta.toNat, 0), (tb.toNat, fmt.toNat)], gtqntPlan fmt, 1⟩
  | .gtsum ls ta tb n => some ⟨.gtsum ta.toNat tb.toNat (n.toNat + 1), ls, .grater, 0, 0, [(ta.toNat, 0), (tb.toNat, 0)], gtsumPlan (n.toNat + 1), 1⟩
  | .spred ls ta tb op => some ⟨.spred ta.toNat tb.toNat op.toNat, ls, .stockpot, 0, 0, [(ta.toNat, 0), (tb.toNat, 0)], spredPlan op, 1⟩
  | .spbc ls ta n => some ⟨.spbc ta.toNat n.toNat, ls, .stockpot, 0, 0, [(ta.toNat, 0)], spbcPlan n.toNat, 1⟩
  | _ => none

/-- The checks of SVGATH's source blocks find nothing, and they split no page in strict mode (R197, R269, R367); true of every other command. -/
def SourceFits (s : State) (u : Machine.Unit) (r : Strand) : Instr → Prop
  | .svgath ls ta _ =>
    let cfg := u.cpl.mactive.toList.getD ls.toNat []
    gatherFault s u (sourceOf s u r ls ta).1 cfg (sourceOf s u r ls ta).2 = none ∧
      (gatherSplits s u (sourceOf s u r ls ta).1 cfg (sourceOf s u r ls ta).2 ≠ 0 → strictMode s u = false)
  | _ => True

/-- The closes of an ended strand that the unit still owes wait for commands in flight, and none is of the slot (R189). -/
def NoCloseDue (u : Machine.Unit) (ls : Nat) : Prop := ∀ c ∈ u.closing, closeWaits u c = true ∧ ls ∉ c.2

/-- A command finds its lease serving, its slot idle, its tick come, its tiles ready, its operands as they must be, and the rows it reads
written: it starts (R65, R66, R177 to R180, R189, R295, R296, R316, R337, R384). -/
def CommandStarts (s : State) (u : Machine.Unit) (c : Command) (l : LeaseSlot) (p : Plan) : Prop :=
  c.acc + c.n ≤ 192 ∧ c.acc + c.n ≤ unitRows s u ∧ u.leases.toList.getD c.ls.toNat none = some l ∧ l.evicted = false ∧ l.eng.cls = c.cls ∧
  (∀ t ∈ c.tiles, (u.tileAt t.1).reg = true) ∧ leaseServes s s.cur.1 c.ls.toNat l = true ∧
  (∀ off, u.matAt = some off → leaseBase s l + off.toNat ≤ s.time) ∧ u.slotIdle c.ls.toNat = true ∧ NoCloseDue u c.ls.toNat ∧
  c.plan s u (engAt s l.eng).mem (u.cpl.mactive.toList.getD c.ls.toNat []) (c.tiles.map fun t => operandOf s s.cur.1 u t.1 t.2) = p ∧
  tilesReady u (p.readTiles s s.cur.1 u) (p.writeTiles s s.cur.1 u) = true ∧ p.bad = false ∧ p.out ≤ unitRows s u ∧
  (∀ x ∈ p.rd ++ p.wr, x.o.bad x.n x.w x.scaled = false) ∧ p.fault s u = none ∧ (∀ n ∈ p.rows, unwritten u n = false) ∧
  (p.splits s u ≠ 0 → strictMode s u = false)

/-- An engine command in flight whose engine serves it (R178). -/
def CommandServed (s : State) (p : Place) (num : Nat) (u : Machine.Unit) (o : Op) (m : MOp) : Prop :=
  s.units.get? (placeKey p) = some u ∧ findOp u .m num = some o ∧ o.body = .m m ∧ o.held = false ∧ (engAt s m.eng).power = .awake ∧
  (engAt s m.eng).key = some (placeKey p, m.slot)

/-! ## Copies -/

/-- The coordinate of dimension k of element e, dimension 0 fastest (R248). -/
def coordinate (ds : List Dim) (k e : Nat) : Nat := e / prodExt (ds.take k) % ((ds[k]?).map (·.extent)).getD 1

/-- The stride of dimension k in bits: its own, or dense. -/
def strideBits (z : Nat) (ds : List Dim) (k : Nat) : Int :=
  match (ds[k]?).bind (·.stride) with
  | some w => 8 * w.toInt
  | none => (prodExt (ds.take k) * z : Nat)

/-- The checks of a DGO find nothing (R227, R249 to R254, R258, R296, R367). -/
def CopyIssues (s : State) (u : Machine.Unit) (agd : BitVec 3) (c : CopyDesc) : Prop :=
  let d := u.setup
  let lvl := (levelOf s u.ctx c.dst.oid).getD 4
  let g := geoOf s s.cur.1 u c
  let wr := if c.mask = 0 ∨ c.mask.getLsbD (groveOf s.cur.1) = true then tilesOf s s.cur.1 u g.dst g.zd (!g.raw) g.pd else []
  let rd := (tilesOf s s.cur.1 u g.src g.zs (!g.raw) g.ps).filter fun t => !wr.elem t
  (isTwice s u = true → d.red = none) ∧ (∀ o ∈ u.ops, o.str = .d → waitingCopy o = false) ∧ prodExt c.srcDims = prodExt c.dstDims ∧
  c.src.tag = true ∧ c.src.rights &&& rR = rR ∧ c.dst.tag = true ∧
  hasRights c.dst.rights (if d.red.isSome then rW + rA else rW) = true ∧ setupBad s s.cur.1 u d agd.toNat lvl g.dst = false ∧
  denseBad g.zs c.srcDims = false ∧ denseBad g.zd c.dstDims = false ∧ (∀ x, d.red = some x → reduceBad lvl g x.1 = false) ∧
  copySide s u g.src g.fs g.raw g.zs rR g.ps = none ∧ copySide s u g.dst g.fd g.raw g.zd rW g.pd = none ∧ stampFault s u d.stamp = none ∧
  blocksBad g = false ∧ barredSide s u c = none ∧ tileWriteFault u wr = false ∧ tilesReady u rd wr = true ∧
  (splits s u g.src g.zs (!g.raw) g.ps = true ∨ splits s u g.dst g.zd (!g.raw) g.pd = true → strictMode s u = false)

/-- The tick of a copy has come: its own of CPY.AT, and, under a leased Ladle step that is not frozen, the first of the step's START slot
(R69, R249, R403). -/
def TickCome (s : State) (u : Machine.Unit) (own : Option Int) : Prop :=
  (∀ t, own = some t → t ≤ (s.time : Int)) ∧ ∀ l st, u.ladle = some l → stepAt s l.handle l.step = some st →
    st.st ≠ .frozen ∧ 64 * (st.rmd.map (·.start)).getD st.start ≤ s.time

/-- The machine after a copy has completed: the watermarks of its elements may be freed later, its number is done, and its stream register has no
producer once it is empty (R217, R251, R297). -/
def copyDone (s : State) (k : Nat) (u : Machine.Unit) (o : Op) (x : DOp) : State :=
  updUnit (completeOp (settleMarks s u.ctx x.desc.red) k o) k fun w => match x.desc.bind with
    | some q => w.freeProducer q
    | none => w

/-- A copy in flight. -/
def CopyInFlight (s : State) (p : Place) (num : Nat) (u : Machine.Unit) (o : Op) (x : DOp) : Prop :=
  s.units.get? (placeKey p) = some u ∧ findOp u .d num = some o ∧ o.body = .d x

end Sys2Proof.Claims

/-! ## Engine commands (chapter 07) -/

/-- R66, R177 to R181: an engine command whose lease, tiles and operands allow it takes the next number of M and starts. -/
def Sys2Proof.Claims.EngineCommandIssue : Prop :=
  ∀ (i : Instr) (s : State) (u : Machine.Unit) (r : Strand) (c : Command) (l : LeaseSlot) (p : Plan),
    commandOf s u r i = some c → Running s .m u r → CommandStarts s u c l p → SourceFits s u r i →
    ∃ t w op m, exec i s = .next (leftE s .m c.len t w) ∧ w.ops = u.ops ++ [op] ∧ op.str = .m ∧ op.num = u.cpl.issued.get .m + 1 ∧
      w.cpl.issued.get .m = op.num ∧ op.readsT = p.readTiles s s.cur.1 u ∧ op.writesT = p.writeTiles s s.cur.1 u ∧ op.body = .m m ∧
      m.cmd = c.cmd ∧ m.slot = c.ls.toNat ∧ m.eng = l.eng ∧ m.rows.length = p.rows.length ∧ w.matAt = none

/-- R65, R66, R295: what an engine command is refused for before any wait: rows beyond the file or the unit's, a slot with no lease of its
class, an evicted lease, and an unregistered tile. -/
def Sys2Proof.Claims.EngineCommandTraps : Prop :=
  ∀ (i : Instr) (s : State) (u : Machine.Unit) (r : Strand) (c : Command), commandOf s u r i = some c → Running s .m u r →
    (∀ x ∈ u.closing, closeWaits u x = true) →
    (192 < c.acc + c.n ∨ unitRows s u < c.acc + c.n → exec i s = .next (raise s s.cur.1 (causeE u .m 0x07 0 0 Acc.none))) ∧
    (c.acc + c.n ≤ 192 → c.acc + c.n ≤ unitRows s u →
      (u.leases.toList.getD c.ls.toNat none = none → exec i s = .next (raise s s.cur.1 (causeE u .m 0x08 0 0 Acc.none))) ∧
      ∀ l, u.leases.toList.getD c.ls.toNat none = some l →
        (l.evicted = true → exec i s = .next (raise s s.cur.1 (causeE u .m 0x09 0 0 Acc.none))) ∧
        (l.evicted = false → l.eng.cls ≠ c.cls → exec i s = .next (raise s s.cur.1 (causeE u .m 0x08 0 0 Acc.none))) ∧
        (l.evicted = false → l.eng.cls = c.cls → (∃ t ∈ c.tiles, (u.tileAt t.1).reg = false) →
          exec i s = .next (raise s s.cur.1 (causeE u .m 0x07 0 0 Acc.none))))

/-- R65, R183: MAT.AT before an engine command holds its offset for it; before a token word or no instruction of the stream, and at the strand's
end, it is the illegal-instruction trap. That a word of an opcode that no engine command has is taken for one here is the model's choice
(log 87). -/
def Sys2Proof.Claims.StampedCommands : Prop :=
  (∀ (s : State) (u : Machine.Unit) (r : Strand) (off : BitVec 18) (w : Word), Running s .m u r → r.off + 1 < r.rcd.len →
    (r.store[r.off + 1]?).map (·.1) = some w → 1 ≤ w.toNat / 2 ^ 26 → w.toNat / 2 ^ 26 ≠ 0x14 → w.toNat / 2 ^ 26 ≠ 0x15 →
    exec (.matAt off) s = .next (leftE s .m 1 s { u with matAt := some off })) ∧
  (∀ (s : State) (u : Machine.Unit) (r : Strand) (off : BitVec 18), Running s .m u r →
    (r.rcd.len ≤ r.off + 1 ∨ ∃ w, (r.store[r.off + 1]?).map (·.1) = some w ∧ w.toNat / 2 ^ 26 ∈ [0x00, 0x14, 0x15]) →
    exec (.matAt off) s = .next (raise s s.cur.1 (causeE u .m 0x02 0 0 Acc.none))) ∧
  (∀ (s : State) (p : Place) (u : Machine.Unit) (off : BitVec 18), s.units.get? (placeKey p) = some u → u.matAt = some off →
    u.waits.m = some .issueTick → exec (.stampedCommandIssue p) s = .next { s with agenda := .issue p.h p.bank .m :: s.agenda })

/-- R178, R186, R193, R325: the completion of MZA writes zero rows, of MPROM the interval, and of MPERT the perturbation; the number completes.
None of the three makes an access, so a spent byte budget does not hold it. -/
def Sys2Proof.Claims.EngineCompletions : Prop :=
  ∀ (s : State) (p : Place) (num : Nat) (u : Machine.Unit) (o : Op) (m : MOp), CommandServed s p num u o m → closeOf u o = none →
    heldForClose s (placeKey p) u o = false →
    (∀ acc n, m.cmd = .mza acc n → Tab.risingFrom none s.rows = true →
      ∃ t, exec (.engineCommandComplete p num) s = .next (finishCmd t (placeKey p) o m []) ∧
        (∀ i < n, Tab.getD 0 t.rows (rowBase s (placeKey p) u + acc + i) = 0) ∧
        (∀ a, (a < rowBase s (placeKey p) u + acc ∨ rowBase s (placeKey p) u + acc + n ≤ a) → Tab.getD 0 t.rows a = Tab.getD 0 s.rows a) ∧
        t.mem = s.mem) ∧
    (∀ i, m.cmd = .mprom i →
      exec (.engineCommandComplete p num) s =
        .next (finishCmd (updEng s m.eng fun x => { x with interval := i - 1 }) (placeKey p) o m [])) ∧
    (∀ row col v, m.cmd = .mpert row col v →
      exec (.engineCommandComplete p num) s =
        .next (finishCmd (updEng s m.eng fun x => { x with pert := some (row, col, v) }) (placeKey p) o m []))

/-- R190: on the integer path each accumulator element gains the exact sum of its products modulo 2^32, with no flag. -/
def Obligations.IntegerMultiply : Prop :=
  ∀ (i : Nat) (r : Run) (as bs : List (List Blk)), r.int = true → bs.length = 128 →
    (multiply i r as bs).2 = (0, false) ∧
    ∀ (n j : Nat) (row : Row) (a : List Blk) (b : List Blk), r.vals[n]? = some row → as[n]? = some a → bs[j]? = some b →
      ∃ out, (multiply i r as bs).1.vals[n]? = some out ∧
        (laneOf out 32 j : Int) = (laneOf row 32 j + (List.zipWith (fun x y => valInt x * valInt y) (blkVals a) (blkVals b)).sum) % 2 ^ 32

/-- R196: a selection holds every forced block and the best of the others, as many as it may, each once, in ascending index. -/
def Obligations.BlockSelection : Prop :=
  ∀ (scores : List Nat) (cfg : Tab Word) (k : Nat),
    let forced := fun (i : Nat) => i < bits (cfgRead .m cfg 0x10) 3 0 ∨ scores.length ≤ i + bits (cfgRead .m cfg 0x10) 7 4
    let sel := selection scores cfg k
    sel.Pairwise (fun x y => x.1 < y.1) ∧ (∀ x ∈ sel, x.1 < scores.length) ∧
    (∀ i < scores.length, forced i → (i, 0xFFFF) ∈ sel) ∧
    (sel.filter fun x => x.2 < 0xFFFF ∧ ¬ forced x.1).length ≤ k ∧
    ∀ i < scores.length, ¬ forced i → (∀ x ∈ sel, x.1 ≠ i) →
      (sel.filter fun x => ¬ forced x.1).length = k ∧ ∀ x ∈ sel, ¬ forced x.1 → ranks 0 (scores.getD x.1 0, x.1) (scores.getD i 0, i) = true

/-! ## Copies (chapter 09) -/

/-- R68, R69, R247, R250 to R255: each set-up word writes its part of the set-up, and nothing else; a second one replaces the first. -/
def Sys2Proof.Claims.CopySetUp : Prop :=
  ∀ (s : State) (u : Machine.Unit) (r : Strand), Running s .d u r →
    (∀ dim side ext stride, exec (.dset dim side ext stride) s = .next (leftE s .d (if stride.isSome then 2 else 1) s
      { u with cpl := { u.cpl with dims := Tab.set ⟨1, none⟩ u.cpl.dims (dimKey side dim.toNat) ⟨ext.toNat + 1, stride⟩ } })) ∧
    (∀ (w : Word) (at_ : Int), s.time < 2 ^ 64 → (s.time : Int) + ((w.toNat : Int) - s.time).bmod (2 ^ 32) = at_ →
      exec (.cpyAt w) s = .next (leftE s .d 2 s { u with setup := { u.setup with at_ := some at_ } })) ∧
    (∀ m, (∀ g < 16, m.getLsbD g = true → (groveAt s g).retired = false) →
      exec (.dmask m) s = .next (leftE s .d 1 s { u with setup := { u.setup with mask := some m } })) ∧
    (∀ m g, g < 16 → m.getLsbD g = true → (groveAt s g).retired = true →
      exec (.dmask m) s = .next (raise s s.cur.1 (causeE u .d 0x03 0 0 Acc.none))) ∧
    (∀ rop id, isTwice s u = false → exec (.dred rop id) s = .next (leftE s .d 2 s { u with setup := { u.setup with red := some (rop.toNat, id) } })) ∧
    (∀ rop id, isTwice s u = true → exec (.dred rop id) s = .next (raise s s.cur.1 (causeE u .d 0x07 0 0 Acc.none))) ∧
    (∀ sq ag, exec (.dbind sq ag) s = .next (leftE s .d 1 s { u with setup := { u.setup with bind := some (sq.toNat, ag.toNat) } })) ∧
    (∀ ag, exec (.dstamp ag) s = .next (leftE s .d 1 s
      { u.useAg .d ag.toNat with setup := { u.setup with stamp := some (agCap .d r ag.toNat, agAddr .d r ag.toNat) } })) ∧
    exec .dfill s = .next (leftE s .d 1 s { u with setup := { u.setup with fill := true } }) ∧
    (∀ rnd sat, exec (.dcvt rnd sat) s = .next (leftE s .d 1 s { u with setup := { u.setup with cvt := some (rnd, sat) } }))

/-- R248: element e of a side lies at its address plus the sum of its coordinates times their strides, dimension 0 fastest. -/
def Obligations.CopyGeometry : Prop :=
  ∀ (a z : Nat) (ds : List Dim), (∀ d ∈ ds, 1 ≤ d.extent) →
    (places a z ds).length = prodExt ds ∧
    ∀ e < prodExt ds, (places a z ds)[e]? =
      some ((8 * (a : Int) + ((List.range ds.length).map fun k => (coordinate ds k e : Int) * strideBits z ds k).sum) % 2 ^ 51).toNat

/-- R249, R253 to R255: a DGO that its checks admit takes the next number of D with the set-up it finds, and clears it; DCANCEL clears the
set-up and abandons the copies that wait to start. -/
def Sys2Proof.Claims.CopyIssue : Prop :=
  (∀ (s : State) (u : Machine.Unit) (r : Strand) (ags agd : BitVec 3) (nd sf df : BitVec 4) (c : CopyDesc),
    Running s .d u r → copyDesc s u r ags.toNat agd.toNat (nd.toNat + 1) sf.toNat df.toNat u.setup = c → CopyIssues s u agd c →
    ∃ w op st, exec (.dgo ags agd nd sf df) s = .next (leftE s .d 1 (if startDue s u u.setup.at_ then countLate s u u.setup.at_ else s) w) ∧
      (st = true ↔ TickCome s u u.setup.at_) ∧ w.ops = u.ops ++ [op] ∧ op.str = .d ∧
      op.num = u.cpl.issued.get .d + 1 ∧ w.cpl.issued.get .d = op.num ∧ w.setup = DSetup.none ∧
      w.building = (if u.setup.fill then u.building ++ [c] else u.building) ∧
      op.body = .d { desc := c, startAt := u.setup.at_, started := st, next := 0, block := none, lfsr := none, fill := u.setup.fill, refill := false }) ∧
  (∀ (s : State) (u : Machine.Unit) (r : Strand), Running s .d u r →
    ∃ t w, exec .dcancel s = .next (leftE s .d 1 t w) ∧ w.setup = DSetup.none ∧ t.mem = s.mem ∧
      (u.puts = [] → w.ops = u.ops.filter fun o => !(o.str == .d && u.ops.any fun p => p.str == .d && p.num == o.num && waitingCopy p)))

/-- R69, R100, R105, R212, R219, R221, R249 to R253: a copy that waits starts at its tick, and none while its unit drains; a granule write puts the
bytes that its elements give where they go, applies the elements of a reduce-copy, and fills a bound stream register; one that cannot is held, with
nothing of it written, but what a reduce-copy has applied, with the flags and the generator's steps of those elements (log 89). With every granule
written the copy writes its stamp, the D number, last, and completes. -/
def Sys2Proof.Claims.CopyCourse : Prop :=
  (∀ (s : State) (p : Place) (num : Nat) (u : Machine.Unit) (o : Op) (x : DOp), CopyInFlight s p num u o x → x.started = false → o.held = false →
    TickCome s u x.startAt → u.cause = none → u.served = none → u.roll = none → u.inh = false →
    ∃ t w q y, exec (.copyStart p num) s = .next t ∧ t.units.get? (placeKey p) = some w ∧ findOp w .d num = some q ∧ q.body = .d y ∧
      y = { x with started := true } ∧ t.mem = s.mem) ∧
  (∀ (s : State) (p : Place) (num : Nat) (u : Machine.Unit) (o : Op) (x : DOp), CopyInFlight s p num u o x → x.started = false →
    (¬ TickCome s u x.startAt ∨ u.cause.isSome = true ∨ u.roll.isSome = true) → exec (.copyStart p num) s = .next s) ∧
  (∀ (s : State) (p : Place) (num : Nat) (u : Machine.Unit) (o : Op) (x : DOp), CopyInFlight s p num u o x →
    mayWrite s (placeKey p) u o x (geoOf s (placeKey p) u x.desc) = false → exec (.granuleWrite p num) s = .next s) ∧
  (∀ (s s1 s2 : State) (p : Place) (num : Nat) (u : Machine.Unit) (o : Op) (x : DOp) (g : Geo) (bits es src : List Nat) (gs : Tab (List Byte))
    (mk : Option (FaultUnit × Bool)) (b : Batch), CopyInFlight s p num u o x → geoOf s (placeKey p) u x.desc = g →
    mayWrite s (placeKey p) u o x g = true → groupFrom g.zd g.pd x.next = bits → range' x.next (x.next + bits.length) = es →
    (sourceElems g x es).map (fun e => g.ps.getD e 0) = src →
    holdsBack u x.desc.bind (settled g.zd bits (g.pd[x.next + bits.length]?)).length (x.next + bits.length = g.pd.length) = false →
    moveGrans (placeKey p) u g.src (granSpans g.zs src) s = (s1, .inr (gs, mk)) →
    es.foldl (batchElem g x.desc gs mk)
      (charge s1 (groveOf (placeKey p)) (if g.raw then 0 else scaleGrans g.src src), Batch.empty (genOf u x) x.block) = (s2, b) →
    (∀ s3 s4 l, x.desc.red = none →
      reachDest (placeKey p) u g x.desc.mask (leastByte (b.ws.map (·.bit))) (granSpans g.zd (b.ws.map (·.bit))) s2 = (s3, .inr l) →
      (remoteTakes s3 u.ctx l = (s4, false) → exec (.granuleWrite p num) s =
        .next (holdCopy s4 (placeKey p) u o x x.desc.dst 0x21 ((b.ws.map (·.bit)).headD 0 / 8) 0 true)) ∧
      (remoteTakes s3 u.ctx l = (s4, true) → destSync s4 l = true → exec (.granuleWrite p num) s =
        .next (holdCopy s4 (placeKey p) u o x x.desc.dst 0x0D ((b.ws.map (·.bit)).headD 0 / 8) 0 true)) ∧
      (remoteTakes s3 u.ctx l = (s4, true) → destSync s4 l = false → wrongPush u x.desc.bind = true → exec (.granuleWrite p num) s =
        .next (holdCopy s4 (placeKey p) u o x x.desc.dst 0x07 ((b.ws.map (·.bit)).headD 0 / 8) 0 true))) ∧
    (∀ s3 s4 l, x.desc.red = none →
      reachDest (placeKey p) u g x.desc.mask (leastByte (b.ws.map (·.bit))) (granSpans g.zd (b.ws.map (·.bit))) s2 = (s3, .inr l) →
      remoteTakes s3 u.ctx l = (s4, true) → destSync s4 l = false → x.desc.bind = none →
      exec (.granuleWrite p num) s = .next (stepCopy (b.scales.foldl (fun s e => writeScale s (placeKey p) u g x.desc.mask e.1 e.2.1 e.2.2)
        (writeGrans (placeKey p) u.ctx (b.ws.flatMap granCut) b.mark l s4)) (placeKey p) o b es.length b.fl)) ∧
    (∀ (s3 s4 s5 : State) (l rest : List (Nat × List Dest)) (gr key a : Nat) (ds : List Dest) (q : Nat), x.desc.red = none →
      reachDest (placeKey p) u g x.desc.mask (leastByte (b.ws.map (·.bit))) (granSpans g.zd (b.ws.map (·.bit))) s2 = (s3, .inr l) →
      remoteTakes s3 u.ctx l = (s4, true) → destSync s4 l = false → x.desc.bind = some q → wrongPush u x.desc.bind = false →
      l = (gr, Dest.at key a :: ds) :: rest →
      b.scales.foldl (fun s e => writeScale s (placeKey p) u g x.desc.mask e.1 e.2.1 e.2.2)
        (writeGrans (placeKey p) u.ctx (b.ws.flatMap granCut) b.mark l s4) = s5 →
      ∃ bs : List Byte, exec (.granuleWrite p num) s =
        .next (stepCopy (arrive s5 (placeKey p) (some q) bs (x.next + es.length = g.pd.length)) (placeKey p) o b es.length b.fl) ∧
        bs.length = (settled g.zd (b.ws.map (·.bit)) (g.pd[x.next + es.length]?)).length ∧
        ∀ i off : Nat, (settled g.zd (b.ws.map (·.bit)) (g.pd[x.next + es.length]?))[i]? = some off → off / 64 = gr →
          bs[i]? = some (viewByte s5 key (a + off % 64))) ∧
    (∀ rop id s3 n fl, x.desc.red = some (rop, id) →
      applyAll (placeKey p) u g o.num rop id b.mark (List.zip es b.ws)
        (noteServed s2 (128 + hearthOf (placeKey p)) (reduceBanks s (placeKey p) u x g)) = (s3, n, fl, none) →
      exec (.granuleWrite p num) s = .next (stepCopy s3 (placeKey p) o b n (b.fl ||| fl))) ∧
    (∀ rop id s3 s4 n fl tl stop, x.desc.red = some (rop, id) →
      applyAll (placeKey p) u g o.num rop id b.mark (List.zip es b.ws)
        (noteServed s2 (128 + hearthOf (placeKey p)) (reduceBanks s (placeKey p) u x g)) = (s3, n, fl, some stop) →
      ((0, genOf u x) :: b.trail)[n]? = some tl →
      stepCopy s3 (placeKey p) o { b with block := x.block, lfsr := tl.2 } n (tl.1 ||| fl) = s4 →
      (stop = .stall → exec (.granuleWrite p num) s = .next s4) ∧
      (∀ off, stop = .sync off → exec (.granuleWrite p num) s = .next (holdCopy s4 (placeKey p) u o x x.desc.dst 0x0D off 0 true)) ∧
      (∀ off code kind, stop = .fault off code kind →
        exec (.granuleWrite p num) s = .next (holdCopy s4 (placeKey p) u o x x.desc.dst code off kind true)))) ∧
  (∀ (s : State) (p : Place) (num : Nat) (u : Machine.Unit) (o : Op) (x : DOp), CopyInFlight s p num u o x → x.started = true →
    o.held = false → prodExt x.desc.srcDims ≤ x.next → x.refill = false → (∀ q ∈ u.ops, q.str = .d → num ≤ q.num) →
    (x.desc.stamp = none → exec (.copyComplete p num) s = .next (copyDone s (placeKey p) u o x)) ∧
    (∀ c a s' key pa, x.desc.stamp = some (c, a) → spent s (groveOf (placeKey p)) = false →
      reachTo s (placeKey p) u c.oid a (a + 7) true = (s', .at key pa) → isSync s' pa = false →
      isTwice s' u = false →
      exec (.copyComplete p num) s = .next (copyDone (putBytes (charge s' (groveOf (placeKey p)) 1) key
        ((leBytes 8 num).mapIdx fun i b => (pa + i, b))) (placeKey p) u o x)))

/-- MLB, MZA, MLA, MMUL, MMAC, MPROM, MPERT, WLD, WMUL, WMAC, SVSCORE, SVTOPK, SVGATH, KTEXP, KTSMAX, GTQNT, GTSUM, SPRED and SPBC: exec answers a
state in which the command has taken the next number of M and is in flight on its lease's engine with the tiles that it reads and writes (an engine
command claims every tile whose region it touches, log 42; SVGATH also the tiles of its source blocks). The completion event of MZA writes zero rows
and no memory, of MPROM the promotion interval, of MPERT the perturbation; none of the three makes an access, so a spent byte budget holds none. -/
def Obligations.EngineCommandIssue : Prop :=
  Claims.EngineCommandIssue ∧ Claims.EngineCompletions

/-- Rows beyond the file or the unit's, a slot with no lease of the command's class, an evicted lease and an unregistered tile raise their causes in
this order (that the rows come before the lease is the model's choice, log 51, and that an acc field of 192 to 255 is the operand-range trap, log
100). MAT.AT before a word of an engine command's place holds its offset for it; before a token word or an opcode 0, or at the strand's end, it is the
illegal-instruction trap; that a word whose opcode no engine command has is taken for one here is the model's choice (log 87). At its tick the held
command's turn comes. -/
def Obligations.EngineCommandTraps : Prop :=
  Claims.EngineCommandTraps ∧ Claims.StampedCommands

/-- DSET, CPY.AT, DMASK, DRED, DBIND, DSTAMP, DFILL and DCVT each write their part of the set-up and nothing else; a mask with a retired grove, and
DRED in a run-twice unit, trap. DGO, when its checks pass, takes the next number of D with the set-up, and clears it, and the copy has started at once
if its tick has come; DCANCEL clears the set-up and drops the copies that wait to start. The events: a copy starts at its tick and not before; a
granule write writes the bytes that its elements give, applies the elements of a reduce-copy, or appends what has settled to the stream register of a
bound copy; one that meets a fault is held with nothing of it written, but for the elements that a reduce-copy has applied (log 89 for the faults of
class U); with every granule written the copy writes its number as the stamp, last, and completes. -/
def Obligations.CopyIssue : Prop :=
  Claims.CopySetUp ∧ Claims.CopyIssue ∧ Claims.CopyCourse

namespace Sys2Proof.Claims
open Sys2Proof.Machine

/-- A chain descriptor of `steps` steps at the cursor of `cp` passes the checks of R227 and reads as the doubles `ds` with no poison, leaving
`s'`; nothing holds the access (R220, R303, R310, R325). -/
def DescriptorRead (s s' : State) (u : Machine.Unit) (cp : Cap) (steps : Nat) (ds : List Nat) : Prop :=
  let pieces := (List.range (1 + 2 * steps)).map fun i => cp.cursor + 16 * i
  (∀ p ∈ u.replay, p.str ≠ .c) ∧ spent s (groveOf s.cur.1) = false ∧
  accCheck s u cp (rR + rW) cp.cursor 16 16 [0, 1] = none ∧
  ∃ s1 key pa s2 ps bs, spanReach (hearthOf s.cur.1) u.ctx cp.oid false [cp.cursor] s = (s1, .inr [(cp.cursor, key, pa)]) ∧
    nbits (leNat (viewBytes s1 key pa 8)) 2 0 + 1 = steps ∧
    accCheck s1 u cp (rR + rW) cp.cursor (16 + 32 * steps) 16 [0, 1] = none ∧
    spanReach (hearthOf s.cur.1) u.ctx cp.oid false pieces s1 = (s2, .inr ps) ∧ (∀ p ∈ ps, isSync s2 p.2.2 = false) ∧
    spanRead ps (charge s2 (groveOf s.cur.1) (descGrans cp.cursor steps)) = (s', bs, none) ∧
    (doublesOf bs (2 + 4 * steps)).map BitVec.toNat = ds

/-- The n doubles at the cursor of `cp` read as `ds` with no poison, leaving `s'`, and nothing holds the access. -/
def DoublesRead (s s' : State) (u : Machine.Unit) (cp : Cap) (n : Nat) (ds : List Double) : Prop :=
  u.replay = [] ∧ spent s (groveOf s.cur.1) = false ∧
  ∃ s1 ps bs, spanReach (hearthOf s.cur.1) u.ctx cp.oid false ((List.range (n / 2)).map fun i => cp.cursor + 16 * i) s = (s1, .inr ps) ∧
    spanRead ps (charge s1 (groveOf s.cur.1) (n / 8)) = (s', bs, none) ∧ doublesOf bs n = ds

/-- A handle in s[a] that names a booked chain of the unit's own context. -/
def NamesChain (s : State) (u : Machine.Unit) (a : SReg) (c : Chain) : Prop :=
  (u.sreg a).toNat < 2 ^ 32 ∧ chainAt s ((u.sreg a).truncate 32) = some c ∧ c.ctx = u.ctx ∧ c.remote = none ∧ c.test = false

/-- LEASE of step `i` of chain `c` for lease slot `ls` (R314). -/
def NamesStep (s : State) (u : Machine.Unit) (a : SReg) (c : Chain) (i ls : Nat) (st : BStep) : Prop :=
  (u.sreg a).toNat = c.handle.toNat + i * 2 ^ 32 + ls * 2 ^ 40 ∧ i < 8 ∧ ls < 4 ∧ chainAt s c.handle = some c ∧ c.steps[i]? = some st ∧
  c.ctx = u.ctx ∧ c.remote = none ∧ c.test = false ∧ st.live = true ∧ st.st ≠ .held

/-- A dispatch instruction's answer: the result word in s[d], the phase sealed, and the next address (R310, R385). -/
def Answers (u : Machine.Unit) (n : Nxt) (d : SReg) (code : Nat) (h : BitVec 32) (v : Machine.Unit) : Prop :=
  ({ u.setS d (resultWord code 0 h) with sealed := true } : Machine.Unit).next 1 (actOf n) = some v

/-- The cancels with the level of their identifier and its width (R346). -/
def cancelWords : List ((Nxt → SReg → SReg → Instr) × Nat × Nat) :=
  [(.cancelGraph, 0, 16), (.cancelPhase, 1, 16), (.cancelJob, 2, 16), (.cancelLaunch, 3, 32)]

end Sys2Proof.Claims

/-! ## Booking and leases (chapter 12) -/

/-- R309 to R313: BOOK and RESERVE answer the search's code; a request that is refused leaves every calendar as it was, and one that is
placed enters its chain and writes the descriptor's output fields. -/
def Obligations.BookingResults : Prop :=
  ∀ e ∈ [(Instr.book, false), (Instr.reserve, true)], ∀ (s s' : State) (u v : Machine.Unit) (n : Nxt) (d a : SReg) (c : CReg)
      (steps : Nat) (ds : List Nat) (desc : Desc),
    Issuing s u (actOf n) → DescriptorRead s s' u (u.creg c) steps ds → descOf e.2 u.ctx (groveOf s.cur.1) u.who ds = desc →
    (desc.allowed s' = none → Answers u n d 0x12 0 v →
      exec (e.1 n d c a) s = .next (left s s' v) ∧ s'.books = s.books ∧ s'.closing = s.closing) ∧
    (∀ want code told, desc.allowed s' = some want → search s' want (u.sreg a).toNat e.2 = (code, none, told) → Answers u n d code 0 v →
      exec (e.1 n d c a) s = .next (left s (asked s' want told) v) ∧ (asked s' want told).books = s.books ∧
        (asked s' want told).closing = s.closing) ∧
    (∀ want code told ch s4 ps, desc.allowed s' = some want → search s' want (u.sreg a).toNat e.2 = (code, some ch, told) →
      spanReach (hearthOf s.cur.1) u.ctx (u.creg c).oid true ((List.range (1 + 2 * steps)).map fun i => (u.creg c).cursor + 16 * i)
        (asked s' want told) = (s4, .inr ps) → Answers u n d code ch.handle v →
      exec (e.1 n d c a) s =
        .next (left s (writeBack ch.steps ps (enterChain (charge s4 (groveOf s.cur.1) (outGrans (u.creg c).cursor steps)) ch)) v) ∧
        (enterChain (charge s4 (groveOf s.cur.1) (outGrans (u.creg c).cursor steps)) ch).books.get? (chainKey ch.handle) = some ch)

/-- R300, R301, R309: every step that the search places lies after the current slot and within the horizon, in slots of its resource that no
booking holds (on a channel group, in lanes that none holds), and within the grove's power limit. -/
def Obligations.NoDoubleBooking : Prop :=
  ∀ (s : State) (c ch : Chain) (nb code : Nat) (reserve : Bool) (told : List Sent), c.g < 16 → search s c nb reserve = (code, some ch, told) →
    code = (if reserve then 0x01 else 0x00) ∧ s.books.has (chainKey ch.handle) = false ∧ ch.steps.length = c.steps.length ∧
    ∀ st ∈ ch.steps, st.rem = false →
      curSlot s < st.start - st.pfx ∧ st.start + st.dur ≤ curSlot s + 4096 ∧ st.cmask.testBit st.ridx = true ∧
      st.ridx < classCount st.cls ∧ resRetired s st.cls c.g st.ridx = false ∧
      ∀ t, st.at t = true →
        (st.cls ≠ 7 → ∀ e ∈ stepsOn (chainsOf s) st.cls c.g st.ridx, e.2.at t = false) ∧
        (st.cls = 7 → st.lanesIn t &&& lanesAt (chainsOf s) st.ridx t = 0) ∧
        (st.cls < 6 → powerUsed s (chainsOf s) c.g t + classUnits st.cls ≤ powerLimit s c.g)

/-- R313, R320: CONFIRM of holds that have not expired, and whose slots have not come, commits them; otherwise it releases them; ABANDON
releases a chain. A handle of no chain of the context is refused. -/
def Sys2Proof.Claims.HoldResults : Prop :=
  (∀ (s : State) (u v : Machine.Unit) (n : Nxt) (d a : SReg) (c : Chain), Issuing s u (actOf n) → NamesChain s u a c → c.isHeld = true →
    (∀ st ∈ c.steps, st.expired (curSlot s) = false ∧ curSlot s < st.start - st.pfx) → Answers u n d 0 c.handle v →
    exec (.confirm n d a) s = .next (left s (updChain (tellRemote { s with nextOrder := s.nextOrder + 1 } c true) c.handle fun c =>
      { c with age := s.nextOrder, steps := c.steps.map fun st => { st with st := .committed } }) v)) ∧
  (∀ (s : State) (u v : Machine.Unit) (n : Nxt) (d a : SReg) (c : Chain), Issuing s u (actOf n) → NamesChain s u a c → c.isHeld = true →
    ((∃ st ∈ c.steps, st.expired (curSlot s) = true) → Answers u n d 0x14 c.handle v →
      exec (.confirm n d a) s = .next (left s (releaseHolds s c) v)) ∧
    ((∀ st ∈ c.steps, st.expired (curSlot s) = false) → (∃ st ∈ c.steps, st.start - st.pfx ≤ curSlot s) → Answers u n d 0x15 c.handle v →
      exec (.confirm n d a) s = .next (left s (releaseHolds s c) v))) ∧
  (∀ (s t : State) (u w v : Machine.Unit) (n : Nxt) (d a : SReg) (c : Chain), Issuing s u (actOf n) → NamesChain s u a c →
    (if c.isHeld = true then releaseHolds (putUnit s s.cur.1 { u with sealed := true }) c
      else abandonChain (putUnit s s.cur.1 { u with sealed := true }) c.handle) = t →
    t.units.get? s.cur.1 = some w → (w.setS d (resultWord 0 0 c.handle)).next 1 (actOf n) = some v →
    exec (.abandon n d a) s = .next (left s t v)) ∧
  (∀ (s : State) (u v : Machine.Unit) (n : Nxt) (d a : SReg), Issuing s u (actOf n) →
    ((u.sreg a).toNat < 2 ^ 32 → chainAt s ((u.sreg a).truncate 32) = none → Answers u n d 0x13 0 v →
      exec (.confirm n d a) s = .next (left s s v) ∧ exec (.abandon n d a) s = .next (left s s v)) ∧
    (2 ^ 32 ≤ (u.sreg a).toNat → Answers u n d 0x12 0 v → exec (.confirm n d a) s = .next (left s s v)))

/-- R314, R315, R321, R323: LEASE binds a booked step to a free slot and reports its STATE; an open lease ends when its engine is awake;
UNLEASE gives the slot's lease back. -/
def Sys2Proof.Claims.LeaseResults : Prop :=
  (∀ (s : State) (u v : Machine.Unit) (n : Nxt) (d a : SReg) (c : Chain) (i ls : Nat) (st : BStep) (cls : EngineClass),
    Issuing s u (actOf n) → NamesStep s u a c i ls st → clsOf st.cls = some cls → c.g = groveOf s.cur.1 → slotTaken u ls = false →
    st.lease = none →
    ((u.takeLease ls (bookedLease c i st cls)).setS d (resultWord 0 (leaseState u ls) c.handle)).next 1 (actOf n) = some v →
    exec (.lease n d a) s = .next (left s
      (let t := updStep s c.handle i fun st => { st with lease := some (s.cur.1, ls) }
       forgetRetained (if st.runs then setEng t ⟨c.g, cls, st.ridx⟩ { engAt t ⟨c.g, cls, st.ridx⟩ with key := some (s.cur.1, ls) } else t)
         (s.cur.1, ls)) v)) ∧
  (∀ (s : State) (u v : Machine.Unit) (n : Nxt) (d a : SReg) (c : Chain) (i : Nat) (st : BStep),
    Issuing s u (actOf n) → NamesStep s u a c i 0 st → st.cls = 6 → st.ridx = hearthOf s.cur.1 % 8 → c.g = groveOf s.cur.1 → u.ladle = none →
    st.lease = none →
    (({ u with ladle := some (bookedLease c i st .griddle) } : Machine.Unit).setS d (resultWord 0 0 c.handle)).next 1 (actOf n) = some v →
    exec (.lease n d a) s = .next (left s (updStep s c.handle i fun st => { st with lease := some (s.cur.1, 0) }) v)) ∧
  (∀ (s : State) (u v : Machine.Unit) (n : Nxt) (d a : SReg) (c : Chain) (i ls : Nat) (st : BStep) (cls : EngineClass),
    Issuing s u (actOf n) → NamesStep s u a c i ls st → clsOf st.cls = some cls → c.g = groveOf s.cur.1 → slotTaken u ls = true →
    (u.setS d (resultWord 0x19 0 0)).next 1 (actOf n) = some v → exec (.lease n d a) s = .next (left s s v)) ∧
  (∀ (s : State) (u v : Machine.Unit) (n : Nxt) (d a : SReg) (r : OpenReq) (e : EngineId) (st : Nat),
    Issuing s u (actOf n) → s.openReqs.find? (fun r => r.key = s.cur.1) = some r → r.granted = some (e, st) → (engAt s e).power = .awake →
    (u.setS d (resultWord 0 st 0)).next 1 (actOf n) = some v →
    exec (.leaseOpen n d a) s = .next (left s { s with openReqs := s.openReqs.filter fun r => r.key != s.cur.1 } v)) ∧
  (∀ (s : State) (u : Machine.Unit) (n : Nxt) (d a : SReg) (cls em prio ls maxd : Nat),
    Issuing s u (actOf n) → s.openReqs.find? (fun r => r.key = s.cur.1) = none →
    (u.sreg a).toNat = cls + prio * 2 ^ 4 + em * 2 ^ 8 + ls * 2 ^ 24 + maxd * 2 ^ 32 → cls ≤ 5 → prio < 16 → em < 2 ^ classCount cls →
    ls < 4 → maxd < 2 ^ 12 → slotTaken u ls = false → classUnits cls ≤ powerLimit s (groveOf s.cur.1) → classUnits cls ≤ grantUnits s u.ctx →
    u.next 1 (actOf n) ≠ none → ∃ t, exec (.leaseOpen n d a) s = .next (waiting s t u .memory) ∧
      t = { s with nextOrder := s.nextOrder + 1, openReqs := s.openReqs ++
      [{ g := groveOf s.cur.1, cls := cls, key := s.cur.1, ls := ls, prio := prio, emask := em, maxd := maxd + 1, tick := s.time,
         order := s.nextOrder, granted := none }] }) ∧
  (∀ (s t : State) (u w v : Machine.Unit) (n : Nxt) (d a : SReg) (ls : Nat) (l : LeaseSlot), Issuing s u (actOf n) →
    (u.sreg a).toNat = ls → ls < 4 → u.leases.toList.getD ls none = some l → l.evicted = false → u.streamBusy .m = false →
    ((unleaseSlot s s.cur.1 ls l false = t → t.units.get? s.cur.1 = some w → (w.setS d (resultWord 0 0 0)).next 1 (actOf n) = some v →
      exec (.unlease n d a) s = .next (left s t v) ∧ w.leases.toList.getD ls none = none) ∧
     (unleaseSlot s s.cur.1 ls l true = t → t.units.get? s.cur.1 = some w → (w.setS d (resultWord 0 0 0)).next 1 (actOf n) = some v →
      exec (.unleaseRet n d a) s = .next (left s t v) ∧ w.leases.toList.getD ls none = none ∧ w.retained.getLsbD ls = true)))

/-! ## Launches and tickets (chapter 13) -/

/-- R331, R334, R335, R341 to R344, R346, R381: LAUNCH accepts a packet or answers the first condition that it breaks; POST answers that a ticket is
bad, or puts it on the Rail of its home grove, parked while its counter is not zero; one of a failed or cancelled launch is discarded. -/
def Sys2Proof.Claims.LaunchResults : Prop :=
  (∀ (s s' : State) (u v : Machine.Unit) (n : Nxt) (d a : SReg) (c : CReg) (q : Nat) (pkt : List Double),
    Issuing s u (actOf n) → isTwice s u = false → accCheck s u (u.creg c) rR (u.creg c).cursor 128 1 [0, 1] = none →
    (u.creg c).cursor % 64 = 0 → (u.sreg a).toNat = q → q < 2 ^ 16 → DoublesRead s s' u (u.creg c) 16 pkt →
    (acceptCode s' u.ctx pkt q false false = 0 → Answers u n d 0 (BitVec.ofNat 32 s'.nextLid) v →
      exec (.launch n d c a) s = .next (left s (pushPacket s' u.ctx pkt q).1 v)) ∧
    (acceptCode s' u.ctx pkt q false false ≠ 0 → Answers u n d (acceptCode s' u.ctx pkt q false false) 0 v →
      exec (.launch n d c a) s = .next (left s s' v))) ∧
  (∀ (s : State) (ctx q : Nat) (pkt : List Double) (qu : Queue), s.queues.get? q = some qu → qu.resident = true →
    ((pushPacket s ctx pkt q).1.nextLid = (s.nextLid + 1) % 2 ^ 32 ∧ (pushPacket s ctx pkt q).1.kicks.has q = true ∧
      (pushPacket s ctx pkt q).1.queues.get? q = some { qu with entries := qu.entries ++
        [{ lid := s.nextLid, pkt := pkt, hov := handOver s ctx pkt, tick := s.time }] })) ∧
  (∀ (s s' s4 : State) (u v : Machine.Unit) (n : Nxt) (d : SReg) (c : CReg) (t : List Double) (tr : Tr) (g home : Nat),
    Issuing s u (actOf n) → isTwice s u = false → accCheck s u (u.creg c) rR (u.creg c).cursor 64 64 [0, 1] = none →
    DoublesRead s s' u (u.creg c) 8 t → ticketBad s' u t = false → affinity s' u.ctx (pf t 0 55 32) (pf t 1 47 0) = (s4, tr) → tr ≠ .stall →
    groveOfPlace s4 s.cur.1 tr = some g → s4.tickets.length < 65536 →
    homeGrove s4 u.ctx (((launchAt s4 u.slot).map fun l => pktGmask l.pkt).getD 0) g = home →
    Answers u n d 0 (BitVec.ofNat 32 s4.nextTicket) v →
    exec (.postQueued n d c) s = .next (left s (enterReady (newTicket { s4 with free := s4.free + 1 } u t home).1 s4.nextTicket) v)) ∧
  (∀ (s s1 s' s4 s5 : State) (u v : Machine.Unit) (n : Nxt) (d : SReg) (c m : CReg) (t : List Double) (tr : Tr) (g home key pa : Nat),
    Issuing s u (actOf n) → isTwice s u = false → accCheck s u (u.creg c) rR (u.creg c).cursor 64 64 [0, 1] = none →
    Permitted s u (u.creg m) rA (u.creg m).cursor 8 [1] → DoublesRead s s' u (u.creg c) 8 t →
    ticketBad s' u t = false → affinity s' u.ctx (pf t 0 55 32) (pf t 1 47 0) = (s4, tr) → tr ≠ .stall →
    groveOfPlace s4 s.cur.1 tr = some g → s4.tickets.length < 65536 →
    Reached s4 u (u.creg m).oid (u.creg m).cursor true s1 key pa → isSync s1 pa = false → NoPoison s1 pa 8 → touch (charge s1 (s.cur.1 / 16) 1) (pa / 64) = s5 →
    homeGrove s5 u.ctx (((launchAt s5 u.slot).map fun l => pktGmask l.pkt).getD 0) g = home →
    Answers u n d 0 (BitVec.ofNat 32 s5.nextTicket) v →
    exec (.postParked n d c m) s = .next (left s
      (let w := (newTicket { s5 with free := s5.free + 1 } u t home).1
       if leNat (viewBytes s1 key pa 8) = 0 then enterReady w s5.nextTicket
       else if w.tickets.has s5.nextTicket then { w with parks := w.parks.put pa (Tab.getD [] w.parks pa ++ [s5.nextTicket]) } else w) v)) ∧
  (∀ (s s' : State) (u v : Machine.Unit) (n : Nxt) (d : SReg) (c m : CReg) (t : List Double),
    Issuing s u (actOf n) → isTwice s u = false → accCheck s u (u.creg c) rR (u.creg c).cursor 64 64 [0, 1] = none →
    DoublesRead s s' u (u.creg c) 8 t → ticketBad s' u t = true → Answers u n d 0x28 0 v →
    exec (.postQueued n d c) s = .next (left s s' v) ∧
    (Permitted s u (u.creg m) rA (u.creg m).cursor 8 [1] → exec (.postParked n d c m) s = .next (left s s' v))) ∧
  (∀ (s : State) (u : Machine.Unit) (t : List Double) (home : Nat),
    (∀ l, launchAt s u.slot = some l → l.failed = true ∨ l.cancelled = true) →
    (newTicket s u t home).1.tickets = s.tickets ∧ (newTicket s u t home).1.launches = s.launches) ∧
  (∀ (s : State) (u : Machine.Unit) (n : Nxt) (d a : SReg) (c m : CReg), Issuing s u (actOf n) → isTwice s u = true →
    exec (.launch n d c a) s = .next (trapped s u 0x07 0 Acc.none) ∧ exec (.postQueued n d c) s = .next (trapped s u 0x07 0 Acc.none) ∧
    exec (.postParked n d c m) s = .next (trapped s u 0x07 0 Acc.none) ∧ exec (.depdec n d c a) s = .next (trapped s u 0x07 0 Acc.none))

/-- R215, R345, R346, R385: DEPDEC releases the bound sync object, subtracts from its counter, and at zero moves the parked tickets to the ready
queues; a counter below the amount raises the underflow fault, with the phase sealed. The cancels answer how many launches they hit, or that the
context has no such identifier. -/
def Sys2Proof.Claims.CounterAndCancelResults : Prop :=
  (∀ (s s1 s2 : State) (u v : Machine.Unit) (n : Nxt) (d a : SReg) (c : CReg) (key pa amount count : Nat),
    Issuing s u (actOf n) → isTwice s u = false → Permitted s u (u.creg c) rA (u.creg c).cursor 8 [1] → u.replay = [] →
    Reached s u (u.creg c).oid (u.creg c).cursor true s1 key pa → meetsSync s s.cur.1 u (u.creg c) (u.creg c).cursor = false →
    releaseBound (charge s1 (s.cur.1 / 16) 1) u.ctx (u.creg c).oid (u.creg c).cursor = s2 → NoPoison s2 pa 8 → (u.sreg a).toNat = amount →
    1 ≤ amount → amount < 2 ^ 32 → leNat (viewBytes s2 key pa 8) = count →
    (amount ≤ count → ({ u.setS d (BitVec.ofNat 64 (count - amount)) with sealed := true } : Machine.Unit).next 1 (actOf n) = some v →
      exec (.depdec n d c a) s = .next (left s
        (let w := writeBytes s2 key pa (leBytes 8 (count - amount))
         if count = amount then releaseParked w pa else w) v)) ∧
    (count < amount → u.next 1 (actOf n) ≠ none → exec (.depdec n d c a) s =
      .next (raise (updUnit (touch s2 (pa / 64)) s.cur.1 fun w => { w with sealed := true }) s.cur.1
        (causeC u 0x22 0 (accOf s u (u.creg c) (u.creg c).cursor true))))) ∧
  (∀ (s : State) (u : Machine.Unit) (n : Nxt) (d a : SReg) (c : CReg), Issuing s u (actOf n) → isTwice s u = false →
    Permitted s u (u.creg c) rA (u.creg c).cursor 8 [1] → meetsSync s s.cur.1 u (u.creg c) (u.creg c).cursor = false →
    (u.sreg a = 0 ∨ 2 ^ 32 ≤ (u.sreg a).toNat) → exec (.depdec n d c a) s = .next (trapped s u 0x07 0 Acc.none)) ∧
  (∀ e ∈ cancelWords, ∀ (s t : State) (u w v : Machine.Unit) (n : Nxt) (d a : SReg) (id count : Nat), Issuing s u (actOf n) →
    (u.sreg a).toNat = id →
    (id < 2 ^ e.2.2 → ownsId s u.ctx e.2.1 id = true → cancelScope s (inScope u.ctx e.2.1 id) = (t, count) → count < 2 ^ 32 →
      t.units.get? s.cur.1 = some w → Answers w n d 0 (BitVec.ofNat 32 count) v → exec (e.1 n d a) s = .next (left s t v)) ∧
    ((2 ^ e.2.2 ≤ id ∨ ownsId s u.ctx e.2.1 id = false) → Answers u n d 0x29 0 v → exec (e.1 n d a) s = .next (left s s v)))

/-- CONFIRM commits a held chain in time and otherwise releases it; ABANDON releases one; a handle of no chain answers BADHANDLE (0x13). LEASE binds a
booked step of an engine, or of the Ladle, to a free slot with its STATE, and answers SLOTBUSY for a taken one, before it looks at the step's state
(the model's order, log 51), and BADHANDLE for a step that another slot holds (the model's reading, log 27); an open lease is queued and waits, and
ends when its engine is awake; UNLEASE, to off or to retention, frees the slot. -/
def Obligations.HoldAndLeaseResults : Prop :=
  Claims.HoldResults ∧ Claims.LeaseResults

/-- LAUNCH accepts a packet with the next launch identifier or answers the first condition that it breaks. POST puts a ticket on its home grove's
ready queue or parks it on its counter, answers BADTICKET for a bad one before it looks at the counter, and discards one of a failed or cancelled
launch. DEPDEC subtracts, releases the parked tickets at zero, raises the underflow fault with the phase sealed, and traps on a bad amount. CANCEL of
a graph, phase, job or launch answers how many launches it hit, or NOTFOUND. In a run-twice unit LAUNCH, POST and DEPDEC trap. That POST and DEPDEC
translate their counter as a write, that tickets are parked by its physical address, and that an underflow keeps DEPDEC's release are the model's
readings (log 58). -/
def Obligations.LaunchAndCancelResults : Prop :=
  Claims.LaunchResults ∧ Claims.CounterAndCancelResults

namespace Sys2Proof.Claims
open Sys2Proof.Machine

/-- The unit on a place, with nothing that stops its strands (R372 to R376). -/
def AtWork (s : State) (p : Place) (u : Machine.Unit) : Prop :=
  s.units.get? (placeKey p) = some u ∧ u.enginesRun = true

/-- An operation in flight that no fault holds. -/
def InFlight (s : State) (p : Place) (str : Stream) (num : Nat) (u : Machine.Unit) (o : Op) : Prop :=
  s.units.get? (placeKey p) = some u ∧ findOp u str num = some o ∧ o.held = false

/-- Nothing of a unit waits: no operation, no strand, no dispatch record, no parked store (R298). -/
def AtRest (u : Machine.Unit) : Prop :=
  u.ops = [] ∧ u.replay = [] ∧ ∀ t ∈ engineStreams, (u.seqr.get t).queue = [] ∧ (u.seqr.get t).run = none

/-- A unit with a cause whose drain has finished and nothing else (R372). -/
def Drained (s : State) (p : Place) (u : Machine.Unit) (c : Cause) : Prop :=
  s.units.get? (placeKey p) = some u ∧ u.cause = some c ∧ drainDone s (placeKey p) u = true ∧ u.killed = none ∧ u.roll = none ∧ u.served = none

/-- A rollback of a unit that nothing else stops (R386). -/
def RollingBack (s : State) (p : Place) (u : Machine.Unit) (r : Roll) : Prop :=
  s.units.get? (placeKey p) = some u ∧ u.roll = some r ∧ u.killed = none ∧ u.served = none ∧ u.cause = none

end Sys2Proof.Claims

/-! ## Operations in flight and strands (chapters 09 and 11) -/

/-- R220, R228, R245: an access is performed: a VL has its row, a VS store has what could not be performed left, and the parked stores of the
control stream are performed in their order; a fault holds a VL and is raised. -/
def Sys2Proof.Claims.AccessesPerformed : Prop :=
  (∀ (s s' t : State) (p : Place) (num : Nat) (u : Machine.Unit) (o : Op) (x : VlOp) (w : Nat) (es : List Nat) (sd : Side) (bs : Tab (List Byte))
    (q q' : Option Poison) (ls : Tab Nat) (fl : Flags),
    InFlight s p .vl num u o → o.body = .vl x → x.value = none → (x.els.head?.map (·.w)).getD 8 = w → spent s (groveOf (placeKey p)) = false →
    x.els.map (·.bit) = es → (∀ g ∈ granules w es, parkedOn s u x.cap.oid (64 * g) = false) →
    gather (placeKey p) u x.cap.oid (granSpans w es) s = (s', .ok bs q) → sideOf s (placeKey p) u x.cap x.code = sd →
    vlLanes sd bs x.ety x.els (charge s' (groveOf (placeKey p)) ((granules w es).length + scaleGrans sd es)) = (t, ls, fl, q') →
    exec (.accessPerform p .vl num) s = .next (putUnit t (placeKey p) (u.setOp
      { o with flags := o.flags ||| fl, poison := (o.poison.orElse fun _ => q).orElse fun _ => q',
               body := .vl { x with value := some (rowOf (laneBits x.ety) ((List.range (width x.ety)).map fun i => Tab.getD 0 ls i)) } }))) ∧
  (∀ (s s' : State) (p : Place) (num : Nat) (u : Machine.Unit) (o : Op) (x : VlOp) (w off kind : Nat),
    InFlight s p .vl num u o → o.body = .vl x → x.value = none → (x.els.head?.map (·.w)).getD 8 = w → spent s (groveOf (placeKey p)) = false →
    (∀ g ∈ granules w (x.els.map (·.bit)), parkedOn s u x.cap.oid (64 * g) = false) →
    gather (placeKey p) u x.cap.oid (granSpans w (x.els.map (·.bit))) s = (s', .fault off kind) →
    exec (.accessPerform p .vl num) s = .next (raise (putUnit s' (placeKey p) (u.setOp { o with held := true })) (placeKey p)
      (causeO u o 0x20 kind (accOf s' u x.cap off false)))) ∧
  (∀ (s s' : State) (p : Place) (num : Nat) (u : Machine.Unit) (o : Op) (x : VsOp) (rest : List BitWrite),
    InFlight s p .vs num u o → o.body = .vs x → x.writes ≠ [] → spent s (groveOf (placeKey p)) = false →
    performRuns (placeKey p) o x.cap.oid x.cap (byPage s u x.cap.oid x.writes) s = (s', rest, none) →
    exec (.accessPerform p .vs num) s = .next (settleStores (updUnit s' (placeKey p) fun u =>
      u.setOp { o with body := .vs { x with writes := rest } }) (placeKey p))) ∧
  (∀ (s t : State) (p : Place) (num : Nat) (u : Machine.Unit), s.units.get? (placeKey p) = some u → u.replay ≠ [] → Quiet u →
    replayAll (placeKey p) u.replay [] s none = (t, none) → exec (.accessPerform p .c num) s = .next t)

/-- R84 to R86, R148, R189, R291: a strand starts with the words of its record in its store; at its end its words' CRC and its count of cycles
are compared with its segment entry, and a difference is a detection. An M strand ends with its commands in flight: the close of its open
Griddle runs stands with the last of their numbers. -/
def Sys2Proof.Claims.StrandCourse : Prop :=
  (∀ (s t : State) (p : Place) (str : Stream) (u : Machine.Unit) (d : DispRec) (rest : List DispRec) (words : List (Word × BitVec 2)),
    AtWork s p u → (u.seqr.get str).queue = d :: rest → (u.seqr.get str).run = none →
    codeWords u str ((List.range d.len).map (d.start + ·)) s = (t, words, none) →
    exec (.strandStart p str) s = .next (putUnit t (placeKey p)
      { u with seqr := u.seqr.set str { queue := rest, run := some (Strand.start d words (u.cpl.cfg.get str)), ending := false },
               groupSwitch := u.groupSwitch || decide (str = .va) })) ∧
  (∀ (s : State) (p : Place) (str : Stream) (u : Machine.Unit) (r : Strand) (cycles : Nat), s.units.get? (placeKey p) = some u →
    str ∈ [Stream.vl, .va, .vs, .d] → (u.seqr.get str).run = some r → (u.seqr.get str).ending = true →
    (r.seg = false ∨ segmentAt s u str r.rcd.start = none) →
    ∃ t w, exec (.strandEnd p str cycles) s = .next t ∧ t = { s with units := t.units } ∧ t.units.get? (placeKey p) = some w ∧
      (w.seqr.get str).run = none ∧ (w.seqr.get str).queue = (u.seqr.get str).queue ∧ w.ops = u.ops ∧ w.closing = u.closing ∧
      (str = .vs → ∀ i < 8, ∀ b, (u.sqAt i).producer = some (.vs b) →
        (w.sqAt i).producer = if (u.sqAt i).entries = [] ∧ (u.sqAt i).part = [] then none else some (.vs true))) ∧
  (∀ (s : State) (p : Place) (u : Machine.Unit) (r : Strand) (cycles : Nat), s.units.get? (placeKey p) = some u →
    (u.seqr.get .m).run = some r → (u.seqr.get .m).ending = true → (r.seg = false ∨ segmentAt s u .m r.rcd.start = none) →
    let s1 := closeSlots s (placeKey p) (plainRuns s (placeKey p) u)
    let runs := (runSlots s1 (placeKey p) u).filter fun i => !u.closing.any fun c => c.2.elem i
    let nums := (u.ops.filter fun o => o.str = .m).map (·.num)
    runs = [] ∨ nums ≠ [] →
    ∃ t w, exec (.strandEnd p .m cycles) s = .next t ∧ t = { s with units := t.units, engines := t.engines } ∧
      t.units.get? (placeKey p) = some w ∧ (w.seqr.get .m).run = none ∧ (w.seqr.get .m).queue = (u.seqr.get .m).queue ∧ w.ops = u.ops ∧
      w.closing = (if runs = [] then u.closing else u.closing ++ [(nums.foldl max 0, runs)]) ∧
      (Tab.risingFrom none s.engines = true → ∀ i < 4, ∀ l x, u.leases.toList.getD i none = some l → l.evicted = false → u.slotIdle i = true →
        (engAt s l.eng).key = some (placeKey p, x) → (∀ y, (engAt s l.eng).mem.run = some y → y.int = true ∨ y.blocks = 0) →
        (engAt t l.eng).mem.run = none)) ∧
  (∀ (s : State) (p : Place) (str : Stream) (u : Machine.Unit) (r : Strand) (cycles : Nat) (e : SegmentEntry),
    s.units.get? (placeKey p) = some u → str ∈ [Stream.vl, .va, .d] → (u.seqr.get str).run = some r → (u.seqr.get str).ending = true →
    r.seg = true → s.arms = [] → segmentAt s u str r.rcd.start = some e →
    let t := updUnit s (placeKey p) fun u => { u with seqr := u.seqr.set str { u.seqr.get str with run := none, ending := false } }
    let crc := crc32End ((r.store.map (·.1)).foldl crc32Word crc32Start)
    (cycles = expectedCount e r.rcd.counts → crc = e.sig → exec (.strandEnd p str cycles) s = .next t) ∧
    (cycles ≠ expectedCount e r.rcd.counts →
      exec (.strandEnd p str cycles) s = .next (detectSegment t (placeKey p) (causeE u str 0x30 0 0 Acc.none) 1 false)) ∧
    (cycles = expectedCount e r.rcd.counts → crc ≠ e.sig →
      exec (.strandEnd p str cycles) s = .next (detectSegment t (placeKey p) (causeE u str 0x30 0 0 Acc.none) 2 false)))

/-- R86, R298, R299, R346: a halting unit at rest retires and frees its bank, unless a segment that ends with its HALT differs, which is a
detection; a unit of which no stream has moved for 2^22 ticks, with no access outstanding, is the stall deadlock; a cancelled unit is killed
in a wait. -/
def Sys2Proof.Claims.UnitEnds : Prop :=
  (∀ (s : State) (p : Place) (u : Machine.Unit), s.units.get? (placeKey p) = some u → u.halting = true → AtRest u → Quiet u →
    s.disp.holding = false → s.books = [] → s.closing = [] → s.openReqs = [] → Tab.risingFrom none s.units = true →
      (∀ l ∈ u.leases.toList, l = none) → u.ladle = none →
    s.launches.get? u.slot = none → s.arms = [] →
    (∀ g e, haltSegment s u = some (g, e) → Config.segmentOff s.free = 0 ∧ crc32End g.crc = e.sig) →
    ∃ t, exec (.haltRetire p) s = .next t ∧ t.units.get? (placeKey p) = none ∧ t.mem = s.mem ∧ t.launches = s.launches) ∧
  (∀ (s : State) (p : Place) (u : Machine.Unit) (g : CSeg) (e : SegmentEntry), s.units.get? (placeKey p) = some u → u.halting = true → AtRest u →
    Quiet u → s.disp.holding = false → s.arms = [] → haltSegment s u = some (g, e) → u.sealed = false → u.retry ≠ 3 →
    ¬ (Config.segmentOff s.free = 0 ∧ crc32End g.crc = e.sig) →
    ∃ t w c, exec (.haltRetire p) s = .next t ∧ t.units.get? (placeKey p) = some w ∧ c.code = 0x30 ∧
      c.kind = (if Config.segmentOff s.free = 0 then 2 else 1) ∧ w.roll = some { cause := c, refills := u.fills, running := false }) ∧
  (∀ (s : State) (p : Place) (u : Machine.Unit), s.units.get? (placeKey p) = some u →
    (u.halting = false ∨ ∃ t ∈ engineStreams, u.streamBusy t = true) → exec (.haltRetire p) s = .next s) ∧
  (∀ (s : State) (p : Place) (u : Machine.Unit) (t : Stream), s.units.get? (placeKey p) = some u → u.progress + 2 ^ 22 ≤ s.time →
    (∀ o ∈ u.ops, stoppedCopy s (placeKey p) u o = true) → u.replay = [] → Quiet u →
    (∀ r, u.waits.get r ≠ some .issueTick ∧ u.waits.get r ≠ some .memory) → stuckStream s (placeKey p) u = some t →
    (slippedStream u = none → exec (.stallDeadlock p) s = .next (raise s (placeKey p) (causeAt u t 0x13))) ∧
    (∀ r, slippedStream u = some r → exec (.stallDeadlock p) s = .next (raise s (placeKey p) (causeAt u r 0x12)))) ∧
  (∀ (s : State) (p : Place) (u : Machine.Unit), s.units.get? (placeKey p) = some u →
    (s.time < u.progress + 2 ^ 22 ∨ (∃ o ∈ u.ops, stoppedCopy s (placeKey p) u o = false) ∨ u.replay ≠ [] ∨
      ∃ r, u.waits.get r = some .issueTick ∨ u.waits.get r = some .memory) →
    exec (.stallDeadlock p) s = .next s) ∧
  (∀ (s : State) (p : Place) (u : Machine.Unit), s.units.get? (placeKey p) = some u → u.cancelled = true → u.killed = none →
    ((∃ t w, u.waits.get t = some w ∧ w ∈ [WaitKind.token, .tile, .streamReg, .issueTick, .mwait, .memory, .replay, .answer]) ∨
      (∃ o ∈ u.ops, ∃ x, o.body = .d x ∧ x.started = false ∧ o.held = false ∧ ¬ TickCome s u x.startAt) ∨
      (u.haltDone = true ∧ s.disp.holding = true ∧ 4096 ≤ s.disp.held.length)) →
    exec (.unitKill p) s = .next (killUnit s (placeKey p) { causeC u 0 0 Acc.none with code := 0 } true))

/-! ## Causes after their drain (chapter 15) -/

/-- R373, R376, R377: a drained cause of class U enters the handler; one of class S is posted to the fault ring with the next fault id, and its
bank waits for the answer; with a full ring its record waits there, and with the ring disabled it kills the unit. -/
def Sys2Proof.Claims.CauseDelivery : Prop :=
  (∀ (s : State) (p : Place) (u : Machine.Unit) (c : Cause), Drained s p u c → classOf c.code = .u → u.inh = false →
    u.r.tvec.getLsbD 24 = true →
    ∃ t w, exec (.trapDelivery p) s = .next t ∧ t.units.get? (placeKey p) = some w ∧ t = { s with units := t.units } ∧ w.inh = true ∧
      w.cause = none ∧ w.cause2 = u.cause2 ∧ w.r.plain = true ∧ w.r.pc = u.r.tvec.toNat % 2 ^ 24 ∧ w.r.s = u.r.s ∧ w.r.c = u.r.c ∧
      w.r.tres = BitVec.ofNat 64 ((if c.str = .c then c.resume else u.r.pc) % 2 ^ 24) ∧ w.frame = frameOf u c 0) ∧
  (∀ (s : State) (p : Place) (u : Machine.Unit) (c : Cause), Drained s p u c → classOf c.code = .u →
    (u.inh = true ∨ u.r.tvec.getLsbD 24 = false) →
    exec (.trapDelivery p) s = .next (killUnit s (placeKey p) { c with code := 0x39, kind := if u.inh then 1 else 2 } false)) ∧
  (∀ (s : State) (p : Place) (u : Machine.Unit) (c : Cause) (base logn : Nat), Drained s p u c → classOf c.code = .s →
    s.ring.fring.toNat = base + logn * 2 ^ 48 → base < 2 ^ 48 → 1 ≤ logn → logn < 16 → s.ring.open_.length < 2 ^ logn →
    ∃ t w, exec (.faultRecordPost p) s = .next t ∧ t.units.get? (placeKey p) = some w ∧
      w.served = some { cause := c, fid := s.ring.nextFid, posted := true, answer := none } ∧ w.cause = none ∧ w.r = u.r ∧
      t.ring = { s.ring with prod := s.ring.prod + 1, nextFid := (s.ring.nextFid + 1) % 2 ^ 32,
                             open_ := s.ring.open_ ++ [(s.ring.nextFid, placeKey p)] }) ∧
  (∀ (s : State) (p : Place) (u : Machine.Unit) (c : Cause), Drained s p u c → classOf c.code = .s →
    (s.ring.fring.toNat / 2 ^ 48 % 16 = 0 →
      exec (.faultRecordPost p) s = .next (killUnit s (placeKey p) { c with code := 0x39, kind := 3 } false)) ∧
    (1 ≤ s.ring.fring.toNat / 2 ^ 48 % 16 → 2 ^ (s.ring.fring.toNat / 2 ^ 48 % 16) ≤ s.ring.open_.length →
      ∃ t w, exec (.faultRecordPost p) s = .next t ∧ t.units.get? (placeKey p) = some w ∧ t.mem = s.mem ∧
        w.served = some { cause := c, fid := s.ring.nextFid, posted := false, answer := none } ∧
        t.ring = { s.ring with nextFid := (s.ring.nextFid + 1) % 2 ^ 32 }))

/-- R384 to R388: a detection in a phase that is not sealed rolls its unit back: the registers of the checkpoint, nothing in flight, the fills
issued again, and one more retry; a sealed phase, or a fourth detection, is the unrecoverable-phase cause. -/
def Sys2Proof.Claims.RollbackCourse : Prop :=
  (∀ (s : State) (p : Place) (u : Machine.Unit) (r : Roll), RollingBack s p u r → r.running = false →
    drainDone s (placeKey p) u = true →
    ∃ t w, exec (.rollback p) s = .next t ∧ t.units.get? (placeKey p) = some w ∧ w.r = u.ckpt.regs ∧ w.cpl = u.ckpt.cpl ∧ w.ops = [] ∧
      w.replay = [] ∧ w.latches = [] ∧ w.sealed = false ∧ w.inh = false ∧ w.retry = u.retry ∧ w.frame = u.frame ∧
      w.remap = none ∧ w.closing = [] ∧ w.roll = some { r with running := true } ∧ t.mem = s.mem ∧ ∀ e ∈ t.ring.open_, e.2 ≠ placeKey p) ∧
  (∀ (s : State) (p : Place) (u : Machine.Unit) (r : Roll) (d : CopyDesc) (rest : List CopyDesc), RollingBack s p u r → r.running = true →
    u.ops = [] → r.refills = d :: rest →
    exec (.rollback p) s = .next (putUnit s (placeKey p) { u with ops := [refillOp u d], roll := some { r with refills := rest } })) ∧
  (∀ (s : State) (p : Place) (u : Machine.Unit) (r : Roll), RollingBack s p u r → r.running = true → u.ops = [] → r.refills = [] →
    u.cause2 = none → u.owed = [] →
    ∃ t w, exec (.rollback p) s = .next t ∧ t.units.get? (placeKey p) = some w ∧
      w = { u with roll := none, retry := u.retry + 1, progress := s.time } ∧ t = { s with units := t.units, mailbox := t.mailbox, life := t.life }) ∧
  (∀ (s : State) (k : Nat) (u : Machine.Unit) (c : Cause), s.units.get? k = some u → classOf c.code = .p → Quiet u →
    (u.sealed = true → raise s k c = raiseUS s k u { c with code := 0x23, kind := 1 }) ∧
    (u.sealed = false → u.retry = 3 → raise s k c = raiseUS s k u { c with code := 0x23, kind := 2 }) ∧
    (u.sealed = false → u.retry ≠ 3 →
      raise s k c = putUnit s k { u with roll := some { cause := c, refills := u.fills, running := false } }))

/-- R389, R392: an error found in a part is an event of its unit and a record; an uncorrectable one marks the granule or row; the third event
of a unit within 2^26 ticks retires it. -/
def Sys2Proof.Claims.ErrorResults : Prop :=
  (∀ (s : State) (fu : FaultUnit), (Tab.getD [] s.fuEvents (fuKey fu)).length < 2 →
    ∃ t, exec (.correctableError fu) s = .next t ∧ t = { s with fuEvents := t.fuEvents, life := t.life, mailbox := t.mailbox } ∧
      t.fuEvents.get? (fuKey fu) = some (s.time :: Tab.getD [] s.fuEvents (fuKey fu))) ∧
  (∀ (s : State) (fu : FaultUnit) (g : Nat), (Tab.getD [] s.fuEvents (fuKey fu)).length < 2 →
    ∃ t, exec (.uncorrectableError fu (.granule g)) s = .next t ∧
      t.poison.get? g = some ((s.poison.get? g).getD (fu, false)) ∧ (∀ j, j ≠ g → t.poison.get? j = s.poison.get? j) ∧ t.mem = s.mem ∧
      t.units = s.units) ∧
  (∀ (s : State) (fu : FaultUnit) (h r : Nat), (Tab.getD [] s.fuEvents (fuKey fu)).length < 2 →
    ∃ t, exec (.uncorrectableError fu (.row h r)) s = .next t ∧
      t.rowPoison.get? (192 * h + r) = some ((s.rowPoison.get? (192 * h + r)).getD (fu, false)) ∧ t.rows = s.rows ∧ t.units = s.units) ∧
  (∀ (s : State) (f : FaultUnit) (a b : Nat), Tab.getD [] s.fuEvents (fuKey f) = [a, b] →
    (s.time < b + 2 ^ 26 → isRetired s f = false → isRetired (countEvent s f) f = true) ∧
    (b + 2 ^ 26 ≤ s.time → (countEvent s f).retired = s.retired))

/-- An access event reads a VL's row from memory, performs a VS's writes, and performs parked stores in order; a fault holds the operation and is
raised. A strand start takes the first record into the store; a strand end compares the words' CRC and the cycles with its segment entry, and a
difference is the detection of its kind; an M strand ends with its commands in flight, and the close of its open Griddle runs stands with the last of
their numbers (R189; the model's reading of when, log 29), those of idle slots being closed at once; a VS strand's end leaves it no push outstanding.
The cycle count is the event's argument (log 7). -/
def Obligations.AccessesAndStrands : Prop :=
  Claims.AccessesPerformed ∧ Claims.StrandCourse

/-- A halting unit at rest frees its bank, unless a control segment that ends with its HALT differs, which is a detection; one whose streams are at
work does not. A unit that no stream of has moved for 2^22 ticks, with no access outstanding, raises the stall-deadlock or slip-depth trap; a
cancelled unit in an excused wait, a copy's wait for its tick and a halt that the dispatcher's buffer holds among them, is killed. A drained class-U
cause enters the handler or kills; a class-S cause is posted to the fault ring with the next id, waits there for room when the ring is full, and kills
when the ring is disabled. -/
def Obligations.UnitEndsAndDelivery : Prop :=
  Claims.UnitEnds ∧ Claims.CauseDelivery

/-- A class-P cause in an unsealed phase with fewer than three retries starts a rollback, which restores the checkpoint, discards what was in flight,
issues the fills again and counts a retry; sealed, or at the fourth, it is the unrecoverable-phase cause. A correctable error is one event of its
fault unit; an uncorrectable one marks its granule or row as poisoned with the unit that marked it first; the third event within 2^26 ticks retires
the unit. -/
def Obligations.RollbackAndErrors : Prop :=
  Claims.RollbackCourse ∧ Claims.ErrorResults

namespace Sys2Proof.Claims
open Sys2Proof.Machine

/-- The active core acts: no hand-over waits for its acknowledgement, and its SRAM check is not armed to fail (R391, R398). -/
def CoreActs (s : State) : Prop := s.disp.holding = false ∧ s.arms.get? 10 = none

end Sys2Proof.Claims

/-! ## The dispatcher (chapters 13 and 15) -/

/-- R333, R334, R399: serving a queue takes one write at a time: the serve line, the launch line with the packet's fields in state taking, the
head past the packet, and the state placing. -/
def Sys2Proof.Claims.ServingOrder : Prop :=
  (∀ (s : State) (q : Nat), CoreActs s → s.disp.serve = none → nextQueue s = some q →
    exec .queueServe s = .next { s with disp := { s.disp with serve := some q }, kicks := s.kicks.del q }) ∧
  (∀ (s : State) (q i : Nat) (qu : Queue) (e : QEntry) (rest : List QEntry), CoreActs s → s.disp.serve = some q → takingSlot s q = none →
    s.queues.get? q = some qu → qu.resident = true → qu.entries = e :: rest → freeSlot s = some i →
    exec .queueServe s = .next { s with launches := s.launches.put i (newLaunch e q qu.ctx qu.head e.pkt) } ∧
    s.launches.get? i = none ∧ i < 1024 ∧ (newLaunch e q qu.ctx qu.head e.pkt).jstate = .taking ∧
    (newLaunch e q qu.ctx qu.head e.pkt).lid = e.lid) ∧
  (∀ (s : State) (q i : Nat) (l : Launch) (qu : Queue), CoreActs s → s.disp.serve = some q → takingSlot s q = some (i, l) →
    s.queues.get? l.queue = some qu → qu.head = l.headIdx → qu.resident = true →
    exec .queueServe s = .next { s with queues := s.queues.put l.queue { qu with head := (qu.head + 1) % 2 ^ 32, entries := qu.entries.drop 1 } }) ∧
  (∀ (s : State) (q i : Nat) (l : Launch) (qu : Queue), CoreActs s → s.disp.serve = some q → takingSlot s q = some (i, l) →
    s.queues.get? l.queue = some qu → qu.head ≠ l.headIdx →
    exec .queueServe s = .next { s with launches := s.launches.upd i fun l => { l with jstate := .placing, next := 0 } }) ∧
  (∀ (s : State) (q : Nat), nextQueue s = some q → ∃ t, (q, t) ∈ s.kicks ∧ ∀ e ∈ s.kicks, headPrio s e.1 ≤ headPrio s q ∧
    (headPrio s e.1 = headPrio s q → t ≤ e.2 ∧ (e.2 = t → Tab.risingFrom none s.kicks = true → q ≤ e.1)))

/-- R332, R333: a queue that stops being resident writes its packets and counts to its ring; one that becomes resident reads its packets from
the ring, and keeps those that pass the checks again. -/
def Sys2Proof.Claims.QueueResidencyResults : Prop :=
  (∀ (s : State) (q : Nat) (qu : Queue), s.queues.get? q = some qu → qu.resident = true →
    exec (.queueResidency q false) s =
      .next { ringSync s { qu with resident := false } with queues := s.queues.put q { qu with resident := false } }) ∧
  (∀ (s : State) (q : Nat) (qu : Queue) (es : List QEntry), s.queues.get? q = some qu → qu.resident = false →
    (qu.entries.mapIdx fun i e => { e with pkt := ringPacket s qu (qu.head + i) }) = es →
    (∀ e ∈ es, acceptCode s qu.ctx e.pkt q false true = 0) →
    exec (.queueResidency q true) s = .next { s with queues := s.queues.put q { qu with resident := true, entries := es } }) ∧
  (∀ (s : State) (q : Nat) (b : Bool), (s.queues.get? q = none ∨ ∃ qu, s.queues.get? q = some qu ∧ qu.resident = b) →
    exec (.queueResidency q b) s = .next s)

/-- R336, R341, R343, R349, R350: a unit is placed on the bank that its launch wins, after NEXT is written, and a ticket on the bank that its
grove's queue wins; a partition is zeroed and freed with its launch's last unit. -/
def Obligations.PlacingResults : Prop :=
  (∀ (s : State) (slot k : Nat) (l : Launch), CoreActs s → launchAt s slot = some l → l.placing = true → l.placed ≠ pktUnits l.pkt →
    bankFor s slot = some (k, .launch slot) →
    (l.next = l.placed → exec (.unitPlace slot) s = .next (updLaunch s slot fun l => { l with next := l.placed + 1 })) ∧
    (l.next ≠ l.placed → pktTwice l.pkt = false → canAllot s l (k / 16) = true →
      exec (.unitPlace slot) s = .next (updLaunch (placeUnit (allot s l (k / 16)) slot (k / 2) (k % 2 == 1) l.placed 0 none) slot
        fun l => { l with placed := l.placed + 1 })) ∧
    (l.next ≠ l.placed → pktTwice l.pkt = false → canAllot s l (k / 16) = false → exec (.unitPlace slot) s = .next s) ∧
    (∀ k', l.next ≠ l.placed → pktTwice l.pkt = true → twinBank s l k = some k' → (canAllot s l (k / 16) = false ∨ canAllot s l (k' / 16) = false) →
      exec (.unitPlace slot) s = .next s) ∧
    (∀ k', l.next ≠ l.placed → pktTwice l.pkt = true → canAllot s l (k / 16) = true → twinBank s l k = some k' → canAllot s l (k' / 16) = true →
      exec (.unitPlace slot) s = .next (updLaunch (placeUnit (allot (placeUnit (allot s l (k / 16)) slot (k / 2) (k % 2 == 1) l.placed 0 none)
        l (k' / 16)) slot (k' / 2) (k' % 2 == 1) l.placed 1 none) slot fun l => { l with placed := l.placed + 1 }))) ∧
  (∀ (s : State) (slot : Nat) (l : Launch), CoreActs s → launchAt s slot = some l → l.placing = true → l.placed = pktUnits l.pkt →
    exec (.unitPlace slot) s = .next (updLaunch s slot fun l => { l with jstate := .allPlaced, allPlaced := true })) ∧
  (∀ (s : State) (slot h index copy : Nat) (bank : Bool) (l : Launch) (c : Code) (r : CtxRec), launchAt s slot = some l →
    s.codes.get? (pktCode l.pkt) = some c → ctxRec? s l.ctx = some r →
    ∃ u, (placeUnit s slot h bank index copy none).units.get? (2 * h + if bank then 1 else 0) = some u ∧ u.lid = l.lid ∧ u.index = index ∧
      u.ctx = l.ctx ∧ u.copy = copy ∧ u.prio = pktPrio l.pkt ∧ (∀ i, u.sreg i = 0) ∧ (∀ i, i ≠ 0 → u.preg i = false) ∧ u.r.ret = [] ∧ u.r.flags = 0 ∧
      u.r.plain = false ∧ u.r.lfsrv = 1 ∧ u.r.lfsrd = 1 ∧
      u.r.pc = (c.bases.c + if pf l.pkt 1 55 32 = 0xFFFFFF then c.entry else pf l.pkt 1 55 32) % 2 ^ 24 ∧
      u.ops = [] ∧ u.sealed = false ∧ u.retry = 0 ∧ u.ckpt = { regs := u.r, cpl := u.cpl }) ∧
  (∀ (s : State) (g n k : Nat) (t : Ticket) (l : Launch), CoreActs s → readyHead s g = some (n, t) → launchAt s t.slot = some l →
    ((List.range 16).map (16 * g + ·)).find? (fun k => !s.units.has k && ((winner s k).map (·.work)) = some (.ticket n)) = some k →
    canAllot s l g = true →
    exec (.ticketPlace g) s = .next
      (let w := placeUnit (allot s l g) t.slot (k / 2) (k % 2 == 1) t.index 0 (some (n, t))
       { w with tickets := w.tickets.del n, ready := w.ready.put g ((Tab.getD [] w.ready g).filter (· != n)) })) ∧
  (∀ (s : State) (part : Nat) (p : Partition), s.partitions.get? part = some p → (∀ e ∈ s.launches, e.2.lid ≠ p.lid) →
    (∀ e ∈ s.units, e.2.lid ≠ p.lid) →
    exec (.partitionFree part) s = .next { zeroFill s 0 (pantryAddr part 0) (pantryAddr (part + 1) 0) with partitions := s.partitions.del part })

/-- R338 to R340, R390: a launch whose units have all retired counts at its graph, phase and job and leaves its slot; two copies of equal
signature retire their unit; unequal ones fail the launch with a record and an event of both hearths. -/
def Sys2Proof.Claims.CompletionResults : Prop :=
  (∀ (s : State) (slot : Nat) (l : Launch), launchAt s slot = some l → l.allPlaced = true → l.outstanding = 0 → l.failed = false →
    l.cancelled = false → pf l.pkt 6 24 24 = 0 →
    exec (.launchCompletion slot) s = .next { s with
      graphs := s.graphs.upd (pktGraph l.pkt) fun i => { i with counter := i.counter + 1 }
      phases := s.phases.upd (pktPhase l.pkt) fun i => { i with counter := i.counter + 1 }
      jobs := s.jobs.upd (pktJob l.pkt) fun i => { i with counter := i.counter + 1 }
      launches := s.launches.del slot }) ∧
  (∀ (s : State) (l : Launch),
    ((objMem s l.ctx (pf l.pkt 6 23 0) = none ∨ ∃ e, objMem s l.ctx (pf l.pkt 6 23 0) = some e ∧ e.st ≠ 2 ∧
      (e.st ≠ 1 ∨ 1 < e.lvl ∨ e.size < 8 * pf l.pkt 6 63 26 + 8)) → completionWrite s l = .dropped) ∧
    ∀ e, objMem s l.ctx (pf l.pkt 6 23 0) = some e →
      (e.st = 2 → completionWrite s l = .waits) ∧
      (e.st = 1 → e.lvl ≤ 1 → 8 * pf l.pkt 6 63 26 + 8 ≤ e.size → ∀ s' tr,
        hostTranslate s l.ctx (pf l.pkt 6 23 0) (8 * pf l.pkt 6 63 26) true = (s', tr) →
        (tr = .stall → completionWrite s l = .waits) ∧ (∀ kind, tr = .fault kind → completionWrite s l = .dropped) ∧
        (∀ key pa, tr = .phys key pa → isSync s' pa = true → completionWrite s l = .dropped))) ∧
  (∀ (s : State) (slot : Nat) (l : Launch), launchAt s slot = some l → l.allPlaced = true → l.outstanding = 0 → l.failed = false →
    l.cancelled = false → pf l.pkt 6 24 24 = 1 → completionWrite s l = .waits → exec (.launchCompletion slot) s = .next s) ∧
  (∀ (s s' : State) (slot : Nat) (l : Launch), launchAt s slot = some l → l.allPlaced = true → l.outstanding = 0 → l.failed = false →
    l.cancelled = false → pf l.pkt 6 24 24 = 1 →
    (completionWrite s l = .made s' ∨ (completionWrite s l = .dropped ∧ s' = post s 0x0C 0x0920 false l.lid 0)) →
    exec (.launchCompletion slot) s = .next { s' with
      graphs := s'.graphs.upd (pktGraph l.pkt) fun i => { i with counter := i.counter + 1 }
      phases := s'.phases.upd (pktPhase l.pkt) fun i => { i with counter := i.counter + 1 }
      jobs := s'.jobs.upd (pktJob l.pkt) fun i => { i with counter := i.counter + 1 }
      launches := s'.launches.del slot }) ∧
  (∀ (s : State) (slot : Nat) (l : Launch), launchAt s slot = some l →
    (l.allPlaced = false ∨ l.outstanding ≠ 0 ∨ l.failed = true ∨ l.cancelled = true) → exec (.launchCompletion slot) s = .next s) ∧
  (∀ (s s' : State) (l : Launch) (key pa : Nat) (e : ObjE), objValid s l.ctx (pf l.pkt 6 23 0) = some e → e.lvl ≤ 1 →
    8 * pf l.pkt 6 63 26 + 8 ≤ e.size →
    hostTranslate s l.ctx (pf l.pkt 6 23 0) (8 * pf l.pkt 6 63 26) true = (s', .phys key pa) → isSync s' pa = false →
    completionWrite s l = .made (writeBytes s' key pa (leBytes 8 (l.pkt.getD 7 0).toNat))) ∧
  (∀ (s : State) (slot unit : Nat) (l : Launch) (a b : CopySig), CoreActs s → launchAt s slot = some l →
    l.sigs.find? (fun c => c.index = unit && c.copy = 0) = some a → l.sigs.find? (fun c => c.index = unit && c.copy = 1) = some b →
    l.failed = false → l.cancelled = false →
    (a.sig = b.sig → ∃ t, exec (.runTwiceCompare slot unit) s = .next t ∧ t = { s with launches := t.launches } ∧
      launchAt t slot = some { l with sigs := l.sigs.filter fun c => c.index != unit, retired := l.retired + 1 }) ∧
    (a.sig ≠ b.sig → 1 < l.outstanding → (∀ e ∈ s.tickets, e.2.slot ≠ slot) →
      ∃ t m, exec (.runTwiceCompare slot unit) s = .next t ∧ launchAt t slot = some m ∧ m.failed = true ∧ m.retired = l.retired + 1 ∧
        m.sigs = l.sigs.filter (fun c => c.index != unit)))

/-- R398 to R400: a hand-over puts the standby core in charge and holds the halt events; the take-over resolves the journal, places what can
be placed, and releases them. -/
def Sys2Proof.Claims.TakeOverResults : Prop :=
  (∀ (s : State), s.disp.standby = false →
    exec .handOver s = .next { s with disp := { s.disp with standby := true, holding := true } }) ∧
  (∀ (s : State), s.disp.standby = true → exec .handOver s = .next s) ∧
  (∀ (s : State), s.disp.holding = true → s.disp.serve = none → s.launches = [] → s.disp.held = [] →
    exec .takeOver s = .next { s with disp := { s.disp with holding := false } }) ∧
  (∀ (s : State) (q : Nat), s.disp.holding = true → s.disp.serve = some q → s.kicks.has q = false → q ≠ 0xFFFF → s.launches = [] → s.disp.held = [] →
    exec .takeOver s = .next { s with kicks := s.kicks.put q s.time, disp := { s.disp with holding := false, serve := none } }) ∧
  (∀ (s : State) (slot unit g : Nat), s.disp.holding = true →
    exec .queueServe s = .next s ∧ exec (.unitPlace slot) s = .next s ∧ exec (.ticketPlace g) s = .next s ∧
    exec (.runTwiceCompare slot unit) s = .next s ∧
    ∀ (c : CopySig) (t : Bool), haltEvent s slot c t = { s with disp := { s.disp with held := s.disp.held ++ [(slot, c, t)] } }) ∧
  (∀ (s : State) (e : Nat × Launch), s.launches = [e] → s.disp.serve = none → e.2.jstate = .taking →
    (((s.queues.get? e.2.queue).map (·.head)) = some e.2.headIdx → readJournal s = { s with launches := [] }) ∧
    (((s.queues.get? e.2.queue).map (·.head)) ≠ some e.2.headIdx →
      readJournal s = { s with launches := [(e.1, { e.2 with jstate := .placing, next := 0 })] }))

/-- Each queue-serve event makes the next write of R399: the serve line, the launch line in state taking, the head past the packet, the state placing.
The queue served is one of the highest priority among those kicked, of these the one kicked first, and of those of one tick the lowest identifier. A
queue that stops being resident writes its packets to its ring, and one that becomes resident reads them back. -/
def Obligations.ServingAndResidency : Prop :=
  Claims.ServingOrder ∧ Claims.QueueResidencyResults

/-- A launch-completion event with every unit placed and retired writes the completion value, eight bytes inside its object, or records that it
cannot, and waits while its page is migrating; counts at graph, phase and job, and frees the slot; otherwise it does nothing. A run-twice compare
retires a unit of equal signatures, and fails the launch of unequal ones. A hand-over puts the standby in charge and holds halt events; the take-over
resolves the journal's lines and then releases them; until then the dispatcher does nothing. -/
def Obligations.CompletionAndTakeOver : Prop :=
  Claims.CompletionResults ∧ Claims.TakeOverResults

namespace Sys2Proof.Claims
open Sys2Proof.Machine

/-- Step n of the chain that a handle names. -/
def StepOf (s : State) (h : BitVec 32) (n : Nat) (c : Chain) (st : BStep) : Prop :=
  chainAt s h = some c ∧ c.steps[n]? = some st

/-- A chain stays booked: some step is live, or owes a slip event. -/
def Stays (c : Chain) (n : Nat) (st : BStep) : Prop :=
  st.live = true ∨ st.slipOwed = true ∨ ∃ i x, i ≠ n ∧ c.steps[i]? = some x ∧ (x.live = true ∨ x.slipOwed = true)

/-- An engine waits for no grant and its state is as reset leaves it, or as the last lease left it (R23, R324). -/
def Waking (s : State) (e : EngineId) (at_ : Nat) (keep : Bool) : Prop := (engAt s e).power = .waking at_ keep

end Sys2Proof.Claims

/-! ## Booked steps and open leases (chapter 12) -/

/-- R306, R314, R315: a committed step of the Ladle runs from its START; one of an engine takes its engine in the slot its prefix begins; a
reservation runs in its slots and ends with the last. -/
def Sys2Proof.Claims.StepStarts : Prop :=
  (∀ (s : State) (h : BitVec 32) (n : Nat) (c : Chain) (st : BStep), StepOf s h n c st → st.st = .committed → st.rem = false → st.cls = 6 →
    (st.start ≤ curSlot s → exec (.bookedStepStart h n) s = .next (updStep s h n fun st => { st with st := .running })) ∧
    (curSlot s < st.start → exec (.bookedStepStart h n) s = .next s)) ∧
  (∀ (s : State) (h : BitVec 32) (n : Nat) (c : Chain) (st : BStep) (e : EngineId), StepOf s h n c st → st.st = .committed → st.rem = false →
    engOf c st = some e → st.cls < 6 →
    (curSlot s + st.pfx = st.start → st.pfx ≠ 0 → exec (.bookedStepStart h n) s = .next (takeEngine s c st e)) ∧
    (curSlot s + st.pfx < st.start → exec (.bookedStepStart h n) s = .next s)) ∧
  (∀ (s : State) (h : BitVec 32) (n : Nat) (c : Chain) (st : BStep), StepOf s h n c st → 7 ≤ st.cls →
    (st.st = .committed ∨ st.st = .running) →
    (st.start ≤ curSlot s → curSlot s ≤ st.last → exec (.reservationExecute h n) s =
      .next (updStep s h n fun st => { st with st := .running })) ∧
    (st.last < curSlot s → exec (.reservationExecute h n) s =
      .next (sweepChain (updStep s h n fun st => { st with st := .ended, endSlot := some st.last }) h))) ∧
  (∀ (s : State) (h : BitVec 32) (n : Nat) (c : Chain) (st : BStep), StepOf s h n c st →
    updStep s h n (fun st => { st with st := .running }) = { s with books := (updStep s h n fun st => { st with st := .running }).books } ∧
    stepAt (updStep s h n fun st => { st with st := .running }) h n = some { st with st := .running })

/-- R313, R317 to R319: a hold expires after 256 slots; a step that ended early gives its later slots back; a late step extends into its next
slot when it is free, and is suspended when it is not; a slip event is served once. -/
def Sys2Proof.Claims.StepEndings : Prop :=
  (∀ (s : State) (h : BitVec 32) (c : Chain), chainAt s h = some c → c.isHeld = true → c.remote = none →
    ((∃ st ∈ c.steps, st.st = .held ∧ st.heldAt + 256 ≤ curSlot s) →
      exec (.holdExpiry h) s = .next (updChain s h fun c => { c with steps := c.steps.map fun st => { st with st := .cancelled } })) ∧
    ((∀ st ∈ c.steps, curSlot s < st.heldAt + 256 ∧ st.st = .held) → exec (.holdExpiry h) s = .next s)) ∧
  (∀ (s : State) (h : BitVec 32) (n e : Nat) (c : Chain) (st : BStep), StepOf s h n c st → st.st = .ended → st.endSlot = some e → e < st.last →
    s.closing = [] →
    (e < curSlot s → st.giveBack e ≠ st →
      exec (.earlyFinish h n) s = .next (sweepChain (backfill (updStep s h n fun st => st.giveBack e) (bits h 31 27)) h)) ∧
    (st.rmd = none → st.ext = [] → st.start ≤ e → (st.giveBack e).last = e ∧ (st.giveBack e).start = st.start)) ∧
  (∀ (s : State) (h : BitVec 32) (n : Nat) (c : Chain) (st : BStep), StepOf s h n c st → st.overdue (curSlot s) = true →
    (extends_ (freeze s h n) h n c st (curSlot s) = true → exec (.stepLate h n) s =
      .next (updStep (freeze s h n) h n fun st => { st with st := .late, ext := st.ext ++ [curSlot s] })) ∧
    (extends_ (freeze s h n) h n c st (curSlot s) = false → exec (.stepLate h n) s = .next (suspend (freeze s h n) h n c st))) ∧
  (∀ (s : State) (h : BitVec 32) (n : Nat) (c : Chain) (st : BStep), StepOf s h n c st → slipDue s st = true →
    exec (.slipEvent h n) s = .next (sweepChain (updStep (slip s h n) h n fun st => { st with intr := [] }) h)) ∧
  (∀ (s : State) (h : BitVec 32) (n : Nat) (c : Chain) (st : BStep), StepOf s h n c st → slipDue s st = false → Stays c n st →
    exec (.slipEvent h n) s = .next s)

/-- R318: a suspended step takes its engine when its remainder's prefix begins, with a wake if the remainder has one and at once if not, and
runs again from the remainder's START; while the reload cannot be done, the budget being spent, its engine does not serve the slot (log 98). -/
def Sys2Proof.Claims.RemainderStarts : Prop :=
  (∀ (s : State) (h : BitVec 32) (n : Nat) (c : Chain) (st : BStep) (r : Remainder) (e : EngineId), StepOf s h n c st → st.st = .suspended →
    st.rmd = some r → engOf c st = some e → curSlot s = r.start - r.reload - r.pfx → curSlot s < r.start →
    exec (.remainderStart h n) s = .next (wipe (takeEngine s c { st with pfx := r.pfx } e) e) ∧
    (openLeaseOf s e = none → (engAt s e).isWaking = false → r.pfx ≠ 0 →
      takeEngine s c { st with pfx := r.pfx } e = wakeZero s e c.ctx r.pfx st.lease) ∧
    (openLeaseOf s e = none → (engAt s e).power = .awake → (engAt s e).ctx = some c.ctx → r.pfx = 0 →
      takeEngine s c { st with pfx := r.pfx } e =
        setEng s e { engAt s e with key := st.lease, zero := false, mem := (engAt s e).mem.leased })) ∧
  (∀ (s : State) (h : BitVec 32) (n : Nat) (c : Chain) (st : BStep) (r : Remainder), StepOf s h n c st → st.st = .suspended → st.rmd = some r →
    curSlot s < r.start - r.reload - r.pfx → exec (.remainderStart h n) s = .next s) ∧
  (∀ (s : State) (h : BitVec 32) (n : Nat) (c : Chain) (st : BStep) (r : Remainder), StepOf s h n c st → st.st = .suspended → st.rmd = some r →
    st.cls = 6 → st.lease = none → r.start ≤ curSlot s →
    exec (.remainderStart h n) s = .next (updStep s h n fun st => { st with st := .running })) ∧
  (∀ (s : State) (h : BitVec 32) (n : Nat) (c : Chain) (st : BStep), StepOf s h n c st → (st.st ≠ .suspended ∨ st.rmd = none) →
    owesReload s c st = false → exec (.remainderStart h n) s = .next s) ∧
  (∀ (s : State) (h : BitVec 32) (n : Nat) (c : Chain) (st : BStep) (k ls : Nat) (u : Machine.Unit) (l : LeaseSlot), StepOf s h n c st →
    owesReload s c st = true → st.lease = some (k, ls) → st.cls ≠ 6 → (serveLease s c st).units.get? k = some u →
    u.leases.toList.getD ls none = some l → l.load.isSome = true → spent s (groveOf k) = true →
    exec (.remainderStart h n) s = .next (setEng (serveLease s c st) l.eng { engAt (serveLease s c st) l.eng with key := none })) ∧
  (∀ (s : State) (c : Chain) (st : BStep) (e : EngineId) (k : Nat) (ls : Nat) (u : Machine.Unit) (l : LeaseSlot),
    (owesReload s c st = true ↔
      (st.st = .running ∨ st.st = .late) ∧ st.rmd.isSome = true ∧ st.lease.isSome = true ∧ ∃ e, engOf c st = some e ∧ (engAt s e).key ≠ st.lease) ∧
    (engOf c st = some e → serveLease s c st = setEng s e { engAt s e with key := st.lease }) ∧
    (l.load = none → reload s k ls u l = (s, true)))

/-- R321 to R324: an open lease that a booking or its MAXD ends is evicted with a record; a queued request is granted an engine that is free,
not booked, and within power; an engine is awake at its wake's end; a grove enters and leaves retention. -/
def Sys2Proof.Claims.OpenLeaseCourse : Prop :=
  (∀ (s : State) (e : EngineId) (k ls : Nat) (l : LeaseSlot), openLeaseOf s e = some (k, ls, l) → expelled s e l = true →
    exec (.openLeaseEviction e) s = .next (evictOpen s e (bookedAt s e (curSlot s)))) ∧
  (∀ (s : State) (e : EngineId) (k ls : Nat) (l : LeaseSlot), openLeaseOf s e = some (k, ls, l) → expelled s e l = false →
    (powerVictim s e.g = some e → exec (.openLeaseEviction e) s = .next (evictOpen s e false)) ∧
    (powerVictim s e.g ≠ some e → exec (.openLeaseEviction e) s = .next s)) ∧
  (∀ (s : State) (e : EngineId), openLeaseOf s e = none → exec (.openLeaseEviction e) s = .next s) ∧
  (∀ (s : State) (k ls : Nat) (u : Machine.Unit) (l : LeaseSlot), Tab.risingFrom none s.engines = true → s.units.get? k = some u → ls < 4 →
    u.leases.toList.getD ls none = some l →
    l.evicted = false → (engAt s l.eng).key = some (k, ls) → ∃ w, (evictSlot s k ls).units.get? k = some w ∧
      w.leases.toList.getD ls none = some { l with evicted := true } ∧
      (engAt (evictSlot s k ls) l.eng).mem = EngMem.empty ∧ (engAt (evictSlot s k ls) l.eng).key = none) ∧
  (∀ (s : State) (g : Nat) (r : OpenReq) (e : EngineId), s.openReqs = [r] → r.g = g → r.granted = none → chooseEngine s r = some e →
    exec (.openLeaseGrant g) s = .next (grant s r e)) ∧
  (∀ (s : State) (r : OpenReq) (e : EngineId), chooseEngine s r = some e →
    (engAt s e).key = none ∧ isRetired s (.engine e) = false ∧ bookedAt s e (curSlot s) = false ∧ e.g = r.g ∧ clsCode e.cls = r.cls ∧
    (r.emask = 0 ∨ r.emask.testBit e.i = true) ∧ bookedAt s e (curSlot s + 1) = false ∧
    powerUsed s (chainsOf s) r.g (curSlot s) + openUnits s r.g (fun _ => true) + classUnits r.cls ≤ powerLimit s r.g) ∧
  (∀ (s : State) (e : EngineId) (at_ : Nat) (keep : Bool), Waking s e at_ keep →
    (s.time < at_ → ∀ lost, exec (.engineAwake e lost) s = .next s) ∧
    (∀ lost t, at_ ≤ s.time → setEng s e { engAt s e with power := .awake, scan := false } = t → s.arms = [] →
      (lost = false ∨ (engAt s e).scan = false → exec (.engineAwake e lost) s = .next t) ∧
      (lost = true → (engAt s e).scan = true → exec (.engineAwake e lost) s = .next (loseRetained t e false)))) ∧
  (∀ (s : State) (g : Nat),
    (groveIdle s g = true → exec (.groveRetention g true []) s = .next (updGrove s g fun x => { x with retention := true })) ∧
    (groveIdle s g = false → exec (.groveRetention g true []) s = .next s) ∧
    ((groveAt s g).retention = true → (∀ e ∈ s.engines, e.2.power ≠ .retention) →
      exec (.groveRetention g false []) s = .next (updGrove s g fun x => { x with retention := false })))

/-- R325 to R327: a budget interval begins with nothing counted and the grants as they stand; a frequency change sets the frequency that the
grove's contexts and holds allow, at a slot boundary, and notes the steps within a slot; a slot boundary with no chain, open lease or engine of
its BKU changes nothing. -/
def Sys2Proof.Claims.BoundaryWork : Prop :=
  (∀ (s : State) (g : Nat), Tab.risingFrom none s.groves = true → ∃ t, exec (.budgetIntervalStart g) s = .next t ∧ (groveAt t g).used = 0 ∧
    (∀ j, j ≠ g → groveAt t j = groveAt s j) ∧ t.ctxs = s.ctxs.map (fun e => (e.1, { e.2 with bb := e.2.grant.bb })) ∧
    t = { s with groves := t.groves, ctxs := t.ctxs }) ∧
  (∀ (s : State) (g steps : Nat), Tab.risingFrom none s.groves = true → ∃ t, exec (.frequencyChange g steps) s = .next t ∧ t = { s with groves := t.groves } ∧
    (groveAt t g).freq = (if s.time % 64 = 0 then groveFreq s g steps else (groveAt s g).freq) ∧ (groveAt t g).lowered = steps ∧
    ∀ j, j ≠ g → groveAt t j = groveAt s j) ∧
  (∀ (s : State) (g steps : Nat),
    (groveFreq s g steps ≤ setFreq s g) ∧
    (s.lowSupply = true → groveFreq s g steps ≤ 12) ∧
    ((groveAt s g).safe = true ∨ (groveAt s g).hot = true → groveFreq s g steps = if s.lowSupply then 12 else 16) ∧
    (s.lowSupply = false → (groveAt s g).safe = false → (groveAt s g).hot = false →
      min (setFreq s g) (largestMinf s g).1 ≤ groveFreq s g steps)) ∧
  (∀ (s : State) (bku : Nat), s.books = [] → s.closing = [] → s.openReqs = [] → s.engines = [] → exec (.slotBoundary bku) s = .next s) ∧
  (∀ (s : State) (h : BitVec 32) (c : Chain) (st : BStep) (bku : Nat), s.books = [(chainKey h, c)] → c.handle = h → bits h 31 27 = bku →
    s.closing = [] → s.openReqs = [] → s.engines = [] → c.steps = [st] → st.st = .committed → st.rem = false → st.cls = 6 → st.pfx = 0 →
    st.start = curSlot s → st.slipOwed = false → c.isHeld = false → bku < 16 →
    exec (.slotBoundary bku) s = .next { s with books := [(chainKey h, { c with steps := [{ st with st := .running }] })] })

/-- The events of a booked step: start, reservation, hold expiry after 256 slots, early finish, lateness with its extension or suspension, slip and
the remainder's start (with a wake where it has a prefix, at once where it has none, and tried again while its reload cannot be done, log 98), each
with its effect when its time has come and none otherwise. -/
def Obligations.StepCourse : Prop :=
  Claims.StepStarts ∧ Claims.StepEndings ∧ Claims.RemainderStarts

/-- The events of open leases (eviction by a booking, by MAXD or as the victim of the power limit, with a record; grant of an engine that is free,
unbooked, allowed and within power; wake, with the scan of what was retained), of a grove's retention, of the byte-budget interval, of the frequency
in force with its bounds, which changes at a slot boundary alone, and of a slot boundary, which changes nothing where nothing is booked and starts a
step that is due. -/
def Obligations.OpenLeasesAndBoundaries : Prop :=
  Claims.OpenLeaseCourse ∧ Claims.BoundaryWork

namespace Sys2Proof.Claims
open Sys2Proof.Machine

/-- The neighbours of sensor i: the other sensors of its kind among the sixteen of its compute die (Table 15.11). -/
def sameDie (i j : Nat) : Prop := j ≠ i ∧ j / 16 = i / 16 ∧ (i % 4 = 3 ↔ j % 4 = 3)

/-- The rules of Table 15.11 that make a reading suspect, from the reading and the neighbours' median. -/
def Caught (i : Nat) (x : Sensor) (raw : Int) (med : Option Int) : Prop :=
  (i % 4 ≠ 3 ∧ (raw < -80 ∨ 500 < raw)) ∨ (i % 4 = 3 ∧ 800 < raw) ∨
  (∃ m p m0, med = some m ∧ x.hist[1023]? = some (p, some m0) ∧ (∀ h ∈ x.hist, h.1 - raw ≤ 1 ∧ raw - h.1 ≤ 1) ∧ (m - m0 > 2 ∨ m0 - m > 2)) ∨
  (∃ p m r, x.hist = (p, m) :: r ∧ ((i % 4 ≠ 3 ∧ (raw - p > 16 ∨ p - raw > 16)) ∨ (i % 4 = 3 ∧ (raw - p > 200 ∨ p - raw > 200)))) ∨
  (∃ m, med = some m ∧ i % 4 ≠ 3 ∧ (raw - m > 48 ∨ m - raw > 48))

end Sys2Proof.Claims

/-! ## The Forester (chapter 15) -/

/-- R395, R396, R406: sampling reads all 64 sensors; a reading that a rule of Table 15.11 catches makes its sensor suspect and is an event of it;
the median of the neighbours that are not suspect is the middle of their readings. -/
def Sys2Proof.Claims.SensorResults : Prop :=
  (∀ (s : State) (raw : List Int), ∃ t, exec (.sensorSample raw) s = .next t ∧ (∀ i < 64, (sensorAt t i).raw = raw.getD i 0) ∧
    t.mem = s.mem ∧ t.units = s.units ∧ t.books = s.books) ∧
  (∀ (s old : State) (raws : List Int) (i : Nat) (med : Option Int), i < 64 → s.arms = [] →
    (sensorAt s i).perm = false → isRetired s (.sensor (i / 4) (i % 4)) = false → (sensorAt s i).susp = false →
    median ((neighbours i).filterMap fun j => if (sensorAt old j).susp then none else some (raws.getD j 0)) = med →
    (Caught i (sensorAt s i) (raws.getD i 0) med → (sensorAt (sampleOne old raws s i) i).susp = true ∧
      (sensorAt (sampleOne old raws s i) i).passes = 0 ∧
      (sampleOne old raws s i).sensorLog = (s.time, i, (sensorAt (sampleOne old raws s i) i).val) :: s.sensorLog) ∧
    (¬ Caught i (sensorAt s i) (raws.getD i 0) med →
      (sensorAt (sampleOne old raws s i) i).susp = false ∧ (sensorAt (sampleOne old raws s i) i).val = raws.getD i 0 ∧
      (sampleOne old raws s i).sensorLog = s.sensorLog)) ∧
  (∀ i < 64, ∀ j, j ∈ neighbours i ↔ j < 64 ∧ sameDie i j) ∧
  (∀ (l : List Int) (m : Int), l.length % 2 = 1 → median l = some m →
    m ∈ l ∧ (l.filter fun x => x < m).length ≤ l.length / 2 ∧ (l.filter fun x => m < x).length ≤ l.length / 2) ∧
  (∀ (s : State) (g : Nat) (t : Nat), (groveAt s g).calmSince = some t → (groveAt s g).safe = true → t ≤ s.time →
    (t + 2 ^ 26 ≤ s.time → s.time % 64 = 0 → Tab.risingFrom none s.groves = true →
      ∃ u, exec (.safeFrequencyReturn g) s = .next u ∧ (groveAt u g).safe = false ∧ u = { s with groves := u.groves }) ∧
    ((s.time < t + 2 ^ 26 ∨ s.time % 64 ≠ 0) → exec (.safeFrequencyReturn g) s = .next s))

/-- R28, R30, R392 to R394, R405, R406: the supply's hold; the life-of-part record in flash; wear and end of life; and module reset, which keeps
what the flash holds, the retirements and the part's age among it, leaves retired memory out of the address map, and records a thermal trip. -/
def Sys2Proof.Claims.SupplyLifeAndReset : Prop :=
  (∀ (s : State), exec .supplyUndervoltage s = .next { s with lowSupply := true } ∧
    exec .inputReturn s = .next { s with lowSupply := false }) ∧
  (∀ (s : State), Tab.risingFrom none s.life = true → (∀ e ∈ s.life, e.1 < 2 ^ 16 ∧ e.2 ≠ 0) → Tab.risingFrom none s.lifeFlash = true →
    ∃ t, exec .lifeRecordWrite s = .next t ∧ t = { s with lifeFlash := t.lifeFlash } ∧
      (∀ i < 2 ^ 16, Tab.getD 0 t.lifeFlash i = Tab.getD 0 s.life i) ∧
      ∀ i, 2 ^ 16 ≤ i → Tab.getD 0 t.lifeFlash i = Tab.getD 0 s.lifeFlash i) ∧
  (∀ (s : State) (g d e : Nat), ∃ t w, exec (.wearRead g d e) s = .next t ∧ t = { s with wear := t.wear } ∧ t.wear.get? g = some w ∧
    w.d = d ∧ w.e = e ∧ w.eol ≤ 1023 ∧ w.hist.head? = some (s.lifeTicks + s.time, d, e)) ∧
  (∀ (s : State), s.trip = false → ∃ t, exec .moduleReset s = .next t ∧ t.units = [] ∧ t.mem = [] ∧ t.ctxs = [] ∧ t.books = [] ∧ t.qpairs = [] ∧
    t.time = 0 ∧ t.mailbox = State.reset.mailbox ∧ t.mgmt = State.reset.mgmt ∧ t.retired = s.retired ∧ t.lifeFlash = s.lifeFlash ∧
    t.life = (s.lifeFlash.filter fun e => e.1 < 2 ^ 16) ∧ t.lifeTicks = s.lifeTicks + s.time ∧
    t.leftOut = (s.retired.filter fun k => k / 2048 = 3 ∨ k / 2048 = 4)) ∧
  (∀ (s : State), s.trip = true → ∃ t, exec .moduleReset s = .next t ∧ t.units = [] ∧ t.mem = [] ∧ t.time = 0 ∧ t.retired = s.retired ∧
    t.lifeFlash = Tab.set 0 s.lifeFlash (2 ^ 20) (Tab.getD 0 s.lifeFlash (2 ^ 20) + 1))

/-- R396, R397: the test period gives the next grove in rotation a window of 192 free slots within the horizon; a window evicts the grove's open
leases and leaves its engines off; a pass clears its log, and a failure retires the grove with a record. -/
def Sys2Proof.Claims.InFieldTest : Prop :=
  (∀ (s : State), (∀ w, curSlot s < w → w ≤ curSlot s + 3904 → windowFree { s with testNext := (s.testNext + 1) % 16 } (s.testNext % 16) w = false) →
    exec .testPeriod s =
      .next (updGrove { s with testNext := (s.testNext + 1) % 16 } (s.testNext % 16) fun x => { x with wantTest := true })) ∧
  (∀ (s : State) (w : Nat), curSlot s < w → w ≤ curSlot s + 3904 →
    windowFree { s with testNext := (s.testNext + 1) % 16 } (s.testNext % 16) w = true →
    (∀ v, curSlot s < v → v < w → windowFree { s with testNext := (s.testNext + 1) % 16 } (s.testNext % 16) v = false) →
    exec .testPeriod s =
      .next (updGrove { s with testNext := (s.testNext + 1) % 16 } (s.testNext % 16) fun x => { x with window := some w, wantTest := false })) ∧
  (∀ (s : State) (g : Nat), inWindow s g (curSlot s) = true → Tab.risingFrom none s.engines = true →
    ∃ t, exec (.testWindow g) s = .next t ∧ t.mem = s.mem ∧ ∀ i, (engAt t i).power = .awake → i.g ≠ g ∨ engOfKey (engKey i) ≠ some i) ∧
  (∀ (s : State) (g : Nat), inWindow s g (curSlot s) = false → exec (.testWindow g) s = .next s) ∧
  (∀ (s : State) (g w : Nat), (groveAt s g).window = some w →
    (w + 192 ≤ curSlot s + 1 →
      exec (.testResult g true) s = .next (updGrove s g fun x =>
        { x with window := none, lastPass := 64 * (w + 192) - 1, dests := []
                 log := if x.logFrozen then x.log else [], logOvf := x.logFrozen && x.logOvf }) ∧
      exec (.testResult g false) s = .next (failGrove s g)) ∧
    (curSlot s + 1 < w + 192 → ∀ b, exec (.testResult g b) s = .next s)) ∧
  (∀ (s : State) (g : Nat), s.units = [] → s.books = [] → s.closing = [] → s.launches = [] → s.tickets = [] → Tab.risingFrom none s.groves = true →
    (groveAt (failGrove s g) g).retired = true ∧ (groveAt (failGrove s g) g).logFrozen = true ∧ (groveAt (failGrove s g) g).log = (groveAt s g).log ∧
    (failGrove s g).sent = s.sent ++ (groveAt s g).dests.map fun d => Sent.suspect d g (groveAt s g).lastPass s.time)

/-- R407, R408, Table 18.2: a write of a management register keeps its field; TPER takes 30 to 40 only; RETSVC returns a retired unit to service;
MBCONS moves within the records posted; a read of CALD0 latches the selected calendar entry; GBUDg and GPOWg read 0 at the tick of reset and the grove's
values after it (log 99). -/
def Sys2Proof.Claims.ManagementRegisters : Prop :=
  (∀ (s : State) (v : Double),
    exec (.mgmtRegisterWrite 0x0000 v) s = .next { s with mgmt := { s.mgmt with gsel := v.toNat % 2 ^ 12 } } ∧
    (∃ t, exec (.mgmtRegisterWrite 0x0610 v) s = .next t ∧ t = { s with mgmt := { s.mgmt with ptpctl := v.getLsbD 0 }, ptpstat := t.ptpstat } ∧
      t.ptpstat.getLsbD 1 = v.getLsbD 0 ∧ ∀ i, i ≠ 1 → t.ptpstat.getLsbD i = s.ptpstat.getLsbD i) ∧
    exec (.mgmtRegisterWrite 0x0700 v) s = .next { s with mgmt := { s.mgmt with calsel := v.toNat % 2 ^ 26 } } ∧
    exec (.mgmtRegisterWrite 0x0800 v) s = .next { s with mgmt := { s.mgmt with lopsel := v.toNat % 2 ^ 10 } } ∧
    exec (.mgmtRegisterWrite 0x0A00 v) s = .next { s with mgmt := { s.mgmt with slogsel := v.toNat % 2 ^ 16 } } ∧
    ∀ off, off ∉ [0x0000, 0x0610, 0x0700, 0x0800, 0x0A00] → exec (.mgmtRegisterWrite off v) s = .next s) ∧
  (∀ (s : State) (v : Double),
    (30 ≤ v.toNat % 2 ^ 6 → v.toNat % 2 ^ 6 ≤ 40 → exec (.tper v) s = .next { s with mgmt := { s.mgmt with tper := v.toNat % 2 ^ 6 } }) ∧
    ((v.toNat % 2 ^ 6 < 30 ∨ 40 < v.toNat % 2 ^ 6) → exec (.tper v) s = .next s)) ∧
  (∀ (s : State) (v : Double) (f : FaultUnit), v.toNat = fuClass f + fuIndex f * 2 ^ 8 → fuIndex f < 2 ^ 11 → NSet.risingFrom none s.retired = true →
    (isRetired s f = true → ∃ t, exec (.retsvc v) s = .next t ∧ isRetired t f = false ∧ (∀ k, k ≠ fuKey f → t.retired.elem k = s.retired.elem k) ∧
      t = { s with retired := t.retired, lifeFlash := t.lifeFlash, ports := t.ports, sensors := t.sensors }) ∧
    (isRetired s f = false → exec (.retsvc v) s = .next s)) ∧
  (∀ (s : State) (v : Double), s.mailbox.cons ≤ v.toNat → v.toNat ≤ s.mailbox.prod → s.mailbox.prod < 2 ^ 32 →
    exec (.mbcons v) s = .next { s with mailbox :=
      { s.mailbox with cons := v.toNat, before := (s.mailbox.prod, s.mailbox.lost, s.mailbox.ovf), ready := [] } }) ∧
  (∀ (s : State) (v : Double), s.mailbox.cons ≤ s.mailbox.prod → s.mailbox.prod < v.toNat → v.toNat < 2 ^ 32 → exec (.mbcons v) s = .next s) ∧
  (∀ (s : State), exec .cald0 s = .next { s with mgmt := { s.mgmt with cald := BitVec.ofNat 88 (calEntry s s.mgmt.calsel) } }) ∧
  (∀ (s : State) (g : Nat), g < 16 →
    (s.time = 0 → mgmtRead s (0x0100 + 8 * g) = 0 ∧ mgmtRead s (0x0180 + 8 * g) = 0) ∧
    (s.time ≠ 0 → mgmtRead s (0x0100 + 8 * g) = BitVec.ofNat 64 (byteBudget s g + (groveAt s g).used * 2 ^ 32) ∧
      mgmtRead s (0x0180 + 8 * g) = BitVec.ofNat 64 ((groveAt s g).freq + powerLimit s g * 2 ^ 8 +
        (powerUsed s (chainsOf s) g (curSlot s) + openUnits s g fun _ => true) * 2 ^ 16)) ∧
    mgmtRead s 0x0600 = BitVec.ofNat 64 s.mgmt.tper ∧ mgmtRead s 0x0900 = BitVec.ofNat 64 s.mailbox.prod ∧
    mgmtRead s 0x0908 = BitVec.ofNat 64 s.mailbox.cons ∧ mgmtRead s 0x0910 = BitVec.ofNat 64 s.mailbox.lost)

/-- R34, R408: a record posted while the mailbox has room is the next one, stands in its slot with its tick, and reads as posted; with no
room it is dropped and counted. -/
def Sys2Proof.Claims.MailboxPosts : Prop :=
  ∀ (s : State) (ty src p0 p1 : Nat) (inj : Bool), s.mailbox.tick ≠ s.time → s.mailbox.prod < 2 ^ 32 → s.mailbox.cons < 2 ^ 32 →
    (s.mailbox.prod + 2 ^ 32 - s.mailbox.cons) % 2 ^ 32 ≤ 1024 →
    (post s ty src inj p0 p1) = { s with mailbox := (post s ty src inj p0 p1).mailbox } ∧
    ((s.mailbox.prod + 2 ^ 32 - s.mailbox.cons) % 2 ^ 32 < 1024 →
      (post s ty src inj p0 p1).mailbox.prod = (s.mailbox.prod + 1) % 2 ^ 32 ∧ (post s ty src inj p0 p1).mailbox.lost = s.mailbox.lost ∧
      (post s ty src inj p0 p1).mailbox.recs.get? (s.mailbox.prod % 1024) =
        some [BitVec.ofNat 64 (ty + (if inj then 2 ^ 8 else 0) + (if s.mailbox.ovf then 2 ^ 9 else 0) + src * 2 ^ 16), BitVec.ofNat 64 s.time,
              BitVec.ofNat 64 p0, BitVec.ofNat 64 p1]) ∧
    ((s.mailbox.prod + 2 ^ 32 - s.mailbox.cons) % 2 ^ 32 = 1024 →
      (post s ty src inj p0 p1).mailbox.prod = s.mailbox.prod ∧ (post s ty src inj p0 p1).mailbox.recs = s.mailbox.recs ∧
      (post s ty src inj p0 p1).mailbox.lost = min (2 ^ 32 - 1) (s.mailbox.lost + 1) ∧ (post s ty src inj p0 p1).mailbox.ovf = true)

/-- A sample reads all 64 sensors; a sensor that one of the rules catches becomes suspect, and the value in its place is logged; the safe frequency is
left after 2^26 calm ticks at a slot boundary. The test period gives the next grove in rotation the first free window of 192 slots within the horizon;
a window turns its engines off (the model's choice, log 60); a pass clears the grove's log unless a failure has frozen it, and a failure retires the
grove and notifies those it sent data to. -/
def Obligations.SensorsAndTests : Prop :=
  Claims.SensorResults ∧ Claims.InFieldTest

/-- mgmtRegisterWrite keeps the field of the registers that have no row of their own, and ignores every other offset: an unassigned one, a read-only
one, and one that a row of its own writes, such as 0x0600 or 0x0908; PTPCTL shows in $ptpstat; TPER takes 30 to 40 only; RETSVC returns one unit to
service; MBCONS moves only within the records posted; a read of CALD0 latches the entry selected. A record posted with room is the next one, with its
tick; with none it is dropped and counted in LOST. Undervoltage and its return set and clear the low-supply state; the life record is written to
flash; a wear reading is kept with the part's age and the predicted end of life, at most 1,023; a module reset leaves every part as reset leaves it,
but for the flash, the retirements, the part's age and the counters that flash holds, and leaves retired memory out of the address map (log 82); what
a reset keeps, and the index of the thermal trip in the life record, are the model's choice (log 60). GBUDg and GPOWg read 0 at the tick of reset and
the grove's values after it (log 99). -/
def Obligations.ManagementAndSupply : Prop :=
  Claims.ManagementRegisters ∧ Claims.MailboxPosts ∧ Claims.SupplyLifeAndReset

namespace Sys2Proof.Claims
open Sys2Proof.Machine

/-- The machine after it answered a command: one reply on the command's queue pair with its tag, its status and a result (R362). -/
def answered (s : State) (hd : CmdHeader) (cmd status : Nat) (result : List Nat) : State :=
  { s with replies := s.replies ++ [.answer hd.qp cmd status hd.tag hd.ctx (result.map (BitVec.ofNat 64))] }

/-- The machine after it sent a reply of another kind, or a message over Ebith. -/
def replied (s : State) (r : Reply) : State := { s with replies := s.replies ++ [r] }
def sentOut (s : State) (m : Sent) : State := { s with sent := s.sent ++ [m] }

/-- A command on the queue pair bound to its context, which is not being destroyed (R359, R363). -/
def FromContext (s : State) (hd : CmdHeader) (r : CtxRec) : Prop :=
  ∃ q, s.qpairs.get? hd.qp = some q ∧ q.bound = some hd.ctx ∧ ctxRec? s hd.ctx = some r ∧ r.quiescing = none

/-- A command on a management queue pair (R359, R363). -/
def FromManagement (s : State) (hd : CmdHeader) : Prop := ∃ q, s.qpairs.get? hd.qp = some q ∧ q.bound = none

/-- A context's commands of Table 14.4 with their numbers. -/
def ContextCommand (hd : CmdHeader) (i : Instr) (cmd : Nat) : Prop :=
  (∃ img, i = .load hd img ∧ cmd = 0x04) ∨ (∃ n, i = .unload hd n ∧ cmd = 0x05) ∨ (∃ e, i = .createObj hd e ∧ cmd = 0x06) ∨
  (∃ oid, i = .destroyObj hd oid ∧ cmd = 0x07) ∨ (∃ q n oid off, i = .createQueue hd q n oid off ∧ cmd = 0x08) ∨
  (∃ q, i = .deleteQueue hd q ∧ cmd = 0x09) ∨ (∃ q p, i = .launchCommand hd q p ∧ cmd = 0x0A) ∨ (∃ b, i = .release hd b ∧ cmd = 0x0B) ∨
  (∃ lv n, i = .releaseIds hd lv n ∧ cmd = 0x0F) ∨ (∃ oid lo hi r, i = .window hd oid lo hi r ∧ cmd = 0x11)

/-- The management's commands of Table 14.4 with their numbers. -/
def ManagementCommand (hd : CmdHeader) (i : Instr) (cmd : Nat) : Prop :=
  (∃ b, i = .createCtx hd b ∧ cmd = 0x01) ∨ (i = .destroyCtx hd ∧ cmd = 0x02) ∨ (∃ g, i = .setGrant hd g ∧ cmd = 0x03) ∨
  (∃ o oid c r, i = .grantCap hd o oid c r ∧ cmd = 0x0C) ∨ (∃ c oid, i = .revoke hd c oid ∧ cmd = 0x0D) ∨
  (∃ dev c lo hi r, i = .exportEntry hd dev c lo hi r ∧ cmd = 0x0E)

/-- A data window of a queue pair's own context that allows the bytes [addr, addr + n) of its object for the right (R360). -/
def InWindow (s : State) (qp rkey addr n right : Nat) (w : WindowRec) : Prop :=
  ∃ q, s.qpairs.get? qp = some q ∧ s.windows.get? rkey = some w ∧ q.bound = some w.ctx ∧ w.rights.toNat &&& right = right ∧ w.lo ≤ addr ∧
    addr + n ≤ w.hi

/-- The table of remote accesses allowed in has an entry for the source, the right and the bytes [a, a + n) (R367). -/
def AllowedIn (s : State) (src : RemoteSource) (right a n : Nat) : Prop :=
  ∃ x ∈ s.remoteIn, x.dev = src.dev ∧ x.rctx = src.ctx ∧ x.rights.toNat &&& right = right ∧ x.lo ≤ a ∧ a + n ≤ x.hi

/-- The machine after the banks that an element at `a` reaches served it, and the turn of its port at them (R16, R251). -/
def bankServed (s : State) (src : RemoteSource) (a : Nat) : State := noteServed s (256 + src.port) (bankAt s a).toList
def bankFree (s : State) (src : RemoteSource) (a : Nat) : Prop := ∀ r, bankAt s a = some r → mayServe s (256 + src.port) r = true

/-- The machine after poison that came on a port marked a granule (R389). -/
def portMark (s : State) (src : RemoteSource) (a : Nat) (poisoned : Bool) : State :=
  if poisoned then { s with poison := s.poison.put (a / 64) (.ebithPort src.port, false) } else s

end Sys2Proof.Claims

/-! ## The host interface (chapter 14) -/

/-- R359, R362, R363: a queue pair is connected once, with an MTU of 1,024, 2,048 or 4,096; a context's command from any other queue pair, and a
management command from a context's, is NOPRIV; a command with no opcode of Table 14.4 is BADCMD. -/
def Sys2Proof.Claims.QueuePairRules : Prop :=
  (∀ (s : State) (qp mtu : Nat) (b : Option Nat) (port : Bool), qp < 8192 → s.qpairs.get? qp = none → mtu ∈ [1024, 2048, 4096] →
    (∀ c, b = some c → ∃ r, ctxRec? s c = some r) →
    exec (.queuePairConnect qp b port mtu) s = .next { s with qpairs := s.qpairs.put qp { bound := b, port := port, mtu := mtu } }) ∧
  (∀ (s : State) (qp mtu : Nat) (b : Option Nat) (port : Bool), (8192 ≤ qp ∨ (∃ q, s.qpairs.get? qp = some q) ∨ mtu ∉ [1024, 2048, 4096] ∨
      ∃ c, b = some c ∧ ctxRec? s c = none) → exec (.queuePairConnect qp b port mtu) s = .next s) ∧
  (∀ (s : State) (qp : Nat), (∀ q, s.qpairs.get? qp = some q → exec (.invalidRequest qp) s = .next (replied s (.nakInvalid qp))) ∧
    (s.qpairs.get? qp = none → exec (.invalidRequest qp) s = .next s)) ∧
  (∀ (s : State) (hd : CmdHeader) (q : QPair) (cmd : Byte), s.qpairs.get? hd.qp = some q →
    ((cmd.toNat = 0 ∨ 0x12 ≤ cmd.toNat) → exec (.unknownCommand hd cmd) s = .next (answered s hd cmd.toNat 0x30 [])) ∧
    (1 ≤ cmd.toNat → cmd.toNat ≤ 0x11 → exec (.unknownCommand hd cmd) s = .next s)) ∧
  (∀ (s : State) (hd : CmdHeader) (i : Instr) (cmd : Nat), ContextCommand hd i cmd ∨ ManagementCommand hd i cmd → s.qpairs.get? hd.qp = none →
    exec i s = .next s) ∧
  (∀ (s : State) (hd : CmdHeader) (i : Instr) (cmd : Nat) (q : QPair), ContextCommand hd i cmd → s.qpairs.get? hd.qp = some q →
    (q.bound ≠ some hd.ctx → exec i s = .next (answered s hd cmd 0x31 [])) ∧
    (∀ r, q.bound = some hd.ctx → ctxRec? s hd.ctx = some r → r.quiescing.isSome = true → exec i s = .next (answered s hd cmd 0x33 []))) ∧
  (∀ (s : State) (hd : CmdHeader) (i : Instr) (cmd : Nat) (q : QPair), ManagementCommand hd i cmd → s.qpairs.get? hd.qp = some q →
    q.bound.isSome = true → exec i s = .next (answered s hd cmd 0x31 []))

/-- R347, R353, R355, R357, R358, R363: CREATE_CTX draws a key for a context within its limits; DESTROY_CTX of a quiet context leaves nothing of
it; SET_GRANT replaces a grant within its limits; GRANT_CAP, REVOKE and EXPORT_ENTRY do what they say. -/
def Sys2Proof.Claims.ManagementCommands : Prop :=
  (∀ (s : State) (hd : CmdHeader) (b : CtxBody), FromManagement s hd → b.ctx = hd.ctx → ctxBodyOk b = true → s.ctxs.get? b.ctx = none →
    ∃ t r, exec (.createCtx hd b) s = .next (answered t hd 0x01 0 []) ∧ t = { s with ctxs := t.ctxs, free := t.free, nextKey := t.nextKey } ∧
      t.ctxs.get? b.ctx = some r ∧ r.body = b ∧ r.key = s.nextKey ∧ t.nextKey = s.nextKey + 1 ∧ r.quiescing = none ∧
      r.grant.units = 28 ∧ grantOk r.grant = true ∧
      ∀ c, c ≠ b.ctx → t.ctxs.get? c = s.ctxs.get? c) ∧
  (∀ (s : State) (hd : CmdHeader) (b : CtxBody), FromManagement s hd →
    ((b.ctx ≠ hd.ctx ∨ ctxBodyOk b = false) → exec (.createCtx hd b) s = .next (answered s hd 0x01 0x32 [])) ∧
    (b.ctx = hd.ctx → ctxBodyOk b = true → s.ctxs.has b.ctx = true → exec (.createCtx hd b) s = .next (answered s hd 0x01 0x33 []))) ∧
  (∀ (s : State) (hd : CmdHeader) (r : CtxRec), FromManagement s hd → ctxRec? s hd.ctx = some r → r.quiescing = some hd.qp → s.part.isSome = true →
    (ctxQuiet s hd.ctx = true → exec (.destroyCtx hd) s = .next (answered (destroyRest { s with part := none } hd.ctx r) hd 0x02 0 [])) ∧
    (ctxQuiet s hd.ctx = false → exec (.destroyCtx hd) s = .next { s with part := some 0 })) ∧
  (∀ (s t : State) (hd : CmdHeader) (r : CtxRec), FromManagement s hd → ctxRec? s hd.ctx = some r → r.quiescing = none →
    (cancelScope { s with part := none, ctxs := s.ctxs.put hd.ctx { r with quiescing := some hd.qp } } fun _ c _ => c = hd.ctx).1 = t →
    (ctxQuiet t hd.ctx = true → exec (.destroyCtx hd) s = .next (answered (destroyRest t hd.ctx r) hd 0x02 0 [])) ∧
    (ctxQuiet t hd.ctx = false → exec (.destroyCtx hd) s = .next { t with part := some 0 })) ∧
  (∀ (s : State) (hd : CmdHeader), FromManagement s hd →
    (ctxRec? s hd.ctx = none → exec (.destroyCtx hd) s = .next (answered { s with part := none } hd 0x02 0x32 [])) ∧
    (∀ r q, ctxRec? s hd.ctx = some r → r.quiescing = some q → (q ≠ hd.qp ∨ s.part = none) →
      exec (.destroyCtx hd) s = .next (answered { s with part := none } hd 0x02 0x33 []))) ∧
  (∀ (s : State) (ctx : Nat) (r : CtxRec), Tab.risingFrom none s.ctxs = true → ctxRec? s ctx = some r →
    (destroyRest s ctx r).ctxs.get? ctx = none ∧ (∀ q ∈ (destroyRest s ctx r).queues, q.2.ctx ≠ ctx) ∧
    (∀ w ∈ (destroyRest s ctx r).windows, w.2.ctx ≠ ctx) ∧ (∀ p ∈ (destroyRest s ctx r).partitions, p.2.ctx ≠ ctx) ∧
    (∀ c ∈ (destroyRest s ctx r).codes, c.2.ctx ≠ ctx) ∧ ∀ x ∈ (destroyRest s ctx r).remoteIn, x.ctx ≠ ctx) ∧
  (∀ (s : State) (hd : CmdHeader) (gr : GrantBody), FromManagement s hd →
    (grantOk gr = true → s.ctxs.has hd.ctx = true → exec (.setGrant hd gr) s =
      .next (answered { s with ctxs := s.ctxs.upd hd.ctx fun r => { r with grant := gr } } hd 0x03 0 [])) ∧
    ((grantOk gr = false ∨ s.ctxs.has hd.ctx = false) → exec (.setGrant hd gr) s = .next (answered s hd 0x03 0x32 []))) ∧
  (∀ (s t : State) (hd : CmdHeader) (owner oid recipient n : Nat) (rights : BitVec 8) (e : ObjE), FromManagement s hd →
    objValid s owner oid = some e → s.ctxs.has recipient = true → rights.toNat < 128 → nextOid s recipient = some n →
    makeSynonym s recipient n e = some t →
    exec (.grantCap hd owner oid recipient rights) s = .next (answered { t with grants := t.grants ++
      [{ owner := owner, oid := oid, recipient := recipient, roid := n, rights := rights }] } hd 0x0C 0 [n])) ∧
  (∀ (s : State) (hd : CmdHeader) (owner oid recipient : Nat) (rights : BitVec 8), FromManagement s hd →
    (objValid s owner oid = none ∨ s.ctxs.has recipient = false ∨ 128 ≤ rights.toNat) →
    exec (.grantCap hd owner oid recipient rights) s = .next (answered s hd 0x0C 0x32 [])) ∧
  (∀ (s : State) (hd : CmdHeader) (owner oid recipient : Nat) (rights : BitVec 8) (e : ObjE), FromManagement s hd →
    objValid s owner oid = some e → s.ctxs.has recipient = true → rights.toNat < 128 →
    (nextOid s recipient = none ∨ ∃ n, nextOid s recipient = some n ∧ makeSynonym s recipient n e = none) →
    exec (.grantCap hd owner oid recipient rights) s = .next (answered s hd 0x0C 0x34 [])) ∧
  (∀ (s : State) (hd : CmdHeader) (recipient oid : Nat), FromManagement s hd →
    (∀ t, (∃ g ∈ s.grants, g.recipient = recipient ∧ g.roid = oid) →
      t = { retireEntry s recipient oid with grants := s.grants.filter fun g => !(g.recipient = recipient && g.roid = oid) } →
      exec (.revoke hd recipient oid) s = .next (answered (retireGrants t.grants.length t recipient oid) hd 0x0D 0 []) ∧
      ((∀ g ∈ t.grants, ¬ (g.owner = recipient ∧ g.oid = oid)) → retireGrants t.grants.length t recipient oid = t)) ∧
    ((∀ g ∈ s.grants, ¬ (g.recipient = recipient ∧ g.roid = oid)) → exec (.revoke hd recipient oid) s = .next (answered s hd 0x0D 0x32 []))) ∧
  (∀ (s : State) (hd : CmdHeader) (dev rctx lo hi : Nat) (rights : BitVec 8), FromManagement s hd → s.ctxs.has hd.ctx = true → dev < 2 ^ 18 →
    rctx < 4096 → lo < hi → assigned lo = true → assigned (hi - 1) = true → physLvl lo = physLvl (hi - 1) → rights.toNat &&& (rR + rW + rA) = rights.toNat →
    exec (.exportEntry hd dev rctx lo hi rights) s = .next (answered { s with remoteIn := s.remoteIn ++
      [{ ctx := hd.ctx, dev := dev, rctx := rctx, lo := lo, hi := hi, rights := rights }] } hd 0x0E 0 [])) ∧
  (∀ (s : State) (hd : CmdHeader) (dev rctx lo hi : Nat) (rights : BitVec 8), FromManagement s hd →
    (s.ctxs.has hd.ctx = false ∨ 2 ^ 18 ≤ dev ∨ 4096 ≤ rctx ∨ hi ≤ lo ∨ assigned lo = false ∨ assigned (hi - 1) = false ∨
      physLvl lo ≠ physLvl (hi - 1) ∨ rights.toNat &&& (rR + rW + rA) ≠ rights.toNat) →
    exec (.exportEntry hd dev rctx lo hi rights) s = .next (answered s hd 0x0E 0x32 []))

/-- R87 to R89, R331 to R333, R356, R364: a context's commands: LOAD and UNLOAD of code, objects made and destroyed, queues made and deleted, a
launch accepted or refused by its first broken condition, RELEASE, and identifiers released; each answers the status of what stands against it
otherwise. A queue with packets is in use (log 37), and an object's grants are retired with it (log 63). -/
def Obligations.ContextCommands : Prop :=
  (∀ (s : State) (hd : CmdHeader) (r : CtxRec) (img : CodeImage), FromContext s hd r →
    (∀ code bases, loadCheck s r hd.ctx img = (code, bases) → code ≠ 0 → exec (.load hd img) s = .next (answered s hd 0x04 code [])) ∧
    (∀ bases t h, loadCheck s r hd.ctx img = (0, bases) → install s hd.ctx img bases = some (t, h) →
      exec (.load hd img) s = .next (answered t hd 0x04 0 [h, bases.c, bases.vl, bases.va, bases.vs, bases.m, bases.d])) ∧
    (∀ bases, loadCheck s r hd.ctx img = (0, bases) → install s hd.ctx img bases = none →
      exec (.load hd img) s = .next (answered s hd 0x04 0x34 []))) ∧
  (∀ (s : State) (hd : CmdHeader) (r : CtxRec) (code : Nat) (c : Code), FromContext s hd r → s.codes.get? code = some c → c.ctx = hd.ctx →
    (codeUsed s hd.ctx code = false →
      exec (.unload hd code) s = .next (answered (syncRetire { s with codes := s.codes.del code } c.sync) hd 0x05 0 [])) ∧
    (codeUsed s hd.ctx code = true → exec (.unload hd code) s = .next (answered s hd 0x05 0x33 []))) ∧
  (∀ (s : State) (hd : CmdHeader) (r : CtxRec) (code : Nat), FromContext s hd r → (∀ c, s.codes.get? code = some c → c.ctx ≠ hd.ctx) →
    exec (.unload hd code) s = .next (answered s hd 0x05 0x32 [])) ∧
  (∀ (s : State) (hd : CmdHeader) (r : CtxRec) (entry : List Double), FromContext s hd r →
    (objRequestOk r (objOf entry) = false → exec (.createObj hd entry) s = .next (answered s hd 0x06 0x32 [])) ∧
    (objRequestOk r (objOf entry) = true →
      (nextOid s hd.ctx = none ∨ ∃ oid, nextOid s hd.ctx = some oid ∧ makeObject s hd.ctx oid { objOf entry with key := hd.ctx } = none) →
      exec (.createObj hd entry) s = .next (answered s hd 0x06 0x34 []))) ∧
  (∀ (s : State) (hd : CmdHeader) (r : CtxRec) (oid : Nat), FromContext s hd r →
    (objValid s hd.ctx oid = none → exec (.destroyObj hd oid) s = .next (answered s hd 0x07 0x32 [])) ∧
    ((objValid s hd.ctx oid).isSome = true → isCodeArea s hd.ctx oid = true → exec (.destroyObj hd oid) s = .next (answered s hd 0x07 0x33 []))) ∧
  (∀ (s : State) (hd : CmdHeader) (r : CtxRec) (q depth oid off : Nat), FromContext s hd r →
    ((2 ^ 16 ≤ q ∨ ringOk s hd.ctx depth oid off = false) → exec (.createQueue hd q depth oid off) s = .next (answered s hd 0x08 0x32 [])) ∧
    (q < 2 ^ 16 → ringOk s hd.ctx depth oid off = true → s.queues.has q = true →
      exec (.createQueue hd q depth oid off) s = .next (answered s hd 0x08 0x33 [])) ∧
    ((∀ qu, s.queues.get? q = some qu → qu.ctx ≠ hd.ctx) → exec (.deleteQueue hd q) s = .next (answered s hd 0x09 0x32 []))) ∧
  (∀ (s : State) (hd : CmdHeader) (r : CtxRec) (b : Double), FromContext s hd r → releaseTarget s hd.ctx b = none →
    exec (.release hd b) s = .next (answered s hd 0x0B 0x32 [])) ∧
  (∀ (s : State) (hd : CmdHeader) (r : CtxRec) (lv : BitVec 2) (id : Nat), FromContext s hd r →
    ((lv = 3 ∨ ownsId s hd.ctx lv.toNat id = false) → exec (.releaseIds hd lv id) s = .next (answered s hd 0x0F 0x32 [])) ∧
    (lv ≠ 3 → ownsId s hd.ctx lv.toNat id = true → idUsed s hd.ctx lv.toNat id = true →
      exec (.releaseIds hd lv id) s = .next (answered s hd 0x0F 0x33 []))) ∧
  (∀ (s t : State) (hd : CmdHeader) (r : CtxRec) (entry : List Double) (oid : Nat), FromContext s hd r → objRequestOk r (objOf entry) = true →
    nextOid s hd.ctx = some oid → makeObject s hd.ctx oid { objOf entry with key := hd.ctx } = some t →
    exec (.createObj hd entry) s = .next (answered t hd 0x06 0 [oid])) ∧
  (∀ (s t : State) (hd : CmdHeader) (r : CtxRec) (oid : Nat) (e : ObjE), FromContext s hd r → objValid s hd.ctx oid = some e →
    isCodeArea s hd.ctx oid = false → retireGrants s.grants.length s hd.ctx oid = t →
    exec (.destroyObj hd oid) s = .next (answered (removeObject { t with grants := t.grants.filter fun g =>
      !(g.recipient = hd.ctx && g.roid = oid) } hd.ctx oid e) hd 0x07 0 []) ∧
    ((∀ g ∈ s.grants, ¬ (g.owner = hd.ctx ∧ g.oid = oid)) → t = s)) ∧
  (∀ (s : State) (hd : CmdHeader) (r : CtxRec) (q depth oid off : Nat) (qu : Queue), FromContext s hd r → q < 2 ^ 16 → ringOk s hd.ctx depth oid off = true →
    s.queues.get? q = none →
    qu = { ctx := hd.ctx, depth := depth, oid := oid, off := off, resident := r.body.hmask != 0, head := 0, entries := [] } →
    exec (.createQueue hd q depth oid off) s =
      .next (answered { objWrite s hd.ctx oid off (List.replicate 64 0) with queues := s.queues.put q qu } hd 0x08 0 [])) ∧
  (∀ (s : State) (hd : CmdHeader) (r : CtxRec) (q : Nat) (qu : Queue), FromContext s hd r → s.queues.get? q = some qu → qu.ctx = hd.ctx →
    (qu.entries = [] → takingSlot s q = none → exec (.deleteQueue hd q) s =
      .next (answered { s with
        nextOrder := s.nextOrder + 1, queues := s.queues.del q, kicks := s.kicks.del q
        launches := s.launches.map fun e => (e.1, if e.2.queue = q then { e.2 with queue := q + 2 ^ 16 * (s.nextOrder + 1) } else e.2) }
        hd 0x09 0 [])) ∧
    ((qu.entries ≠ [] ∨ (takingSlot s q).isSome = true) → exec (.deleteQueue hd q) s = .next (answered s hd 0x09 0x33 []))) ∧
  (∀ (s : State) (hd : CmdHeader) (r : CtxRec) (q : Nat) (pkt : List Double), FromContext s hd r →
    (acceptCode s hd.ctx pkt q false false = 0 →
      exec (.launchCommand hd q pkt) s = .next (answered (pushPacket s hd.ctx pkt q).1 hd 0x0A 0 [s.nextLid])) ∧
    (acceptCode s hd.ctx pkt q false false ≠ 0 →
      exec (.launchCommand hd q pkt) s = .next (answered s hd 0x0A (acceptCode s hd.ctx pkt q false false) [0]))) ∧
  (∀ (s : State) (hd : CmdHeader) (r : CtxRec) (b : Double) (pa : Nat), FromContext s hd r → releaseTarget s hd.ctx b = some pa →
    exec (.release hd b) s = .next (answered (syncRelease s pa) hd 0x0B 0 [syncRseq (syncRelease s pa) (pa / 64 * 64)])) ∧
  (∀ (s : State) (hd : CmdHeader) (r : CtxRec) (id : Nat), FromContext s hd r →
    (ownsId s hd.ctx 0 id = true → idUsed s hd.ctx 0 id = false →
      exec (.releaseIds hd 0 id) s = .next (answered { s with graphs := s.graphs.del id } hd 0x0F 0 [])) ∧
    (ownsId s hd.ctx 1 id = true → idUsed s hd.ctx 1 id = false →
      exec (.releaseIds hd 1 id) s = .next (answered { s with phases := s.phases.del id } hd 0x0F 0 [])) ∧
    (ownsId s hd.ctx 2 id = true → idUsed s hd.ctx 2 id = false →
      exec (.releaseIds hd 2 id) s = .next (answered { s with jobs := s.jobs.del id } hd 0x0F 0 []))) ∧
  (∀ (s t : State) (code buf newOid : Nat) (c : Code) (e : ObjE) (b : BufferEntry × Nat), s.codes.get? code = some c → c.buffers[buf]? = some b →
    objValid s c.ctx newOid = some e →
    (c.relocs.filter fun r => (r.kind = 1 || r.kind = 4) && r.aux = buf).foldl
      (relocate c.ctx c.bases (c.buffers.mapIdx fun i b => if i = buf then (newOid, e.size) else (b.2, b.1.size))) { s with part := none } = t →
    ((∀ u ∈ s.units, u.2.code ≠ code) → ∃ c', c' = { c with buffers := c.buffers.mapIdx fun i b => if i = buf then (b.1, newOid) else b } ∧
      exec (.rePatch code buf newOid) s = .next (syncRelease { t with codes := t.codes.put code c' } c.sync)) ∧
    ((∃ u ∈ s.units, u.2.code = code) → exec (.rePatch code buf newOid) s = .next { s with part := some 0 }))

/-- R360, R361, R365, R369: a window gives a remote key for a range of an object; an RDMA write or read within it moves bytes and one without it
is refused; ATTEST signs its report; PTP moves the offset on the port in use. -/
def Obligations.HostAccessAndAttestation : Prop :=
  (∀ (s : State) (hd : CmdHeader) (r : CtxRec) (oid lo hi : Nat) (rights : BitVec 8) (e : ObjE), FromContext s hd r →
    objValid s hd.ctx oid = some e → e.lvl ≠ 2 → lo < hi → hi ≤ e.size → rights ≠ 0 →
    ((rR + rW) &&& rightsLimit s hd.ctx oid) &&& rights.toNat = rights.toNat →
    ∃ k t, exec (.window hd oid lo hi rights) s = .next (answered t hd 0x11 0 [k]) ∧ s.windows.get? k = none ∧ 1 ≤ k ∧
      t = { s with windows := s.windows.put k { ctx := hd.ctx, oid := oid, lo := lo, hi := hi, rights := rights } }) ∧
  (∀ (s s' : State) (qp rkey addr key pa : Nat) (w : WindowRec) (data : List Byte), InWindow s qp rkey addr data.length rW w → s.part = none →
    data ≠ [] → addr % 64 + data.length ≤ 64 → hostTranslate s w.ctx w.oid addr true = (s', .phys key pa) → isSync s' pa = false →
    exec (.rdmaWrite qp rkey addr data) s = .next (replied (putBytes s' key (data.mapIdx fun i b => (pa + i, b))) (.ack qp))) ∧
  (∀ (s s' s2 : State) (qp rkey addr n key pa : Nat) (w : WindowRec) (bs : List Byte), InWindow s qp rkey addr n rR w → s.part = none → 1 ≤ n →
    addr % 64 + n ≤ 64 → hostTranslate s w.ctx w.oid addr false = (s', .phys key pa) → readIn s' key pa n = (s2, bs, none) →
    exec (.rdmaRead qp rkey addr n) s = .next (replied s2 (.bytes qp bs))) ∧
  (∀ (s : State) (qp rkey addr n : Nat) (q : QPair) (data : List Byte), s.qpairs.get? qp = some q → s.part = none → s.windows.get? rkey = none →
    exec (.rdmaWrite qp rkey addr data) s = .next (replied s (.nakAccess qp)) ∧
    exec (.rdmaRead qp rkey addr n) s = .next (replied s (.nakAccess qp))) ∧
  (∀ (s : State) (hd : CmdHeader) (r : CtxRec) (nonce body : List Byte), FromContext s hd r → nonce.length = 32 →
    report s (some (hd.ctx, r)) nonce = body →
    exec (.attest hd nonce) s =
      .next (answered s hd 0x10 0 ((doublesOf (body ++ Config.deviceSign body) 2060).map BitVec.toNat))) ∧
  (∀ (s : State) (hd : CmdHeader) (q : QPair) (nonce : List Byte), s.qpairs.get? hd.qp = some q →
    (∀ c, q.bound = some c → c ≠ hd.ctx → exec (.attest hd nonce) s = .next (answered s hd 0x10 0x31 [])) ∧
    ((q.bound = none ∨ q.bound = some hd.ctx) → nonce.length ≠ 32 → exec (.attest hd nonce) s = .next (answered s hd 0x10 0x32 []))) ∧
  (∀ (s : State) (hd : CmdHeader) (nonce body : List Byte), FromManagement s hd → nonce.length = 32 → report s none nonce = body →
    exec (.attest hd nonce) s =
      .next (answered s hd 0x10 0 ((doublesOf (body ++ Config.deviceSign body) 2060).map BitVec.toNat))) ∧
  (∀ (s : State) (port : Bool) (offset : Double) (err : BitVec 16) (lock : Bool),
    (port = s.mgmt.ptpctl → ∃ t, exec (.ptpMessage port offset err lock) s = .next t ∧ t = { s with ptpoff := offset, ptpstat := t.ptpstat } ∧
      t.ptpstat.getLsbD 0 = lock ∧ t.ptpstat.getLsbD 1 = port ∧ t.ptpstat.toNat / 2 ^ 16 = err.toNat) ∧
    (port ≠ s.mgmt.ptpctl → exec (.ptpMessage port offset err lock) s = .next s))

/-! ## Ebith (chapters 08, 12 and 14) -/

/-- R366, R367, R389, R392, R397: a port accepts the next good flit and asks again for any other, a bad one being an event of it with its record,
and is down after one failure and sixteen failed replays (log 65); a remote access, of plain bytes and never to a sync object's line (log 40), and a
release flag are performed if the table of remote accesses allows them, poison moving with the data, each flag once; a suspect notice is recorded. -/
def Sys2Proof.Claims.EbithResults : Prop :=
  (∀ (s : State) (port seq : Nat), port < 48 → s.arms = [] → (portAt s port).down = false → (portAt s port).seq = seq →
    exec (.ebithFlitReceive port seq true) s = .next { s with ports := s.ports.put port { down := false, seq := seq + 1, fails := 0 } }) ∧
  (∀ (s : State) (port q : Nat) (ok : Bool) (x : Port), port < 48 → s.arms = [] → portAt s port = x → x.down = false →
    (ok = false ∨ q ≠ x.seq) →
    (∀ u, x.fails < 16 → u = sentOut { s with ports := s.ports.put port { x with fails := x.fails + 1 } } (.retry port x.seq) →
      exec (.ebithFlitReceive port q ok) s = .next (if ok then u else takeReport u (.ebithPort port) false false 0)) ∧
    (16 ≤ x.fails → ∃ t, exec (.ebithFlitReceive port q ok) s = .next t ∧ t.ports.get? port = some { x with fails := x.fails + 1, down := true })) ∧
  (∀ (s : State) (port : Nat) (x : Port), portAt s port = x →
    (port < 48 → exec (.ebithPortDown port) s = .next { s with ports := s.ports.put port { x with down := true } }) ∧
    (48 ≤ port → exec (.ebithPortDown port) s = .next s) ∧
    ∀ q ok, (48 ≤ port ∨ x.down = true) → exec (.ebithFlitReceive port q ok) s = .next s) ∧
  (∀ (s s' : State) (src : RemoteSource) (a n : Nat) (bs : List Byte) (p : Bool), AllowedIn s src rR a n → remoteRead s a n = (s', bs, p) →
    exec (.remoteAccess src (.read a n)) s = .next (sentOut s' (.accessDone src.dev bs p)) ∧ s'.mem = s.mem ∧ bs = viewBytes s' 0 a n ∧
    (p = true ↔ ∃ i < n, (s'.poison.get? ((a + i) / 64)).isSome = true)) ∧
  (∀ (s : State) (src : RemoteSource) (a : Nat) (bs : List Byte) (p : Bool), AllowedIn s src rW a bs.length →
    ((∀ i < bs.length, isSync s (a + i) = false) → exec (.remoteAccess src (.write a bs p)) s = .next (sentOut
      (if p then markAll (writeBytes s 0 a bs) a bs.length (.ebithPort src.port, false) else writeBytes s 0 a bs) (.accessDone src.dev [] false))) ∧
    ((∃ i < bs.length, isSync s (a + i) = true) → exec (.remoteAccess src (.write a bs p)) s = .next (sentOut s (.accessRefused src.dev)))) ∧
  (∀ (s : State) (src : RemoteSource) (a : Nat) (v : Double), AllowedIn s src rA a 8 → (∀ i < 8, isSync s (a + i) = false) →
    exec (.remoteAccess src (.stamp a v)) s = .next (sentOut (writeBytes s 0 a (leBytes 8 v.toNat)) (.accessDone src.dev [] false))) ∧
  (∀ (s : State) (src : RemoteSource) (a n : Nat) (bs : List Byte) (p : Bool) (v : Double), (¬ AllowedIn s src rR a n →
      exec (.remoteAccess src (.read a n)) s = .next (sentOut s (.accessRefused src.dev))) ∧
    (¬ AllowedIn s src rW a bs.length → exec (.remoteAccess src (.write a bs p)) s = .next (sentOut s (.accessRefused src.dev))) ∧
    (¬ AllowedIn s src rA a 8 → exec (.remoteAccess src (.stamp a v)) s = .next (sentOut s (.accessRefused src.dev)))) ∧
  (∀ (s : State) (src : RemoteSource) (id : Word) (seq a : Nat) (v : Double),
    ((∀ q, lastFlag s src id = some q → q < seq) → AllowedIn s src rA a 8 → (∀ i < 8, isSync s (a + i) = false) →
      ∃ t, exec (.releaseFlagAccept src id seq a v) s = .next (sentOut (writeBytes t 0 a (leBytes 8 v.toNat)) (.accessDone src.dev [] false)) ∧
        t = { s with flagsIn := t.flagsIn } ∧ lastFlag t src id = some seq) ∧
    ((∀ q, lastFlag s src id = some q → q < seq) → ¬ AllowedIn s src rA a 8 →
      exec (.releaseFlagAccept src id seq a v) s = .next (sentOut s (.accessRefused src.dev))) ∧
    (∀ q, lastFlag s src id = some q → seq ≤ q → exec (.releaseFlagAccept src id seq a v) s = .next s)) ∧
  (∀ (s : State) (dev grove lastPass failTick : Nat),
    exec (.remoteSuspectNotice dev grove lastPass failTick) s = .next (postGroup s 0x09 0x0A01 (grove + dev * 2 ^ 32) lastPass failTick 0)) ∧
  (∀ (s : State) (b : Bool), exec (.timeBaseAlignment b) s = .next { s with misaligned := b })

/-- R16, R223, R251, R313: a reduce element is applied once, by its source's sequence, when its bank may serve its port; a watermark goes 65,536
ticks after its copy (another module's copies are known complete by the event: the model's choice, log 14); a hold request takes the lowest free
candidate for its whole span or is refused, and its commit keeps the hold. -/
def Sys2Proof.Claims.RemoteReduceAndHolds : Prop :=
  (∀ (s : State) (src : RemoteSource) (el : ReduceElement) (m : WMark), AllowedIn s src rA el.addr ((Fmt.ofCode el.fmt.toNat).width / 8) →
    s.part = none → bankFree s src el.addr → m ∈ s.watermarks → wmSame (reduceTarget s el.addr src.port) src.dev src.ctx el.id m = true →
    el.sequence ≤ m.seq →
    exec (.reduceElementApply src el) s = .next (sentOut (bankServed s src el.addr) (.reduceDone src.dev src.ctx el.id el.sequence 0))) ∧
  (∀ (s : State) (src : RemoteSource) (el : ReduceElement) (c w : Nat) (fl : Flags), AllowedIn s src rA el.addr w →
    (Fmt.ofCode el.fmt.toNat).width / 8 = w → s.part = none → bankFree s src el.addr →
    reduceSeen s el.addr src.port src.dev src.ctx el.id el.sequence = false → isSync s el.addr = false →
    combineElem el.fmt.toNat el.rop.toNat (leNat (viewBytes s 0 el.addr w)) (el.v.toNat % 2 ^ (8 * w)) = (c, fl) →
    (∀ m, s.watermarks.find? (wmIs (reduceTarget s el.addr src.port) src.dev src.ctx el.id) = some m →
      exec (.reduceElementApply src el) s = .next (sentOut (portMark { writeBytes (bankServed s src el.addr) 0 el.addr (leBytes w c) with
        watermarks := s.watermarks.map fun x =>
          if wmIs (reduceTarget s el.addr src.port) src.dev src.ctx el.id x then { x with seq := el.sequence, doneAt := none } else x }
        src el.addr el.poisoned) (.reduceDone src.dev src.ctx el.id el.sequence fl))) ∧
    (s.watermarks.find? (wmIs (reduceTarget s el.addr src.port) src.dev src.ctx el.id) = none →
      (s.watermarks.filter fun x => x.target = reduceTarget s el.addr src.port).length < 256 →
      exec (.reduceElementApply src el) s = .next (sentOut (portMark { writeBytes (bankServed s src el.addr) 0 el.addr (leBytes w c) with
        watermarks := s.watermarks ++ [{ target := reduceTarget s el.addr src.port, dev := src.dev, ctx := src.ctx, id := el.id,
                                         seq := el.sequence, doneAt := none }] }
        src el.addr el.poisoned) (.reduceDone src.dev src.ctx el.id el.sequence fl)))) ∧
  (∀ (s : State) (src : RemoteSource) (el : ReduceElement) (w : Nat), (Fmt.ofCode el.fmt.toNat).width / 8 = w → s.part = none →
    (¬ AllowedIn s src rA el.addr w → exec (.reduceElementApply src el) s = .next (sentOut s (.accessRefused src.dev))) ∧
    (AllowedIn s src rA el.addr w → ¬ bankFree s src el.addr → exec (.reduceElementApply src el) s = .next { s with part := some 0 })) ∧
  (∀ (s : State) (target dev ctx t : Nat) (id : Word) (m : WMark), s.watermarks = [m] → m.target = target → m.dev = dev → m.ctx = ctx → m.id = id →
    m.doneAt = some t → (t + 65536 ≤ s.time → exec (.watermarkFree target dev ctx id) s = .next { s with watermarks := [] }) ∧
      (s.time < t + 65536 → exec (.watermarkFree target dev ctx id) s = .next s)) ∧
  (∀ (s : State) (target dev ctx : Nat) (id : Word) (m : WMark), s.watermarks = [m] → m.target = target → m.dev = dev → m.ctx = ctx → m.id = id →
    m.doneAt = none → exec (.watermarkFree target dev ctx id) s =
      .next (if dev = Config.deviceId.toNat then s else { s with watermarks := [] })) ∧
  (∀ (s : State) (src : RemoteSource) (r : HoldReq) (i n : Nat), s.misaligned = false → holdOk r = true →
    (List.range 48).find? (spanFree s r) = some i → freeIndex s 16 = some n →
    ∃ t c, exec (.holdRequest src r) s = .next (sentOut t (.holdReply src.dev (some i) r.handle)) ∧
      t = { s with books := s.books.put (16 * 1024 + n) c, nextOrder := s.nextOrder + 1 } ∧ c.remote = some src.dev ∧
      ∃ st, c.steps = [st] ∧ st.st = .held ∧ st.ridx = i ∧ st.start = r.start ∧ st.dur = r.dur ∧ st.handleRem = r.handle) ∧
  (∀ (s : State) (src : RemoteSource) (r : HoldReq), (s.misaligned = true ∨ holdOk r = false ∨ (List.range 48).find? (spanFree s r) = none) →
    exec (.holdRequest src r) s = .next (sentOut s (.holdReply src.dev none r.handle))) ∧
  (∀ (s : State) (src : RemoteSource) (h : BitVec 32) (c : Chain) (st : BStep), s.books = [(chainKey c.handle, c)] → s.closing = [] →
    c.remote = some src.dev → c.steps = [st] → st.handleRem = h → st.st = .held →
    exec (.remoteHoldCommit src h true) s =
      .next { s with books := [(chainKey c.handle, { c with steps := [{ st with st := .committed }] })] } ∧
    ∃ t, exec (.remoteHoldCommit src h false) s = .next t ∧ t.books = [])

/-- Each of these forms completes (exec answers the next state) for every state and operands that meet the conditions given on them alone, and answers
the status of the condition that it breaks otherwise. queuePairConnect connects a queue pair once; invalidRequest, a request that is not SEND, WRITE
or READ, is refused; unknownCommand is BADCMD; a context's command from another queue pair and a management command from a context are NOPRIV, and a
command of a context being destroyed is BUSY (NOPRIV for a context's command on a management pair and this BUSY are the model's readings, log 37).
createCtx makes a context of 28 grant units (R22; its other grant fields are free within their limits, log 38) with the next key; destroyCtx stops the
context's launches, waits until it is quiet and then removes all of it; setGrant replaces a grant; grantCap makes an entry of the object in another
context, or answers NOSPACE; revoke retires it, and what was granted on from it (log 63); exportEntry adds to the table of remote accesses, and
refuses a bad context, device, range, level or right. -/
def Obligations.HostCommands : Prop :=
  Claims.QueuePairRules ∧ Claims.ManagementCommands

/-- A port accepts the next good flit, asks again for any other, a bad one being an event of the port with its record, and is down after one failure
and sixteen failed replays (log 65). A remote read, write, stamp, release flag or reduce element is performed if the table of remote accesses allows
it, poison moving with its data, each flag and element once; otherwise it is refused, as a write or stamp to a sync object's line is (plain bytes and
this refusal: log 40). A reduce element is applied when the bank that holds it may serve its port in this cycle (R16), and waits otherwise. A
watermark goes 65,536 ticks after its copy; that another module's copies are known complete by the event is the model's choice (log 14). A hold
request takes the lowest free candidate for its whole span or is refused; its commit keeps the hold, and its release frees it (the form of its chain:
log 41). A suspect notice is recorded, and the time-base alignment is kept. -/
def Obligations.EbithResults : Prop :=
  Claims.EbithResults ∧ Claims.RemoteReduceAndHolds

namespace Sys2Proof.Claims
open Sys2Proof.Machine

/-- The turn of a stream of the unit at `k`, next on the agenda; `s0` is the state with that turn taken off. -/
def TurnOf (s s0 : State) (str : Stream) (k : Nat) (u : Machine.Unit) : Prop :=
  ∃ h bank rest, s.agenda = .issue h bank str :: rest ∧ s0 = { s with agenda := rest } ∧ k = 2 * h.toNat + (if bank then 1 else 0) ∧
    s0.units.get? k = some u

/-- The control words at the pc of a unit that may issue and is not to be killed (R346), first word first, read with no poison, leaving `s1`
(R38, R288). -/
def ControlAt (s s0 s1 : State) (k : Nat) (u : Machine.Unit) (ws : Words) : Prop :=
  TurnOf s s0 .c k u ∧ mayIssueC s0 k u = true ∧ u.served = none ∧ u.doomed s0 = false ∧
  ∃ x r s', controlWord s0 u u.r.pc = (s', x, none) ∧
    controlWords u (if x.2 = 0 then trailing .c x.1 else 0) (u.r.pc + 1) s' = (s1, r, none) ∧ ws = x :: r

/-- The words at the place of a strand that may issue: the first, and with it, where it is an instruction, as many as it announces or as are left
in the strand (R38). -/
def StrandAt (s s0 : State) (str : Stream) (k : Nat) (u : Machine.Unit) (ws : Words) : Prop :=
  TurnOf s s0 str k u ∧ str ≠ .c ∧ mayIssueE s0 k u str = true ∧ u.doomed s0 = false ∧ u.outstanding str = false ∧
  ∃ r x, (u.seqr.get str).run = some r ∧ (r.store.drop r.off).head? = some x ∧
    ws = (r.store.drop r.off).take (if x.2 = 0 then 1 + trailing str x.1 else 1)

/-- Words of an instruction with the word kinds that R39 asks for: the first an instruction word, the others trailing words. -/
def KindsOf (ws : Words) : Prop := ∃ w tr, ws = (w, 0) :: tr ∧ ∀ t ∈ tr, t.2 = 1

end Sys2Proof.Claims

/-! ## Decoding and stepping (chapters 02 and 03) -/

/-- Words written out from Tables 2.23, 3.10, 5.10, 6.5, 7.8, 9.10, 10.8, 11.2 and 16.2 decode to the instructions they stand for. -/
def Obligations.DecodedWords : Prop :=
  decode .c [0x0308CCA0] = .ok (.cinc .seq 3 3 5) ∧ decode .c [0x03190CC2] = .ok (.cnarrow .seq 4 3 6 1) ∧
  decode .c [0x03F0A000] = .ok (.trap .seq 20) ∧ decode .c [0x03F8C800] = .ok (.inject .seq 3 4) ∧
  decode .c [0x01D80000] = .ok .halt ∧ decode .c [0x03600000] = .ok (.phase .seq) ∧
  decode .va [0xD8C00000] = .ok (.tokPutVa 3 0)

/-- R16, R38, R371: with the turn of a stream next, the words at its place of the right kinds decoding to a well-formed instruction, the step is a
turn of the unit (`unitTurn`) that executes that instruction there, with what the issue leaves beside it; unless a booking unit that has to serve it
has served a higher hearth in the same cycle: then the word waits. An event that is next is executed as a turn of who performs it. -/
def Sys2Proof.Claims.StepRunsDecodedInstruction : Prop :=
  (∀ (s s0 s1 : State) (k : Nat) (u : Machine.Unit) (ws : Words) (i : Instr), ControlAt s s0 s1 k u ws → KindsOf ws →
    (∀ w tr, ws = w :: tr → u.r.plain = true → plainBad w.1 = false) → decode .c (ws.map (·.1)) = .ok i →
    (inOrder s1 k u i = true →
      step s = unitTurn k .c (fun _ => thenState (exec i { s1 with cur := (k, .c) })
        fun t => noteServed (afterC s1 k u ws t) (hearthOf k) (resourcesOf k u i)) s0) ∧
    (inOrder s1 k u i = false → step s = unitTurn k .c (fun _ => .next s1) s0)) ∧
  (∀ (s t : State) (k : Nat) (u : Machine.Unit) (i : Instr), resourcesOf k u i = [] →
    inOrder s k u i = true ∧ noteServed t (hearthOf k) (resourcesOf k u i) = t) ∧
  (∀ (s s0 : State) (str : Stream) (k : Nat) (u : Machine.Unit) (ws : Words) (i : Instr), StrandAt s s0 str k u ws → KindsOf ws →
    (∀ w tr, ws = w :: tr → tr.length = trailing str w.1) → decode str (ws.map (·.1)) = .ok i →
    step s = unitTurn k str (fun _ => popInOrder str k s0 (exec i { s0 with cur := (k, str) })) s0) ∧
  (∀ (s : State) (i : Instr) (rest : List Turn) (t : State), s.agenda = .event i :: rest → s.waiting = [] →
    eventAct i { s with agenda := rest } = .next t → t.part = none → step s = .next t) ∧
  (∀ (s : State) (k : Nat) (u w : Machine.Unit) (ws : Words) (t : State), t.units.get? k = some w →
    ∃ t' w', afterC s k u ws t = t' ∧ (w.words ≠ u.words + 1 → t' = t) ∧
      (w.words = u.words + 1 → (∀ g, noteSegment s u ((ws.head?.map (·.1)).getD 0) = some g → segmentAt t w .c g.entry = none) →
        t'.units.get? k = some w' ∧ w'.r = w.r ∧ w'.cpl = w.cpl ∧ w'.ops = w.ops ∧ t' = { t with units := t'.units }))

/-- R16, R215, R272, R297: what a turn adds to what it does. A turn of a unit is performed as it is where the Clearing banks that it touched may
serve its port (the Ladle's for the D stream), and only notes which they were and what walkers may still read; where one of them has served a later
port in the same cycle nothing happens. A stop is that of the word. A word that pops a stream register after a later stream popped it in the same
cycle waits. An event is a turn of the unit whose operation it performs, of an Ebith port, or of another agent. -/
def Sys2Proof.Claims.TurnsInOrder : Prop :=
  (∀ (k : Nat) (str : Stream) (a : Act) (s t : State), a s = .next t →
    let port := if str = .d then 128 + hearthOf k else hearthOf k
    let banks := t.touched.flatMap fun g => (bankAt t (64 * g)).toList
    ((∀ b ∈ banks, mayServe s port b = true) → unitTurn k str a s = .next { t with
        older := (noteOlder s t k).older, lastServed := (noteServed t port banks).lastServed, touched := [] }) ∧
    ((∃ b ∈ banks, mayServe s port b = false) → unitTurn k str a s = .next { s with touched := [] }) ∧
    (t.touched = [] → unitTurn k str a s = .next t)) ∧
  (∀ (k : Nat) (str : Stream) (a : Act) (s : State) (f : Fault), a s = .fault f → unitTurn k str a s = .fault f) ∧
  (∀ (s t : State) (k : Nat) (u : Machine.Unit), s.units.get? k = some u → privileged s u = false → noteOlder s t k = t) ∧
  (∀ (str : Stream) (k : Nat) (s t : State),
    (popped s t k = [] → popInOrder str k s (.next t) = .next t) ∧
    ((∀ i ∈ popped s t k, mayServe s (streamCode str) (sqPort k i) = true) →
      popInOrder str k s (.next t) = .next (noteServed t (streamCode str) ((popped s t k).map (sqPort k)))) ∧
    ((∃ i ∈ popped s t k, mayServe s (streamCode str) (sqPort k i) = false) → popInOrder str k s (.next t) = .next s)) ∧
  (∀ (i : Instr) (s t : State), exec i s = .next t →
    (∀ k str, eventStream i = some (k, str) → eventAct i s = unitTurn k str (exec i) s) ∧
    (eventStream i = none → eventPort i = none → eventAct i s = .next { noteOthers s t with touched := [] }) ∧
    (∀ p, eventStream i = none → eventPort i = some p →
      let banks := t.touched.flatMap fun g => (bankAt t (64 * g)).toList
      ((∀ b ∈ banks, mayServe s (256 + p) b = true) →
        eventAct i s = .next { noteOthers s (noteServed t (256 + p) banks) with touched := [] }) ∧
      ((∃ b ∈ banks, mayServe s (256 + p) b = false) → eventAct i s = .next { s with part := some 0, touched := [] })))

/-- R38, R39, R371: a word of the wrong kind, a jump in plain mode, an unassigned opcode and a reserved field are their traps, in this order, and
the word has no effect of its own; on the engine streams the wrong kinds come first too, of the first word or of a trailing one, and then trailing
words that would lie beyond the strand's end, an illegal instruction. -/
def Obligations.WordChecks : Prop :=
  (∀ (s s0 s1 : State) (k i : Nat) (u : Machine.Unit) (ws : Words) (kind : BitVec 2), ControlAt s s0 s1 k u ws → badKind ws = some (i, kind) →
    step s = unitTurn k .c (fun _ => .next (raise s1 k (kindCause (causeC u 0x01 0 Acc.none) i kind))) s0) ∧
  (∀ (s s0 s1 : State) (k : Nat) (u : Machine.Unit) (w : Word × BitVec 2) (tr : Words), ControlAt s s0 s1 k u (w :: tr) → KindsOf (w :: tr) →
    u.r.plain = true → (w.1.toNat / 2 ^ 30 ≠ 0 ∨ (w.1.getLsbD 29 = false ∧ w.1.toNat / 2 ^ 19 % 2 ^ 7 = 0x3A)) →
    step s = unitTurn k .c (fun _ => .next (raise s1 k (causeC u 0x04 0 Acc.none))) s0) ∧
  (∀ (s s0 s1 : State) (k : Nat) (u : Machine.Unit) (ws : Words), ControlAt s s0 s1 k u ws → KindsOf ws →
    (∀ w tr, ws = w :: tr → u.r.plain = true → plainBad w.1 = false) →
    (decode .c (ws.map (·.1)) = .error .illegal → step s = unitTurn k .c (fun _ => .next (raise s1 k (causeC u 0x02 0 Acc.none))) s0) ∧
    (decode .c (ws.map (·.1)) = .error .reserved → step s = unitTurn k .c (fun _ => .next (raise s1 k (causeC u 0x03 0 Acc.none))) s0)) ∧
  (∀ (s s0 : State) (str : Stream) (k i : Nat) (u : Machine.Unit) (ws : Words) (kind : BitVec 2), StrandAt s s0 str k u ws →
    badKind ws = some (i, kind) →
    step s = unitTurn k str (fun _ => .next (raise s0 k (kindCause (causeE u str 0x01 0 0 Acc.none) i kind))) s0) ∧
  (∀ (s s0 : State) (str : Stream) (k : Nat) (u : Machine.Unit) (ws : Words), StrandAt s s0 str k u ws → KindsOf ws →
    (∀ w tr, ws = w :: tr → tr.length < trailing str w.1) →
    step s = unitTurn k str (fun _ => .next (raise s0 k (causeE u str 0x02 0 0 Acc.none))) s0) ∧
  (∀ (s s0 : State) (str : Stream) (k : Nat) (u : Machine.Unit) (ws : Words), StrandAt s s0 str k u ws → KindsOf ws →
    (∀ w tr, ws = w :: tr → tr.length = trailing str w.1) →
    (decode str (ws.map (·.1)) = .error .illegal → step s = unitTurn k str (fun _ => .next (raise s0 k (causeE u str 0x02 0 0 Acc.none))) s0) ∧
    (decode str (ws.map (·.1)) = .error .reserved → step s = unitTurn k str (fun _ => .next (raise s0 k (causeE u str 0x03 0 0 Acc.none))) s0)) ∧
  (∀ (ws : Words), badKind ws = none ↔ (ws = [] ∨ KindsOf ws)) ∧
  (∀ (ws : Words) (i : Nat) (kind : BitVec 2), badKind ws = some (i, kind) ↔
    (∃ w, ws[i]? = some (w, kind) ∧ kind ≠ (if i = 0 then 0 else 1)) ∧
      ∀ j x, j < i → ws[j]? = some x → x.2 = if j = 0 then 0 else 1)

/-- R38 to R67: the words that the encoder gives for a well-formed instruction decode, on its stream, to that instruction, every field at every
value; and the first of them announces as many trailing words as follow. -/
def Sys2Proof.Claims.EncodeThenDecode : Prop :=
  ∀ (i : Instr) (str : Stream), i.wf = true → i.stream = some str →
    decode str (encode i) = .ok i ∧ ∃ w tr, encode i = w :: tr ∧ trailing str w = tr.length

/-- R38 to R67: words that decode are the words that the encoder gives: no bit of an encoding is dropped, and every instruction has one. -/
def Sys2Proof.Claims.DecodeThenEncode : Prop :=
  ∀ (i : Instr) (str : Stream) (w : Word) (tr : List Word), trailing str w = tr.length → decode str (w :: tr) = .ok i →
    encode i = w :: tr ∧ i.wf = true ∧ i.stream = some str

/-! ## The whole machine -/

/-- The state after reset is sound: nothing listed in memory, time 0; and the registers whose reset the spec gives have that value (R28, Table
18.2). -/
def Obligations.ResetState : Prop :=
  State.reset.sound ∧ State.reset.time = 0 ∧ State.reset.mem = [] ∧ State.reset.units = [] ∧ State.reset.mgmt.tper = 35 ∧
  State.reset.mgmt.ptpctl = false ∧ State.reset.mgmt.gsel = 0 ∧ State.reset.mailbox.prod = 0 ∧ State.reset.mailbox.cons = 0 ∧
  State.reset.ring.fring = 0 ∧ (∀ a, State.reset.byteAt a = 0) ∧ (∀ e, (engAt State.reset e).power = .off) ∧
  ∀ g, (groveAt State.reset g).freq = 28

/-- Every step keeps a sound state sound: memory, tags and keys in their canonical forms, and the time within its 64 bits. -/
def Obligations.StepKeepsSound : Prop :=
  ∀ (s t : State), s.sound → step s = .next t → t.sound

/-- A step refuses nothing, and faults only where an event of the table stands for a word of a stream that no unit executes. -/
def Sys2Proof.Claims.StepAnswers : Prop :=
  (∀ (s : State) (r : Refusal), step s ≠ .refused r) ∧
  (∀ (s : State), (∀ i, .event i ∉ s.agenda) → s.waiting = [] → ∃ t, step s = .next t) ∧
  (∀ (s : State) (i : Instr) (f : Fault), exec i s = .fault f → f = .noIssuer ∧
    (s.units.get? s.cur.1 = none ∨ ∃ u str, s.units.get? s.cur.1 = some u ∧ str ≠ .c ∧ (u.seqr.get str).run = none))

/-- R19, R394: time only passes with a tick of the time base, by one; no word and no event of the table moves it but a module reset, which starts it
again at 0. -/
def Sys2Proof.Claims.TimePasses : Prop :=
  (∀ (s : State) (rest : List Turn), s.agenda = .tick :: rest → ∃ t, step s = .next t ∧
    (t.time = (s.time + 1) % 2 ^ 64 ∨ t.time = 0)) ∧
  (∀ (i : Instr) (s t : State), exec i s = .next t → t.time = s.time ∨ (i = .moduleReset ∧ t.time = 0))

/-- With the turn of a stream next, its words at its place of the right kinds, and their decoding a well-formed instruction i, the step is a turn of
the unit that does exec of i at that state: for the control stream followed by the notes of which booking units served it (noteServed, R16) and by the
loop buffer's and the control segment's bookkeeping (afterC), which changes no register, coupling or operation of the unit where no segment ends; for
an engine stream exec, where the pops of stream registers come in the streams' order. A control word that a booking unit must serve, where that has
served a higher hearth in the same cycle, waits and the turn leaves the state as the fetch left it; a word that needs none is never held. A turn of a
unit (unitTurn) adds nothing but the notes of the Clearing banks that it touched and of the words that a walker may still read as they were (logs 88
and 94); one that touches a bank which has served a later port in the same cycle changes nothing and is tried again; one that touches no memory is
exactly what it does. An event of the table that is next, with nothing to wait for, is executed as a turn of the unit, the port or the agent that
performs it. -/
def Obligations.StepRunsDecodedInstruction : Prop :=
  Claims.StepRunsDecodedInstruction ∧ Claims.TurnsInOrder

/-- For every well-formed instruction of a stream, with every operand at every value that its encoding admits, decoding its encoded words gives the
instruction back, and its first word announces as many trailing words as follow. Conversely the words that decode to an instruction are the words that
its encoding gives, so no bit of an encoding is dropped and no two words mean one instruction; and that instruction is well formed. -/
def Obligations.EncodeAndDecodeAgree : Prop :=
  Claims.EncodeThenDecode ∧ Claims.DecodeThenEncode

/-- No step is a refusal. A step whose agenda holds no event, with no host operation waiting, answers a next state. An instruction faults only where
no unit, or no strand, stands where it is executed. Time goes on by one, modulo 2^64, with each tick of the time base, or starts again at 0 with a
module reset; no instruction and no event but module reset changes it. -/
def Obligations.StepAlwaysAnswers : Prop :=
  Claims.StepAnswers ∧ Claims.TimePasses
end

