-- ==== Sys2Proof/Laws/Tab.lean ====
section
/-! SUPPORT. The laws of sparse tables and sets: reading after a write, and the rising order that every operation keeps. -/

namespace Sys2Proof.Machine.Tab
variable {α : Type}

@[simp] theorem get?_nil (k : Nat) : get? ([] : Tab α) k = none := rfl

@[simp] theorem get?_put_same (t : Tab α) (k : Nat) (v : α) : (put t k v).get? k = some v := by
  induction t with
  | nil => simp [put, get?]
  | cons e r ih =>
    obtain ⟨j, w⟩ := e
    simp only [put]
    split
    · simp [get?]
    · split
      · simp [get?]
      · rename_i h1 h2
        simp [get?, show ¬ j = k from fun h => h2 h.symm, ih]

theorem get?_put_ne (t : Tab α) {j k : Nat} (h : j ≠ k) (v : α) : (put t k v).get? j = t.get? j := by
  induction t with
  | nil => simp [put, get?, h.symm]
  | cons e r ih =>
    obtain ⟨i, w⟩ := e
    simp only [put]
    split
    · simp [get?, h.symm]
    · split
      · rename_i h2
        subst h2
        simp [get?, h.symm]
      · simp only [get?, ih]

theorem get?_del_ne (t : Tab α) {j k : Nat} (h : j ≠ k) : (del t k).get? j = t.get? j := by
  induction t with
  | nil => rfl
  | cons e r ih =>
    obtain ⟨i, w⟩ := e
    simp only [del]
    split
    · rename_i h2
      subst h2
      simp [get?, h.symm]
    · simp only [get?, ih]

/-- Above `lo` weakens to any lower bound. -/
theorem risingFrom_weaken {lo : Option Nat} {t : Tab α} {k : Nat} (h : risingFrom (some k) t = true)
    (hk : ∀ l, lo = some l → l ≤ k) : risingFrom lo t = true := by
  cases t with
  | nil => rfl
  | cons e r =>
    simp only [risingFrom, Bool.and_eq_true, decide_eq_true_eq] at h ⊢
    refine ⟨?_, h.2⟩
    cases lo with
    | none => rfl
    | some l => simpa using Nat.lt_of_le_of_lt (hk l rfl) h.1

theorem risingFrom_put {lo : Option Nat} {t : Tab α} {k : Nat} {v : α} (h : risingFrom lo t = true)
    (hk : ∀ l, lo = some l → l < k) : risingFrom lo (put t k v) = true := by
  induction t generalizing lo with
  | nil =>
    simp only [put, risingFrom, Bool.and_true]
    cases lo with
    | none => rfl
    | some l => simpa using hk l rfl
  | cons e r ih =>
    obtain ⟨j, w⟩ := e
    simp only [risingFrom, Bool.and_eq_true] at h
    simp only [put]
    split
    · rename_i h1
      simp only [risingFrom, Bool.and_eq_true, decide_eq_true_eq]
      refine ⟨?_, h1, h.2⟩
      cases lo with
      | none => rfl
      | some l => simpa using hk l rfl
    · split
      · rename_i h1 h2
        subst h2
        simpa only [risingFrom, Bool.and_eq_true] using h
      · rename_i h1 h2
        simp only [risingFrom, Bool.and_eq_true]
        refine ⟨h.1, ih h.2 ?_⟩
        intro l hl
        injection hl with hl
        omega

theorem risingFrom_del {lo : Option Nat} {t : Tab α} {k : Nat} (h : risingFrom lo t = true) : risingFrom lo (del t k) = true := by
  induction t generalizing lo with
  | nil => rfl
  | cons e r ih =>
    obtain ⟨j, w⟩ := e
    simp only [risingFrom, Bool.and_eq_true] at h
    simp only [del]
    split
    · refine risingFrom_weaken h.2 ?_
      intro l hl
      subst hl
      simpa using Nat.le_of_lt (by simpa using h.1)
    · simp only [risingFrom, Bool.and_eq_true]
      exact ⟨h.1, ih h.2⟩

theorem risingFrom_filter {lo : Option Nat} {t : Tab α} {p : Nat × α → Bool} (h : risingFrom lo t = true) :
    risingFrom lo (t.filter p) = true := by
  induction t generalizing lo with
  | nil => rfl
  | cons e r ih =>
    obtain ⟨j, w⟩ := e
    simp only [risingFrom, Bool.and_eq_true] at h
    rw [List.filter_cons]
    split
    · simp only [risingFrom, Bool.and_eq_true]
      exact ⟨h.1, ih h.2⟩
    · refine risingFrom_weaken (ih h.2) ?_
      intro l hl
      subst hl
      simpa using Nat.le_of_lt (by simpa using h.1)

/-- A rising table lists no key at or below its bound. -/
theorem get?_of_rising {t : Tab α} {k l : Nat} (h : risingFrom (some l) t = true) (hk : k ≤ l) : t.get? k = none := by
  induction t generalizing l with
  | nil => rfl
  | cons e r ih =>
    obtain ⟨j, w⟩ := e
    simp only [risingFrom, Bool.and_eq_true, decide_eq_true_eq] at h
    have : ¬ j = k := by omega
    simp only [get?, this, if_false]
    exact ih h.2 (by omega)

theorem get?_del_same {lo : Option Nat} {t : Tab α} {k : Nat} (h : risingFrom lo t = true) : (del t k).get? k = none := by
  induction t generalizing lo with
  | nil => rfl
  | cons e r ih =>
    obtain ⟨j, w⟩ := e
    simp only [risingFrom, Bool.and_eq_true] at h
    simp only [del]
    split
    · rename_i h1
      subst h1
      exact get?_of_rising h.2 (Nat.le_refl _)
    · rename_i h1
      simp only [get?, h1, if_false]
      exact ih h.2

/-- Entries of a table after `put`. -/
theorem mem_put {t : Tab α} {k : Nat} {v : α} {e : Nat × α} (h : e ∈ put t k v) : e = (k, v) ∨ e ∈ t := by
  induction t with
  | nil => simpa [put] using h
  | cons x r ih =>
    obtain ⟨j, w⟩ := x
    simp only [put] at h
    split at h
    · simpa using h
    · split at h
      · simp only [List.mem_cons] at h ⊢
        exact h.imp id .inr
      · simp only [List.mem_cons] at h ⊢
        rcases h with h | h
        · exact .inr (.inl h)
        · rcases ih h with h | h
          · exact .inl h
          · exact .inr (.inr h)

theorem mem_del {t : Tab α} {k : Nat} {e : Nat × α} (h : e ∈ del t k) : e ∈ t := by
  induction t with
  | nil => simp [del] at h
  | cons x r ih =>
    obtain ⟨j, w⟩ := x
    simp only [del] at h
    split at h
    · exact .tail _ h
    · simp only [List.mem_cons] at h ⊢
      exact h.imp id ih

section set
variable [DecidableEq α] {d : α}

theorem risingFrom_set {t : Tab α} {k : Nat} {v : α} (h : risingFrom none t = true) : risingFrom none (set d t k v) = true := by
  unfold set
  split
  · exact risingFrom_del h
  · exact risingFrom_put h (by simp)

/-- A table that lists no default keeps so. -/
theorem listed_set {t : Tab α} {k : Nat} {v : α} (h : ∀ e ∈ t, e.2 ≠ d) : ∀ e ∈ set d t k v, e.2 ≠ d := by
  intro e he
  unfold set at he
  split at he
  · exact h e (mem_del he)
  · rcases mem_put he with rfl | he
    · assumption
    · exact h e he

/-- A write reads back. -/
theorem getD_set_same {t : Tab α} (h : risingFrom none t = true) (k : Nat) (v : α) : getD d (set d t k v) k = v := by
  unfold set getD
  split
  · rename_i h1
    rw [get?_del_same h]
    simp [h1]
  · simp

/-- A write leaves every other key. -/
theorem getD_set_ne (t : Tab α) {j k : Nat} (h : j ≠ k) (v : α) : getD d (set d t k v) j = getD d t j := by
  unfold set getD
  split
  · rw [get?_del_ne t h]
  · rw [get?_put_ne t h]

end set
section
variable {α : Type}

/-- Rising, said of every pair of entries. -/
theorem risingFrom_iff {lo : Option Nat} {t : Tab α} :
    risingFrom lo t = true ↔ (∀ l, lo = some l → ∀ e ∈ t, l < e.1) ∧ t.Pairwise fun x y => x.1 < y.1 := by
  induction t generalizing lo with
  | nil => simp [risingFrom]
  | cons e r ih =>
    obtain ⟨k, v⟩ := e
    rw [show risingFrom lo ((k, v) :: r) = ((match lo with | none => true | some l => decide (l < k)) && risingFrom (some k) r) from rfl,
      Bool.and_eq_true, ih, List.pairwise_cons]
    constructor
    · rintro ⟨h1, h2, h3⟩
      refine ⟨?_, fun y hy => h2 k rfl y hy, h3⟩
      rintro l rfl e (_ | ⟨_, he⟩)
      · simpa using h1
      · have : l < k := by simpa using h1
        exact Nat.lt_trans this (h2 k rfl e he)
    · rintro ⟨h1, h2, h3⟩
      refine ⟨?_, ?_, h3⟩
      · cases lo with
        | none => rfl
        | some l => simpa using h1 l rfl (k, v) (by simp)
      · rintro l ⟨⟩ y hy
        exact h2 y hy

variable [DecidableEq α]

theorem risingFrom_stepSet {t : Tab α} (d : α) (lo hi : Nat) (v : α) (h : risingFrom none t = true) :
    risingFrom none (stepSet d t lo hi v) = true := by
  unfold stepSet
  split
  · exact h
  rename_i hlt
  rw [risingFrom_iff] at h ⊢
  refine ⟨by simp, ?_⟩
  have hp : ∀ p : Nat × α → Bool, (t.filter p).Pairwise fun x y => x.1 < y.1 := fun p => h.2.sublist List.filter_sublist
  simp only [List.pairwise_append, hp, true_and]
  refine ⟨⟨?_, ?_, ?_⟩, ?_⟩
  all_goals (repeat' split)
  all_goals simp
  · intro a _ _ h; omega
  · rintro a b (⟨_, h⟩ | ⟨rfl, _⟩) <;> omega
  · intro a _ _ h c _ _ h2; omega
  · rintro a b (⟨_, h⟩ | ⟨rfl, _⟩) c _ _ h2 <;> omega
  · rintro a b (⟨_, h⟩ | ⟨rfl, _⟩) c _ _ h2 <;> omega
  · rintro a b (⟨_, h⟩ | ⟨rfl, _⟩ | ⟨rfl, _⟩) c _ _ h2 <;> omega

omit [DecidableEq α] in
theorem step_of_lt {d : α} {t : Tab α} {k : Nat} (h : ∀ e ∈ t, k < e.1) : step d t k = d := by
  cases t with
  | nil => rfl
  | cons e r =>
    have := h e (by simp)
    simp only [step]
    exact if_pos this

omit [DecidableEq α] in
theorem step_append_right {d : α} {t r : Tab α} {k : Nat} (h : ∀ e ∈ r, k < e.1) : step d (t ++ r) k = step d t k := by
  induction t generalizing d with
  | nil => exact step_of_lt h
  | cons e t ih =>
    obtain ⟨j, v⟩ := e
    simp only [List.cons_append, step, ih]

omit [DecidableEq α] in
theorem step_append_left {d : α} {t r : Tab α} {k : Nat} (h : ∀ e ∈ t, e.1 ≤ k) : step d (t ++ r) k = step (step d t k) r k := by
  induction t generalizing d with
  | nil => rfl
  | cons e t ih =>
    obtain ⟨j, v⟩ := e
    have : ¬ k < j := Nat.not_lt.mpr (h (j, v) (by simp))
    simp only [List.cons_append, step, this, if_false]
    exact ih fun e he => h e (by simp [he])

omit [DecidableEq α] in
/-- Entries above k do not count. -/
theorem step_filter_lt {d : α} {t : Tab α} (hr : t.Pairwise fun x y => x.1 < y.1) {k lo : Nat} (hk : k < lo) :
    step d (t.filter fun e => decide (e.1 < lo)) k = step d t k := by
  induction t generalizing d with
  | nil => rfl
  | cons e t ih =>
    obtain ⟨j, v⟩ := e
    rw [List.pairwise_cons] at hr
    by_cases hj : j < lo
    · simp only [List.filter_cons, hj, decide_true, if_true, step, ih hr.2]
    · have hkj : k < j := by omega
      have e : List.filter (fun e : Nat × α => decide (e.1 < lo)) ((j, v) :: t) = t.filter fun e => decide (e.1 < lo) := by simp [hj]
      rw [e, ih hr.2]
      simp only [step, hkj, if_true]
      exact step_of_lt fun e he => Nat.lt_trans hkj (hr.1 e he)

omit [DecidableEq α] in
/-- From hi on, a rising table is its value at hi and the entries above hi. -/
theorem step_filter_gt {d : α} {t : Tab α} (hr : t.Pairwise fun x y => x.1 < y.1) {k hi : Nat} (hk : hi ≤ k) :
    step (step d t hi) (t.filter fun e => decide (hi < e.1)) k = step d t k := by
  induction t generalizing d with
  | nil => rfl
  | cons e t ih =>
    obtain ⟨j, v⟩ := e
    rw [List.pairwise_cons] at hr
    by_cases hj : hi < j
    · have hall : (t.filter fun e => decide (hi < e.1)) = t := List.filter_eq_self.mpr fun e he => by
        have := hr.1 e he
        simp only [decide_eq_true_eq]; omega
      simp only [List.filter_cons, hj, decide_true, if_true, step, hall]
    · have : ¬ k < j := by omega
      simp only [List.filter_cons, hj, decide_false, step, this, if_false]
      exact ih hr.2

/-- What a step function reads after a range of it is set. -/
theorem step_stepSet {t : Tab α} (d : α) {lo hi : Nat} (hlt : lo < hi) (v : α) (h : risingFrom none t = true) (k : Nat) :
    step d (stepSet d t lo hi v) k = if lo ≤ k ∧ k < hi then v else step d t k := by
  have hr := (risingFrom_iff.mp h).2
  have hn : ¬ hi ≤ lo := Nat.not_le.mpr hlt
  simp only [stepSet, hn, if_false]
  have hb : ∀ e ∈ t.filter (fun e => decide (e.1 < lo)), e.1 < lo := fun e he => by simpa using (List.mem_filter.mp he).2
  have ha : ∀ e ∈ t.filter (fun e => decide (hi < e.1)), hi < e.1 := fun e he => by simpa using (List.mem_filter.mp he).2
  by_cases h1 : k < lo
  · have : ¬ (lo ≤ k ∧ k < hi) := by omega
    rw [if_neg (show ¬ (lo ≤ k ∧ k < hi) from this), step_append_right, step_append_right, step_append_right, step_filter_lt hr h1]
    · split <;> simp_all
    · split <;> simp_all; omega
    · intro e he; have := ha e he; omega
  have hlo : step d ((t.filter fun e => decide (e.1 < lo)) ++
      if step d (t.filter fun e => decide (e.1 < lo)) lo = v then [] else [(lo, v)]) k = v := by
    rw [step_append_left (fun e he => by have := hb e he; omega)]
    have hs : ∀ (l : Tab α) (_ : ∀ e ∈ l, e.1 < lo), step d l k = step d l lo := by
      intro l hl
      have h2 := step_append_left (d := d) (r := []) (k := k) (fun e he => by have := hl e he; omega : ∀ e ∈ l, e.1 ≤ k)
      clear h2
      induction l generalizing d with
      | nil => rfl
      | cons e r ih =>
        obtain ⟨j, w⟩ := e
        have hj := hl (j, w) (by simp)
        have a1 : ¬ k < j := by simp only at hj; omega
        have a2 : ¬ lo < j := by simp only at hj; omega
        simp only [step, a1, a2, if_false]
        exact ih _ (fun e he => hl e (by simp [he])) 
    split
    · rename_i h2
      simp only [step]
      rw [hs _ hb, h2]
    · simp only [step, h1, if_false]
  by_cases h2 : k < hi
  · rw [if_pos (show lo ≤ k ∧ k < hi from ⟨by omega, h2⟩), step_append_right, step_append_right]
    · exact hlo
    · split <;> simp_all
    · intro e he; have := ha e he; omega
  · rw [if_neg (show ¬ (lo ≤ k ∧ k < hi) by omega)]
    rw [step_append_left, step_append_left, hlo]
    · have e : step v (if step d t hi = v then [] else [(hi, step d t hi)]) k = step d t hi := by
        split
        · rename_i h3; simp only [step]; exact h3.symm
        · simp only [step, h2, if_false]
      rw [e, step_filter_gt hr (by omega)]
    · intro e he
      simp only [List.mem_append] at he
      rcases he with he | he
      · have := hb e he; omega
      · split at he <;> simp_all
    · intro e he
      simp only [List.mem_append] at he
      rcases he with (he | he) | he
      · have := hb e he; omega
      · split at he <;> simp_all
      · split at he <;> simp_all

end

end Sys2Proof.Machine.Tab

namespace Sys2Proof.Machine.NSet

theorem risingFrom_weaken {lo : Option Nat} {t : NSet} {k : Nat} (h : risingFrom (some k) t = true)
    (hk : ∀ l, lo = some l → l ≤ k) : risingFrom lo t = true := by
  cases t with
  | nil => rfl
  | cons e r =>
    simp only [risingFrom, Bool.and_eq_true, decide_eq_true_eq] at h ⊢
    refine ⟨?_, h.2⟩
    cases lo with
    | none => rfl
    | some l => simpa using Nat.lt_of_le_of_lt (hk l rfl) h.1

theorem risingFrom_ins {lo : Option Nat} {t : NSet} {k : Nat} (h : risingFrom lo t = true) (hk : ∀ l, lo = some l → l < k) :
    risingFrom lo (ins t k) = true := by
  induction t generalizing lo with
  | nil =>
    simp only [ins, risingFrom, Bool.and_true]
    cases lo with
    | none => rfl
    | some l => simpa using hk l rfl
  | cons j r ih =>
    simp only [risingFrom, Bool.and_eq_true] at h
    simp only [ins]
    split
    · rename_i h1
      simp only [risingFrom, Bool.and_eq_true, decide_eq_true_eq]
      refine ⟨?_, h1, h.2⟩
      cases lo with
      | none => rfl
      | some l => simpa using hk l rfl
    · split
      · simpa only [risingFrom, Bool.and_eq_true] using h
      · rename_i h1 h2
        simp only [risingFrom, Bool.and_eq_true]
        refine ⟨h.1, ih h.2 ?_⟩
        intro l hl
        injection hl with hl
        omega

theorem risingFrom_del {lo : Option Nat} {t : NSet} {k : Nat} (h : risingFrom lo t = true) : risingFrom lo (del t k) = true := by
  induction t generalizing lo with
  | nil => rfl
  | cons j r ih =>
    simp only [risingFrom, Bool.and_eq_true] at h
    simp only [del]
    split
    · refine risingFrom_weaken h.2 ?_
      intro l hl
      subst hl
      simpa using Nat.le_of_lt (by simpa using h.1)
    · simp only [risingFrom, Bool.and_eq_true]
      exact ⟨h.1, ih h.2⟩

theorem risingFrom_filter {lo : Option Nat} {t : NSet} {p : Nat → Bool} (h : risingFrom lo t = true) :
    risingFrom lo (t.filter p) = true := by
  induction t generalizing lo with
  | nil => rfl
  | cons j r ih =>
    simp only [risingFrom, Bool.and_eq_true] at h
    rw [List.filter_cons]
    split
    · simp only [risingFrom, Bool.and_eq_true]
      exact ⟨h.1, ih h.2⟩
    · refine risingFrom_weaken (ih h.2) ?_
      intro l hl
      subst hl
      simpa using Nat.le_of_lt (by simpa using h.1)

end Sys2Proof.Machine.NSet
end

