-- ==== Sys2Proof/Laws/Mem.lean ====
section
/-! SUPPORT. The laws of memory: every memory operation keeps the canonical form and the order of the tags, a byte reads back as it was
written, and a write leaves every other byte. -/

namespace Sys2Proof.Machine

/-! ## Stored bytes -/

theorem wf_set {m : Tab Byte} (h : Memory.wf m) (a : Nat) (b : Byte) : Memory.wf (Tab.set 0 m a b) :=
  ⟨Tab.risingFrom_set h.1, Tab.listed_set h.2⟩

theorem wf_pokes {m : Tab Byte} (h : Memory.wf m) (ws : List (Nat × Byte)) : Memory.wf (pokes m ws) := by
  induction ws generalizing m with
  | nil => exact h
  | cons e r ih => exact ih (wf_set h e.1 e.2)

theorem wf_filter {m : Tab Byte} (h : Memory.wf m) (p : Nat × Byte → Bool) : Memory.wf (m.filter p) :=
  ⟨Tab.risingFrom_filter h.1, fun e he => h.2 e (List.mem_filter.mp he).1⟩

/-- Addresses that no write names keep their byte. -/
theorem getD_pokes_other (m : Tab Byte) (ws : List (Nat × Byte)) (a : Nat) (h : ∀ e ∈ ws, e.1 ≠ a) :
    Tab.getD 0 (pokes m ws) a = Tab.getD 0 m a := by
  induction ws generalizing m with
  | nil => rfl
  | cons e r ih =>
    rw [pokes, ih _ fun x hx => h x (.tail _ hx), Tab.getD_set_ne]
    exact fun he => h e (.head _) he.symm

/-- A write whose addresses do not repeat reads back. -/
theorem getD_pokes_mem {m : Tab Byte} (hm : Tab.risingFrom none m = true) (ws : List (Nat × Byte)) (hws : (ws.map (·.1)).Nodup)
    {e : Nat × Byte} (he : e ∈ ws) : Tab.getD 0 (pokes m ws) e.1 = e.2 := by
  induction ws generalizing m with
  | nil => cases he
  | cons x r ih =>
    simp only [List.map_cons, List.nodup_cons] at hws
    rw [pokes]
    cases he with
    | head =>
      rw [getD_pokes_other _ _ _ fun y hy hxy => hws.1 (List.mem_map.mpr ⟨y, hy, hxy⟩), Tab.getD_set_same hm]
    | tail _ he => exact ih (Tab.risingFrom_set hm) hws.2 he

theorem rising_ungrain {t : NSet} (h : NSet.risingFrom none t = true) (ws : List (Nat × Byte)) :
    NSet.risingFrom none (ungrain t ws) = true := by
  induction ws generalizing t with
  | nil => exact h
  | cons e r ih => exact ih (NSet.risingFrom_del h)

/-! ## Every memory operation keeps a state sound -/

/-- Noting a granule as accessed changes nothing else. -/
@[simp] theorem touch_time (s : State) (g : Nat) : (touch s g).time = s.time := by unfold touch; split <;> rfl
@[simp] theorem touch_mem (s : State) (g : Nat) : (touch s g).mem = s.mem := by unfold touch; split <;> rfl
@[simp] theorem touch_units (s : State) (g : Nat) : (touch s g).units = s.units := by unfold touch; split <;> rfl

theorem sound_putBytes {s : State} (h : s.sound) (key : Nat) (ws : List (Nat × Byte)) : (putBytes s key ws).sound := by
  cases ws with
  | nil => exact h
  | cons e r =>
    refine ⟨wf_pokes ?_ _, rising_ungrain h.2.1 _, ?_, by simpa [putBytes] using h.2.2.2⟩
    · split
      · exact h.1
      · exact wf_pokes h.1 _
    · show Tab.risingFrom none (if keyAt s (e.1 / 64) = key then s.gkeys else _) = true
      split
      · exact h.2.2.1
      · exact Tab.risingFrom_stepSet _ _ _ _ h.2.2.1

theorem sound_putAll {s : State} (h : s.sound) (key : Nat) (ws : List (Nat × Byte)) : (putAll s key ws).sound := by
  unfold putAll
  generalize byGranule ws = gs
  induction gs generalizing s with
  | nil => exact h
  | cons g r ih => exact ih (sound_putBytes h key g)

theorem sound_writeBytes {s : State} (h : s.sound) (key a : Nat) (bs : List Byte) : (writeBytes s key a bs).sound := sound_putAll h key _

theorem sound_wr8 {s : State} (h : s.sound) (a v : Nat) : (wr8 s a v).sound := sound_writeBytes h 0 a _

theorem sound_zeroFill {s : State} (h : s.sound) (key lo hi : Nat) : (zeroFill s key lo hi).sound :=
  ⟨wf_filter h.1 _, NSet.risingFrom_filter h.2.1, Tab.risingFrom_stepSet _ _ _ _ h.2.2.1, h.2.2.2⟩

/-- A partition's new swizzle mode keeps the canonical form (R117). -/
theorem sound_reswizzle {s : State} (h : s.sound) (i : Nat) (p : Partition) : (reswizzle s i p).sound :=
  have z := sound_zeroFill h 0 (pantryAddr i 0) (pantryAddr i 0 + p.bytes)
  ⟨wf_pokes z.1 _, z.2⟩

/-! ## What a write of one granule does -/

/-- A write under the granule's key: the bytes named take their values, every other byte of memory stays. -/
theorem byteAt_putBytes_other {s : State} {key : Nat} {ws : List (Nat × Byte)} {a : Nat} (hk : ∀ e ∈ ws.head?, keyAt s (e.1 / 64) = key)
    (h : ∀ e ∈ ws, e.1 ≠ a) : (putBytes s key ws).byteAt a = s.byteAt a := by
  cases ws with
  | nil => rfl
  | cons e r =>
    have : keyAt s (e.1 / 64) = key := hk e (by simp)
    simp only [State.byteAt, putBytes, this, if_true]
    exact getD_pokes_other _ _ _ h

theorem byteAt_putBytes_mem {s : State} {key : Nat} {ws : List (Nat × Byte)} (hs : s.sound) (hws : (ws.map (·.1)).Nodup)
    {e : Nat × Byte} (he : e ∈ ws) : (putBytes s key ws).byteAt e.1 = e.2 := by
  cases ws with
  | nil => cases he
  | cons x r =>
    simp only [State.byteAt, putBytes]
    refine getD_pokes_mem ?_ _ hws he
    split
    · exact hs.1.1
    · exact (wf_pokes hs.1 _).1

/-! ## Little-endian numbers -/

@[simp] theorem leBytes_length (k v : Nat) : (leBytes k v).length = k := by
  induction k generalizing v with
  | zero => rfl
  | succ n ih => simp [leBytes, ih]

/-- The bytes of a number give back the number. -/
theorem leNat_leBytes (k v : Nat) : leNat (leBytes k v) = v % 256 ^ k := by
  induction k generalizing v with
  | zero => simp [leBytes, leNat, Nat.mod_one]
  | succ n ih =>
    have e : leNat (leBytes (n + 1) v) = v % 256 + 256 * leNat (leBytes n (v / 256)) := by
      simp [leBytes, leNat]
    rw [e, ih, Nat.pow_succ, Nat.mul_comm (256 ^ n) 256, Nat.mod_mul]

/-! ## Walker reads -/

/-- A walker that no older value of the word stands open to reads the newest (R272). -/
theorem walkerRead_newest {s : State} {h a : Nat} (ho : oldAt s h a = []) : walkerRead s (some h) a = (s, rd8 s a) := by
  simp [walkerRead, ho]

/-- With nothing left to read late, walkers read memory. -/
theorem walkerReads_newest {s : State} (ho : s.older = []) (h : Nat) (l : List Nat) :
    walkerReads (some h) l s = (s, l.map fun a => BitVec.ofNat 64 (rd8 s a)) := by
  induction l with
  | nil => rfl
  | cons a r ih => simp [walkerReads, walkerRead_newest (show oldAt s h a = [] by simp [oldAt, ho]), ih]

end Sys2Proof.Machine
end

