-- ==== Sys2Proof/Laws/State.lean ====
section
/-! SUPPORT. One lemma per field per named update of a unit and of the state. -/

namespace Sys2Proof.Machine

/-! ## setS -/

@[simp] theorem Unit.setS_lid (u : Unit) (i : SReg) (x : Double) : (u.setS i x).lid = u.lid := by unfold Unit.setS; split <;> rfl
@[simp] theorem Unit.setS_slot (u : Unit) (i : SReg) (x : Double) : (u.setS i x).slot = u.slot := by unfold Unit.setS; split <;> rfl
@[simp] theorem Unit.setS_index (u : Unit) (i : SReg) (x : Double) : (u.setS i x).index = u.index := by unfold Unit.setS; split <;> rfl
@[simp] theorem Unit.setS_ctx (u : Unit) (i : SReg) (x : Double) : (u.setS i x).ctx = u.ctx := by unfold Unit.setS; split <;> rfl
@[simp] theorem Unit.setS_copy (u : Unit) (i : SReg) (x : Double) : (u.setS i x).copy = u.copy := by unfold Unit.setS; split <;> rfl
@[simp] theorem Unit.setS_ticket (u : Unit) (i : SReg) (x : Double) : (u.setS i x).ticket = u.ticket := by unfold Unit.setS; split <;> rfl
@[simp] theorem Unit.setS_prio (u : Unit) (i : SReg) (x : Double) : (u.setS i x).prio = u.prio := by unfold Unit.setS; split <;> rfl
@[simp] theorem Unit.setS_since (u : Unit) (i : SReg) (x : Double) : (u.setS i x).since = u.since := by unfold Unit.setS; split <;> rfl
@[simp] theorem Unit.setS_code (u : Unit) (i : SReg) (x : Double) : (u.setS i x).code = u.code := by unfold Unit.setS; split <;> rfl
@[simp] theorem Unit.setS_cpl (u : Unit) (i : SReg) (x : Double) : (u.setS i x).cpl = u.cpl := by unfold Unit.setS; split <;> rfl
@[simp] theorem Unit.setS_bksel (u : Unit) (i : SReg) (x : Double) : (u.setS i x).bksel = u.bksel := by unfold Unit.setS; split <;> rfl
@[simp] theorem Unit.setS_hsel (u : Unit) (i : SReg) (x : Double) : (u.setS i x).hsel = u.hsel := by unfold Unit.setS; split <;> rfl
@[simp] theorem Unit.setS_psplit (u : Unit) (i : SReg) (x : Double) : (u.setS i x).psplit = u.psplit := by unfold Unit.setS; split <;> rfl
@[simp] theorem Unit.setS_tnctx (u : Unit) (i : SReg) (x : Double) : (u.setS i x).tnctx = u.tnctx := by unfold Unit.setS; split <;> rfl
@[simp] theorem Unit.setS_mstat (u : Unit) (i : SReg) (x : Double) : (u.setS i x).mstat = u.mstat := by unfold Unit.setS; split <;> rfl
@[simp] theorem Unit.setS_seqr (u : Unit) (i : SReg) (x : Double) : (u.setS i x).seqr = u.seqr := by unfold Unit.setS; split <;> rfl
@[simp] theorem Unit.setS_latches (u : Unit) (i : SReg) (x : Double) : (u.setS i x).latches = u.latches := by unfold Unit.setS; split <;> rfl
@[simp] theorem Unit.setS_opbuf (u : Unit) (i : SReg) (x : Double) : (u.setS i x).opbuf = u.opbuf := by unfold Unit.setS; split <;> rfl
@[simp] theorem Unit.setS_groupSwitch (u : Unit) (i : SReg) (x : Double) : (u.setS i x).groupSwitch = u.groupSwitch := by unfold Unit.setS; split <;> rfl
@[simp] theorem Unit.setS_matAt (u : Unit) (i : SReg) (x : Double) : (u.setS i x).matAt = u.matAt := by unfold Unit.setS; split <;> rfl
@[simp] theorem Unit.setS_remap (u : Unit) (i : SReg) (x : Double) : (u.setS i x).remap = u.remap := by unfold Unit.setS; split <;> rfl
@[simp] theorem Unit.setS_closing (u : Unit) (i : SReg) (x : Double) : (u.setS i x).closing = u.closing := by unfold Unit.setS; split <;> rfl
@[simp] theorem Unit.setS_setup (u : Unit) (i : SReg) (x : Double) : (u.setS i x).setup = u.setup := by unfold Unit.setS; split <;> rfl
@[simp] theorem Unit.setS_ops (u : Unit) (i : SReg) (x : Double) : (u.setS i x).ops = u.ops := by unfold Unit.setS; split <;> rfl
@[simp] theorem Unit.setS_puts (u : Unit) (i : SReg) (x : Double) : (u.setS i x).puts = u.puts := by unfold Unit.setS; split <;> rfl
@[simp] theorem Unit.setS_replay (u : Unit) (i : SReg) (x : Double) : (u.setS i x).replay = u.replay := by unfold Unit.setS; split <;> rfl
@[simp] theorem Unit.setS_pos (u : Unit) (i : SReg) (x : Double) : (u.setS i x).pos = u.pos := by unfold Unit.setS; split <;> rfl
@[simp] theorem Unit.setS_sq (u : Unit) (i : SReg) (x : Double) : (u.setS i x).sq = u.sq := by unfold Unit.setS; split <;> rfl
@[simp] theorem Unit.setS_leases (u : Unit) (i : SReg) (x : Double) : (u.setS i x).leases = u.leases := by unfold Unit.setS; split <;> rfl
@[simp] theorem Unit.setS_retained (u : Unit) (i : SReg) (x : Double) : (u.setS i x).retained = u.retained := by unfold Unit.setS; split <;> rfl
@[simp] theorem Unit.setS_ladle (u : Unit) (i : SReg) (x : Double) : (u.setS i x).ladle = u.ladle := by unfold Unit.setS; split <;> rfl
@[simp] theorem Unit.setS_bkslip (u : Unit) (i : SReg) (x : Double) : (u.setS i x).bkslip = u.bkslip := by unfold Unit.setS; split <;> rfl
@[simp] theorem Unit.setS_written (u : Unit) (i : SReg) (x : Double) : (u.setS i x).written = u.written := by unfold Unit.setS; split <;> rfl
@[simp] theorem Unit.setS_role (u : Unit) (i : SReg) (x : Double) : (u.setS i x).role = u.role := by unfold Unit.setS; split <;> rfl
@[simp] theorem Unit.setS_count (u : Unit) (i : SReg) (x : Double) : (u.setS i x).count = u.count := by unfold Unit.setS; split <;> rfl
@[simp] theorem Unit.setS_sealed (u : Unit) (i : SReg) (x : Double) : (u.setS i x).sealed = u.sealed := by unfold Unit.setS; split <;> rfl
@[simp] theorem Unit.setS_retry (u : Unit) (i : SReg) (x : Double) : (u.setS i x).retry = u.retry := by unfold Unit.setS; split <;> rfl
@[simp] theorem Unit.setS_ckpt (u : Unit) (i : SReg) (x : Double) : (u.setS i x).ckpt = u.ckpt := by unfold Unit.setS; split <;> rfl
@[simp] theorem Unit.setS_fills (u : Unit) (i : SReg) (x : Double) : (u.setS i x).fills = u.fills := by unfold Unit.setS; split <;> rfl
@[simp] theorem Unit.setS_building (u : Unit) (i : SReg) (x : Double) : (u.setS i x).building = u.building := by unfold Unit.setS; split <;> rfl
@[simp] theorem Unit.setS_inh (u : Unit) (i : SReg) (x : Double) : (u.setS i x).inh = u.inh := by unfold Unit.setS; split <;> rfl
@[simp] theorem Unit.setS_frame (u : Unit) (i : SReg) (x : Double) : (u.setS i x).frame = u.frame := by unfold Unit.setS; split <;> rfl
@[simp] theorem Unit.setS_cause (u : Unit) (i : SReg) (x : Double) : (u.setS i x).cause = u.cause := by unfold Unit.setS; split <;> rfl
@[simp] theorem Unit.setS_cause2 (u : Unit) (i : SReg) (x : Double) : (u.setS i x).cause2 = u.cause2 := by unfold Unit.setS; split <;> rfl
@[simp] theorem Unit.setS_served (u : Unit) (i : SReg) (x : Double) : (u.setS i x).served = u.served := by unfold Unit.setS; split <;> rfl
@[simp] theorem Unit.setS_owed (u : Unit) (i : SReg) (x : Double) : (u.setS i x).owed = u.owed := by unfold Unit.setS; split <;> rfl
@[simp] theorem Unit.setS_roll (u : Unit) (i : SReg) (x : Double) : (u.setS i x).roll = u.roll := by unfold Unit.setS; split <;> rfl
@[simp] theorem Unit.setS_killed (u : Unit) (i : SReg) (x : Double) : (u.setS i x).killed = u.killed := by unfold Unit.setS; split <;> rfl
@[simp] theorem Unit.setS_cancelled (u : Unit) (i : SReg) (x : Double) : (u.setS i x).cancelled = u.cancelled := by unfold Unit.setS; split <;> rfl
@[simp] theorem Unit.setS_halting (u : Unit) (i : SReg) (x : Double) : (u.setS i x).halting = u.halting := by unfold Unit.setS; split <;> rfl
@[simp] theorem Unit.setS_sig (u : Unit) (i : SReg) (x : Double) : (u.setS i x).sig = u.sig := by unfold Unit.setS; split <;> rfl
@[simp] theorem Unit.setS_waits (u : Unit) (i : SReg) (x : Double) : (u.setS i x).waits = u.waits := by unfold Unit.setS; split <;> rfl
@[simp] theorem Unit.setS_progress (u : Unit) (i : SReg) (x : Double) : (u.setS i x).progress = u.progress := by unfold Unit.setS; split <;> rfl
@[simp] theorem Unit.setS_cseg (u : Unit) (i : SReg) (x : Double) : (u.setS i x).cseg = u.cseg := by unfold Unit.setS; split <;> rfl
@[simp] theorem Unit.setS_body (u : Unit) (i : SReg) (x : Double) : (u.setS i x).body = u.body := by unfold Unit.setS; split <;> rfl
@[simp] theorem Unit.setS_capts (u : Unit) (i : SReg) (x : Double) : (u.setS i x).capts = u.capts := by unfold Unit.setS; split <;> rfl
@[simp] theorem Unit.setS_words (u : Unit) (i : SReg) (x : Double) : (u.setS i x).words = u.words := by unfold Unit.setS; split <;> rfl
@[simp] theorem Unit.setS_r_p (u : Unit) (i : SReg) (x : Double) : (u.setS i x).r.p = u.r.p := by unfold Unit.setS; split <;> rfl
@[simp] theorem Unit.setS_r_vp (u : Unit) (i : SReg) (x : Double) : (u.setS i x).r.vp = u.r.vp := by unfold Unit.setS; split <;> rfl
@[simp] theorem Unit.setS_r_b (u : Unit) (i : SReg) (x : Double) : (u.setS i x).r.b = u.r.b := by unfold Unit.setS; split <;> rfl
@[simp] theorem Unit.setS_r_ret (u : Unit) (i : SReg) (x : Double) : (u.setS i x).r.ret = u.r.ret := by unfold Unit.setS; split <;> rfl
@[simp] theorem Unit.setS_r_loops (u : Unit) (i : SReg) (x : Double) : (u.setS i x).r.loops = u.r.loops := by unfold Unit.setS; split <;> rfl
@[simp] theorem Unit.setS_r_c (u : Unit) (i : SReg) (x : Double) : (u.setS i x).r.c = u.r.c := by unfold Unit.setS; split <;> rfl
@[simp] theorem Unit.setS_r_pc (u : Unit) (i : SReg) (x : Double) : (u.setS i x).r.pc = u.r.pc := by unfold Unit.setS; split <;> rfl
@[simp] theorem Unit.setS_r_plain (u : Unit) (i : SReg) (x : Double) : (u.setS i x).r.plain = u.r.plain := by unfold Unit.setS; split <;> rfl
@[simp] theorem Unit.setS_r_flags (u : Unit) (i : SReg) (x : Double) : (u.setS i x).r.flags = u.r.flags := by unfold Unit.setS; split <;> rfl
@[simp] theorem Unit.setS_r_lfsrv (u : Unit) (i : SReg) (x : Double) : (u.setS i x).r.lfsrv = u.r.lfsrv := by unfold Unit.setS; split <;> rfl
@[simp] theorem Unit.setS_r_lfsrd (u : Unit) (i : SReg) (x : Double) : (u.setS i x).r.lfsrd = u.r.lfsrd := by unfold Unit.setS; split <;> rfl
@[simp] theorem Unit.setS_r_bfsel (u : Unit) (i : SReg) (x : Double) : (u.setS i x).r.bfsel = u.r.bfsel := by unfold Unit.setS; split <;> rfl
@[simp] theorem Unit.setS_r_tvec (u : Unit) (i : SReg) (x : Double) : (u.setS i x).r.tvec = u.r.tvec := by unfold Unit.setS; split <;> rfl
@[simp] theorem Unit.setS_r_tres (u : Unit) (i : SReg) (x : Double) : (u.setS i x).r.tres = u.r.tres := by unfold Unit.setS; split <;> rfl

/-! ## setP -/

@[simp] theorem Unit.setP_lid (u : Unit) (i : PReg) (x : Bool) : (u.setP i x).lid = u.lid := by unfold Unit.setP; split <;> rfl
@[simp] theorem Unit.setP_slot (u : Unit) (i : PReg) (x : Bool) : (u.setP i x).slot = u.slot := by unfold Unit.setP; split <;> rfl
@[simp] theorem Unit.setP_index (u : Unit) (i : PReg) (x : Bool) : (u.setP i x).index = u.index := by unfold Unit.setP; split <;> rfl
@[simp] theorem Unit.setP_ctx (u : Unit) (i : PReg) (x : Bool) : (u.setP i x).ctx = u.ctx := by unfold Unit.setP; split <;> rfl
@[simp] theorem Unit.setP_copy (u : Unit) (i : PReg) (x : Bool) : (u.setP i x).copy = u.copy := by unfold Unit.setP; split <;> rfl
@[simp] theorem Unit.setP_ticket (u : Unit) (i : PReg) (x : Bool) : (u.setP i x).ticket = u.ticket := by unfold Unit.setP; split <;> rfl
@[simp] theorem Unit.setP_prio (u : Unit) (i : PReg) (x : Bool) : (u.setP i x).prio = u.prio := by unfold Unit.setP; split <;> rfl
@[simp] theorem Unit.setP_since (u : Unit) (i : PReg) (x : Bool) : (u.setP i x).since = u.since := by unfold Unit.setP; split <;> rfl
@[simp] theorem Unit.setP_code (u : Unit) (i : PReg) (x : Bool) : (u.setP i x).code = u.code := by unfold Unit.setP; split <;> rfl
@[simp] theorem Unit.setP_cpl (u : Unit) (i : PReg) (x : Bool) : (u.setP i x).cpl = u.cpl := by unfold Unit.setP; split <;> rfl
@[simp] theorem Unit.setP_bksel (u : Unit) (i : PReg) (x : Bool) : (u.setP i x).bksel = u.bksel := by unfold Unit.setP; split <;> rfl
@[simp] theorem Unit.setP_hsel (u : Unit) (i : PReg) (x : Bool) : (u.setP i x).hsel = u.hsel := by unfold Unit.setP; split <;> rfl
@[simp] theorem Unit.setP_psplit (u : Unit) (i : PReg) (x : Bool) : (u.setP i x).psplit = u.psplit := by unfold Unit.setP; split <;> rfl
@[simp] theorem Unit.setP_tnctx (u : Unit) (i : PReg) (x : Bool) : (u.setP i x).tnctx = u.tnctx := by unfold Unit.setP; split <;> rfl
@[simp] theorem Unit.setP_mstat (u : Unit) (i : PReg) (x : Bool) : (u.setP i x).mstat = u.mstat := by unfold Unit.setP; split <;> rfl
@[simp] theorem Unit.setP_seqr (u : Unit) (i : PReg) (x : Bool) : (u.setP i x).seqr = u.seqr := by unfold Unit.setP; split <;> rfl
@[simp] theorem Unit.setP_latches (u : Unit) (i : PReg) (x : Bool) : (u.setP i x).latches = u.latches := by unfold Unit.setP; split <;> rfl
@[simp] theorem Unit.setP_opbuf (u : Unit) (i : PReg) (x : Bool) : (u.setP i x).opbuf = u.opbuf := by unfold Unit.setP; split <;> rfl
@[simp] theorem Unit.setP_groupSwitch (u : Unit) (i : PReg) (x : Bool) : (u.setP i x).groupSwitch = u.groupSwitch := by unfold Unit.setP; split <;> rfl
@[simp] theorem Unit.setP_matAt (u : Unit) (i : PReg) (x : Bool) : (u.setP i x).matAt = u.matAt := by unfold Unit.setP; split <;> rfl
@[simp] theorem Unit.setP_remap (u : Unit) (i : PReg) (x : Bool) : (u.setP i x).remap = u.remap := by unfold Unit.setP; split <;> rfl
@[simp] theorem Unit.setP_closing (u : Unit) (i : PReg) (x : Bool) : (u.setP i x).closing = u.closing := by unfold Unit.setP; split <;> rfl
@[simp] theorem Unit.setP_setup (u : Unit) (i : PReg) (x : Bool) : (u.setP i x).setup = u.setup := by unfold Unit.setP; split <;> rfl
@[simp] theorem Unit.setP_ops (u : Unit) (i : PReg) (x : Bool) : (u.setP i x).ops = u.ops := by unfold Unit.setP; split <;> rfl
@[simp] theorem Unit.setP_puts (u : Unit) (i : PReg) (x : Bool) : (u.setP i x).puts = u.puts := by unfold Unit.setP; split <;> rfl
@[simp] theorem Unit.setP_replay (u : Unit) (i : PReg) (x : Bool) : (u.setP i x).replay = u.replay := by unfold Unit.setP; split <;> rfl
@[simp] theorem Unit.setP_pos (u : Unit) (i : PReg) (x : Bool) : (u.setP i x).pos = u.pos := by unfold Unit.setP; split <;> rfl
@[simp] theorem Unit.setP_sq (u : Unit) (i : PReg) (x : Bool) : (u.setP i x).sq = u.sq := by unfold Unit.setP; split <;> rfl
@[simp] theorem Unit.setP_leases (u : Unit) (i : PReg) (x : Bool) : (u.setP i x).leases = u.leases := by unfold Unit.setP; split <;> rfl
@[simp] theorem Unit.setP_retained (u : Unit) (i : PReg) (x : Bool) : (u.setP i x).retained = u.retained := by unfold Unit.setP; split <;> rfl
@[simp] theorem Unit.setP_ladle (u : Unit) (i : PReg) (x : Bool) : (u.setP i x).ladle = u.ladle := by unfold Unit.setP; split <;> rfl
@[simp] theorem Unit.setP_bkslip (u : Unit) (i : PReg) (x : Bool) : (u.setP i x).bkslip = u.bkslip := by unfold Unit.setP; split <;> rfl
@[simp] theorem Unit.setP_written (u : Unit) (i : PReg) (x : Bool) : (u.setP i x).written = u.written := by unfold Unit.setP; split <;> rfl
@[simp] theorem Unit.setP_role (u : Unit) (i : PReg) (x : Bool) : (u.setP i x).role = u.role := by unfold Unit.setP; split <;> rfl
@[simp] theorem Unit.setP_count (u : Unit) (i : PReg) (x : Bool) : (u.setP i x).count = u.count := by unfold Unit.setP; split <;> rfl
@[simp] theorem Unit.setP_sealed (u : Unit) (i : PReg) (x : Bool) : (u.setP i x).sealed = u.sealed := by unfold Unit.setP; split <;> rfl
@[simp] theorem Unit.setP_retry (u : Unit) (i : PReg) (x : Bool) : (u.setP i x).retry = u.retry := by unfold Unit.setP; split <;> rfl
@[simp] theorem Unit.setP_ckpt (u : Unit) (i : PReg) (x : Bool) : (u.setP i x).ckpt = u.ckpt := by unfold Unit.setP; split <;> rfl
@[simp] theorem Unit.setP_fills (u : Unit) (i : PReg) (x : Bool) : (u.setP i x).fills = u.fills := by unfold Unit.setP; split <;> rfl
@[simp] theorem Unit.setP_building (u : Unit) (i : PReg) (x : Bool) : (u.setP i x).building = u.building := by unfold Unit.setP; split <;> rfl
@[simp] theorem Unit.setP_inh (u : Unit) (i : PReg) (x : Bool) : (u.setP i x).inh = u.inh := by unfold Unit.setP; split <;> rfl
@[simp] theorem Unit.setP_frame (u : Unit) (i : PReg) (x : Bool) : (u.setP i x).frame = u.frame := by unfold Unit.setP; split <;> rfl
@[simp] theorem Unit.setP_cause (u : Unit) (i : PReg) (x : Bool) : (u.setP i x).cause = u.cause := by unfold Unit.setP; split <;> rfl
@[simp] theorem Unit.setP_cause2 (u : Unit) (i : PReg) (x : Bool) : (u.setP i x).cause2 = u.cause2 := by unfold Unit.setP; split <;> rfl
@[simp] theorem Unit.setP_served (u : Unit) (i : PReg) (x : Bool) : (u.setP i x).served = u.served := by unfold Unit.setP; split <;> rfl
@[simp] theorem Unit.setP_owed (u : Unit) (i : PReg) (x : Bool) : (u.setP i x).owed = u.owed := by unfold Unit.setP; split <;> rfl
@[simp] theorem Unit.setP_roll (u : Unit) (i : PReg) (x : Bool) : (u.setP i x).roll = u.roll := by unfold Unit.setP; split <;> rfl
@[simp] theorem Unit.setP_killed (u : Unit) (i : PReg) (x : Bool) : (u.setP i x).killed = u.killed := by unfold Unit.setP; split <;> rfl
@[simp] theorem Unit.setP_cancelled (u : Unit) (i : PReg) (x : Bool) : (u.setP i x).cancelled = u.cancelled := by unfold Unit.setP; split <;> rfl
@[simp] theorem Unit.setP_halting (u : Unit) (i : PReg) (x : Bool) : (u.setP i x).halting = u.halting := by unfold Unit.setP; split <;> rfl
@[simp] theorem Unit.setP_sig (u : Unit) (i : PReg) (x : Bool) : (u.setP i x).sig = u.sig := by unfold Unit.setP; split <;> rfl
@[simp] theorem Unit.setP_waits (u : Unit) (i : PReg) (x : Bool) : (u.setP i x).waits = u.waits := by unfold Unit.setP; split <;> rfl
@[simp] theorem Unit.setP_progress (u : Unit) (i : PReg) (x : Bool) : (u.setP i x).progress = u.progress := by unfold Unit.setP; split <;> rfl
@[simp] theorem Unit.setP_cseg (u : Unit) (i : PReg) (x : Bool) : (u.setP i x).cseg = u.cseg := by unfold Unit.setP; split <;> rfl
@[simp] theorem Unit.setP_body (u : Unit) (i : PReg) (x : Bool) : (u.setP i x).body = u.body := by unfold Unit.setP; split <;> rfl
@[simp] theorem Unit.setP_capts (u : Unit) (i : PReg) (x : Bool) : (u.setP i x).capts = u.capts := by unfold Unit.setP; split <;> rfl
@[simp] theorem Unit.setP_words (u : Unit) (i : PReg) (x : Bool) : (u.setP i x).words = u.words := by unfold Unit.setP; split <;> rfl
@[simp] theorem Unit.setP_r_s (u : Unit) (i : PReg) (x : Bool) : (u.setP i x).r.s = u.r.s := by unfold Unit.setP; split <;> rfl
@[simp] theorem Unit.setP_r_vp (u : Unit) (i : PReg) (x : Bool) : (u.setP i x).r.vp = u.r.vp := by unfold Unit.setP; split <;> rfl
@[simp] theorem Unit.setP_r_b (u : Unit) (i : PReg) (x : Bool) : (u.setP i x).r.b = u.r.b := by unfold Unit.setP; split <;> rfl
@[simp] theorem Unit.setP_r_ret (u : Unit) (i : PReg) (x : Bool) : (u.setP i x).r.ret = u.r.ret := by unfold Unit.setP; split <;> rfl
@[simp] theorem Unit.setP_r_loops (u : Unit) (i : PReg) (x : Bool) : (u.setP i x).r.loops = u.r.loops := by unfold Unit.setP; split <;> rfl
@[simp] theorem Unit.setP_r_c (u : Unit) (i : PReg) (x : Bool) : (u.setP i x).r.c = u.r.c := by unfold Unit.setP; split <;> rfl
@[simp] theorem Unit.setP_r_pc (u : Unit) (i : PReg) (x : Bool) : (u.setP i x).r.pc = u.r.pc := by unfold Unit.setP; split <;> rfl
@[simp] theorem Unit.setP_r_plain (u : Unit) (i : PReg) (x : Bool) : (u.setP i x).r.plain = u.r.plain := by unfold Unit.setP; split <;> rfl
@[simp] theorem Unit.setP_r_flags (u : Unit) (i : PReg) (x : Bool) : (u.setP i x).r.flags = u.r.flags := by unfold Unit.setP; split <;> rfl
@[simp] theorem Unit.setP_r_lfsrv (u : Unit) (i : PReg) (x : Bool) : (u.setP i x).r.lfsrv = u.r.lfsrv := by unfold Unit.setP; split <;> rfl
@[simp] theorem Unit.setP_r_lfsrd (u : Unit) (i : PReg) (x : Bool) : (u.setP i x).r.lfsrd = u.r.lfsrd := by unfold Unit.setP; split <;> rfl
@[simp] theorem Unit.setP_r_bfsel (u : Unit) (i : PReg) (x : Bool) : (u.setP i x).r.bfsel = u.r.bfsel := by unfold Unit.setP; split <;> rfl
@[simp] theorem Unit.setP_r_tvec (u : Unit) (i : PReg) (x : Bool) : (u.setP i x).r.tvec = u.r.tvec := by unfold Unit.setP; split <;> rfl
@[simp] theorem Unit.setP_r_tres (u : Unit) (i : PReg) (x : Bool) : (u.setP i x).r.tres = u.r.tres := by unfold Unit.setP; split <;> rfl

/-! ## setVp -/

@[simp] theorem Unit.setVp_lid (u : Unit) (i : PReg) (x : BitVec 256) : (u.setVp i x).lid = u.lid := by unfold Unit.setVp; split <;> rfl
@[simp] theorem Unit.setVp_slot (u : Unit) (i : PReg) (x : BitVec 256) : (u.setVp i x).slot = u.slot := by unfold Unit.setVp; split <;> rfl
@[simp] theorem Unit.setVp_index (u : Unit) (i : PReg) (x : BitVec 256) : (u.setVp i x).index = u.index := by unfold Unit.setVp; split <;> rfl
@[simp] theorem Unit.setVp_ctx (u : Unit) (i : PReg) (x : BitVec 256) : (u.setVp i x).ctx = u.ctx := by unfold Unit.setVp; split <;> rfl
@[simp] theorem Unit.setVp_copy (u : Unit) (i : PReg) (x : BitVec 256) : (u.setVp i x).copy = u.copy := by unfold Unit.setVp; split <;> rfl
@[simp] theorem Unit.setVp_ticket (u : Unit) (i : PReg) (x : BitVec 256) : (u.setVp i x).ticket = u.ticket := by unfold Unit.setVp; split <;> rfl
@[simp] theorem Unit.setVp_prio (u : Unit) (i : PReg) (x : BitVec 256) : (u.setVp i x).prio = u.prio := by unfold Unit.setVp; split <;> rfl
@[simp] theorem Unit.setVp_since (u : Unit) (i : PReg) (x : BitVec 256) : (u.setVp i x).since = u.since := by unfold Unit.setVp; split <;> rfl
@[simp] theorem Unit.setVp_code (u : Unit) (i : PReg) (x : BitVec 256) : (u.setVp i x).code = u.code := by unfold Unit.setVp; split <;> rfl
@[simp] theorem Unit.setVp_cpl (u : Unit) (i : PReg) (x : BitVec 256) : (u.setVp i x).cpl = u.cpl := by unfold Unit.setVp; split <;> rfl
@[simp] theorem Unit.setVp_bksel (u : Unit) (i : PReg) (x : BitVec 256) : (u.setVp i x).bksel = u.bksel := by unfold Unit.setVp; split <;> rfl
@[simp] theorem Unit.setVp_hsel (u : Unit) (i : PReg) (x : BitVec 256) : (u.setVp i x).hsel = u.hsel := by unfold Unit.setVp; split <;> rfl
@[simp] theorem Unit.setVp_psplit (u : Unit) (i : PReg) (x : BitVec 256) : (u.setVp i x).psplit = u.psplit := by unfold Unit.setVp; split <;> rfl
@[simp] theorem Unit.setVp_tnctx (u : Unit) (i : PReg) (x : BitVec 256) : (u.setVp i x).tnctx = u.tnctx := by unfold Unit.setVp; split <;> rfl
@[simp] theorem Unit.setVp_mstat (u : Unit) (i : PReg) (x : BitVec 256) : (u.setVp i x).mstat = u.mstat := by unfold Unit.setVp; split <;> rfl
@[simp] theorem Unit.setVp_seqr (u : Unit) (i : PReg) (x : BitVec 256) : (u.setVp i x).seqr = u.seqr := by unfold Unit.setVp; split <;> rfl
@[simp] theorem Unit.setVp_latches (u : Unit) (i : PReg) (x : BitVec 256) : (u.setVp i x).latches = u.latches := by unfold Unit.setVp; split <;> rfl
@[simp] theorem Unit.setVp_opbuf (u : Unit) (i : PReg) (x : BitVec 256) : (u.setVp i x).opbuf = u.opbuf := by unfold Unit.setVp; split <;> rfl
@[simp] theorem Unit.setVp_groupSwitch (u : Unit) (i : PReg) (x : BitVec 256) : (u.setVp i x).groupSwitch = u.groupSwitch := by unfold Unit.setVp; split <;> rfl
@[simp] theorem Unit.setVp_matAt (u : Unit) (i : PReg) (x : BitVec 256) : (u.setVp i x).matAt = u.matAt := by unfold Unit.setVp; split <;> rfl
@[simp] theorem Unit.setVp_remap (u : Unit) (i : PReg) (x : BitVec 256) : (u.setVp i x).remap = u.remap := by unfold Unit.setVp; split <;> rfl
@[simp] theorem Unit.setVp_closing (u : Unit) (i : PReg) (x : BitVec 256) : (u.setVp i x).closing = u.closing := by unfold Unit.setVp; split <;> rfl
@[simp] theorem Unit.setVp_setup (u : Unit) (i : PReg) (x : BitVec 256) : (u.setVp i x).setup = u.setup := by unfold Unit.setVp; split <;> rfl
@[simp] theorem Unit.setVp_ops (u : Unit) (i : PReg) (x : BitVec 256) : (u.setVp i x).ops = u.ops := by unfold Unit.setVp; split <;> rfl
@[simp] theorem Unit.setVp_puts (u : Unit) (i : PReg) (x : BitVec 256) : (u.setVp i x).puts = u.puts := by unfold Unit.setVp; split <;> rfl
@[simp] theorem Unit.setVp_replay (u : Unit) (i : PReg) (x : BitVec 256) : (u.setVp i x).replay = u.replay := by unfold Unit.setVp; split <;> rfl
@[simp] theorem Unit.setVp_pos (u : Unit) (i : PReg) (x : BitVec 256) : (u.setVp i x).pos = u.pos := by unfold Unit.setVp; split <;> rfl
@[simp] theorem Unit.setVp_sq (u : Unit) (i : PReg) (x : BitVec 256) : (u.setVp i x).sq = u.sq := by unfold Unit.setVp; split <;> rfl
@[simp] theorem Unit.setVp_leases (u : Unit) (i : PReg) (x : BitVec 256) : (u.setVp i x).leases = u.leases := by unfold Unit.setVp; split <;> rfl
@[simp] theorem Unit.setVp_retained (u : Unit) (i : PReg) (x : BitVec 256) : (u.setVp i x).retained = u.retained := by unfold Unit.setVp; split <;> rfl
@[simp] theorem Unit.setVp_ladle (u : Unit) (i : PReg) (x : BitVec 256) : (u.setVp i x).ladle = u.ladle := by unfold Unit.setVp; split <;> rfl
@[simp] theorem Unit.setVp_bkslip (u : Unit) (i : PReg) (x : BitVec 256) : (u.setVp i x).bkslip = u.bkslip := by unfold Unit.setVp; split <;> rfl
@[simp] theorem Unit.setVp_written (u : Unit) (i : PReg) (x : BitVec 256) : (u.setVp i x).written = u.written := by unfold Unit.setVp; split <;> rfl
@[simp] theorem Unit.setVp_role (u : Unit) (i : PReg) (x : BitVec 256) : (u.setVp i x).role = u.role := by unfold Unit.setVp; split <;> rfl
@[simp] theorem Unit.setVp_count (u : Unit) (i : PReg) (x : BitVec 256) : (u.setVp i x).count = u.count := by unfold Unit.setVp; split <;> rfl
@[simp] theorem Unit.setVp_sealed (u : Unit) (i : PReg) (x : BitVec 256) : (u.setVp i x).sealed = u.sealed := by unfold Unit.setVp; split <;> rfl
@[simp] theorem Unit.setVp_retry (u : Unit) (i : PReg) (x : BitVec 256) : (u.setVp i x).retry = u.retry := by unfold Unit.setVp; split <;> rfl
@[simp] theorem Unit.setVp_ckpt (u : Unit) (i : PReg) (x : BitVec 256) : (u.setVp i x).ckpt = u.ckpt := by unfold Unit.setVp; split <;> rfl
@[simp] theorem Unit.setVp_fills (u : Unit) (i : PReg) (x : BitVec 256) : (u.setVp i x).fills = u.fills := by unfold Unit.setVp; split <;> rfl
@[simp] theorem Unit.setVp_building (u : Unit) (i : PReg) (x : BitVec 256) : (u.setVp i x).building = u.building := by unfold Unit.setVp; split <;> rfl
@[simp] theorem Unit.setVp_inh (u : Unit) (i : PReg) (x : BitVec 256) : (u.setVp i x).inh = u.inh := by unfold Unit.setVp; split <;> rfl
@[simp] theorem Unit.setVp_frame (u : Unit) (i : PReg) (x : BitVec 256) : (u.setVp i x).frame = u.frame := by unfold Unit.setVp; split <;> rfl
@[simp] theorem Unit.setVp_cause (u : Unit) (i : PReg) (x : BitVec 256) : (u.setVp i x).cause = u.cause := by unfold Unit.setVp; split <;> rfl
@[simp] theorem Unit.setVp_cause2 (u : Unit) (i : PReg) (x : BitVec 256) : (u.setVp i x).cause2 = u.cause2 := by unfold Unit.setVp; split <;> rfl
@[simp] theorem Unit.setVp_served (u : Unit) (i : PReg) (x : BitVec 256) : (u.setVp i x).served = u.served := by unfold Unit.setVp; split <;> rfl
@[simp] theorem Unit.setVp_owed (u : Unit) (i : PReg) (x : BitVec 256) : (u.setVp i x).owed = u.owed := by unfold Unit.setVp; split <;> rfl
@[simp] theorem Unit.setVp_roll (u : Unit) (i : PReg) (x : BitVec 256) : (u.setVp i x).roll = u.roll := by unfold Unit.setVp; split <;> rfl
@[simp] theorem Unit.setVp_killed (u : Unit) (i : PReg) (x : BitVec 256) : (u.setVp i x).killed = u.killed := by unfold Unit.setVp; split <;> rfl
@[simp] theorem Unit.setVp_cancelled (u : Unit) (i : PReg) (x : BitVec 256) : (u.setVp i x).cancelled = u.cancelled := by unfold Unit.setVp; split <;> rfl
@[simp] theorem Unit.setVp_halting (u : Unit) (i : PReg) (x : BitVec 256) : (u.setVp i x).halting = u.halting := by unfold Unit.setVp; split <;> rfl
@[simp] theorem Unit.setVp_sig (u : Unit) (i : PReg) (x : BitVec 256) : (u.setVp i x).sig = u.sig := by unfold Unit.setVp; split <;> rfl
@[simp] theorem Unit.setVp_waits (u : Unit) (i : PReg) (x : BitVec 256) : (u.setVp i x).waits = u.waits := by unfold Unit.setVp; split <;> rfl
@[simp] theorem Unit.setVp_progress (u : Unit) (i : PReg) (x : BitVec 256) : (u.setVp i x).progress = u.progress := by unfold Unit.setVp; split <;> rfl
@[simp] theorem Unit.setVp_cseg (u : Unit) (i : PReg) (x : BitVec 256) : (u.setVp i x).cseg = u.cseg := by unfold Unit.setVp; split <;> rfl
@[simp] theorem Unit.setVp_body (u : Unit) (i : PReg) (x : BitVec 256) : (u.setVp i x).body = u.body := by unfold Unit.setVp; split <;> rfl
@[simp] theorem Unit.setVp_capts (u : Unit) (i : PReg) (x : BitVec 256) : (u.setVp i x).capts = u.capts := by unfold Unit.setVp; split <;> rfl
@[simp] theorem Unit.setVp_words (u : Unit) (i : PReg) (x : BitVec 256) : (u.setVp i x).words = u.words := by unfold Unit.setVp; split <;> rfl
@[simp] theorem Unit.setVp_r_s (u : Unit) (i : PReg) (x : BitVec 256) : (u.setVp i x).r.s = u.r.s := by unfold Unit.setVp; split <;> rfl
@[simp] theorem Unit.setVp_r_p (u : Unit) (i : PReg) (x : BitVec 256) : (u.setVp i x).r.p = u.r.p := by unfold Unit.setVp; split <;> rfl
@[simp] theorem Unit.setVp_r_b (u : Unit) (i : PReg) (x : BitVec 256) : (u.setVp i x).r.b = u.r.b := by unfold Unit.setVp; split <;> rfl
@[simp] theorem Unit.setVp_r_ret (u : Unit) (i : PReg) (x : BitVec 256) : (u.setVp i x).r.ret = u.r.ret := by unfold Unit.setVp; split <;> rfl
@[simp] theorem Unit.setVp_r_loops (u : Unit) (i : PReg) (x : BitVec 256) : (u.setVp i x).r.loops = u.r.loops := by unfold Unit.setVp; split <;> rfl
@[simp] theorem Unit.setVp_r_c (u : Unit) (i : PReg) (x : BitVec 256) : (u.setVp i x).r.c = u.r.c := by unfold Unit.setVp; split <;> rfl
@[simp] theorem Unit.setVp_r_pc (u : Unit) (i : PReg) (x : BitVec 256) : (u.setVp i x).r.pc = u.r.pc := by unfold Unit.setVp; split <;> rfl
@[simp] theorem Unit.setVp_r_plain (u : Unit) (i : PReg) (x : BitVec 256) : (u.setVp i x).r.plain = u.r.plain := by unfold Unit.setVp; split <;> rfl
@[simp] theorem Unit.setVp_r_flags (u : Unit) (i : PReg) (x : BitVec 256) : (u.setVp i x).r.flags = u.r.flags := by unfold Unit.setVp; split <;> rfl
@[simp] theorem Unit.setVp_r_lfsrv (u : Unit) (i : PReg) (x : BitVec 256) : (u.setVp i x).r.lfsrv = u.r.lfsrv := by unfold Unit.setVp; split <;> rfl
@[simp] theorem Unit.setVp_r_lfsrd (u : Unit) (i : PReg) (x : BitVec 256) : (u.setVp i x).r.lfsrd = u.r.lfsrd := by unfold Unit.setVp; split <;> rfl
@[simp] theorem Unit.setVp_r_bfsel (u : Unit) (i : PReg) (x : BitVec 256) : (u.setVp i x).r.bfsel = u.r.bfsel := by unfold Unit.setVp; split <;> rfl
@[simp] theorem Unit.setVp_r_tvec (u : Unit) (i : PReg) (x : BitVec 256) : (u.setVp i x).r.tvec = u.r.tvec := by unfold Unit.setVp; split <;> rfl
@[simp] theorem Unit.setVp_r_tres (u : Unit) (i : PReg) (x : BitVec 256) : (u.setVp i x).r.tres = u.r.tres := by unfold Unit.setVp; split <;> rfl

/-! ## setC -/

@[simp] theorem Unit.setC_lid (u : Unit) (i : CReg) (x : Cap) : (u.setC i x).lid = u.lid := rfl
@[simp] theorem Unit.setC_slot (u : Unit) (i : CReg) (x : Cap) : (u.setC i x).slot = u.slot := rfl
@[simp] theorem Unit.setC_index (u : Unit) (i : CReg) (x : Cap) : (u.setC i x).index = u.index := rfl
@[simp] theorem Unit.setC_ctx (u : Unit) (i : CReg) (x : Cap) : (u.setC i x).ctx = u.ctx := rfl
@[simp] theorem Unit.setC_copy (u : Unit) (i : CReg) (x : Cap) : (u.setC i x).copy = u.copy := rfl
@[simp] theorem Unit.setC_ticket (u : Unit) (i : CReg) (x : Cap) : (u.setC i x).ticket = u.ticket := rfl
@[simp] theorem Unit.setC_prio (u : Unit) (i : CReg) (x : Cap) : (u.setC i x).prio = u.prio := rfl
@[simp] theorem Unit.setC_since (u : Unit) (i : CReg) (x : Cap) : (u.setC i x).since = u.since := rfl
@[simp] theorem Unit.setC_code (u : Unit) (i : CReg) (x : Cap) : (u.setC i x).code = u.code := rfl
@[simp] theorem Unit.setC_cpl (u : Unit) (i : CReg) (x : Cap) : (u.setC i x).cpl = u.cpl := rfl
@[simp] theorem Unit.setC_bksel (u : Unit) (i : CReg) (x : Cap) : (u.setC i x).bksel = u.bksel := rfl
@[simp] theorem Unit.setC_hsel (u : Unit) (i : CReg) (x : Cap) : (u.setC i x).hsel = u.hsel := rfl
@[simp] theorem Unit.setC_psplit (u : Unit) (i : CReg) (x : Cap) : (u.setC i x).psplit = u.psplit := rfl
@[simp] theorem Unit.setC_tnctx (u : Unit) (i : CReg) (x : Cap) : (u.setC i x).tnctx = u.tnctx := rfl
@[simp] theorem Unit.setC_mstat (u : Unit) (i : CReg) (x : Cap) : (u.setC i x).mstat = u.mstat := rfl
@[simp] theorem Unit.setC_seqr (u : Unit) (i : CReg) (x : Cap) : (u.setC i x).seqr = u.seqr := rfl
@[simp] theorem Unit.setC_latches (u : Unit) (i : CReg) (x : Cap) : (u.setC i x).latches = u.latches := rfl
@[simp] theorem Unit.setC_opbuf (u : Unit) (i : CReg) (x : Cap) : (u.setC i x).opbuf = u.opbuf := rfl
@[simp] theorem Unit.setC_groupSwitch (u : Unit) (i : CReg) (x : Cap) : (u.setC i x).groupSwitch = u.groupSwitch := rfl
@[simp] theorem Unit.setC_matAt (u : Unit) (i : CReg) (x : Cap) : (u.setC i x).matAt = u.matAt := rfl
@[simp] theorem Unit.setC_remap (u : Unit) (i : CReg) (x : Cap) : (u.setC i x).remap = u.remap := rfl
@[simp] theorem Unit.setC_closing (u : Unit) (i : CReg) (x : Cap) : (u.setC i x).closing = u.closing := rfl
@[simp] theorem Unit.setC_setup (u : Unit) (i : CReg) (x : Cap) : (u.setC i x).setup = u.setup := rfl
@[simp] theorem Unit.setC_ops (u : Unit) (i : CReg) (x : Cap) : (u.setC i x).ops = u.ops := rfl
@[simp] theorem Unit.setC_puts (u : Unit) (i : CReg) (x : Cap) : (u.setC i x).puts = u.puts := rfl
@[simp] theorem Unit.setC_replay (u : Unit) (i : CReg) (x : Cap) : (u.setC i x).replay = u.replay := rfl
@[simp] theorem Unit.setC_pos (u : Unit) (i : CReg) (x : Cap) : (u.setC i x).pos = u.pos := rfl
@[simp] theorem Unit.setC_sq (u : Unit) (i : CReg) (x : Cap) : (u.setC i x).sq = u.sq := rfl
@[simp] theorem Unit.setC_leases (u : Unit) (i : CReg) (x : Cap) : (u.setC i x).leases = u.leases := rfl
@[simp] theorem Unit.setC_retained (u : Unit) (i : CReg) (x : Cap) : (u.setC i x).retained = u.retained := rfl
@[simp] theorem Unit.setC_ladle (u : Unit) (i : CReg) (x : Cap) : (u.setC i x).ladle = u.ladle := rfl
@[simp] theorem Unit.setC_bkslip (u : Unit) (i : CReg) (x : Cap) : (u.setC i x).bkslip = u.bkslip := rfl
@[simp] theorem Unit.setC_written (u : Unit) (i : CReg) (x : Cap) : (u.setC i x).written = u.written := rfl
@[simp] theorem Unit.setC_role (u : Unit) (i : CReg) (x : Cap) : (u.setC i x).role = u.role := rfl
@[simp] theorem Unit.setC_count (u : Unit) (i : CReg) (x : Cap) : (u.setC i x).count = u.count := rfl
@[simp] theorem Unit.setC_sealed (u : Unit) (i : CReg) (x : Cap) : (u.setC i x).sealed = u.sealed := rfl
@[simp] theorem Unit.setC_retry (u : Unit) (i : CReg) (x : Cap) : (u.setC i x).retry = u.retry := rfl
@[simp] theorem Unit.setC_ckpt (u : Unit) (i : CReg) (x : Cap) : (u.setC i x).ckpt = u.ckpt := rfl
@[simp] theorem Unit.setC_fills (u : Unit) (i : CReg) (x : Cap) : (u.setC i x).fills = u.fills := rfl
@[simp] theorem Unit.setC_building (u : Unit) (i : CReg) (x : Cap) : (u.setC i x).building = u.building := rfl
@[simp] theorem Unit.setC_inh (u : Unit) (i : CReg) (x : Cap) : (u.setC i x).inh = u.inh := rfl
@[simp] theorem Unit.setC_frame (u : Unit) (i : CReg) (x : Cap) : (u.setC i x).frame = u.frame := rfl
@[simp] theorem Unit.setC_cause (u : Unit) (i : CReg) (x : Cap) : (u.setC i x).cause = u.cause := rfl
@[simp] theorem Unit.setC_cause2 (u : Unit) (i : CReg) (x : Cap) : (u.setC i x).cause2 = u.cause2 := rfl
@[simp] theorem Unit.setC_served (u : Unit) (i : CReg) (x : Cap) : (u.setC i x).served = u.served := rfl
@[simp] theorem Unit.setC_owed (u : Unit) (i : CReg) (x : Cap) : (u.setC i x).owed = u.owed := rfl
@[simp] theorem Unit.setC_roll (u : Unit) (i : CReg) (x : Cap) : (u.setC i x).roll = u.roll := rfl
@[simp] theorem Unit.setC_killed (u : Unit) (i : CReg) (x : Cap) : (u.setC i x).killed = u.killed := rfl
@[simp] theorem Unit.setC_cancelled (u : Unit) (i : CReg) (x : Cap) : (u.setC i x).cancelled = u.cancelled := rfl
@[simp] theorem Unit.setC_halting (u : Unit) (i : CReg) (x : Cap) : (u.setC i x).halting = u.halting := rfl
@[simp] theorem Unit.setC_sig (u : Unit) (i : CReg) (x : Cap) : (u.setC i x).sig = u.sig := rfl
@[simp] theorem Unit.setC_waits (u : Unit) (i : CReg) (x : Cap) : (u.setC i x).waits = u.waits := rfl
@[simp] theorem Unit.setC_progress (u : Unit) (i : CReg) (x : Cap) : (u.setC i x).progress = u.progress := rfl
@[simp] theorem Unit.setC_cseg (u : Unit) (i : CReg) (x : Cap) : (u.setC i x).cseg = u.cseg := rfl
@[simp] theorem Unit.setC_body (u : Unit) (i : CReg) (x : Cap) : (u.setC i x).body = u.body := rfl
@[simp] theorem Unit.setC_capts (u : Unit) (i : CReg) (x : Cap) : (u.setC i x).capts = u.capts := rfl
@[simp] theorem Unit.setC_words (u : Unit) (i : CReg) (x : Cap) : (u.setC i x).words = u.words := rfl
@[simp] theorem Unit.setC_r_s (u : Unit) (i : CReg) (x : Cap) : (u.setC i x).r.s = u.r.s := rfl
@[simp] theorem Unit.setC_r_p (u : Unit) (i : CReg) (x : Cap) : (u.setC i x).r.p = u.r.p := rfl
@[simp] theorem Unit.setC_r_vp (u : Unit) (i : CReg) (x : Cap) : (u.setC i x).r.vp = u.r.vp := rfl
@[simp] theorem Unit.setC_r_b (u : Unit) (i : CReg) (x : Cap) : (u.setC i x).r.b = u.r.b := rfl
@[simp] theorem Unit.setC_r_ret (u : Unit) (i : CReg) (x : Cap) : (u.setC i x).r.ret = u.r.ret := rfl
@[simp] theorem Unit.setC_r_loops (u : Unit) (i : CReg) (x : Cap) : (u.setC i x).r.loops = u.r.loops := rfl
@[simp] theorem Unit.setC_r_pc (u : Unit) (i : CReg) (x : Cap) : (u.setC i x).r.pc = u.r.pc := rfl
@[simp] theorem Unit.setC_r_plain (u : Unit) (i : CReg) (x : Cap) : (u.setC i x).r.plain = u.r.plain := rfl
@[simp] theorem Unit.setC_r_flags (u : Unit) (i : CReg) (x : Cap) : (u.setC i x).r.flags = u.r.flags := rfl
@[simp] theorem Unit.setC_r_lfsrv (u : Unit) (i : CReg) (x : Cap) : (u.setC i x).r.lfsrv = u.r.lfsrv := rfl
@[simp] theorem Unit.setC_r_lfsrd (u : Unit) (i : CReg) (x : Cap) : (u.setC i x).r.lfsrd = u.r.lfsrd := rfl
@[simp] theorem Unit.setC_r_bfsel (u : Unit) (i : CReg) (x : Cap) : (u.setC i x).r.bfsel = u.r.bfsel := rfl
@[simp] theorem Unit.setC_r_tvec (u : Unit) (i : CReg) (x : Cap) : (u.setC i x).r.tvec = u.r.tvec := rfl
@[simp] theorem Unit.setC_r_tres (u : Unit) (i : CReg) (x : Cap) : (u.setC i x).r.tres = u.r.tres := rfl

/-! ## setB -/

@[simp] theorem Unit.setB_lid (u : Unit) (i : BReg) (x : BTarget) : (u.setB i x).lid = u.lid := rfl
@[simp] theorem Unit.setB_slot (u : Unit) (i : BReg) (x : BTarget) : (u.setB i x).slot = u.slot := rfl
@[simp] theorem Unit.setB_index (u : Unit) (i : BReg) (x : BTarget) : (u.setB i x).index = u.index := rfl
@[simp] theorem Unit.setB_ctx (u : Unit) (i : BReg) (x : BTarget) : (u.setB i x).ctx = u.ctx := rfl
@[simp] theorem Unit.setB_copy (u : Unit) (i : BReg) (x : BTarget) : (u.setB i x).copy = u.copy := rfl
@[simp] theorem Unit.setB_ticket (u : Unit) (i : BReg) (x : BTarget) : (u.setB i x).ticket = u.ticket := rfl
@[simp] theorem Unit.setB_prio (u : Unit) (i : BReg) (x : BTarget) : (u.setB i x).prio = u.prio := rfl
@[simp] theorem Unit.setB_since (u : Unit) (i : BReg) (x : BTarget) : (u.setB i x).since = u.since := rfl
@[simp] theorem Unit.setB_code (u : Unit) (i : BReg) (x : BTarget) : (u.setB i x).code = u.code := rfl
@[simp] theorem Unit.setB_cpl (u : Unit) (i : BReg) (x : BTarget) : (u.setB i x).cpl = u.cpl := rfl
@[simp] theorem Unit.setB_bksel (u : Unit) (i : BReg) (x : BTarget) : (u.setB i x).bksel = u.bksel := rfl
@[simp] theorem Unit.setB_hsel (u : Unit) (i : BReg) (x : BTarget) : (u.setB i x).hsel = u.hsel := rfl
@[simp] theorem Unit.setB_psplit (u : Unit) (i : BReg) (x : BTarget) : (u.setB i x).psplit = u.psplit := rfl
@[simp] theorem Unit.setB_tnctx (u : Unit) (i : BReg) (x : BTarget) : (u.setB i x).tnctx = u.tnctx := rfl
@[simp] theorem Unit.setB_mstat (u : Unit) (i : BReg) (x : BTarget) : (u.setB i x).mstat = u.mstat := rfl
@[simp] theorem Unit.setB_seqr (u : Unit) (i : BReg) (x : BTarget) : (u.setB i x).seqr = u.seqr := rfl
@[simp] theorem Unit.setB_latches (u : Unit) (i : BReg) (x : BTarget) : (u.setB i x).latches = u.latches := rfl
@[simp] theorem Unit.setB_opbuf (u : Unit) (i : BReg) (x : BTarget) : (u.setB i x).opbuf = u.opbuf := rfl
@[simp] theorem Unit.setB_groupSwitch (u : Unit) (i : BReg) (x : BTarget) : (u.setB i x).groupSwitch = u.groupSwitch := rfl
@[simp] theorem Unit.setB_matAt (u : Unit) (i : BReg) (x : BTarget) : (u.setB i x).matAt = u.matAt := rfl
@[simp] theorem Unit.setB_remap (u : Unit) (i : BReg) (x : BTarget) : (u.setB i x).remap = u.remap := rfl
@[simp] theorem Unit.setB_closing (u : Unit) (i : BReg) (x : BTarget) : (u.setB i x).closing = u.closing := rfl
@[simp] theorem Unit.setB_setup (u : Unit) (i : BReg) (x : BTarget) : (u.setB i x).setup = u.setup := rfl
@[simp] theorem Unit.setB_ops (u : Unit) (i : BReg) (x : BTarget) : (u.setB i x).ops = u.ops := rfl
@[simp] theorem Unit.setB_puts (u : Unit) (i : BReg) (x : BTarget) : (u.setB i x).puts = u.puts := rfl
@[simp] theorem Unit.setB_replay (u : Unit) (i : BReg) (x : BTarget) : (u.setB i x).replay = u.replay := rfl
@[simp] theorem Unit.setB_pos (u : Unit) (i : BReg) (x : BTarget) : (u.setB i x).pos = u.pos := rfl
@[simp] theorem Unit.setB_sq (u : Unit) (i : BReg) (x : BTarget) : (u.setB i x).sq = u.sq := rfl
@[simp] theorem Unit.setB_leases (u : Unit) (i : BReg) (x : BTarget) : (u.setB i x).leases = u.leases := rfl
@[simp] theorem Unit.setB_retained (u : Unit) (i : BReg) (x : BTarget) : (u.setB i x).retained = u.retained := rfl
@[simp] theorem Unit.setB_ladle (u : Unit) (i : BReg) (x : BTarget) : (u.setB i x).ladle = u.ladle := rfl
@[simp] theorem Unit.setB_bkslip (u : Unit) (i : BReg) (x : BTarget) : (u.setB i x).bkslip = u.bkslip := rfl
@[simp] theorem Unit.setB_written (u : Unit) (i : BReg) (x : BTarget) : (u.setB i x).written = u.written := rfl
@[simp] theorem Unit.setB_role (u : Unit) (i : BReg) (x : BTarget) : (u.setB i x).role = u.role := rfl
@[simp] theorem Unit.setB_count (u : Unit) (i : BReg) (x : BTarget) : (u.setB i x).count = u.count := rfl
@[simp] theorem Unit.setB_sealed (u : Unit) (i : BReg) (x : BTarget) : (u.setB i x).sealed = u.sealed := rfl
@[simp] theorem Unit.setB_retry (u : Unit) (i : BReg) (x : BTarget) : (u.setB i x).retry = u.retry := rfl
@[simp] theorem Unit.setB_ckpt (u : Unit) (i : BReg) (x : BTarget) : (u.setB i x).ckpt = u.ckpt := rfl
@[simp] theorem Unit.setB_fills (u : Unit) (i : BReg) (x : BTarget) : (u.setB i x).fills = u.fills := rfl
@[simp] theorem Unit.setB_building (u : Unit) (i : BReg) (x : BTarget) : (u.setB i x).building = u.building := rfl
@[simp] theorem Unit.setB_inh (u : Unit) (i : BReg) (x : BTarget) : (u.setB i x).inh = u.inh := rfl
@[simp] theorem Unit.setB_frame (u : Unit) (i : BReg) (x : BTarget) : (u.setB i x).frame = u.frame := rfl
@[simp] theorem Unit.setB_cause (u : Unit) (i : BReg) (x : BTarget) : (u.setB i x).cause = u.cause := rfl
@[simp] theorem Unit.setB_cause2 (u : Unit) (i : BReg) (x : BTarget) : (u.setB i x).cause2 = u.cause2 := rfl
@[simp] theorem Unit.setB_served (u : Unit) (i : BReg) (x : BTarget) : (u.setB i x).served = u.served := rfl
@[simp] theorem Unit.setB_owed (u : Unit) (i : BReg) (x : BTarget) : (u.setB i x).owed = u.owed := rfl
@[simp] theorem Unit.setB_roll (u : Unit) (i : BReg) (x : BTarget) : (u.setB i x).roll = u.roll := rfl
@[simp] theorem Unit.setB_killed (u : Unit) (i : BReg) (x : BTarget) : (u.setB i x).killed = u.killed := rfl
@[simp] theorem Unit.setB_cancelled (u : Unit) (i : BReg) (x : BTarget) : (u.setB i x).cancelled = u.cancelled := rfl
@[simp] theorem Unit.setB_halting (u : Unit) (i : BReg) (x : BTarget) : (u.setB i x).halting = u.halting := rfl
@[simp] theorem Unit.setB_sig (u : Unit) (i : BReg) (x : BTarget) : (u.setB i x).sig = u.sig := rfl
@[simp] theorem Unit.setB_waits (u : Unit) (i : BReg) (x : BTarget) : (u.setB i x).waits = u.waits := rfl
@[simp] theorem Unit.setB_progress (u : Unit) (i : BReg) (x : BTarget) : (u.setB i x).progress = u.progress := rfl
@[simp] theorem Unit.setB_cseg (u : Unit) (i : BReg) (x : BTarget) : (u.setB i x).cseg = u.cseg := rfl
@[simp] theorem Unit.setB_body (u : Unit) (i : BReg) (x : BTarget) : (u.setB i x).body = u.body := rfl
@[simp] theorem Unit.setB_capts (u : Unit) (i : BReg) (x : BTarget) : (u.setB i x).capts = u.capts := rfl
@[simp] theorem Unit.setB_words (u : Unit) (i : BReg) (x : BTarget) : (u.setB i x).words = u.words := rfl
@[simp] theorem Unit.setB_r_s (u : Unit) (i : BReg) (x : BTarget) : (u.setB i x).r.s = u.r.s := rfl
@[simp] theorem Unit.setB_r_p (u : Unit) (i : BReg) (x : BTarget) : (u.setB i x).r.p = u.r.p := rfl
@[simp] theorem Unit.setB_r_vp (u : Unit) (i : BReg) (x : BTarget) : (u.setB i x).r.vp = u.r.vp := rfl
@[simp] theorem Unit.setB_r_ret (u : Unit) (i : BReg) (x : BTarget) : (u.setB i x).r.ret = u.r.ret := rfl
@[simp] theorem Unit.setB_r_loops (u : Unit) (i : BReg) (x : BTarget) : (u.setB i x).r.loops = u.r.loops := rfl
@[simp] theorem Unit.setB_r_c (u : Unit) (i : BReg) (x : BTarget) : (u.setB i x).r.c = u.r.c := rfl
@[simp] theorem Unit.setB_r_pc (u : Unit) (i : BReg) (x : BTarget) : (u.setB i x).r.pc = u.r.pc := rfl
@[simp] theorem Unit.setB_r_plain (u : Unit) (i : BReg) (x : BTarget) : (u.setB i x).r.plain = u.r.plain := rfl
@[simp] theorem Unit.setB_r_flags (u : Unit) (i : BReg) (x : BTarget) : (u.setB i x).r.flags = u.r.flags := rfl
@[simp] theorem Unit.setB_r_lfsrv (u : Unit) (i : BReg) (x : BTarget) : (u.setB i x).r.lfsrv = u.r.lfsrv := rfl
@[simp] theorem Unit.setB_r_lfsrd (u : Unit) (i : BReg) (x : BTarget) : (u.setB i x).r.lfsrd = u.r.lfsrd := rfl
@[simp] theorem Unit.setB_r_bfsel (u : Unit) (i : BReg) (x : BTarget) : (u.setB i x).r.bfsel = u.r.bfsel := rfl
@[simp] theorem Unit.setB_r_tvec (u : Unit) (i : BReg) (x : BTarget) : (u.setB i x).r.tvec = u.r.tvec := rfl
@[simp] theorem Unit.setB_r_tres (u : Unit) (i : BReg) (x : BTarget) : (u.setB i x).r.tres = u.r.tres := rfl

/-! ## setLevel -/

@[simp] theorem Unit.setLevel_lid (u : Unit) (i : Nat) (x : LoopLevel) : (u.setLevel i x).lid = u.lid := rfl
@[simp] theorem Unit.setLevel_slot (u : Unit) (i : Nat) (x : LoopLevel) : (u.setLevel i x).slot = u.slot := rfl
@[simp] theorem Unit.setLevel_index (u : Unit) (i : Nat) (x : LoopLevel) : (u.setLevel i x).index = u.index := rfl
@[simp] theorem Unit.setLevel_ctx (u : Unit) (i : Nat) (x : LoopLevel) : (u.setLevel i x).ctx = u.ctx := rfl
@[simp] theorem Unit.setLevel_copy (u : Unit) (i : Nat) (x : LoopLevel) : (u.setLevel i x).copy = u.copy := rfl
@[simp] theorem Unit.setLevel_ticket (u : Unit) (i : Nat) (x : LoopLevel) : (u.setLevel i x).ticket = u.ticket := rfl
@[simp] theorem Unit.setLevel_prio (u : Unit) (i : Nat) (x : LoopLevel) : (u.setLevel i x).prio = u.prio := rfl
@[simp] theorem Unit.setLevel_since (u : Unit) (i : Nat) (x : LoopLevel) : (u.setLevel i x).since = u.since := rfl
@[simp] theorem Unit.setLevel_code (u : Unit) (i : Nat) (x : LoopLevel) : (u.setLevel i x).code = u.code := rfl
@[simp] theorem Unit.setLevel_cpl (u : Unit) (i : Nat) (x : LoopLevel) : (u.setLevel i x).cpl = u.cpl := rfl
@[simp] theorem Unit.setLevel_bksel (u : Unit) (i : Nat) (x : LoopLevel) : (u.setLevel i x).bksel = u.bksel := rfl
@[simp] theorem Unit.setLevel_hsel (u : Unit) (i : Nat) (x : LoopLevel) : (u.setLevel i x).hsel = u.hsel := rfl
@[simp] theorem Unit.setLevel_psplit (u : Unit) (i : Nat) (x : LoopLevel) : (u.setLevel i x).psplit = u.psplit := rfl
@[simp] theorem Unit.setLevel_tnctx (u : Unit) (i : Nat) (x : LoopLevel) : (u.setLevel i x).tnctx = u.tnctx := rfl
@[simp] theorem Unit.setLevel_mstat (u : Unit) (i : Nat) (x : LoopLevel) : (u.setLevel i x).mstat = u.mstat := rfl
@[simp] theorem Unit.setLevel_seqr (u : Unit) (i : Nat) (x : LoopLevel) : (u.setLevel i x).seqr = u.seqr := rfl
@[simp] theorem Unit.setLevel_latches (u : Unit) (i : Nat) (x : LoopLevel) : (u.setLevel i x).latches = u.latches := rfl
@[simp] theorem Unit.setLevel_opbuf (u : Unit) (i : Nat) (x : LoopLevel) : (u.setLevel i x).opbuf = u.opbuf := rfl
@[simp] theorem Unit.setLevel_groupSwitch (u : Unit) (i : Nat) (x : LoopLevel) : (u.setLevel i x).groupSwitch = u.groupSwitch := rfl
@[simp] theorem Unit.setLevel_matAt (u : Unit) (i : Nat) (x : LoopLevel) : (u.setLevel i x).matAt = u.matAt := rfl
@[simp] theorem Unit.setLevel_remap (u : Unit) (i : Nat) (x : LoopLevel) : (u.setLevel i x).remap = u.remap := rfl
@[simp] theorem Unit.setLevel_closing (u : Unit) (i : Nat) (x : LoopLevel) : (u.setLevel i x).closing = u.closing := rfl
@[simp] theorem Unit.setLevel_setup (u : Unit) (i : Nat) (x : LoopLevel) : (u.setLevel i x).setup = u.setup := rfl
@[simp] theorem Unit.setLevel_ops (u : Unit) (i : Nat) (x : LoopLevel) : (u.setLevel i x).ops = u.ops := rfl
@[simp] theorem Unit.setLevel_puts (u : Unit) (i : Nat) (x : LoopLevel) : (u.setLevel i x).puts = u.puts := rfl
@[simp] theorem Unit.setLevel_replay (u : Unit) (i : Nat) (x : LoopLevel) : (u.setLevel i x).replay = u.replay := rfl
@[simp] theorem Unit.setLevel_pos (u : Unit) (i : Nat) (x : LoopLevel) : (u.setLevel i x).pos = u.pos := rfl
@[simp] theorem Unit.setLevel_sq (u : Unit) (i : Nat) (x : LoopLevel) : (u.setLevel i x).sq = u.sq := rfl
@[simp] theorem Unit.setLevel_leases (u : Unit) (i : Nat) (x : LoopLevel) : (u.setLevel i x).leases = u.leases := rfl
@[simp] theorem Unit.setLevel_retained (u : Unit) (i : Nat) (x : LoopLevel) : (u.setLevel i x).retained = u.retained := rfl
@[simp] theorem Unit.setLevel_ladle (u : Unit) (i : Nat) (x : LoopLevel) : (u.setLevel i x).ladle = u.ladle := rfl
@[simp] theorem Unit.setLevel_bkslip (u : Unit) (i : Nat) (x : LoopLevel) : (u.setLevel i x).bkslip = u.bkslip := rfl
@[simp] theorem Unit.setLevel_written (u : Unit) (i : Nat) (x : LoopLevel) : (u.setLevel i x).written = u.written := rfl
@[simp] theorem Unit.setLevel_role (u : Unit) (i : Nat) (x : LoopLevel) : (u.setLevel i x).role = u.role := rfl
@[simp] theorem Unit.setLevel_count (u : Unit) (i : Nat) (x : LoopLevel) : (u.setLevel i x).count = u.count := rfl
@[simp] theorem Unit.setLevel_sealed (u : Unit) (i : Nat) (x : LoopLevel) : (u.setLevel i x).sealed = u.sealed := rfl
@[simp] theorem Unit.setLevel_retry (u : Unit) (i : Nat) (x : LoopLevel) : (u.setLevel i x).retry = u.retry := rfl
@[simp] theorem Unit.setLevel_ckpt (u : Unit) (i : Nat) (x : LoopLevel) : (u.setLevel i x).ckpt = u.ckpt := rfl
@[simp] theorem Unit.setLevel_fills (u : Unit) (i : Nat) (x : LoopLevel) : (u.setLevel i x).fills = u.fills := rfl
@[simp] theorem Unit.setLevel_building (u : Unit) (i : Nat) (x : LoopLevel) : (u.setLevel i x).building = u.building := rfl
@[simp] theorem Unit.setLevel_inh (u : Unit) (i : Nat) (x : LoopLevel) : (u.setLevel i x).inh = u.inh := rfl
@[simp] theorem Unit.setLevel_frame (u : Unit) (i : Nat) (x : LoopLevel) : (u.setLevel i x).frame = u.frame := rfl
@[simp] theorem Unit.setLevel_cause (u : Unit) (i : Nat) (x : LoopLevel) : (u.setLevel i x).cause = u.cause := rfl
@[simp] theorem Unit.setLevel_cause2 (u : Unit) (i : Nat) (x : LoopLevel) : (u.setLevel i x).cause2 = u.cause2 := rfl
@[simp] theorem Unit.setLevel_served (u : Unit) (i : Nat) (x : LoopLevel) : (u.setLevel i x).served = u.served := rfl
@[simp] theorem Unit.setLevel_owed (u : Unit) (i : Nat) (x : LoopLevel) : (u.setLevel i x).owed = u.owed := rfl
@[simp] theorem Unit.setLevel_roll (u : Unit) (i : Nat) (x : LoopLevel) : (u.setLevel i x).roll = u.roll := rfl
@[simp] theorem Unit.setLevel_killed (u : Unit) (i : Nat) (x : LoopLevel) : (u.setLevel i x).killed = u.killed := rfl
@[simp] theorem Unit.setLevel_cancelled (u : Unit) (i : Nat) (x : LoopLevel) : (u.setLevel i x).cancelled = u.cancelled := rfl
@[simp] theorem Unit.setLevel_halting (u : Unit) (i : Nat) (x : LoopLevel) : (u.setLevel i x).halting = u.halting := rfl
@[simp] theorem Unit.setLevel_sig (u : Unit) (i : Nat) (x : LoopLevel) : (u.setLevel i x).sig = u.sig := rfl
@[simp] theorem Unit.setLevel_waits (u : Unit) (i : Nat) (x : LoopLevel) : (u.setLevel i x).waits = u.waits := rfl
@[simp] theorem Unit.setLevel_progress (u : Unit) (i : Nat) (x : LoopLevel) : (u.setLevel i x).progress = u.progress := rfl
@[simp] theorem Unit.setLevel_cseg (u : Unit) (i : Nat) (x : LoopLevel) : (u.setLevel i x).cseg = u.cseg := rfl
@[simp] theorem Unit.setLevel_body (u : Unit) (i : Nat) (x : LoopLevel) : (u.setLevel i x).body = u.body := rfl
@[simp] theorem Unit.setLevel_capts (u : Unit) (i : Nat) (x : LoopLevel) : (u.setLevel i x).capts = u.capts := rfl
@[simp] theorem Unit.setLevel_words (u : Unit) (i : Nat) (x : LoopLevel) : (u.setLevel i x).words = u.words := rfl
@[simp] theorem Unit.setLevel_r_s (u : Unit) (i : Nat) (x : LoopLevel) : (u.setLevel i x).r.s = u.r.s := rfl
@[simp] theorem Unit.setLevel_r_p (u : Unit) (i : Nat) (x : LoopLevel) : (u.setLevel i x).r.p = u.r.p := rfl
@[simp] theorem Unit.setLevel_r_vp (u : Unit) (i : Nat) (x : LoopLevel) : (u.setLevel i x).r.vp = u.r.vp := rfl
@[simp] theorem Unit.setLevel_r_b (u : Unit) (i : Nat) (x : LoopLevel) : (u.setLevel i x).r.b = u.r.b := rfl
@[simp] theorem Unit.setLevel_r_ret (u : Unit) (i : Nat) (x : LoopLevel) : (u.setLevel i x).r.ret = u.r.ret := rfl
@[simp] theorem Unit.setLevel_r_c (u : Unit) (i : Nat) (x : LoopLevel) : (u.setLevel i x).r.c = u.r.c := rfl
@[simp] theorem Unit.setLevel_r_pc (u : Unit) (i : Nat) (x : LoopLevel) : (u.setLevel i x).r.pc = u.r.pc := rfl
@[simp] theorem Unit.setLevel_r_plain (u : Unit) (i : Nat) (x : LoopLevel) : (u.setLevel i x).r.plain = u.r.plain := rfl
@[simp] theorem Unit.setLevel_r_flags (u : Unit) (i : Nat) (x : LoopLevel) : (u.setLevel i x).r.flags = u.r.flags := rfl
@[simp] theorem Unit.setLevel_r_lfsrv (u : Unit) (i : Nat) (x : LoopLevel) : (u.setLevel i x).r.lfsrv = u.r.lfsrv := rfl
@[simp] theorem Unit.setLevel_r_lfsrd (u : Unit) (i : Nat) (x : LoopLevel) : (u.setLevel i x).r.lfsrd = u.r.lfsrd := rfl
@[simp] theorem Unit.setLevel_r_bfsel (u : Unit) (i : Nat) (x : LoopLevel) : (u.setLevel i x).r.bfsel = u.r.bfsel := rfl
@[simp] theorem Unit.setLevel_r_tvec (u : Unit) (i : Nat) (x : LoopLevel) : (u.setLevel i x).r.tvec = u.r.tvec := rfl
@[simp] theorem Unit.setLevel_r_tres (u : Unit) (i : Nat) (x : LoopLevel) : (u.setLevel i x).r.tres = u.r.tres := rfl

/-! ## addFlags -/

@[simp] theorem Unit.addFlags_lid (u : Unit) (x : Flags) : (u.addFlags x).lid = u.lid := rfl
@[simp] theorem Unit.addFlags_slot (u : Unit) (x : Flags) : (u.addFlags x).slot = u.slot := rfl
@[simp] theorem Unit.addFlags_index (u : Unit) (x : Flags) : (u.addFlags x).index = u.index := rfl
@[simp] theorem Unit.addFlags_ctx (u : Unit) (x : Flags) : (u.addFlags x).ctx = u.ctx := rfl
@[simp] theorem Unit.addFlags_copy (u : Unit) (x : Flags) : (u.addFlags x).copy = u.copy := rfl
@[simp] theorem Unit.addFlags_ticket (u : Unit) (x : Flags) : (u.addFlags x).ticket = u.ticket := rfl
@[simp] theorem Unit.addFlags_prio (u : Unit) (x : Flags) : (u.addFlags x).prio = u.prio := rfl
@[simp] theorem Unit.addFlags_since (u : Unit) (x : Flags) : (u.addFlags x).since = u.since := rfl
@[simp] theorem Unit.addFlags_code (u : Unit) (x : Flags) : (u.addFlags x).code = u.code := rfl
@[simp] theorem Unit.addFlags_cpl (u : Unit) (x : Flags) : (u.addFlags x).cpl = u.cpl := rfl
@[simp] theorem Unit.addFlags_bksel (u : Unit) (x : Flags) : (u.addFlags x).bksel = u.bksel := rfl
@[simp] theorem Unit.addFlags_hsel (u : Unit) (x : Flags) : (u.addFlags x).hsel = u.hsel := rfl
@[simp] theorem Unit.addFlags_psplit (u : Unit) (x : Flags) : (u.addFlags x).psplit = u.psplit := rfl
@[simp] theorem Unit.addFlags_tnctx (u : Unit) (x : Flags) : (u.addFlags x).tnctx = u.tnctx := rfl
@[simp] theorem Unit.addFlags_mstat (u : Unit) (x : Flags) : (u.addFlags x).mstat = u.mstat := rfl
@[simp] theorem Unit.addFlags_seqr (u : Unit) (x : Flags) : (u.addFlags x).seqr = u.seqr := rfl
@[simp] theorem Unit.addFlags_latches (u : Unit) (x : Flags) : (u.addFlags x).latches = u.latches := rfl
@[simp] theorem Unit.addFlags_opbuf (u : Unit) (x : Flags) : (u.addFlags x).opbuf = u.opbuf := rfl
@[simp] theorem Unit.addFlags_groupSwitch (u : Unit) (x : Flags) : (u.addFlags x).groupSwitch = u.groupSwitch := rfl
@[simp] theorem Unit.addFlags_matAt (u : Unit) (x : Flags) : (u.addFlags x).matAt = u.matAt := rfl
@[simp] theorem Unit.addFlags_remap (u : Unit) (x : Flags) : (u.addFlags x).remap = u.remap := rfl
@[simp] theorem Unit.addFlags_closing (u : Unit) (x : Flags) : (u.addFlags x).closing = u.closing := rfl
@[simp] theorem Unit.addFlags_setup (u : Unit) (x : Flags) : (u.addFlags x).setup = u.setup := rfl
@[simp] theorem Unit.addFlags_ops (u : Unit) (x : Flags) : (u.addFlags x).ops = u.ops := rfl
@[simp] theorem Unit.addFlags_puts (u : Unit) (x : Flags) : (u.addFlags x).puts = u.puts := rfl
@[simp] theorem Unit.addFlags_replay (u : Unit) (x : Flags) : (u.addFlags x).replay = u.replay := rfl
@[simp] theorem Unit.addFlags_pos (u : Unit) (x : Flags) : (u.addFlags x).pos = u.pos := rfl
@[simp] theorem Unit.addFlags_sq (u : Unit) (x : Flags) : (u.addFlags x).sq = u.sq := rfl
@[simp] theorem Unit.addFlags_leases (u : Unit) (x : Flags) : (u.addFlags x).leases = u.leases := rfl
@[simp] theorem Unit.addFlags_retained (u : Unit) (x : Flags) : (u.addFlags x).retained = u.retained := rfl
@[simp] theorem Unit.addFlags_ladle (u : Unit) (x : Flags) : (u.addFlags x).ladle = u.ladle := rfl
@[simp] theorem Unit.addFlags_bkslip (u : Unit) (x : Flags) : (u.addFlags x).bkslip = u.bkslip := rfl
@[simp] theorem Unit.addFlags_written (u : Unit) (x : Flags) : (u.addFlags x).written = u.written := rfl
@[simp] theorem Unit.addFlags_role (u : Unit) (x : Flags) : (u.addFlags x).role = u.role := rfl
@[simp] theorem Unit.addFlags_count (u : Unit) (x : Flags) : (u.addFlags x).count = u.count := rfl
@[simp] theorem Unit.addFlags_sealed (u : Unit) (x : Flags) : (u.addFlags x).sealed = u.sealed := rfl
@[simp] theorem Unit.addFlags_retry (u : Unit) (x : Flags) : (u.addFlags x).retry = u.retry := rfl
@[simp] theorem Unit.addFlags_ckpt (u : Unit) (x : Flags) : (u.addFlags x).ckpt = u.ckpt := rfl
@[simp] theorem Unit.addFlags_fills (u : Unit) (x : Flags) : (u.addFlags x).fills = u.fills := rfl
@[simp] theorem Unit.addFlags_building (u : Unit) (x : Flags) : (u.addFlags x).building = u.building := rfl
@[simp] theorem Unit.addFlags_inh (u : Unit) (x : Flags) : (u.addFlags x).inh = u.inh := rfl
@[simp] theorem Unit.addFlags_frame (u : Unit) (x : Flags) : (u.addFlags x).frame = u.frame := rfl
@[simp] theorem Unit.addFlags_cause (u : Unit) (x : Flags) : (u.addFlags x).cause = u.cause := rfl
@[simp] theorem Unit.addFlags_cause2 (u : Unit) (x : Flags) : (u.addFlags x).cause2 = u.cause2 := rfl
@[simp] theorem Unit.addFlags_served (u : Unit) (x : Flags) : (u.addFlags x).served = u.served := rfl
@[simp] theorem Unit.addFlags_owed (u : Unit) (x : Flags) : (u.addFlags x).owed = u.owed := rfl
@[simp] theorem Unit.addFlags_roll (u : Unit) (x : Flags) : (u.addFlags x).roll = u.roll := rfl
@[simp] theorem Unit.addFlags_killed (u : Unit) (x : Flags) : (u.addFlags x).killed = u.killed := rfl
@[simp] theorem Unit.addFlags_cancelled (u : Unit) (x : Flags) : (u.addFlags x).cancelled = u.cancelled := rfl
@[simp] theorem Unit.addFlags_halting (u : Unit) (x : Flags) : (u.addFlags x).halting = u.halting := rfl
@[simp] theorem Unit.addFlags_sig (u : Unit) (x : Flags) : (u.addFlags x).sig = u.sig := rfl
@[simp] theorem Unit.addFlags_waits (u : Unit) (x : Flags) : (u.addFlags x).waits = u.waits := rfl
@[simp] theorem Unit.addFlags_progress (u : Unit) (x : Flags) : (u.addFlags x).progress = u.progress := rfl
@[simp] theorem Unit.addFlags_cseg (u : Unit) (x : Flags) : (u.addFlags x).cseg = u.cseg := rfl
@[simp] theorem Unit.addFlags_body (u : Unit) (x : Flags) : (u.addFlags x).body = u.body := rfl
@[simp] theorem Unit.addFlags_capts (u : Unit) (x : Flags) : (u.addFlags x).capts = u.capts := rfl
@[simp] theorem Unit.addFlags_words (u : Unit) (x : Flags) : (u.addFlags x).words = u.words := rfl
@[simp] theorem Unit.addFlags_r_s (u : Unit) (x : Flags) : (u.addFlags x).r.s = u.r.s := rfl
@[simp] theorem Unit.addFlags_r_p (u : Unit) (x : Flags) : (u.addFlags x).r.p = u.r.p := rfl
@[simp] theorem Unit.addFlags_r_vp (u : Unit) (x : Flags) : (u.addFlags x).r.vp = u.r.vp := rfl
@[simp] theorem Unit.addFlags_r_b (u : Unit) (x : Flags) : (u.addFlags x).r.b = u.r.b := rfl
@[simp] theorem Unit.addFlags_r_ret (u : Unit) (x : Flags) : (u.addFlags x).r.ret = u.r.ret := rfl
@[simp] theorem Unit.addFlags_r_loops (u : Unit) (x : Flags) : (u.addFlags x).r.loops = u.r.loops := rfl
@[simp] theorem Unit.addFlags_r_c (u : Unit) (x : Flags) : (u.addFlags x).r.c = u.r.c := rfl
@[simp] theorem Unit.addFlags_r_pc (u : Unit) (x : Flags) : (u.addFlags x).r.pc = u.r.pc := rfl
@[simp] theorem Unit.addFlags_r_plain (u : Unit) (x : Flags) : (u.addFlags x).r.plain = u.r.plain := rfl
@[simp] theorem Unit.addFlags_r_lfsrv (u : Unit) (x : Flags) : (u.addFlags x).r.lfsrv = u.r.lfsrv := rfl
@[simp] theorem Unit.addFlags_r_lfsrd (u : Unit) (x : Flags) : (u.addFlags x).r.lfsrd = u.r.lfsrd := rfl
@[simp] theorem Unit.addFlags_r_bfsel (u : Unit) (x : Flags) : (u.addFlags x).r.bfsel = u.r.bfsel := rfl
@[simp] theorem Unit.addFlags_r_tvec (u : Unit) (x : Flags) : (u.addFlags x).r.tvec = u.r.tvec := rfl
@[simp] theorem Unit.addFlags_r_tres (u : Unit) (x : Flags) : (u.addFlags x).r.tres = u.r.tres := rfl

/-! ## setPc -/

@[simp] theorem Unit.setPc_lid (u : Unit) (x : Nat) : (u.setPc x).lid = u.lid := rfl
@[simp] theorem Unit.setPc_slot (u : Unit) (x : Nat) : (u.setPc x).slot = u.slot := rfl
@[simp] theorem Unit.setPc_index (u : Unit) (x : Nat) : (u.setPc x).index = u.index := rfl
@[simp] theorem Unit.setPc_ctx (u : Unit) (x : Nat) : (u.setPc x).ctx = u.ctx := rfl
@[simp] theorem Unit.setPc_copy (u : Unit) (x : Nat) : (u.setPc x).copy = u.copy := rfl
@[simp] theorem Unit.setPc_ticket (u : Unit) (x : Nat) : (u.setPc x).ticket = u.ticket := rfl
@[simp] theorem Unit.setPc_prio (u : Unit) (x : Nat) : (u.setPc x).prio = u.prio := rfl
@[simp] theorem Unit.setPc_since (u : Unit) (x : Nat) : (u.setPc x).since = u.since := rfl
@[simp] theorem Unit.setPc_code (u : Unit) (x : Nat) : (u.setPc x).code = u.code := rfl
@[simp] theorem Unit.setPc_cpl (u : Unit) (x : Nat) : (u.setPc x).cpl = u.cpl := rfl
@[simp] theorem Unit.setPc_bksel (u : Unit) (x : Nat) : (u.setPc x).bksel = u.bksel := rfl
@[simp] theorem Unit.setPc_hsel (u : Unit) (x : Nat) : (u.setPc x).hsel = u.hsel := rfl
@[simp] theorem Unit.setPc_psplit (u : Unit) (x : Nat) : (u.setPc x).psplit = u.psplit := rfl
@[simp] theorem Unit.setPc_tnctx (u : Unit) (x : Nat) : (u.setPc x).tnctx = u.tnctx := rfl
@[simp] theorem Unit.setPc_mstat (u : Unit) (x : Nat) : (u.setPc x).mstat = u.mstat := rfl
@[simp] theorem Unit.setPc_seqr (u : Unit) (x : Nat) : (u.setPc x).seqr = u.seqr := rfl
@[simp] theorem Unit.setPc_latches (u : Unit) (x : Nat) : (u.setPc x).latches = u.latches := rfl
@[simp] theorem Unit.setPc_opbuf (u : Unit) (x : Nat) : (u.setPc x).opbuf = u.opbuf := rfl
@[simp] theorem Unit.setPc_groupSwitch (u : Unit) (x : Nat) : (u.setPc x).groupSwitch = u.groupSwitch := rfl
@[simp] theorem Unit.setPc_matAt (u : Unit) (x : Nat) : (u.setPc x).matAt = u.matAt := rfl
@[simp] theorem Unit.setPc_remap (u : Unit) (x : Nat) : (u.setPc x).remap = u.remap := rfl
@[simp] theorem Unit.setPc_closing (u : Unit) (x : Nat) : (u.setPc x).closing = u.closing := rfl
@[simp] theorem Unit.setPc_setup (u : Unit) (x : Nat) : (u.setPc x).setup = u.setup := rfl
@[simp] theorem Unit.setPc_ops (u : Unit) (x : Nat) : (u.setPc x).ops = u.ops := rfl
@[simp] theorem Unit.setPc_puts (u : Unit) (x : Nat) : (u.setPc x).puts = u.puts := rfl
@[simp] theorem Unit.setPc_replay (u : Unit) (x : Nat) : (u.setPc x).replay = u.replay := rfl
@[simp] theorem Unit.setPc_pos (u : Unit) (x : Nat) : (u.setPc x).pos = u.pos := rfl
@[simp] theorem Unit.setPc_sq (u : Unit) (x : Nat) : (u.setPc x).sq = u.sq := rfl
@[simp] theorem Unit.setPc_leases (u : Unit) (x : Nat) : (u.setPc x).leases = u.leases := rfl
@[simp] theorem Unit.setPc_retained (u : Unit) (x : Nat) : (u.setPc x).retained = u.retained := rfl
@[simp] theorem Unit.setPc_ladle (u : Unit) (x : Nat) : (u.setPc x).ladle = u.ladle := rfl
@[simp] theorem Unit.setPc_bkslip (u : Unit) (x : Nat) : (u.setPc x).bkslip = u.bkslip := rfl
@[simp] theorem Unit.setPc_written (u : Unit) (x : Nat) : (u.setPc x).written = u.written := rfl
@[simp] theorem Unit.setPc_role (u : Unit) (x : Nat) : (u.setPc x).role = u.role := rfl
@[simp] theorem Unit.setPc_count (u : Unit) (x : Nat) : (u.setPc x).count = u.count := rfl
@[simp] theorem Unit.setPc_sealed (u : Unit) (x : Nat) : (u.setPc x).sealed = u.sealed := rfl
@[simp] theorem Unit.setPc_retry (u : Unit) (x : Nat) : (u.setPc x).retry = u.retry := rfl
@[simp] theorem Unit.setPc_ckpt (u : Unit) (x : Nat) : (u.setPc x).ckpt = u.ckpt := rfl
@[simp] theorem Unit.setPc_fills (u : Unit) (x : Nat) : (u.setPc x).fills = u.fills := rfl
@[simp] theorem Unit.setPc_building (u : Unit) (x : Nat) : (u.setPc x).building = u.building := rfl
@[simp] theorem Unit.setPc_inh (u : Unit) (x : Nat) : (u.setPc x).inh = u.inh := rfl
@[simp] theorem Unit.setPc_frame (u : Unit) (x : Nat) : (u.setPc x).frame = u.frame := rfl
@[simp] theorem Unit.setPc_cause (u : Unit) (x : Nat) : (u.setPc x).cause = u.cause := rfl
@[simp] theorem Unit.setPc_cause2 (u : Unit) (x : Nat) : (u.setPc x).cause2 = u.cause2 := rfl
@[simp] theorem Unit.setPc_served (u : Unit) (x : Nat) : (u.setPc x).served = u.served := rfl
@[simp] theorem Unit.setPc_owed (u : Unit) (x : Nat) : (u.setPc x).owed = u.owed := rfl
@[simp] theorem Unit.setPc_roll (u : Unit) (x : Nat) : (u.setPc x).roll = u.roll := rfl
@[simp] theorem Unit.setPc_killed (u : Unit) (x : Nat) : (u.setPc x).killed = u.killed := rfl
@[simp] theorem Unit.setPc_cancelled (u : Unit) (x : Nat) : (u.setPc x).cancelled = u.cancelled := rfl
@[simp] theorem Unit.setPc_halting (u : Unit) (x : Nat) : (u.setPc x).halting = u.halting := rfl
@[simp] theorem Unit.setPc_sig (u : Unit) (x : Nat) : (u.setPc x).sig = u.sig := rfl
@[simp] theorem Unit.setPc_waits (u : Unit) (x : Nat) : (u.setPc x).waits = u.waits := rfl
@[simp] theorem Unit.setPc_progress (u : Unit) (x : Nat) : (u.setPc x).progress = u.progress := rfl
@[simp] theorem Unit.setPc_cseg (u : Unit) (x : Nat) : (u.setPc x).cseg = u.cseg := rfl
@[simp] theorem Unit.setPc_body (u : Unit) (x : Nat) : (u.setPc x).body = u.body := rfl
@[simp] theorem Unit.setPc_capts (u : Unit) (x : Nat) : (u.setPc x).capts = u.capts := rfl
@[simp] theorem Unit.setPc_words (u : Unit) (x : Nat) : (u.setPc x).words = u.words := rfl
@[simp] theorem Unit.setPc_r_s (u : Unit) (x : Nat) : (u.setPc x).r.s = u.r.s := rfl
@[simp] theorem Unit.setPc_r_p (u : Unit) (x : Nat) : (u.setPc x).r.p = u.r.p := rfl
@[simp] theorem Unit.setPc_r_vp (u : Unit) (x : Nat) : (u.setPc x).r.vp = u.r.vp := rfl
@[simp] theorem Unit.setPc_r_b (u : Unit) (x : Nat) : (u.setPc x).r.b = u.r.b := rfl
@[simp] theorem Unit.setPc_r_ret (u : Unit) (x : Nat) : (u.setPc x).r.ret = u.r.ret := rfl
@[simp] theorem Unit.setPc_r_loops (u : Unit) (x : Nat) : (u.setPc x).r.loops = u.r.loops := rfl
@[simp] theorem Unit.setPc_r_c (u : Unit) (x : Nat) : (u.setPc x).r.c = u.r.c := rfl
@[simp] theorem Unit.setPc_r_plain (u : Unit) (x : Nat) : (u.setPc x).r.plain = u.r.plain := rfl
@[simp] theorem Unit.setPc_r_flags (u : Unit) (x : Nat) : (u.setPc x).r.flags = u.r.flags := rfl
@[simp] theorem Unit.setPc_r_lfsrv (u : Unit) (x : Nat) : (u.setPc x).r.lfsrv = u.r.lfsrv := rfl
@[simp] theorem Unit.setPc_r_lfsrd (u : Unit) (x : Nat) : (u.setPc x).r.lfsrd = u.r.lfsrd := rfl
@[simp] theorem Unit.setPc_r_bfsel (u : Unit) (x : Nat) : (u.setPc x).r.bfsel = u.r.bfsel := rfl
@[simp] theorem Unit.setPc_r_tvec (u : Unit) (x : Nat) : (u.setPc x).r.tvec = u.r.tvec := rfl
@[simp] theorem Unit.setPc_r_tres (u : Unit) (x : Nat) : (u.setPc x).r.tres = u.r.tres := rfl

/-! ## setTok -/

@[simp] theorem Unit.setTok_lid (u : Unit) (i : Nat) (x : Tok) : (u.setTok i x).lid = u.lid := rfl
@[simp] theorem Unit.setTok_slot (u : Unit) (i : Nat) (x : Tok) : (u.setTok i x).slot = u.slot := rfl
@[simp] theorem Unit.setTok_index (u : Unit) (i : Nat) (x : Tok) : (u.setTok i x).index = u.index := rfl
@[simp] theorem Unit.setTok_ctx (u : Unit) (i : Nat) (x : Tok) : (u.setTok i x).ctx = u.ctx := rfl
@[simp] theorem Unit.setTok_copy (u : Unit) (i : Nat) (x : Tok) : (u.setTok i x).copy = u.copy := rfl
@[simp] theorem Unit.setTok_ticket (u : Unit) (i : Nat) (x : Tok) : (u.setTok i x).ticket = u.ticket := rfl
@[simp] theorem Unit.setTok_prio (u : Unit) (i : Nat) (x : Tok) : (u.setTok i x).prio = u.prio := rfl
@[simp] theorem Unit.setTok_since (u : Unit) (i : Nat) (x : Tok) : (u.setTok i x).since = u.since := rfl
@[simp] theorem Unit.setTok_code (u : Unit) (i : Nat) (x : Tok) : (u.setTok i x).code = u.code := rfl
@[simp] theorem Unit.setTok_r (u : Unit) (i : Nat) (x : Tok) : (u.setTok i x).r = u.r := rfl
@[simp] theorem Unit.setTok_bksel (u : Unit) (i : Nat) (x : Tok) : (u.setTok i x).bksel = u.bksel := rfl
@[simp] theorem Unit.setTok_hsel (u : Unit) (i : Nat) (x : Tok) : (u.setTok i x).hsel = u.hsel := rfl
@[simp] theorem Unit.setTok_psplit (u : Unit) (i : Nat) (x : Tok) : (u.setTok i x).psplit = u.psplit := rfl
@[simp] theorem Unit.setTok_tnctx (u : Unit) (i : Nat) (x : Tok) : (u.setTok i x).tnctx = u.tnctx := rfl
@[simp] theorem Unit.setTok_mstat (u : Unit) (i : Nat) (x : Tok) : (u.setTok i x).mstat = u.mstat := rfl
@[simp] theorem Unit.setTok_seqr (u : Unit) (i : Nat) (x : Tok) : (u.setTok i x).seqr = u.seqr := rfl
@[simp] theorem Unit.setTok_latches (u : Unit) (i : Nat) (x : Tok) : (u.setTok i x).latches = u.latches := rfl
@[simp] theorem Unit.setTok_opbuf (u : Unit) (i : Nat) (x : Tok) : (u.setTok i x).opbuf = u.opbuf := rfl
@[simp] theorem Unit.setTok_groupSwitch (u : Unit) (i : Nat) (x : Tok) : (u.setTok i x).groupSwitch = u.groupSwitch := rfl
@[simp] theorem Unit.setTok_matAt (u : Unit) (i : Nat) (x : Tok) : (u.setTok i x).matAt = u.matAt := rfl
@[simp] theorem Unit.setTok_remap (u : Unit) (i : Nat) (x : Tok) : (u.setTok i x).remap = u.remap := rfl
@[simp] theorem Unit.setTok_closing (u : Unit) (i : Nat) (x : Tok) : (u.setTok i x).closing = u.closing := rfl
@[simp] theorem Unit.setTok_setup (u : Unit) (i : Nat) (x : Tok) : (u.setTok i x).setup = u.setup := rfl
@[simp] theorem Unit.setTok_ops (u : Unit) (i : Nat) (x : Tok) : (u.setTok i x).ops = u.ops := rfl
@[simp] theorem Unit.setTok_puts (u : Unit) (i : Nat) (x : Tok) : (u.setTok i x).puts = u.puts := rfl
@[simp] theorem Unit.setTok_replay (u : Unit) (i : Nat) (x : Tok) : (u.setTok i x).replay = u.replay := rfl
@[simp] theorem Unit.setTok_pos (u : Unit) (i : Nat) (x : Tok) : (u.setTok i x).pos = u.pos := rfl
@[simp] theorem Unit.setTok_sq (u : Unit) (i : Nat) (x : Tok) : (u.setTok i x).sq = u.sq := rfl
@[simp] theorem Unit.setTok_leases (u : Unit) (i : Nat) (x : Tok) : (u.setTok i x).leases = u.leases := rfl
@[simp] theorem Unit.setTok_retained (u : Unit) (i : Nat) (x : Tok) : (u.setTok i x).retained = u.retained := rfl
@[simp] theorem Unit.setTok_ladle (u : Unit) (i : Nat) (x : Tok) : (u.setTok i x).ladle = u.ladle := rfl
@[simp] theorem Unit.setTok_bkslip (u : Unit) (i : Nat) (x : Tok) : (u.setTok i x).bkslip = u.bkslip := rfl
@[simp] theorem Unit.setTok_written (u : Unit) (i : Nat) (x : Tok) : (u.setTok i x).written = u.written := rfl
@[simp] theorem Unit.setTok_role (u : Unit) (i : Nat) (x : Tok) : (u.setTok i x).role = u.role := rfl
@[simp] theorem Unit.setTok_count (u : Unit) (i : Nat) (x : Tok) : (u.setTok i x).count = u.count := rfl
@[simp] theorem Unit.setTok_sealed (u : Unit) (i : Nat) (x : Tok) : (u.setTok i x).sealed = u.sealed := rfl
@[simp] theorem Unit.setTok_retry (u : Unit) (i : Nat) (x : Tok) : (u.setTok i x).retry = u.retry := rfl
@[simp] theorem Unit.setTok_ckpt (u : Unit) (i : Nat) (x : Tok) : (u.setTok i x).ckpt = u.ckpt := rfl
@[simp] theorem Unit.setTok_fills (u : Unit) (i : Nat) (x : Tok) : (u.setTok i x).fills = u.fills := rfl
@[simp] theorem Unit.setTok_building (u : Unit) (i : Nat) (x : Tok) : (u.setTok i x).building = u.building := rfl
@[simp] theorem Unit.setTok_inh (u : Unit) (i : Nat) (x : Tok) : (u.setTok i x).inh = u.inh := rfl
@[simp] theorem Unit.setTok_frame (u : Unit) (i : Nat) (x : Tok) : (u.setTok i x).frame = u.frame := rfl
@[simp] theorem Unit.setTok_cause (u : Unit) (i : Nat) (x : Tok) : (u.setTok i x).cause = u.cause := rfl
@[simp] theorem Unit.setTok_cause2 (u : Unit) (i : Nat) (x : Tok) : (u.setTok i x).cause2 = u.cause2 := rfl
@[simp] theorem Unit.setTok_served (u : Unit) (i : Nat) (x : Tok) : (u.setTok i x).served = u.served := rfl
@[simp] theorem Unit.setTok_owed (u : Unit) (i : Nat) (x : Tok) : (u.setTok i x).owed = u.owed := rfl
@[simp] theorem Unit.setTok_roll (u : Unit) (i : Nat) (x : Tok) : (u.setTok i x).roll = u.roll := rfl
@[simp] theorem Unit.setTok_killed (u : Unit) (i : Nat) (x : Tok) : (u.setTok i x).killed = u.killed := rfl
@[simp] theorem Unit.setTok_cancelled (u : Unit) (i : Nat) (x : Tok) : (u.setTok i x).cancelled = u.cancelled := rfl
@[simp] theorem Unit.setTok_halting (u : Unit) (i : Nat) (x : Tok) : (u.setTok i x).halting = u.halting := rfl
@[simp] theorem Unit.setTok_sig (u : Unit) (i : Nat) (x : Tok) : (u.setTok i x).sig = u.sig := rfl
@[simp] theorem Unit.setTok_waits (u : Unit) (i : Nat) (x : Tok) : (u.setTok i x).waits = u.waits := rfl
@[simp] theorem Unit.setTok_progress (u : Unit) (i : Nat) (x : Tok) : (u.setTok i x).progress = u.progress := rfl
@[simp] theorem Unit.setTok_cseg (u : Unit) (i : Nat) (x : Tok) : (u.setTok i x).cseg = u.cseg := rfl
@[simp] theorem Unit.setTok_body (u : Unit) (i : Nat) (x : Tok) : (u.setTok i x).body = u.body := rfl
@[simp] theorem Unit.setTok_capts (u : Unit) (i : Nat) (x : Tok) : (u.setTok i x).capts = u.capts := rfl
@[simp] theorem Unit.setTok_words (u : Unit) (i : Nat) (x : Tok) : (u.setTok i x).words = u.words := rfl
@[simp] theorem Unit.setTok_cpl_issued (u : Unit) (i : Nat) (x : Tok) : (u.setTok i x).cpl.issued = u.cpl.issued := rfl
@[simp] theorem Unit.setTok_cpl_tile (u : Unit) (i : Nat) (x : Tok) : (u.setTok i x).cpl.tile = u.cpl.tile := rfl
@[simp] theorem Unit.setTok_cpl_cfg (u : Unit) (i : Nat) (x : Tok) : (u.setTok i x).cpl.cfg = u.cpl.cfg := rfl
@[simp] theorem Unit.setTok_cpl_mcfg (u : Unit) (i : Nat) (x : Tok) : (u.setTok i x).cpl.mcfg = u.cpl.mcfg := rfl
@[simp] theorem Unit.setTok_cpl_mactive (u : Unit) (i : Nat) (x : Tok) : (u.setTok i x).cpl.mactive = u.cpl.mactive := rfl
@[simp] theorem Unit.setTok_cpl_dims (u : Unit) (i : Nat) (x : Tok) : (u.setTok i x).cpl.dims = u.cpl.dims := rfl

/-! ## setTile -/

@[simp] theorem Unit.setTile_lid (u : Unit) (i : Nat) (x : Tile) : (u.setTile i x).lid = u.lid := rfl
@[simp] theorem Unit.setTile_slot (u : Unit) (i : Nat) (x : Tile) : (u.setTile i x).slot = u.slot := rfl
@[simp] theorem Unit.setTile_index (u : Unit) (i : Nat) (x : Tile) : (u.setTile i x).index = u.index := rfl
@[simp] theorem Unit.setTile_ctx (u : Unit) (i : Nat) (x : Tile) : (u.setTile i x).ctx = u.ctx := rfl
@[simp] theorem Unit.setTile_copy (u : Unit) (i : Nat) (x : Tile) : (u.setTile i x).copy = u.copy := rfl
@[simp] theorem Unit.setTile_ticket (u : Unit) (i : Nat) (x : Tile) : (u.setTile i x).ticket = u.ticket := rfl
@[simp] theorem Unit.setTile_prio (u : Unit) (i : Nat) (x : Tile) : (u.setTile i x).prio = u.prio := rfl
@[simp] theorem Unit.setTile_since (u : Unit) (i : Nat) (x : Tile) : (u.setTile i x).since = u.since := rfl
@[simp] theorem Unit.setTile_code (u : Unit) (i : Nat) (x : Tile) : (u.setTile i x).code = u.code := rfl
@[simp] theorem Unit.setTile_r (u : Unit) (i : Nat) (x : Tile) : (u.setTile i x).r = u.r := rfl
@[simp] theorem Unit.setTile_bksel (u : Unit) (i : Nat) (x : Tile) : (u.setTile i x).bksel = u.bksel := rfl
@[simp] theorem Unit.setTile_hsel (u : Unit) (i : Nat) (x : Tile) : (u.setTile i x).hsel = u.hsel := rfl
@[simp] theorem Unit.setTile_psplit (u : Unit) (i : Nat) (x : Tile) : (u.setTile i x).psplit = u.psplit := rfl
@[simp] theorem Unit.setTile_tnctx (u : Unit) (i : Nat) (x : Tile) : (u.setTile i x).tnctx = u.tnctx := rfl
@[simp] theorem Unit.setTile_mstat (u : Unit) (i : Nat) (x : Tile) : (u.setTile i x).mstat = u.mstat := rfl
@[simp] theorem Unit.setTile_seqr (u : Unit) (i : Nat) (x : Tile) : (u.setTile i x).seqr = u.seqr := rfl
@[simp] theorem Unit.setTile_latches (u : Unit) (i : Nat) (x : Tile) : (u.setTile i x).latches = u.latches := rfl
@[simp] theorem Unit.setTile_opbuf (u : Unit) (i : Nat) (x : Tile) : (u.setTile i x).opbuf = u.opbuf := rfl
@[simp] theorem Unit.setTile_groupSwitch (u : Unit) (i : Nat) (x : Tile) : (u.setTile i x).groupSwitch = u.groupSwitch := rfl
@[simp] theorem Unit.setTile_matAt (u : Unit) (i : Nat) (x : Tile) : (u.setTile i x).matAt = u.matAt := rfl
@[simp] theorem Unit.setTile_remap (u : Unit) (i : Nat) (x : Tile) : (u.setTile i x).remap = u.remap := rfl
@[simp] theorem Unit.setTile_closing (u : Unit) (i : Nat) (x : Tile) : (u.setTile i x).closing = u.closing := rfl
@[simp] theorem Unit.setTile_setup (u : Unit) (i : Nat) (x : Tile) : (u.setTile i x).setup = u.setup := rfl
@[simp] theorem Unit.setTile_ops (u : Unit) (i : Nat) (x : Tile) : (u.setTile i x).ops = u.ops := rfl
@[simp] theorem Unit.setTile_puts (u : Unit) (i : Nat) (x : Tile) : (u.setTile i x).puts = u.puts := rfl
@[simp] theorem Unit.setTile_replay (u : Unit) (i : Nat) (x : Tile) : (u.setTile i x).replay = u.replay := rfl
@[simp] theorem Unit.setTile_pos (u : Unit) (i : Nat) (x : Tile) : (u.setTile i x).pos = u.pos := rfl
@[simp] theorem Unit.setTile_sq (u : Unit) (i : Nat) (x : Tile) : (u.setTile i x).sq = u.sq := rfl
@[simp] theorem Unit.setTile_leases (u : Unit) (i : Nat) (x : Tile) : (u.setTile i x).leases = u.leases := rfl
@[simp] theorem Unit.setTile_retained (u : Unit) (i : Nat) (x : Tile) : (u.setTile i x).retained = u.retained := rfl
@[simp] theorem Unit.setTile_ladle (u : Unit) (i : Nat) (x : Tile) : (u.setTile i x).ladle = u.ladle := rfl
@[simp] theorem Unit.setTile_bkslip (u : Unit) (i : Nat) (x : Tile) : (u.setTile i x).bkslip = u.bkslip := rfl
@[simp] theorem Unit.setTile_written (u : Unit) (i : Nat) (x : Tile) : (u.setTile i x).written = u.written := rfl
@[simp] theorem Unit.setTile_role (u : Unit) (i : Nat) (x : Tile) : (u.setTile i x).role = u.role := rfl
@[simp] theorem Unit.setTile_count (u : Unit) (i : Nat) (x : Tile) : (u.setTile i x).count = u.count := rfl
@[simp] theorem Unit.setTile_sealed (u : Unit) (i : Nat) (x : Tile) : (u.setTile i x).sealed = u.sealed := rfl
@[simp] theorem Unit.setTile_retry (u : Unit) (i : Nat) (x : Tile) : (u.setTile i x).retry = u.retry := rfl
@[simp] theorem Unit.setTile_ckpt (u : Unit) (i : Nat) (x : Tile) : (u.setTile i x).ckpt = u.ckpt := rfl
@[simp] theorem Unit.setTile_fills (u : Unit) (i : Nat) (x : Tile) : (u.setTile i x).fills = u.fills := rfl
@[simp] theorem Unit.setTile_building (u : Unit) (i : Nat) (x : Tile) : (u.setTile i x).building = u.building := rfl
@[simp] theorem Unit.setTile_inh (u : Unit) (i : Nat) (x : Tile) : (u.setTile i x).inh = u.inh := rfl
@[simp] theorem Unit.setTile_frame (u : Unit) (i : Nat) (x : Tile) : (u.setTile i x).frame = u.frame := rfl
@[simp] theorem Unit.setTile_cause (u : Unit) (i : Nat) (x : Tile) : (u.setTile i x).cause = u.cause := rfl
@[simp] theorem Unit.setTile_cause2 (u : Unit) (i : Nat) (x : Tile) : (u.setTile i x).cause2 = u.cause2 := rfl
@[simp] theorem Unit.setTile_served (u : Unit) (i : Nat) (x : Tile) : (u.setTile i x).served = u.served := rfl
@[simp] theorem Unit.setTile_owed (u : Unit) (i : Nat) (x : Tile) : (u.setTile i x).owed = u.owed := rfl
@[simp] theorem Unit.setTile_roll (u : Unit) (i : Nat) (x : Tile) : (u.setTile i x).roll = u.roll := rfl
@[simp] theorem Unit.setTile_killed (u : Unit) (i : Nat) (x : Tile) : (u.setTile i x).killed = u.killed := rfl
@[simp] theorem Unit.setTile_cancelled (u : Unit) (i : Nat) (x : Tile) : (u.setTile i x).cancelled = u.cancelled := rfl
@[simp] theorem Unit.setTile_halting (u : Unit) (i : Nat) (x : Tile) : (u.setTile i x).halting = u.halting := rfl
@[simp] theorem Unit.setTile_sig (u : Unit) (i : Nat) (x : Tile) : (u.setTile i x).sig = u.sig := rfl
@[simp] theorem Unit.setTile_waits (u : Unit) (i : Nat) (x : Tile) : (u.setTile i x).waits = u.waits := rfl
@[simp] theorem Unit.setTile_progress (u : Unit) (i : Nat) (x : Tile) : (u.setTile i x).progress = u.progress := rfl
@[simp] theorem Unit.setTile_cseg (u : Unit) (i : Nat) (x : Tile) : (u.setTile i x).cseg = u.cseg := rfl
@[simp] theorem Unit.setTile_body (u : Unit) (i : Nat) (x : Tile) : (u.setTile i x).body = u.body := rfl
@[simp] theorem Unit.setTile_capts (u : Unit) (i : Nat) (x : Tile) : (u.setTile i x).capts = u.capts := rfl
@[simp] theorem Unit.setTile_words (u : Unit) (i : Nat) (x : Tile) : (u.setTile i x).words = u.words := rfl
@[simp] theorem Unit.setTile_cpl_issued (u : Unit) (i : Nat) (x : Tile) : (u.setTile i x).cpl.issued = u.cpl.issued := rfl
@[simp] theorem Unit.setTile_cpl_tok (u : Unit) (i : Nat) (x : Tile) : (u.setTile i x).cpl.tok = u.cpl.tok := rfl
@[simp] theorem Unit.setTile_cpl_cfg (u : Unit) (i : Nat) (x : Tile) : (u.setTile i x).cpl.cfg = u.cpl.cfg := rfl
@[simp] theorem Unit.setTile_cpl_mcfg (u : Unit) (i : Nat) (x : Tile) : (u.setTile i x).cpl.mcfg = u.cpl.mcfg := rfl
@[simp] theorem Unit.setTile_cpl_mactive (u : Unit) (i : Nat) (x : Tile) : (u.setTile i x).cpl.mactive = u.cpl.mactive := rfl
@[simp] theorem Unit.setTile_cpl_dims (u : Unit) (i : Nat) (x : Tile) : (u.setTile i x).cpl.dims = u.cpl.dims := rfl

/-! ## setWait -/

@[simp] theorem Unit.setWait_lid (u : Unit) (str : Stream) (x : Option WaitKind) : (u.setWait str x).lid = u.lid := rfl
@[simp] theorem Unit.setWait_slot (u : Unit) (str : Stream) (x : Option WaitKind) : (u.setWait str x).slot = u.slot := rfl
@[simp] theorem Unit.setWait_index (u : Unit) (str : Stream) (x : Option WaitKind) : (u.setWait str x).index = u.index := rfl
@[simp] theorem Unit.setWait_ctx (u : Unit) (str : Stream) (x : Option WaitKind) : (u.setWait str x).ctx = u.ctx := rfl
@[simp] theorem Unit.setWait_copy (u : Unit) (str : Stream) (x : Option WaitKind) : (u.setWait str x).copy = u.copy := rfl
@[simp] theorem Unit.setWait_ticket (u : Unit) (str : Stream) (x : Option WaitKind) : (u.setWait str x).ticket = u.ticket := rfl
@[simp] theorem Unit.setWait_prio (u : Unit) (str : Stream) (x : Option WaitKind) : (u.setWait str x).prio = u.prio := rfl
@[simp] theorem Unit.setWait_since (u : Unit) (str : Stream) (x : Option WaitKind) : (u.setWait str x).since = u.since := rfl
@[simp] theorem Unit.setWait_code (u : Unit) (str : Stream) (x : Option WaitKind) : (u.setWait str x).code = u.code := rfl
@[simp] theorem Unit.setWait_r (u : Unit) (str : Stream) (x : Option WaitKind) : (u.setWait str x).r = u.r := rfl
@[simp] theorem Unit.setWait_cpl (u : Unit) (str : Stream) (x : Option WaitKind) : (u.setWait str x).cpl = u.cpl := rfl
@[simp] theorem Unit.setWait_bksel (u : Unit) (str : Stream) (x : Option WaitKind) : (u.setWait str x).bksel = u.bksel := rfl
@[simp] theorem Unit.setWait_hsel (u : Unit) (str : Stream) (x : Option WaitKind) : (u.setWait str x).hsel = u.hsel := rfl
@[simp] theorem Unit.setWait_psplit (u : Unit) (str : Stream) (x : Option WaitKind) : (u.setWait str x).psplit = u.psplit := rfl
@[simp] theorem Unit.setWait_tnctx (u : Unit) (str : Stream) (x : Option WaitKind) : (u.setWait str x).tnctx = u.tnctx := rfl
@[simp] theorem Unit.setWait_mstat (u : Unit) (str : Stream) (x : Option WaitKind) : (u.setWait str x).mstat = u.mstat := rfl
@[simp] theorem Unit.setWait_seqr (u : Unit) (str : Stream) (x : Option WaitKind) : (u.setWait str x).seqr = u.seqr := rfl
@[simp] theorem Unit.setWait_latches (u : Unit) (str : Stream) (x : Option WaitKind) : (u.setWait str x).latches = u.latches := rfl
@[simp] theorem Unit.setWait_opbuf (u : Unit) (str : Stream) (x : Option WaitKind) : (u.setWait str x).opbuf = u.opbuf := rfl
@[simp] theorem Unit.setWait_groupSwitch (u : Unit) (str : Stream) (x : Option WaitKind) : (u.setWait str x).groupSwitch = u.groupSwitch := rfl
@[simp] theorem Unit.setWait_matAt (u : Unit) (str : Stream) (x : Option WaitKind) : (u.setWait str x).matAt = u.matAt := rfl
@[simp] theorem Unit.setWait_remap (u : Unit) (str : Stream) (x : Option WaitKind) : (u.setWait str x).remap = u.remap := rfl
@[simp] theorem Unit.setWait_closing (u : Unit) (str : Stream) (x : Option WaitKind) : (u.setWait str x).closing = u.closing := rfl
@[simp] theorem Unit.setWait_setup (u : Unit) (str : Stream) (x : Option WaitKind) : (u.setWait str x).setup = u.setup := rfl
@[simp] theorem Unit.setWait_ops (u : Unit) (str : Stream) (x : Option WaitKind) : (u.setWait str x).ops = u.ops := rfl
@[simp] theorem Unit.setWait_puts (u : Unit) (str : Stream) (x : Option WaitKind) : (u.setWait str x).puts = u.puts := rfl
@[simp] theorem Unit.setWait_replay (u : Unit) (str : Stream) (x : Option WaitKind) : (u.setWait str x).replay = u.replay := rfl
@[simp] theorem Unit.setWait_pos (u : Unit) (str : Stream) (x : Option WaitKind) : (u.setWait str x).pos = u.pos := rfl
@[simp] theorem Unit.setWait_sq (u : Unit) (str : Stream) (x : Option WaitKind) : (u.setWait str x).sq = u.sq := rfl
@[simp] theorem Unit.setWait_leases (u : Unit) (str : Stream) (x : Option WaitKind) : (u.setWait str x).leases = u.leases := rfl
@[simp] theorem Unit.setWait_retained (u : Unit) (str : Stream) (x : Option WaitKind) : (u.setWait str x).retained = u.retained := rfl
@[simp] theorem Unit.setWait_ladle (u : Unit) (str : Stream) (x : Option WaitKind) : (u.setWait str x).ladle = u.ladle := rfl
@[simp] theorem Unit.setWait_bkslip (u : Unit) (str : Stream) (x : Option WaitKind) : (u.setWait str x).bkslip = u.bkslip := rfl
@[simp] theorem Unit.setWait_written (u : Unit) (str : Stream) (x : Option WaitKind) : (u.setWait str x).written = u.written := rfl
@[simp] theorem Unit.setWait_role (u : Unit) (str : Stream) (x : Option WaitKind) : (u.setWait str x).role = u.role := rfl
@[simp] theorem Unit.setWait_count (u : Unit) (str : Stream) (x : Option WaitKind) : (u.setWait str x).count = u.count := rfl
@[simp] theorem Unit.setWait_sealed (u : Unit) (str : Stream) (x : Option WaitKind) : (u.setWait str x).sealed = u.sealed := rfl
@[simp] theorem Unit.setWait_retry (u : Unit) (str : Stream) (x : Option WaitKind) : (u.setWait str x).retry = u.retry := rfl
@[simp] theorem Unit.setWait_ckpt (u : Unit) (str : Stream) (x : Option WaitKind) : (u.setWait str x).ckpt = u.ckpt := rfl
@[simp] theorem Unit.setWait_fills (u : Unit) (str : Stream) (x : Option WaitKind) : (u.setWait str x).fills = u.fills := rfl
@[simp] theorem Unit.setWait_building (u : Unit) (str : Stream) (x : Option WaitKind) : (u.setWait str x).building = u.building := rfl
@[simp] theorem Unit.setWait_inh (u : Unit) (str : Stream) (x : Option WaitKind) : (u.setWait str x).inh = u.inh := rfl
@[simp] theorem Unit.setWait_frame (u : Unit) (str : Stream) (x : Option WaitKind) : (u.setWait str x).frame = u.frame := rfl
@[simp] theorem Unit.setWait_cause (u : Unit) (str : Stream) (x : Option WaitKind) : (u.setWait str x).cause = u.cause := rfl
@[simp] theorem Unit.setWait_cause2 (u : Unit) (str : Stream) (x : Option WaitKind) : (u.setWait str x).cause2 = u.cause2 := rfl
@[simp] theorem Unit.setWait_served (u : Unit) (str : Stream) (x : Option WaitKind) : (u.setWait str x).served = u.served := rfl
@[simp] theorem Unit.setWait_owed (u : Unit) (str : Stream) (x : Option WaitKind) : (u.setWait str x).owed = u.owed := rfl
@[simp] theorem Unit.setWait_roll (u : Unit) (str : Stream) (x : Option WaitKind) : (u.setWait str x).roll = u.roll := rfl
@[simp] theorem Unit.setWait_killed (u : Unit) (str : Stream) (x : Option WaitKind) : (u.setWait str x).killed = u.killed := rfl
@[simp] theorem Unit.setWait_cancelled (u : Unit) (str : Stream) (x : Option WaitKind) : (u.setWait str x).cancelled = u.cancelled := rfl
@[simp] theorem Unit.setWait_halting (u : Unit) (str : Stream) (x : Option WaitKind) : (u.setWait str x).halting = u.halting := rfl
@[simp] theorem Unit.setWait_sig (u : Unit) (str : Stream) (x : Option WaitKind) : (u.setWait str x).sig = u.sig := rfl
@[simp] theorem Unit.setWait_progress (u : Unit) (str : Stream) (x : Option WaitKind) : (u.setWait str x).progress = u.progress := rfl
@[simp] theorem Unit.setWait_cseg (u : Unit) (str : Stream) (x : Option WaitKind) : (u.setWait str x).cseg = u.cseg := rfl
@[simp] theorem Unit.setWait_body (u : Unit) (str : Stream) (x : Option WaitKind) : (u.setWait str x).body = u.body := rfl
@[simp] theorem Unit.setWait_capts (u : Unit) (str : Stream) (x : Option WaitKind) : (u.setWait str x).capts = u.capts := rfl
@[simp] theorem Unit.setWait_words (u : Unit) (str : Stream) (x : Option WaitKind) : (u.setWait str x).words = u.words := rfl

/-! ## issuedAt -/

@[simp] theorem Unit.issuedAt_lid (u : Unit) (str : Stream) (x : Nat) : (u.issuedAt str x).lid = u.lid := rfl
@[simp] theorem Unit.issuedAt_slot (u : Unit) (str : Stream) (x : Nat) : (u.issuedAt str x).slot = u.slot := rfl
@[simp] theorem Unit.issuedAt_index (u : Unit) (str : Stream) (x : Nat) : (u.issuedAt str x).index = u.index := rfl
@[simp] theorem Unit.issuedAt_ctx (u : Unit) (str : Stream) (x : Nat) : (u.issuedAt str x).ctx = u.ctx := rfl
@[simp] theorem Unit.issuedAt_copy (u : Unit) (str : Stream) (x : Nat) : (u.issuedAt str x).copy = u.copy := rfl
@[simp] theorem Unit.issuedAt_ticket (u : Unit) (str : Stream) (x : Nat) : (u.issuedAt str x).ticket = u.ticket := rfl
@[simp] theorem Unit.issuedAt_prio (u : Unit) (str : Stream) (x : Nat) : (u.issuedAt str x).prio = u.prio := rfl
@[simp] theorem Unit.issuedAt_since (u : Unit) (str : Stream) (x : Nat) : (u.issuedAt str x).since = u.since := rfl
@[simp] theorem Unit.issuedAt_code (u : Unit) (str : Stream) (x : Nat) : (u.issuedAt str x).code = u.code := rfl
@[simp] theorem Unit.issuedAt_r (u : Unit) (str : Stream) (x : Nat) : (u.issuedAt str x).r = u.r := rfl
@[simp] theorem Unit.issuedAt_cpl (u : Unit) (str : Stream) (x : Nat) : (u.issuedAt str x).cpl = u.cpl := rfl
@[simp] theorem Unit.issuedAt_bksel (u : Unit) (str : Stream) (x : Nat) : (u.issuedAt str x).bksel = u.bksel := rfl
@[simp] theorem Unit.issuedAt_hsel (u : Unit) (str : Stream) (x : Nat) : (u.issuedAt str x).hsel = u.hsel := rfl
@[simp] theorem Unit.issuedAt_psplit (u : Unit) (str : Stream) (x : Nat) : (u.issuedAt str x).psplit = u.psplit := rfl
@[simp] theorem Unit.issuedAt_tnctx (u : Unit) (str : Stream) (x : Nat) : (u.issuedAt str x).tnctx = u.tnctx := rfl
@[simp] theorem Unit.issuedAt_mstat (u : Unit) (str : Stream) (x : Nat) : (u.issuedAt str x).mstat = u.mstat := rfl
@[simp] theorem Unit.issuedAt_seqr (u : Unit) (str : Stream) (x : Nat) : (u.issuedAt str x).seqr = u.seqr := rfl
@[simp] theorem Unit.issuedAt_latches (u : Unit) (str : Stream) (x : Nat) : (u.issuedAt str x).latches = u.latches := rfl
@[simp] theorem Unit.issuedAt_opbuf (u : Unit) (str : Stream) (x : Nat) : (u.issuedAt str x).opbuf = u.opbuf := rfl
@[simp] theorem Unit.issuedAt_groupSwitch (u : Unit) (str : Stream) (x : Nat) : (u.issuedAt str x).groupSwitch = u.groupSwitch := rfl
@[simp] theorem Unit.issuedAt_matAt (u : Unit) (str : Stream) (x : Nat) : (u.issuedAt str x).matAt = u.matAt := rfl
@[simp] theorem Unit.issuedAt_remap (u : Unit) (str : Stream) (x : Nat) : (u.issuedAt str x).remap = u.remap := rfl
@[simp] theorem Unit.issuedAt_closing (u : Unit) (str : Stream) (x : Nat) : (u.issuedAt str x).closing = u.closing := rfl
@[simp] theorem Unit.issuedAt_setup (u : Unit) (str : Stream) (x : Nat) : (u.issuedAt str x).setup = u.setup := rfl
@[simp] theorem Unit.issuedAt_ops (u : Unit) (str : Stream) (x : Nat) : (u.issuedAt str x).ops = u.ops := rfl
@[simp] theorem Unit.issuedAt_puts (u : Unit) (str : Stream) (x : Nat) : (u.issuedAt str x).puts = u.puts := rfl
@[simp] theorem Unit.issuedAt_replay (u : Unit) (str : Stream) (x : Nat) : (u.issuedAt str x).replay = u.replay := rfl
@[simp] theorem Unit.issuedAt_pos (u : Unit) (str : Stream) (x : Nat) : (u.issuedAt str x).pos = u.pos := rfl
@[simp] theorem Unit.issuedAt_sq (u : Unit) (str : Stream) (x : Nat) : (u.issuedAt str x).sq = u.sq := rfl
@[simp] theorem Unit.issuedAt_leases (u : Unit) (str : Stream) (x : Nat) : (u.issuedAt str x).leases = u.leases := rfl
@[simp] theorem Unit.issuedAt_retained (u : Unit) (str : Stream) (x : Nat) : (u.issuedAt str x).retained = u.retained := rfl
@[simp] theorem Unit.issuedAt_ladle (u : Unit) (str : Stream) (x : Nat) : (u.issuedAt str x).ladle = u.ladle := rfl
@[simp] theorem Unit.issuedAt_bkslip (u : Unit) (str : Stream) (x : Nat) : (u.issuedAt str x).bkslip = u.bkslip := rfl
@[simp] theorem Unit.issuedAt_written (u : Unit) (str : Stream) (x : Nat) : (u.issuedAt str x).written = u.written := rfl
@[simp] theorem Unit.issuedAt_role (u : Unit) (str : Stream) (x : Nat) : (u.issuedAt str x).role = u.role := rfl
@[simp] theorem Unit.issuedAt_count (u : Unit) (str : Stream) (x : Nat) : (u.issuedAt str x).count = u.count := rfl
@[simp] theorem Unit.issuedAt_sealed (u : Unit) (str : Stream) (x : Nat) : (u.issuedAt str x).sealed = u.sealed := rfl
@[simp] theorem Unit.issuedAt_retry (u : Unit) (str : Stream) (x : Nat) : (u.issuedAt str x).retry = u.retry := rfl
@[simp] theorem Unit.issuedAt_ckpt (u : Unit) (str : Stream) (x : Nat) : (u.issuedAt str x).ckpt = u.ckpt := rfl
@[simp] theorem Unit.issuedAt_fills (u : Unit) (str : Stream) (x : Nat) : (u.issuedAt str x).fills = u.fills := rfl
@[simp] theorem Unit.issuedAt_building (u : Unit) (str : Stream) (x : Nat) : (u.issuedAt str x).building = u.building := rfl
@[simp] theorem Unit.issuedAt_inh (u : Unit) (str : Stream) (x : Nat) : (u.issuedAt str x).inh = u.inh := rfl
@[simp] theorem Unit.issuedAt_frame (u : Unit) (str : Stream) (x : Nat) : (u.issuedAt str x).frame = u.frame := rfl
@[simp] theorem Unit.issuedAt_cause (u : Unit) (str : Stream) (x : Nat) : (u.issuedAt str x).cause = u.cause := rfl
@[simp] theorem Unit.issuedAt_cause2 (u : Unit) (str : Stream) (x : Nat) : (u.issuedAt str x).cause2 = u.cause2 := rfl
@[simp] theorem Unit.issuedAt_served (u : Unit) (str : Stream) (x : Nat) : (u.issuedAt str x).served = u.served := rfl
@[simp] theorem Unit.issuedAt_owed (u : Unit) (str : Stream) (x : Nat) : (u.issuedAt str x).owed = u.owed := rfl
@[simp] theorem Unit.issuedAt_roll (u : Unit) (str : Stream) (x : Nat) : (u.issuedAt str x).roll = u.roll := rfl
@[simp] theorem Unit.issuedAt_killed (u : Unit) (str : Stream) (x : Nat) : (u.issuedAt str x).killed = u.killed := rfl
@[simp] theorem Unit.issuedAt_cancelled (u : Unit) (str : Stream) (x : Nat) : (u.issuedAt str x).cancelled = u.cancelled := rfl
@[simp] theorem Unit.issuedAt_halting (u : Unit) (str : Stream) (x : Nat) : (u.issuedAt str x).halting = u.halting := rfl
@[simp] theorem Unit.issuedAt_sig (u : Unit) (str : Stream) (x : Nat) : (u.issuedAt str x).sig = u.sig := rfl
@[simp] theorem Unit.issuedAt_cseg (u : Unit) (str : Stream) (x : Nat) : (u.issuedAt str x).cseg = u.cseg := rfl
@[simp] theorem Unit.issuedAt_body (u : Unit) (str : Stream) (x : Nat) : (u.issuedAt str x).body = u.body := rfl
@[simp] theorem Unit.issuedAt_capts (u : Unit) (str : Stream) (x : Nat) : (u.issuedAt str x).capts = u.capts := rfl

/-! ## putUnit -/

@[simp] theorem putUnit_agenda (s : State) (k : Nat) (u : Unit) : (putUnit s k u).agenda = s.agenda := rfl
@[simp] theorem putUnit_cur (s : State) (k : Nat) (u : Unit) : (putUnit s k u).cur = s.cur := rfl
@[simp] theorem putUnit_free (s : State) (k : Nat) (u : Unit) : (putUnit s k u).free = s.free := rfl
@[simp] theorem putUnit_waiting (s : State) (k : Nat) (u : Unit) : (putUnit s k u).waiting = s.waiting := rfl
@[simp] theorem putUnit_part (s : State) (k : Nat) (u : Unit) : (putUnit s k u).part = s.part := rfl
@[simp] theorem putUnit_allocs (s : State) (k : Nat) (u : Unit) : (putUnit s k u).allocs = s.allocs := rfl
@[simp] theorem putUnit_nextKey (s : State) (k : Nat) (u : Unit) : (putUnit s k u).nextKey = s.nextKey := rfl
@[simp] theorem putUnit_nextOrder (s : State) (k : Nat) (u : Unit) : (putUnit s k u).nextOrder = s.nextOrder := rfl
@[simp] theorem putUnit_time (s : State) (k : Nat) (u : Unit) : (putUnit s k u).time = s.time := rfl
@[simp] theorem putUnit_mem (s : State) (k : Nat) (u : Unit) : (putUnit s k u).mem = s.mem := rfl
@[simp] theorem putUnit_tags (s : State) (k : Nat) (u : Unit) : (putUnit s k u).tags = s.tags := rfl
@[simp] theorem putUnit_gkeys (s : State) (k : Nat) (u : Unit) : (putUnit s k u).gkeys = s.gkeys := rfl
@[simp] theorem putUnit_poison (s : State) (k : Nat) (u : Unit) : (putUnit s k u).poison = s.poison := rfl
@[simp] theorem putUnit_rowPoison (s : State) (k : Nat) (u : Unit) : (putUnit s k u).rowPoison = s.rowPoison := rfl
@[simp] theorem putUnit_syncs (s : State) (k : Nat) (u : Unit) : (putUnit s k u).syncs = s.syncs := rfl
@[simp] theorem putUnit_binds (s : State) (k : Nat) (u : Unit) : (putUnit s k u).binds = s.binds := rfl
@[simp] theorem putUnit_parks (s : State) (k : Nat) (u : Unit) : (putUnit s k u).parks = s.parks := rfl
@[simp] theorem putUnit_watermarks (s : State) (k : Nat) (u : Unit) : (putUnit s k u).watermarks = s.watermarks := rfl
@[simp] theorem putUnit_tlb1 (s : State) (k : Nat) (u : Unit) : (putUnit s k u).tlb1 = s.tlb1 := rfl
@[simp] theorem putUnit_tlb2 (s : State) (k : Nat) (u : Unit) : (putUnit s k u).tlb2 = s.tlb2 := rfl
@[simp] theorem putUnit_objCache (s : State) (k : Nat) (u : Unit) : (putUnit s k u).objCache = s.objCache := rfl
@[simp] theorem putUnit_older (s : State) (k : Nat) (u : Unit) : (putUnit s k u).older = s.older := rfl
@[simp] theorem putUnit_touched (s : State) (k : Nat) (u : Unit) : (putUnit s k u).touched = s.touched := rfl
@[simp] theorem putUnit_rows (s : State) (k : Nat) (u : Unit) : (putUnit s k u).rows = s.rows := rfl
@[simp] theorem putUnit_partitions (s : State) (k : Nat) (u : Unit) : (putUnit s k u).partitions = s.partitions := rfl
@[simp] theorem putUnit_ctxs (s : State) (k : Nat) (u : Unit) : (putUnit s k u).ctxs = s.ctxs := rfl
@[simp] theorem putUnit_codes (s : State) (k : Nat) (u : Unit) : (putUnit s k u).codes = s.codes := rfl
@[simp] theorem putUnit_qpairs (s : State) (k : Nat) (u : Unit) : (putUnit s k u).qpairs = s.qpairs := rfl
@[simp] theorem putUnit_windows (s : State) (k : Nat) (u : Unit) : (putUnit s k u).windows = s.windows := rfl
@[simp] theorem putUnit_remoteIn (s : State) (k : Nat) (u : Unit) : (putUnit s k u).remoteIn = s.remoteIn := rfl
@[simp] theorem putUnit_grants (s : State) (k : Nat) (u : Unit) : (putUnit s k u).grants = s.grants := rfl
@[simp] theorem putUnit_replies (s : State) (k : Nat) (u : Unit) : (putUnit s k u).replies = s.replies := rfl
@[simp] theorem putUnit_sent (s : State) (k : Nat) (u : Unit) : (putUnit s k u).sent = s.sent := rfl
@[simp] theorem putUnit_queues (s : State) (k : Nat) (u : Unit) : (putUnit s k u).queues = s.queues := rfl
@[simp] theorem putUnit_kicks (s : State) (k : Nat) (u : Unit) : (putUnit s k u).kicks = s.kicks := rfl
@[simp] theorem putUnit_launches (s : State) (k : Nat) (u : Unit) : (putUnit s k u).launches = s.launches := rfl
@[simp] theorem putUnit_nextLid (s : State) (k : Nat) (u : Unit) : (putUnit s k u).nextLid = s.nextLid := rfl
@[simp] theorem putUnit_graphs (s : State) (k : Nat) (u : Unit) : (putUnit s k u).graphs = s.graphs := rfl
@[simp] theorem putUnit_phases (s : State) (k : Nat) (u : Unit) : (putUnit s k u).phases = s.phases := rfl
@[simp] theorem putUnit_jobs (s : State) (k : Nat) (u : Unit) : (putUnit s k u).jobs = s.jobs := rfl
@[simp] theorem putUnit_tickets (s : State) (k : Nat) (u : Unit) : (putUnit s k u).tickets = s.tickets := rfl
@[simp] theorem putUnit_ready (s : State) (k : Nat) (u : Unit) : (putUnit s k u).ready = s.ready := rfl
@[simp] theorem putUnit_nextTicket (s : State) (k : Nat) (u : Unit) : (putUnit s k u).nextTicket = s.nextTicket := rfl
@[simp] theorem putUnit_running (s : State) (k : Nat) (u : Unit) : (putUnit s k u).running = s.running := rfl
@[simp] theorem putUnit_lastCtx (s : State) (k : Nat) (u : Unit) : (putUnit s k u).lastCtx = s.lastCtx := rfl
@[simp] theorem putUnit_books (s : State) (k : Nat) (u : Unit) : (putUnit s k u).books = s.books := rfl
@[simp] theorem putUnit_closing (s : State) (k : Nat) (u : Unit) : (putUnit s k u).closing = s.closing := rfl
@[simp] theorem putUnit_gens (s : State) (k : Nat) (u : Unit) : (putUnit s k u).gens = s.gens := rfl
@[simp] theorem putUnit_openReqs (s : State) (k : Nat) (u : Unit) : (putUnit s k u).openReqs = s.openReqs := rfl
@[simp] theorem putUnit_engines (s : State) (k : Nat) (u : Unit) : (putUnit s k u).engines = s.engines := rfl
@[simp] theorem putUnit_groves (s : State) (k : Nat) (u : Unit) : (putUnit s k u).groves = s.groves := rfl
@[simp] theorem putUnit_ring (s : State) (k : Nat) (u : Unit) : (putUnit s k u).ring = s.ring := rfl
@[simp] theorem putUnit_injarm (s : State) (k : Nat) (u : Unit) : (putUnit s k u).injarm = s.injarm := rfl
@[simp] theorem putUnit_arms (s : State) (k : Nat) (u : Unit) : (putUnit s k u).arms = s.arms := rfl
@[simp] theorem putUnit_fuEvents (s : State) (k : Nat) (u : Unit) : (putUnit s k u).fuEvents = s.fuEvents := rfl
@[simp] theorem putUnit_retired (s : State) (k : Nat) (u : Unit) : (putUnit s k u).retired = s.retired := rfl
@[simp] theorem putUnit_leftOut (s : State) (k : Nat) (u : Unit) : (putUnit s k u).leftOut = s.leftOut := rfl
@[simp] theorem putUnit_life (s : State) (k : Nat) (u : Unit) : (putUnit s k u).life = s.life := rfl
@[simp] theorem putUnit_lifeFlash (s : State) (k : Nat) (u : Unit) : (putUnit s k u).lifeFlash = s.lifeFlash := rfl
@[simp] theorem putUnit_lifeTicks (s : State) (k : Nat) (u : Unit) : (putUnit s k u).lifeTicks = s.lifeTicks := rfl
@[simp] theorem putUnit_mailbox (s : State) (k : Nat) (u : Unit) : (putUnit s k u).mailbox = s.mailbox := rfl
@[simp] theorem putUnit_mgmt (s : State) (k : Nat) (u : Unit) : (putUnit s k u).mgmt = s.mgmt := rfl
@[simp] theorem putUnit_sensors (s : State) (k : Nat) (u : Unit) : (putUnit s k u).sensors = s.sensors := rfl
@[simp] theorem putUnit_wear (s : State) (k : Nat) (u : Unit) : (putUnit s k u).wear = s.wear := rfl
@[simp] theorem putUnit_sensorLog (s : State) (k : Nat) (u : Unit) : (putUnit s k u).sensorLog = s.sensorLog := rfl
@[simp] theorem putUnit_testNext (s : State) (k : Nat) (u : Unit) : (putUnit s k u).testNext = s.testNext := rfl
@[simp] theorem putUnit_ptpoff (s : State) (k : Nat) (u : Unit) : (putUnit s k u).ptpoff = s.ptpoff := rfl
@[simp] theorem putUnit_ptpstat (s : State) (k : Nat) (u : Unit) : (putUnit s k u).ptpstat = s.ptpstat := rfl
@[simp] theorem putUnit_disp (s : State) (k : Nat) (u : Unit) : (putUnit s k u).disp = s.disp := rfl
@[simp] theorem putUnit_ports (s : State) (k : Nat) (u : Unit) : (putUnit s k u).ports = s.ports := rfl
@[simp] theorem putUnit_flagsIn (s : State) (k : Nat) (u : Unit) : (putUnit s k u).flagsIn = s.flagsIn := rfl
@[simp] theorem putUnit_lastServed (s : State) (k : Nat) (u : Unit) : (putUnit s k u).lastServed = s.lastServed := rfl
@[simp] theorem putUnit_misaligned (s : State) (k : Nat) (u : Unit) : (putUnit s k u).misaligned = s.misaligned := rfl
@[simp] theorem putUnit_lowSupply (s : State) (k : Nat) (u : Unit) : (putUnit s k u).lowSupply = s.lowSupply := rfl
@[simp] theorem putUnit_trip (s : State) (k : Nat) (u : Unit) : (putUnit s k u).trip = s.trip := rfl

end Sys2Proof.Machine
end

