-- ==== Sys2Proof/Tests/Slice0.lean ====
section
/-! SUPPORT. Tests: ill-formed terms, words of the spec's encoding tables, single steps with results from the spec, and for each statement of
Certificates/Slice0/Obligations.lean that has hypotheses a state that meets them, clause by clause. -/

namespace Sys2Proof.Tests
open Sys2Proof Sys2Proof.Machine Sys2Proof.Claims
-- one kernel evaluation at a time: each thread takes its own stack
set_option Elab.async false

/-! ## Small states -/

/-- A unit that has just started, on bank 0 of hearth 0, and the state in which it executes a control word. -/
def u0 : Machine.Unit := benchUnit State.reset .c []
def s0 : State := { placeBench State.reset .c [0] with agenda := [] }
/-- The same state with another unit on that bank. -/
def onBank (u : Machine.Unit) : State := { s0 with units := s0.units.put 0 u }
/-- A unit with a value in one scalar register. -/
def withS (i : SReg) (v : Double) : Machine.Unit := u0.setS i v
/-- A capability register's value: its tag, object, rights, window and cursor (Table 10.1). -/
def cap (oid rights base len cursor : Nat) : Cap :=
  ⟨true, BitVec.ofNat 128 (cursor + len * 2 ^ 48 + base * 2 ^ 72 + rights * 2 ^ 96 + oid * 2 ^ 104)⟩

theorem someOf {α : Type} {o : Option α} (h : o.isSome = true) : ∃ v, o = some v := Option.isSome_iff_exists.mp h

/-! ## Witnesses: scalar arithmetic. Each shows the hypotheses of its statement met together; `isSome` says that the value which the statement
names on the right exists. -/

/-- s2 = 5, s3 = 0xFFF_0 as BFX controls go, p1 set, p2 clear. -/
def ua : Machine.Unit := ((withS 2 5).setS 3 0xFFF).setP 1 true

theorem issuing_ua : Issuing (onBank ua) ua .seq := ⟨by decide +kernel, by decide +kernel⟩

theorem witness_IntegerResults : Issuing (onBank ua) ua (actOf .seq) ∧ ua.guard (opGuard (.reg 3 1)) = true ∧
    ∀ e ∈ integerRows, ((ua.setS 1 (e.2.2 (ua.sreg 2) (intB (onBank ua) ua e.2.1 (.reg 3 1)))).next (opLen (.reg 3 1)) (actOf .seq)).isSome = true :=
  ⟨issuing_ua, by decide +kernel⟩

/-- CLZ of 5 is 61, and of 0 is 64; SEL with its selector on and off. -/
theorem witness_CountAndSelectResults : (61 ≤ 64 ∧ (∀ i < 64, 64 - 61 ≤ i → (ua.sreg 2).getLsbD i = false) ∧ (ua.sreg 2).getLsbD (63 - 61) = true) ∧
    (∀ i < 64, (ua.sreg 4).getLsbD i = false) ∧ ua.guard 1 = true ∧ ua.guard 2 = false ∧
    ((ua.setS 1 61).next 1 (actOf .seq)).isSome = true := by decide +kernel

/-- A field of 64 bits at 0, one bit too many, and a control with bit 13 set. -/
theorem witness_BitFieldExtract : (intB (onBank ua) ua false (.reg 3 0)).toNat < 2 ^ 13 ∧
    bits (intB (onBank ua) ua false (.lit 0xFC0 0)) 5 0 + (bits (intB (onBank ua) ua false (.lit 0xFC0 0)) 11 6 + 1) = 64 ∧
    64 < bits (intB (onBank ua) ua false (.lit 0xFC1 0)) 5 0 + (bits (intB (onBank ua) ua false (.lit 0xFC1 0)) 11 6 + 1) ∧
    2 ^ 13 ≤ (intB (onBank ua) ua false (.lit 0x2000 0)).toNat := by decide +kernel

theorem witness_ImmediateResults : Issuing (onBank ua) ua (iactOf .seq) ∧
    (∀ e ∈ integerImmRows, ((ua.setS 2 (e.2 (ua.sreg 2) 0x80000)).next 1 (iactOf .seq)).isSome = true) ∧
    ∀ e ∈ floatImmRows, (((ua.setS 2 ((e.2 ((ua.sreg 2).truncate 32) ((0x3F800 : BitVec 20) ++ 0#12)).1.zeroExtend 64)).addFlags
      (e.2 ((ua.sreg 2).truncate 32) ((0x3F800 : BitVec 20) ++ 0#12)).2).next 1 (iactOf .seq)).isSome = true :=
  ⟨issuing_ua, by decide +kernel⟩

theorem witness_FloatResults : Issuing (onBank ua) ua (factOf (.seq 4)) ∧
    (∀ e ∈ floatRows, (((ua.setS 2 ((e.2 ((ua.sreg 2).truncate 32) ((ua.sreg 2).truncate 32) (fpB (onBank ua) ua (.imm 3 0)) (rndOf (.seq 4))).1.zeroExtend 64)).addFlags
      (e.2 ((ua.sreg 2).truncate 32) ((ua.sreg 2).truncate 32) (fpB (onBank ua) ua (.imm 3 0)) (rndOf (.seq 4))).2).next 1 (factOf (.seq 4))).isSome = true) ∧
    ∀ e ∈ floatRows1, (((ua.setS 2 ((e.2 ((ua.sreg 3).truncate 32) .rne).1.zeroExtend 64)).addFlags (e.2 ((ua.sreg 3).truncate 32) .rne).2).next 1
      (factOf (.seq 0))).isSome = true :=
  ⟨issuing_ua, by decide +kernel⟩

/-- An ordered pair and, in s4, a NaN. -/
theorem witness_CompareResults : Issuing (onBank ua) ua (actOf .seq) ∧
    (∀ e ∈ compareRows, ((ua.setP 3 (e.2.2 (ua.sreg 2) (intB (onBank ua) ua e.2.1 (.reg 3 0)))).next 1 (actOf .seq)).isSome = true) ∧
    (f32Val (((ua.setS 4 0x7FC00000).sreg 4).truncate 32)).isNan = true ∧ (f32Val ((ua.sreg 2).truncate 32)).isNan = false ∧
    ∀ e ∈ predicateRows, ((ua.setP 3 (e.2 (ua.preg 1) (ua.preg 2))).next 1 (actOf .seq)).isSome = true :=
  ⟨issuing_ua, by decide +kernel⟩

theorem witness_GuardOffOnlyMovesOn : Issuing (onBank ua) ua (actOf .seq) ∧ ua.guard (opGuard (.imm 3 2)) = false ∧
    (ua.next (opLen (.imm 3 2)) (actOf .seq)).isSome = true :=
  ⟨issuing_ua, by decide +kernel⟩

/-- A code of each kind that the operand cases name. -/
theorem witness_FloatOperandCases : 0x7F800000 < (0x7F800001 : Word).toNat % 2 ^ 31 ∧ (0xFF800000 : Word).toNat % 2 ^ 31 = 0x7F800000 ∧
    (0x80000000 : Word).toNat % 2 ^ 31 = 0 ∧ (0x7F7FFFFF : Word).toNat % 2 ^ 31 < 0x7F800000 ∧ (0x80000001 : Word).getLsbD 31 = true ∧
    (1 : Word).toNat % 2 ^ 31 ≠ 0 := by decide +kernel

/-- The greatest and an infinite code of a format with infinities, and the greatest of one without. -/
theorem witness_RoundingIsCorrect : 0x7BFF < 2 ^ fp16.width ∧ (fp16.decode 0x7BFF).isNan = false ∧ (fp16.decode 0x7C00) = .inf false ∧
    0x7E < 2 ^ e4m3.width ∧ (e4m3.decode 0x7E).isNan = false ∧ 2 * (quant false 5 0 1 .rne 0).1 * 2 ^ 1 = 2 * 5 + 2 ^ 1 - 4 := by decide +kernel

/-! ## Witnesses: sequencing and scalar memory -/

/-- In the HBM, object 1 of context 0: 64 KiB of DEV level whose one 16 KiB page is mapped (Tables 10.5, 10.6). -/
def ub : Machine.Unit := { ua with r := { ua.r with ret := [7], b := ua.r.b.set 2 ⟨true, 0, 0, false⟩ } }

theorem witness_NextAddressActions : (ub.breg 2).valid = true ∧ (ub.breg 3).valid = false ∧ ub.r.ret = 7 :: [] ∧ ua.r.ret = [] ∧ ub.r.ret.length < 16 ∧
    16 ≤ ({ ub with r := { ub.r with ret := List.replicate 16 0 } } : Machine.Unit).r.ret.length := by decide +kernel

/-- Plain mode with a jump, and service mode with an invalid b register. -/
theorem witness_SequencingTraps : ({ ua with r := { ua.r with plain := true } } : Machine.Unit).r.plain = true ∧ actOf (.jump 3) ≠ .seq ∧ ua.r.plain = false ∧
    (ua.setS 1 0).next 1 (actOf (.jump 3)) = none ∧ (ua.setP 1 true).next 1 (actOf (.jump 3)) = none ∧ (onBank ua).units.get? (onBank ua).cur.1 = some ua := by
  decide +kernel

/-- Counts 1 and 2^32, the counts that trap, a level that ends, one that goes on and one that is not active. -/
theorem witness_LoopLevels : Issuing (onBank ua) ua (actOf .seq) ∧ ua.r.plain = false ∧ ((startLoop 2 1 ua).next 1 (actOf .seq)).isSome = true ∧
    ((ua.setS 5 (2 ^ 32)).sreg 5).toNat ≤ 2 ^ 32 ∧ ua.sreg 4 = 0 ∧ 2 ^ 32 < ((ua.setS 5 (2 ^ 32 + 1)).sreg 5).toNat ∧
    ((startLoop 1 2 ua).level 1).active = true ∧ (ua.level 0).active = false ∧ (∀ j < 1, ((startLoop 1 2 ua).level j).active = false) :=
  ⟨issuing_ua, by decide +kernel⟩

/-- The code area holds one word: 0 is a target in it, 1 and −1 are not; b2 is valid and b3 is not. -/
theorem witness_BranchTargets : areaWords s0 u0 = 1 ∧ (u0.r.pc : Int) + (0 : Word).toInt = (0 : Nat) ∧ (u0.r.pc : Int) + (-1 : Word).toInt < 0 ∧
    ((u0.setB 2 ⟨true, 0, 0, false⟩).next 2 (actOf (.jump 2))).isSome = true ∧ (ub.breg 2).valid = true ∧ (ub.breg 3).valid = false := by decide +kernel

/-! ## Witnesses: memory. Objects of context 0 with their tables in HBM (Tables 10.4 to 10.6): 0 in HBM, 1 in the Clearing, 2 in the Pantry, 3
absent; the line at the bottom of the Clearing is a live sync object of the context, and every object's own. -/

def tables : Tab Byte :=
  [(0x0, 1), (0x5, 1), (0xa, 2), (0x12, 1), (0x1d, 240), (0x40, 1), (0x41, 1), (0x4a, 2), (0x51, 128), (0x52, 1), (0x5d, 240), (0x80, 1), (0x81, 2),
   (0x8a, 2), (0x10000, 1), (0x10001, 64), (0x10002, 1), (0x14000, 1), (0x14002, 2), (0x14008, 1), (0x14009, 64), (0x1400a, 2), (0x14010, 1), (0x14011,
   128), (0x14012, 2), (0x14018, 1), (0x14019, 192), (0x1401a, 2), (0x18000, 1), (0x18001, 192), (0x18002, 1), (0x1c000, 1), (0x1c005, 240), (clrBase +
   9, 16)]

def withTables (s : State) : State :=
  { s with
    mem := tables
    ctxs := s.ctxs.upd 0 fun r => { r with body := { r.body with otlen := 4 } }
    syncs := [clrBase / 64] }

/-- c1 and c5 name object 0, c2 and c6 object 1, c3 object 2, each with every right; c4 has no tag; s2 = 5, s4 = 2^16. -/
def uc : Machine.Unit :=
  ((((((ua.setC 1 (cap 0 0x7F 0 2 0x100)).setC 2 (cap 1 0x7F 0 2 0x40)).setC 3 (cap 2 0x7F 0 2 0)).setC 4 ⟨false, 0⟩).setC 5
    (cap 0 0x7F 0 2 0)).setC 6 (cap 1 0x7F 0 2 0)).setS 4 0x10000

def sc : State := withTables (onBank uc)

theorem issuing_uc : Issuing sc uc .seq := ⟨by decide +kernel, by decide +kernel⟩

theorem reached {s : State} {u : Machine.Unit} {oid off key pa : Nat} {wr : Bool} (h1 : parkedOn s u oid off = false)
    (h2 : spent s (s.cur.1 / 16) = false) (h3 : (translate s (s.cur.1 / 2) u.ctx oid off wr).2 = .phys key pa) :
    Reached s u oid off wr (translate s (s.cur.1 / 2) u.ctx oid off wr).1 key pa := ⟨h1, h2, Prod.ext rfl h3⟩

/-- The translations that the witnesses use: bytes of object 0 and object 1, and the sync line. -/
theorem reached_hbm : Reached sc uc 0 0xF8 false (translate sc 0 0 0 0xF8 false).1 0 0x200F8 :=
  reached (s := sc) (by decide +kernel) (by decide +kernel) (by decide +kernel)
theorem reached_store : Reached sc uc 0 0x100 true (translate sc 0 0 0 0x100 true).1 0 0x20100 :=
  reached (s := sc) (by decide +kernel) (by decide +kernel) (by decide +kernel)
theorem reached_clearing : Reached sc uc 1 0x40 true (translate sc 0 0 1 0x40 true).1 0 (clrBase + 0x40) :=
  reached (s := sc) (by decide +kernel) (by decide +kernel) (by decide +kernel)
theorem reached_sync (wr : Bool) : Reached sc uc 1 0 wr (translate sc 0 0 1 0 wr).1 0 clrBase :=
  reached (s := sc) (by decide +kernel) (by decide +kernel) (by cases wr <;> decide +kernel)

/-- Offset 0xF8 of object 0, by an offset of −1 from c1; the value read is there, and its granule carries no tag. -/
theorem witness_LoadResults : modeOffset uc (uc.creg 1) 8 (.off 0xFF) = 0xF8 ∧ Permitted sc uc (uc.creg 1) rR 0xF8 8 [0, 1] ∧
    NoPoison (translate sc 0 0 0 0xF8 false).1 0x200F8 8 ∧
    ((uc.setS 1 (BitVec.ofNat 64 (leNat (viewBytes (translate sc 0 0 0 0xF8 false).1 0 0x200F8 8)))).advance 1 (uc.creg 1).cursor 8 (.off 0xFF)).next 1
      (actOf .seq) ≠ none :=
  ⟨by decide +kernel, by unfold Permitted; decide +kernel, ⟨by decide +kernel, by decide +kernel⟩, by decide +kernel⟩

/-- Offset 0x100 of object 0 by post-increment: permitted for a tagged STC too. -/
theorem witness_StoreResults : modeOffset uc (uc.creg 1) 16 (.post 1) = 0x100 ∧ Permitted sc uc (uc.creg 1) (rW + rC) 0x100 16 [0, 1] ∧
    isSync (translate sc 0 0 0 0x100 true).1 0x20100 = false ∧ 0x20100 % 16 = 0 ∧ (translate sc 0 0 0 0x100 true).1.sound ∧
    (uc.advance 1 (uc.creg 1).cursor 16 (.post 1)).next 1 (actOf .seq) ≠ none :=
  ⟨by decide +kernel, by unfold Permitted; decide +kernel, by decide +kernel⟩

/-- Offset 0x40 of object 1, with and without a release half; and a parked store for one that waits. -/
def parked : Parked := { str := .c, num := 0, cap := cap 0 0x7F 0 2 0, page := 1, pc := 0, writes := [], stc := none }

theorem witness_AtomicResults : isTwice sc uc = false ∧ uc.replay = [] ∧ Permitted sc uc (uc.creg 2) rA (uc.creg 2).cursor 8 [1] ∧
    isSync (translate sc 0 0 1 0x40 true).1 (clrBase + 0x40) = false ∧ (translate sc 0 0 1 0x40 true).1.sound ∧
    NoPoison (translate sc 0 0 1 0x40 true).1 (clrBase + 0x40) 8 ∧
    NoPoison (releaseBound (translate sc 0 0 1 0x40 true).1 0 1 0x40) (clrBase + 0x40) 8 ∧
    ({ uc.setS 1 0 with sealed := true } : Machine.Unit).next 1 (actOf .seq) ≠ none ∧
    (∀ o : BitVec 2, NotHeld uc o) ∧ ∀ o : BitVec 2, o ≠ 0 → ¬ NotHeld { uc with replay := [parked] } o :=
  ⟨by decide +kernel, by decide +kernel, by unfold Permitted; decide +kernel, by decide +kernel, by decide +kernel, ⟨by decide +kernel, by decide +kernel⟩,
    ⟨by decide +kernel, by decide +kernel⟩, by decide +kernel, by unfold NotHeld; decide +kernel⟩

/-- A run-twice unit: its launch asks for two copies (Table 13.1). -/
def sTwice : State := { sc with launches := [(0, { lid := 0, ctx := 0, pkt := [BitVec.allOnes 64], hov := [], tick := 0, queue := 0, headIdx := 0, jstate := .allPlaced, next := 0, placed := 1, retired := 0, ticketsOpen := 0, allPlaced := true, failed := false, cancelled := false, sigs := [], groves := 0 })] }

theorem witness_twice : isTwice sTwice uc = true ∧ sTwice.units.get? sTwice.cur.1 = some uc := by decide +kernel

/-! ## Witnesses: checks, translation, synchronisation and capabilities -/

/-- One access for each check of R227, in its order. -/
theorem witness_AccessChecks : Refused sc uc (uc.creg 4) rR 0 8 [0, 1] 0x0A 1 ∧ Refused sc uc (cap 0 0 0 2 0) rR 0 8 [0, 1] 0x0A 2 ∧
    Refused sc uc (uc.creg 1) rW 0x1FFFC 8 [0, 1] 0x0A 3 ∧ Refused sc uc (uc.creg 1) rR 0x1FFFC 8 [0, 1] 0x0A 3 ∧
    Refused sc uc (uc.creg 1) rR 0xFC 8 [0, 1] 0x0B 0 ∧ Refused sc uc (uc.creg 3) rA 0 8 [1] 0x0C 0 ∧ isTwice sc uc = false := by
  refine ⟨.inl (by decide +kernel), .inr (.inl (by decide +kernel)), .inr (.inr (.inl (by decide +kernel))), .inr (.inr (.inl (by decide +kernel))),
    .inr (.inr (.inr (.inl (by decide +kernel)))), .inr (.inr (.inr (.inr ⟨by decide +kernel, by decide +kernel, by decide +kernel, by decide +kernel,
      ⟨2, by decide +kernel⟩, rfl, rfl⟩))), by decide +kernel⟩

/-- A page of object 1 that its leaf does not map. -/
theorem witness_TranslationFaults : Permitted sc uc (uc.creg 2) rW 0x4000 8 [0, 1] ∧ Permitted sc uc (uc.creg 2) rR 0x4000 8 [0, 1] ∧
    parkedOn sc uc 1 0x4000 = false ∧ spent sc 0 = false ∧ (translate sc 0 0 1 0x4000 false).2 = .fault 5 ∧ (translate sc 0 0 1 0x4000 true).2 = .fault 5 ∧
    uc.replay.length < 32 ∧ (uc.advance 2 (uc.creg 2).cursor 8 (.off 0)).next 1 (actOf .seq) ≠ none :=
  ⟨by unfold Permitted; decide +kernel, by unfold Permitted; decide +kernel, by decide +kernel⟩

/-- One object for each fault of the walk, and the end of an object's size. -/
theorem witness_WalkFaults : objAt sc 0 4 = none ∧ ((objAt sc 0 3).map (·.st)) = some 0 ∧
    ((objAt { sc with mem := sc.mem.put 0x40 2 } 0 1).map (·.st)) = some 2 ∧ ((objAt sc 0 1).map fun e => (e.st, e.size, e.bad, e.lvl, assigned e.root)) =
      some (1, 0x20000, false, 1, true) ∧ ((objAt { sc with mem := sc.mem.put 0x47 128 } 0 1).map fun e => (e.st, e.bad)) = some (1, true) ∧
    ((objAt sc 0 2).map fun e => (e.st, e.lvl)) = some (1, 2) ∧
    rd8 { sc with mem := sc.mem.del 0x18000 } (0x18000 + 8 * (0 / 2 ^ pageShift 0 / 2048)) % 2 = 0 := by decide +kernel

theorem witness_TlbServesAgain : (Tab.getD [] sc.tlb1 0).find? (tlbHit 0 1 0x40) = none ∧ (Tab.getD [] sc.tlb2 0).find? (tlbHit 0 1 0x40) = none ∧
    translate sc 0 0 1 0x40 true = ((translate sc 0 0 1 0x40 true).1, .phys 0 (clrBase + 0x40)) :=
  ⟨by decide +kernel, by decide +kernel, Prod.ext rfl (by decide +kernel)⟩

theorem witness_SynchronisationResults : Permitted sc uc (uc.creg 6) rA 0 64 [1] ∧ liveSync (translate sc 0 0 1 0 true).1 clrBase = true ∧
    liveSync (translate sc 0 0 1 0 false).1 clrBase = true ∧ (translate sc 0 0 1 0 true).1.sound ∧ uc.replay = [] ∧ uc.next 1 (actOf .seq) ≠ none ∧
    streamOf (0 : BitVec 5).toNat = some .vl ∧ (uc.sreg 0).toNat ≤ uc.done .vl ∧ uc.done .vl < (uc.sreg 2).toNat ∧
    Permitted sc uc (cap 0 0x7F 0 2 0xF8) rR 0xF8 8 [0, 1] ∧ (uc.sreg 0).toNat ≤ leNat (viewBytes (translate sc 0 0 0 0xF8 false).1 0 0x200F8 8) ∧
    leNat (viewBytes (translate sc 0 0 0 0xF8 false).1 0 0x200F8 8) < (uc.sreg 2).toNat ∧
    ∃ p ∈ ({ uc with replay := [parked] } : Machine.Unit).replay, p.str = .c :=
  by unfold Permitted; decide +kernel

/-- BIND of the first granule of object 1 to its own sync object. -/
theorem witness_BindResults : (uc.sreg 4).toNat = 65536 ∧ (uc.creg 6).cursor % 65536 = 0 ∧ (uc.creg 6).check rW 0 65536 = none ∧
    isCodeArea sc 0 1 = false ∧ uc.replay = [] ∧ syncCtx (translate sc 0 0 1 0 true).1 clrBase = uc.ctx ∧
    ((objMem (translate sc 0 0 1 0 true).1 0 1).map (·.st)) = some 1 ∧ ((ctxRec? (translate sc 0 0 1 0 true).1 0).map (·.body.otbase % 64)) = some 0 ∧
    (translate sc 0 0 1 0 true).1.syncs.has 1 = false := by decide +kernel

/-- A unit with an operation in flight is busy. -/
def busyOp : Op := { str := .vl, num := 1, word := 0, flags := 0, readsT := [], writesT := [], poison := none, held := false, body := .va ⟨[], []⟩ }

theorem witness_WaitWords : (∀ t ∈ engineStreams, uc.streamBusy t = false) ∧ (∃ t ∈ engineStreams, ({ uc with ops := [busyOp] } : Machine.Unit).streamBusy t = true) ∧
    ({ uc with body := none, capts := [] } : Machine.Unit).next 1 (actOf .seq) ≠ none ∧ privileged sc uc = true ∧ uc.replay = [] := by decide +kernel

/-- Both forms of CNARROW at the window's whole length, CDROP with its greatest operand, the last CGET field and CTST test. -/
theorem witness_CapabilityResults : Fields (Cap.mk' true 0 0x7F 0 2 0x105) (uc.creg 1).tag (uc.creg 1).oid (uc.creg 1).rights (uc.creg 1).base (uc.creg 1).len
      (((uc.creg 1).cursor + (uc.sreg 2).toNat) % 2 ^ 48) ∧
    ((uc.setS 7 (2 * 2 ^ 24)).sreg 7).toNat < 2 ^ 48 ∧ 2 = ((uc.setS 7 (2 * 2 ^ 24)).sreg 7).toNat / 2 ^ 24 ∧
    (uc.creg 1).rights &&& rD = rD ∧ (uc.creg 1).base ≤ 0 ∧ 0 + 2 ≤ (uc.creg 1).base + (uc.creg 1).len ∧ (uc.setS 7 127).sreg 7 = 127 ∧
    Fields (Cap.mk' true 0 0 0 2 0x100) true 0 ((uc.creg 1).rights &&& (255 - (15 ||| 127))) 0 2 0x100 ∧
    ([0, 0, 0, 0, 0, 0, 0, 0, (uc.creg 1).v.toNat % 2 ^ 64, (uc.creg 1).v.toNat / 2 ^ 64] : List Nat)[(9 : BitVec 4).toNat]? = some ((uc.creg 1).v.toNat / 2 ^ 64) := by
  unfold Fields; decide +kernel

theorem witness_CapabilityTraps : 2 ^ 48 ≤ ((uc.setS 7 (2 ^ 48)).sreg 7).toNat ∧ 2 ^ 24 ≤ ((uc.setS 7 (2 ^ 24)).sreg 7).toNat ∧
    (cap 0 0x5F 0 2 0).tag = true ∧ (cap 0 0x5F 0 2 0).rights &&& rD ≠ rD ∧ (uc.creg 1).rights &&& rD = rD ∧
    (uc.creg 1).base + (uc.creg 1).len < 0 + 3 ∧ 2 ^ 7 ≤ ((uc.setS 7 128).sreg 7).toNat := by decide +kernel

theorem witness_NoCapabilityGrows : sc.units.get? sc.cur.1 = some uc ∧ ∃ i ∈ capabilityWords .seq 3 1 2 2 2 0, ∃ t w, exec i sc = .next t ∧ t.units.get? sc.cur.1 = some w ∧
    (w.creg 3).tag = true :=
  ⟨by decide +kernel, .cmov .seq 3 1, List.mem_cons_self, left sc sc ((uc.setC 3 (uc.creg 1)).setPc 1), ((uc.setC 3 (uc.creg 1)).setPc 1).issuedAt .c 0,
    rfl, by decide +kernel⟩

/-! ## Witnesses: dispatch, coupling, special registers, traps and privilege -/

/-- Four words of each stream in the code object; a partition of two banks. -/
def sd : State :=
  { sc with
    codes := [(0, { benchCode 1 with counts := Six.all 4 })]
    partitions := [(0, { lid := uc.lid, ctx := 0, grove := 0, banks := [0, 1], bfr := [] })] }

/-- A strand of four words from 0 with a register count in s2 (5) and an immediate count of 1; s0 as a count is 0; s7 holds 2^24 + 1. -/
theorem witness_DispatchResults : StrandNamed sd uc .vl 0x03000000 [0x80000002, 0x00000000] [5, 1] ∧ 0 ∉ [5, 1] ∧ (uc.seqr.get .vl).queue.length < 4 ∧
    StrandNamed sd uc .vl 0x03000000 [0x80000000] [0] ∧
    4 ≤ (List.replicate 4 ({ start := 0, len := 1, counts := [], push := 0, caps := uc.r.c } : DispRec)).length ∧
    2 ^ 24 < ((uc.setS 7 (2 ^ 24 + 1)).sreg ((0x80000007 : Word).truncate 5)).toNat ∧ ((codeOf sd uc).map fun c => decide (c.bases.get .vl + c.counts.get .vl <
      (0x04000000 : Word).toNat % 2 ^ 24 + ((0x04000000 : Word).toNat / 2 ^ 24 + 1))) = some true := by
  refine ⟨⟨⟨_, rfl, by decide +kernel⟩, rfl, ?_⟩, by decide, by decide +kernel, ⟨⟨_, rfl, by decide +kernel⟩, rfl, ?_⟩, by decide, by decide +kernel⟩
  · intro i w c h1 h2
    match i, h1, h2 with
    | 0, h1, h2 => cases h1; cases h2; unfold IsCount; decide +kernel
    | 1, h1, h2 => cases h1; cases h2; unfold IsCount; decide +kernel
    | n + 2, h1, _ => cases h1
  · intro i w c h1 h2
    match i, h1, h2 with
    | 0, h1, h2 => cases h1; cases h2; unfold IsCount; decide +kernel
    | n + 1, h1, _ => cases h1

/-- VL's configuration index 0 takes 128 and no more; index 2 is unassigned; an idle slot of M. -/
theorem witness_ConfigurationResults : cfgZeros .vl 0 = some 0xFFFFFF00 ∧ (128 : Word).toNat &&& 0xFFFFFF00 = 0 ∧ cfgInRange .vl 0 128 = true ∧
    (uc.cfgWrite .vl 0 0 128).next 1 (actOf .seq) ≠ none ∧ cfgZeros .vl 2 = none ∧ (0x100 : Word).toNat &&& 0xFFFFFF00 ≠ 0 ∧ cfgInRange .vl 0 129 = false ∧
    Tab.risingFrom none (uc.cpl.cfg.get .vl) = true ∧ (∀ ls : Fin 4, uc.slotIdle ls = true ∧ Tab.risingFrom none uc.cpl.mcfg[ls] = true) := by decide +kernel

/-- A counter that has room for 256 and no more, one at its limit, and a unit whose stream has an operation behind. -/
def ut (n : Nat) : Machine.Unit := uc.setTok 3 ⟨n, []⟩
def strandOn (str : Stream) (u : Machine.Unit) : Machine.Unit := { u with seqr := u.seqr.set str { Seqr.idle with run := some (benchStrand [0, 0]) } }

theorem witness_TokenResults : (∀ p ∈ uc.replay, p.str ≠ .c) ∧ ((ut 65279).tokAt 3).count + (255 + 1) ≤ 65535 ∧ 65535 < ((ut 65280).tokAt 3).count + (255 + 1) ∧
    0 + 1 ≤ ((ut 1).tokAt 3).count ∧
    (∀ e ∈ tokenWords, ((strandOn e.1 uc).seqr.get e.1).run.isSome = true ∧ (strandOn e.1 uc).cpl.issued.get e.1 ≤ (strandOn e.1 uc).done e.1) ∧
    ({ uc with ops := [busyOp], cpl := { uc.cpl with issued := uc.cpl.issued.set .vl 1 } } : Machine.Unit).done .vl < 1 := by decide +kernel

/-- A GET alone at its counter, one at the head of the order, one that finds too few, and one behind another, of the control stream and of each
engine stream. -/
def utq (str : Stream) : Machine.Unit := uc.setTok 3 ⟨1, [str]⟩

theorem witness_TokenOrder : ∀ str ∈ Stream.c :: engineStreams, (∃ s', FirstGet sd (ut 1) str 3 s') ∧ FirstGet sd (utq str) str 3 sd ∧
    MustWait sd (ut 0) str 3 1 ∧ ∀ t ∈ Stream.c :: engineStreams, t ≠ str → MustWait sd (uc.setTok 3 ⟨1, [t, str]⟩) str 3 1 := by
  refine fun str h => ⟨⟨_, .inr ⟨by decide +kernel, ?_, rfl⟩⟩, .inl ⟨?_, rfl⟩, ?_, fun t ht hn => ⟨.inl ?_, .inr ⟨t, ?_, hn⟩⟩⟩
  · revert str; decide +kernel
  · revert str; decide +kernel
  · unfold MustWait; exact ⟨.inr (by revert str; decide +kernel), .inl (by decide +kernel)⟩
  · revert str t; decide +kernel
  · revert str t; decide +kernel

theorem witness_TileAndPhaseResults : (uc.creg 3).tag = true ∧ (uc.creg 3).rights &&& rR = rR ∧ 65536 * (uc.creg 3).base ≤ (uc.creg 3).cursor ∧
    levelOf sd uc.ctx (uc.creg 3).oid = some 2 ∧ (partOf sd uc.lid (groveOf 0)).isSome = true ∧ (uc.creg 3).cursor % 64 = 0 ∧
    (uc.creg 3).cursor < 65536 * ((uc.creg 3).base + (uc.creg 3).len) ∧ uc.tileBusy 9 = false ∧ uc.inh = false ∧
    (∀ t ∈ engineStreams, uc.streamBusy t = false) ∧ uc.replay = [] ∧ (∀ q ∈ uc.sq.toList, q.entries = []) ∧ uc.cancelled = false ∧
    (uc.commit (actOf .seq)).next 1 (actOf .seq) ≠ none := by decide +kernel

/-- Tile 9 written by an operation in flight; a strand at work, a parked store and an entry in a stream register. -/
theorem witness_TileAndPhaseWaits : ({ uc with ops := [{ busyOp with writesT := [9] }] } : Machine.Unit).tileBusy 9 = true ∧
    (∃ t ∈ engineStreams, ({ uc with ops := [busyOp] } : Machine.Unit).streamBusy t = true) ∧ uc.next 1 (actOf .seq) ≠ none ∧
    ({ uc with replay := [parked] } : Machine.Unit).replay ≠ [] ∧ ({ uc with inh := true } : Machine.Unit).inh = true ∧
    ∃ q ∈ (uc.setSq 0 { (uc.sqAt 0) with entries := [0] }).sq.toList, q.entries ≠ [] := by decide +kernel

theorem witness_GetsResults : srRead sd 0 uc 0x001 ≠ none ∧ srRead sd 0 uc 0x3FF = none ∧ srRead sd 0 uc 0x181 ≠ none ∧ privileged sd uc = true ∧
    srWait uc 0x002 false = false := by decide +kernel

theorem witness_SetsResults : srWait uc 0x001 true = false ∧ (∃ s' u', srWrite sd 0 uc 0x001 (uc.sreg 2) = .ok s' u' ∧ u'.next 1 (actOf .seq) ≠ none) ∧
    uc.streamBusy .va = false ∧ uc.streamBusy .d = false ∧ uc.streamBusy .m = false ∧ (1 : Word).toNat = max 1 ((uc.sreg 0).toNat % 2 ^ 32) :=
  ⟨by decide +kernel, ⟨_, _, rfl, by decide +kernel⟩, by decide +kernel⟩

/-- Logical bank 1 is the partition's last; 0x21 is FP32 with the XOR swizzle. -/
theorem witness_BankFormatResults : (∀ t ∈ [Stream.vl, .vs, .m, .d], uc.streamBusy t = false) ∧ ((ownPart sd 0 uc).map fun p => p.2.banks.length) = some 2 ∧
    ((uc.setS 7 1).sreg 7).toNat < 2 ∧ 2 ≤ (uc.sreg 2).toNat ∧ (0x21 : Double).toNat / 2 ^ 5 % 2 ^ 3 ≤ 1 ∧
    (sd.partitions.get? 0).map (fun p => Tab.risingFrom none p.bfr) = some true := by decide +kernel

/-- The same state in a context without privilege. -/
def sn : State := { sd with ctxs := sd.ctxs.upd 0 fun r => { r with body := { r.body with priv := false } } }

theorem witness_PrivilegeTrap : Issuing sn uc (actOf .seq) ∧ privileged sn uc = false :=
  ⟨⟨by decide +kernel, by decide +kernel⟩, by decide +kernel⟩

/-- A handler at word 5; the same unit in it. -/
def uh : Machine.Unit := { uc with r := { uc.r with tvec := BitVec.ofNat 64 (2 ^ 24 + 5) } }
def ui : Machine.Unit := { uh with inh := true }
def aCause : Cause := causeC uc 0x07 0 Acc.none

theorem witness_TrapEntry : Issuing (withTables (onBank uh)) uh (actOf .seq) ∧ Quiet uh ∧ uh.inh = false ∧ uh.r.tvec.getLsbD 24 = true ∧ uh.ops = [] ∧
    ∀ q ∈ (withTables (onBank uh)).openReqs, q.key ≠ (withTables (onBank uh)).cur.1 :=
  ⟨⟨by decide +kernel, by decide +kernel⟩, by unfold Quiet; decide +kernel, by decide +kernel⟩

theorem witness_TrapWithoutHandler : sc.units.get? 0 = some uc ∧ classOf aCause.code = .u ∧ uc.killed = none ∧ uc.roll = none ∧ uc.served = none ∧
    uc.cause = none ∧ uc.drained sc 0 = true ∧ uc.r.tvec.getLsbD 24 = false ∧ ui.inh = true ∧ ({ uc with ops := [busyOp] } : Machine.Unit).drained sc 0 = false ∧
    ({ uc with cause := some aCause } : Machine.Unit).cause.isSome = true := by decide +kernel

theorem witness_TrapReturn : ui.inh = true ∧ ui.cause2 = none ∧ ui.owed = [] ∧ ui.r.tres.getLsbD 27 = false ∧ uc.inh = false ∧
    ({ ui with r := { ui.r with tres := 2 ^ 27 } } : Machine.Unit).r.tres.getLsbD 27 = true := by decide +kernel

/-- Fault 1, unanswered, of a unit on bank 0 of hearth 1. -/
def sf : State :=
  { sc with
    ring := { sc.ring with open_ := [(1, 2)], nextFid := 2 }
    units := sc.units.put 2 { uc with served := some { cause := { aCause with code := 0x20 }, fid := 1, posted := true, answer := none } } }

theorem witness_FaultAnswers : ((uc.setS 7 1).sreg 7).toNat = 1 + 0 * 2 ^ 32 ∧ answerOf 0 = some .resume ∧
    ((answerFault (putUnit sf sf.cur.1 { uc with sealed := true }) 1 .resume).bind fun s => s.units.get? 0).isSome = true ∧
    2 ^ 34 ≤ ((uc.setS 7 (2 ^ 34)).sreg 7).toNat ∧ ((uc.setS 7 (3 * 2 ^ 32)).sreg 7).toNat / 2 ^ 32 = 3 ∧ (∀ e ∈ sf.ring.open_, e.1 ≠ 0) ∧
    sf.ring.open_.find? (fun e => e.1 = 1) = some (1, 2) ∧ ((sf.units.get? 2).bind (·.served)).isSome = true := by decide +kernel

/-- A ring of 16 entries at the bottom of the Clearing, none, and values of each kind that is refused. -/
theorem witness_FaultRingWrite : ((uc.setS 7 (BitVec.ofNat 64 (clrBase + 4 * 2 ^ 48))).sreg 7).toNat = clrBase + 4 * 2 ^ 48 + 0 * 2 ^ 52 ∧ clrBase < 2 ^ 48 ∧
    sc.ring.open_ = [] ∧ sf.ring.open_ ≠ [] ∧ clrBase % 4096 = 0 ∧ physLvl clrBase = some 1 ∧ physLvl 0 ≠ some 1 ∧ 64 % 4096 ≠ 0 ∧
    ((uc.setS 7 (BitVec.ofNat 64 (2 ^ 52))).sreg 7).toNat = 0 + 0 * 2 ^ 48 + 1 * 2 ^ 52 := by decide +kernel

theorem witness_PrivilegedResults : privileged sc uc = true ∧ uc.next 1 (actOf .seq) ≠ none ∧ detectorOk (uc.sreg 0) = true ∧
    ((uc.setS 7 65535).sreg 7).toNat ≤ 65535 ∧ detectorOk (uc.setS 7 (2 ^ 21) |>.sreg 7) = false ∧ uc.sreg 0 = 0 ∧ 65535 < (uc.sreg 4).toNat ∧
    2 ≤ (2 : BitVec 2).toNat := by decide +kernel

/-- A REMAP of page 0 of object 1 after a number of steps; the object on no other module, or on this one as its device. -/
def remapAt (n : Nat) (dev : Option Nat) : Remap := { step := n, pte := 0x1C000, old := clrBase, key := 0, sh := 14, dev := dev, ad := 0 }

/-- Page 0 of object 1 to the next frame of the Clearing; and a copy that the export table, which is empty, refuses. -/
theorem witness_RemapResults : ((objAt sc 0 1).map fun e => (e.st, e.psc, e.lvl, decide (0 < (e.size + 2 ^ 14 - 1) / 2 ^ 14))) = some (1, 0, 1, true) ∧
    (clrBase + 0x4000) % 2 ^ pageShift 0 = 0 ∧ physLvl (clrBase + 0x4000) = some 1 ∧ uc.tnctx = 0 ∧
    (walk sc 0 1 0).2 = .ok { ctx := 0, oid := 1, page := 0, fa := clrBase, sh := 14, key := 0, lvl := 1, dev := 0, size := 0x20000, pte := 0x1C000, a := false, d := false } ∧
    ({ uc with sealed := true } : Machine.Unit).next 1 (actOf .seq) ≠ none ∧
    (∀ n < 6, (({ uc with remap := some (remapAt n none) } : Machine.Unit).remap.map (·.step)) = some n) ∧ uc.replay = [] ∧
    ({ uc with remap := none } : Machine.Unit).next 1 (actOf .seq) ≠ none := by decide +kernel

theorem witness_RemapRefused : copyPage sc 0 0 (remapAt 2 (some Config.deviceId.toNat)) (clrBase + 0x4000) = (sc, false) := by
  have h : sc.remoteIn = [] := by decide +kernel
  simp [copyPage, remapAt, allowsIn, h]

/-! ## Witnesses: vector words -/

/-- A strand with a configuration, and a unit that runs it on a stream, with the capability registers of `uc`; every row counts as written, sq1 holds an entry. -/
def strand (cfg : Tab Word) : Strand :=
  let r := { benchStrand [0, 0] with cfg := cfg }
  { r with rcd := { r.rcd with caps := uc.r.c } }
def uv (str : Stream) (cfg : Tab Word) : Machine.Unit :=
  { uc with
    written := BitVec.allOnes 192
    sq := vmodify uc.sq 1 fun _ => { entries := [7], part := [], producer := some (.vs false) }
    seqr := uc.seqr.set str { Seqr.idle with run := some (strand cfg) } }
/-- Rows 4 and 5 hold 2 and 3 in lane 0. -/
def sv (str : Stream) (cfg : Tab Word) : State := { sc with units := sc.units.put 0 (uv str cfg), rows := [(4, 2), (5, 3)] }

theorem witness_SourceValues : (sv .va []).rowPoison.get? (rowBase (sv .va []) 0 (uv .va []) + (0 + (4 : BitVec 6).toNat)) = none ∧ 255 < width 3 ∧ 127 < width 1 := by
  decide +kernel

/-- INT32 lanes (ETYPE 1): every word of the table, its result first row 6. -/
theorem witness_VectorLaneResults : ∀ e ∈ vectorRows, VaIssues (sv .va [(1, 1)]) (uv .va [(1, 1)]) (strand [(1, 1)]) ([.v 4, .sq 1] ++ if e.2.1 then [.v 6] else []) false false
    6 1 ([2, 7] ++ if e.2.1 then [0] else []) := by unfold VaIssues Running; decide +kernel

/-- FP32 is taken by every one-source word, INT32 not by VEXP2; a conversion FP32 to BF16. -/
theorem witness_VectorUnaryResults : VaIssues (sv .va []) (uv .va []) (strand []) [.v 4] false false 6 1 [2] ∧
    (∀ e ∈ vectorRows1, e.2.1 (etypeOf .va (strand []).cfg) = true) ∧ (cvtKind 0 2).isSome = true ∧
    (∃ e ∈ vectorRows1, e.2.1 (etypeOf .va (strand [(1, 1)]).cfg) = false) ∧ Running (sv .va [(1, 1)]) .va (uv .va [(1, 1)]) (strand [(1, 1)]) := by
  unfold VaIssues Running; decide +kernel

theorem witness_VectorCompareResults : VaIssues (sv .va []) (uv .va []) (strand []) [.v 4, .v 5] true false (3 : PReg).toNat 1 [2, 3] := by
  unfold VaIssues Running; decide +kernel

/-- Every form on FP32 or INT32; two sources for VSEL and VPERM; VQRES on BF16 to a raw 8-bit format; VTOPKM with K = 1. -/
theorem witness_VectorRowResults : (∀ e ∈ vectorForms, VaIssues (sv .va []) (uv .va []) (strand []) [.v 4] false e.2.two 6 0 [2]) ∧
    (∀ e ∈ vectorForms, VaIssues (sv .va [(1, 1)]) (uv .va [(1, 1)]) (strand [(1, 1)]) [.v 4] false e.2.two 6 0 [2]) ∧
    (∀ e ∈ vectorForms, e.2.ok 0 [] = true ∨ e.2.ok 1 [(1, 1)] = true) ∧ anyLane 0 ((uv .va []).vpreg 0) = true ∧
    VaIssues (sv .va []) (uv .va []) (strand []) [.v 4, .v 5] false false 6 0 [2, 3] ∧ qresForm.ok 2 [(1, 2), (4, 4)] = true ∧
    VaIssues (sv .va [(1, 2), (4, 4)]) (uv .va [(1, 2), (4, 4)]) (strand [(1, 2), (4, 4)]) [.v 4, .v 5] false true 6 0 [2, 3] ∧
    VaIssues (sv .va []) (uv .va []) (strand []) [.v 4, .v 5, .v 4, .v 5] false true 6 0 [2, 3, 2, 3] ∧ bits (cfgRead .va [] 3) 7 0 + 1 ≤ width 0 := by
  refine ⟨?_, ?_, by decide +kernel, by decide +kernel, ?_, by decide +kernel, ?_, ?_, by decide +kernel⟩ <;> (unfold VaIssues Running; decide +kernel)

theorem witness_IntegerReductions : ({ et := 1, cfg := [], mask := 1, rows := [2], lfsr := 1 } : VaIn).et = 1 ∧
    ({ et := 1, cfg := [], mask := 1, rows := [2], lfsr := 1 } : VaIn).on 0 = true ∧
    ((reduceForm (fun x p q => (minMaxLane x.et false p q, 0)) (extreme true)).f { et := 1, cfg := [], mask := 1, rows := [2], lfsr := 1 }).lo =
      List.replicate 128 2 := by decide +kernel

/-- A write-back and a row write in flight. -/
def opVa : Op := { busyOp with str := .va, body := .va ⟨[(6, 9, 1, 32)], [(3, 1)]⟩ }
def opVl : Op := { busyOp with body := .vl ⟨Cap.none, 0, [], 6, 0, 1, some 7⟩ }
def uw : Machine.Unit := { uc with ops := [opVa, opVl] }

theorem witness_WriteBackResults : (onBank uw).units.get? (placeKey ⟨0, false⟩) = some uw ∧ Tab.risingFrom none (onBank uw).rows = true ∧
    findOp uw .va 1 = some opVa ∧ findOp uw .vl 1 = some opVl ∧ opVa.poison = none ∧ opVa.readsT = [] ∧ opVa.writesT = [] ∧ uw.puts = [] ∧
    (∀ q ∈ uw.ops, q.str = .vl → 1 ≤ q.num) ∧ uw.killed = none := by decide +kernel

/-- VL and VS through generator 0 with c1 (object 0 in HBM) as its capability, stride 1 and an extraction pattern of 8-bit fields; INT32 lanes, 0 enabled by vp1. -/
def vcfg : Tab Word := [(1, 1), (0x40, 0x387), (0x41, 1), (0x80, 1), (0x86, 1)]
def um (str : Stream) : Machine.Unit := (uv str vcfg).setVp 1 1
def sm (str : Stream) : State := { sc with units := sc.units.put 0 (um str), rows := [(4, 2), (5, 3)] }

/-- All the conditions of a VL of form `f` on vp1, in bits that compute. -/
def loadMeets (f : VlForm) : Bool :=
  let s := sm .vl; let u := um .vl; let r := strand vcfg
  let q := readSrcs s.cur.1 (row0Of .vl r.cfg) 1 r.rcd.push f.src s u
  let w0 := accessPlaces q.1 u r .vl f 0 13 1 (q.2.2.1.headD 0) (vlMask u 1 (width 1))
  let cap := agCap .vl r 0
  let sd := sideOf q.1 s.cur.1 u cap 13
  !rowsOut s u ((row0Of .vl r.cfg + 6) :: f.src.flatMap (srcRows (row0Of .vl r.cfg))) && sqReady u (f.src.flatMap srcSq) &&
  (u.vpreg 1).getLsbD 0 && cap.tag && (cap.rights &&& rR == rR) &&
  !vlBad f w0.1 (rawLane sd (w0.2.2.map (·.bit))) w0.2.1 1 (laneStride .vl r 0).1 (laneStride .vl r 0).2 &&
  !(match f with
    | .field bf => (patternOf r bf.toNat).bad w0.1
    | .plain | .gather _ | .trans | .bcast => false) &&
  ((f.src.flatMap (srcRows (row0Of .vl r.cfg))).all fun n => !(pendingVl u).elem n) &&
  (sideFault q.1 u sd w0.1 rR w0.2.1 [0, 2] (match f with
    | .field _ => [8 * agAddr .vl r 0]
    | .plain | .gather _ | .trans | .bcast => w0.2.2.map (·.bit)) (w0.2.2.map (·.bit))).isNone &&
  tilesReady u (tilesOf q.1 s.cur.1 u sd w0.2.1 true (w0.2.2.map (·.bit))) [] && !slips u .vl && !splits q.1 u sd w0.2.1 true (w0.2.2.map (·.bit))

theorem witness_VectorLoadIssue : (∀ e ∈ loadForms, loadMeets (e.2 (.v 4) 0) = true) ∧ Running (sm .vl) .vl (um .vl) (strand vcfg) ∧
    (∀ i < width (etypeOf .vl vcfg), ((um .vl).vpreg 2).getLsbD i = false) ∧ ((um .vl).sqAt 1).entries = [7] := by unfold Running; decide +kernel

/-- The same of a VS. -/
def storeMeets (src : Src) (f : VlForm) (ofs : Bool) : Bool :=
  let s := sm .vs; let u := um .vs; let r := strand vcfg
  let q := readSrcs s.cur.1 (row0Of .vs r.cfg) 1 r.rcd.push (src :: f.src) s u
  let w0 := accessPlaces q.1 u r .vs f 0 13 1 (q.2.2.1.getD 1 0) (vlMask u 1 (width 1))
  let cap := agCap .vs r 0
  let sd := sideOf q.1 s.cur.1 u cap 13
  !rowsOut s u ((src :: f.src).flatMap (srcRows (row0Of .vs r.cfg))) && sqReady u ((src :: f.src).flatMap srcSq) && (u.vpreg 1).getLsbD 0 && cap.tag &&
  (cap.rights &&& rW == rW) && !vlBad f w0.1 (rawLane sd (w0.2.2.map (·.bit))) w0.2.1 1 (laneStride .vs r 0).1 0 && !w0.1.b48 &&
  (sideFault q.1 u sd w0.1 rW w0.2.1 [0, 2] (w0.2.2.map (·.bit)) (w0.2.2.map (·.bit))).isNone &&
  !tileWriteFault u (tilesOf q.1 s.cur.1 u sd w0.2.1 true (w0.2.2.map (·.bit))) &&
  tilesReady u [] (tilesOf q.1 s.cur.1 u sd w0.2.1 true (w0.2.2.map (·.bit))) &&
  (!ofs || ((src :: f.src).flatMap (srcRows (row0Of .vs r.cfg))).all fun n => !unwritten u n) && !slips u .vs &&
  !splits q.1 u sd w0.2.1 true (w0.2.2.map (·.bit))

theorem witness_VectorStoreIssue : (∀ e ∈ storeForms, storeMeets (e.2.1 (.v 4) 5) (e.2.2.1 (.v 4)) e.2.2.2 = true) ∧ Running (sm .vs) .vs (um .vs) (strand vcfg) ∧
    (if etypeOf .vs vcfg = 1 then 1 else 0) = 1 ∧ vsMayPush ((um .vs).sqAt 1) = true ∧ ((um .vs).sqAt 1).entries.length < 4 := by unfold Running; decide +kernel

/-! ## Witnesses: engine commands and copies -/

/-- Engine 0 of a class, awake with operand sets loaded and serving slot 0, which holds an open lease of it; tiles 1 (full) and 2 (`f`) are registered
over object 2 (the Pantry); both banks of the partition have format `fmt`; the selection at tile 1 names block 0 and ends. -/
def eng0 (cls : EngineClass) : EngineId := ⟨0, cls, 0⟩
def lease0 (cls : EngineClass) : LeaseSlot :=
  { eng := eng0 cls, handle := 0, step := 0, isOpen := true, evicted := false, start := 0, ends := 4096, prio := 0, order := 0, load := none }
def tile0 (f : Bool) (cur len : Nat) : Tile := { f := f, reads := 0, remain := 0, reg := true, cap := cap 2 0x7F 0 len cur }
def ue (cls : EngineClass) (f : Bool) (cfg : Tab Word) : Machine.Unit :=
  let v := uv .m []
  { v with
    leases := vmodify v.leases 0 fun _ => some (lease0 cls)
    cpl := { v.cpl with tile := vmodify (vmodify v.cpl.tile 1 fun _ => tile0 true 0 (if f then 2 else 1)) 2 fun _ => tile0 f 0x10000 2, mactive := vmodify v.cpl.mactive 0 fun _ => cfg } }
def awake0 : Engine :=
  { power := .awake, zero := false, ctx := some 0, key := some (0, 0), retains := none,
    mem := { EngMem.empty with bPend := some { fmt := 3, fmts := [], b48 := false, elems := [], scales := [] }, wPend := some [], scores := [5] }, scan := false }
def se (cls : EngineClass) (f : Bool) (cfg : Tab Word) (fmt : Double) : State :=
  { sd with
    units := sd.units.put 0 (ue cls f cfg)
    engines := sd.engines.put (engKey (eng0 cls)) awake0
    partitions := [(0, { lid := uc.lid, ctx := 0, grove := 0, banks := [0, 1], bfr := [(0, fmt), (1, fmt)] })]
    mem := (sd.mem.put (pantryAddr 0 8) 0xFF).put (pantryAddr 0 9) 0xFF }

/-- Every condition of a command, in bits that compute. -/
def commandMeets (i : Instr) (cls : EngineClass) (f : Bool) (cfg : Tab Word) (fmt : Double) : Bool :=
  let s := se cls f cfg fmt; let u := ue cls f cfg
  match commandOf s u (strand []) i with
  | none => false
  | some c =>
    let l := lease0 cls
    let p := c.plan s u (engAt s l.eng).mem (u.cpl.mactive.toList.getD c.ls.toNat []) (c.tiles.map fun t => operandOf s s.cur.1 u t.1 t.2)
    decide (c.acc + c.n ≤ 192 ∧ c.acc + c.n ≤ unitRows s u) && u.leases.toList.getD c.ls.toNat none == some l && l.eng.cls == c.cls &&
    c.tiles.all (fun t => (u.tileAt t.1).reg) && leaseServes s s.cur.1 c.ls.toNat l && u.matAt.isNone && u.slotIdle c.ls.toNat &&
    tilesReady u (p.readTiles s s.cur.1 u) (p.writeTiles s s.cur.1 u) && !p.bad && p.out ≤ unitRows s u &&
    (p.rd ++ p.wr).all (fun x => !x.o.bad x.n x.w x.scaled) && u.closing.isEmpty && (p.fault s u).isNone && p.rows.all (fun n => !unwritten u n) && !strictMode s u

/-- Each command, with its class, whether tile 2 is full, the slot's configuration and the banks' format. -/
def commands : List (Instr × EngineClass × Bool × Tab Word × Double) :=
  [(.mlb 0 1, .griddle, true, [], 3), (.mza 0 4 1, .griddle, true, [], 3), (.mla 0 4 1 1, .griddle, true, [], 0), (.mmul 0 4 1 1, .griddle, true, [], 3),
   (.mmac 0 4 1 1, .griddle, true, [], 3), (.mprom 0 1, .griddle, true, [], 3), (.mpert 0 1 1 1, .griddle, true, [], 3), (.wld 0 1, .whisk, true, [], 14),
   (.wmul 0 4 1 0, .whisk, true, [], 9), (.wmac 0 4 1 0, .whisk, true, [], 9), (.svscore 0 1 2 0, .sieve, true, [], 3), (.svtopk 0 2 0, .sieve, false, [], 0),
   (.svgath 0 1 2, .sieve, false, [(0x11, 1)], 0), (.ktexp 0 4 1 0, .kettle, true, [], 3), (.ktsmax 0 4 1 0, .kettle, true, [], 3),
   (.gtqnt 0 1 2 4, .grater, false, [], 3), (.gtsum 0 1 2 0, .grater, false, [], 3), (.spred 0 1 2 0, .stockpot, false, [], 3), (.spbc 0 1 0, .stockpot, true, [], 3)]

theorem witness_EngineCommandIssue : (commands.all fun x => commandMeets x.1 x.2.1 x.2.2.1 x.2.2.2.1 x.2.2.2.2) = true ∧
    Running (se .sieve false [(0x11, 1)] 0) .m (ue .sieve false [(0x11, 1)]) (strand []) ∧
    SourceFits (se .sieve false [(0x11, 1)] 0) (ue .sieve false [(0x11, 1)]) (strand []) (.svgath 0 1 2) := by
  unfold Running SourceFits; decide +kernel

/-- Too many rows; a slot with no lease, an evicted one, another class; a tile that is not registered. -/
theorem witness_EngineCommandTraps : 192 < 191 + 2 ∧ 4 + 1 ≤ unitRows (se .whisk true [] 9) (ue .whisk true []) ∧
    (ue .whisk true []).leases.toList.getD 1 none = none ∧ (ue .whisk true []).leases.toList.getD 0 none = some (lease0 .whisk) ∧
    (lease0 .whisk).eng.cls ≠ EngineClass.griddle ∧ ((ue .whisk true []).tileAt 3).reg = false ∧
    ((ue .griddle true []).tileAt 3).reg = false ∧ ({ lease0 .whisk with evicted := true } : LeaseSlot).evicted = true ∧
    Running (se .whisk true [] 9) .m (ue .whisk true []) (strand []) := by unfold Running; decide +kernel

/-- MAT.AT before a command (bits 31:26 of the next word are 1 to 0x13) and before others, and at the strand's end. -/
theorem witness_StampedCommands : (strand []).off + 1 < (strand []).rcd.len ∧ ((benchStrand [0, 0x04000000]).store[1]?).map (·.1) = some 0x04000000 ∧
    1 ≤ (0x04000000 : Word).toNat / 2 ^ 26 ∧ (0x04000000 : Word).toNat / 2 ^ 26 ≠ 0x14 ∧ (0x04000000 : Word).toNat / 2 ^ 26 ≠ 0x15 ∧
    (((strand []).store[1]?).map (·.1)) = some 0 ∧ (0 : Word).toNat / 2 ^ 26 ∈ [0x00, 0x14, 0x15] ∧
    (benchStrand [0]).rcd.len ≤ (benchStrand [0]).off + 1 := by decide +kernel

/-- A command of slot 0 in flight on the engine that serves it. -/
def cmdOp (c : MCmd) (cls : EngineClass) : Op :=
  { busyOp with str := .m, body := .m { cmd := c, slot := 0, eng := eng0 cls, cap := Cap.none, rows := [], next := 0 } }
def sEng (c : MCmd) : State :=
  let s := se .griddle true [] 3
  { s with units := s.units.put 0 { ue .griddle true [] with ops := [cmdOp c .griddle] } }

theorem witness_EngineCompletions : ∀ c ∈ [MCmd.mza 4 2, .mprom 3, .mpert 1 2 3], ∃ u m, CommandServed (sEng c) ⟨0, false⟩ 1 u (cmdOp c .griddle) m ∧ m.cmd = c ∧
    closeOf u (cmdOp c .griddle) = none ∧ heldForClose (sEng c) 0 u (cmdOp c .griddle) = false ∧ Tab.risingFrom none (sEng c).rows = true := by
  intro c h
  refine ⟨{ ue .griddle true [] with ops := [cmdOp c .griddle] }, _, ⟨rfl, ?_, rfl, ?_, ?_, ?_⟩, rfl, ?_, ?_, ?_⟩ <;> revert c h <;> decide +kernel

theorem witness_IntegerMultiply : ({ acc := 0, rows := 1, int := true, blocks := 0, vals := [5], wins := [] } : Run).int = true ∧
    (List.replicate 128 [blkOf [127] [(10, 3)]]).length = 128 ∧ ([5] : List Row)[0]? = some 5 ∧ ((List.replicate 128 [blkOf [127] [(10, 3)]])[127]?).isSome = true := by
  decide +kernel

/-- Four scores, the first forced, k = 1. -/
theorem witness_BlockSelection : 3 < ([5, 7, 6, 7] : List Nat).length ∧ 0 < bits (cfgRead .m [(0x10, 1)] 0x10) 3 0 ∧
    ¬ (1 < bits (cfgRead .m [(0x10, 1)] 0x10) 3 0 ∨ 4 ≤ 1 + bits (cfgRead .m [(0x10, 1)] 0x10) 7 4) ∧
    (∀ x ∈ selection [5, 7, 6, 7] [(0x10, 1)] 1, x.1 ≠ 2) := by decide +kernel

theorem witness_CopySetUp : Running { sc with units := sc.units.put 0 (uv .d []) } .d (uv .d []) (strand []) ∧ (groveAt sc 15).retired = false ∧
    (groveAt { sc with groves := sc.groves.put 15 { Grove.initial with retired := true } } 15).retired = true ∧ (0x8000 : BitVec 16).getLsbD 15 = true ∧
    sc.time < 2 ^ 64 ∧ (sc.time : Int) + (((0xFFFFFFFF : Word).toNat : Int) - sc.time).bmod (2 ^ 32) = -1 ∧ isTwice sc (uv .d []) = false := by unfold Running; decide +kernel

theorem witness_CopyGeometry : (∀ d ∈ ([⟨3, none⟩, ⟨2, some 64⟩] : List Dim), 1 ≤ d.extent) ∧ 5 < prodExt [⟨3, none⟩, ⟨2, some 64⟩] := by decide +kernel

/-- A copy of one FP32 element within object 0, source by generator 0 (c1), destination by generator 1 (c5). -/
def dcfg : Tab Word := [(0x80, 1), (0x88, 5)]
def ud : Machine.Unit := uv .d dcfg
def sdd : State := { sc with units := sc.units.put 0 ud }
def aCopy : CopyDesc := copyDesc sdd ud (strand dcfg) 0 1 1 1 1 ud.setup

theorem witness_CopyIssue : Running sdd .d ud (strand dcfg) ∧ CopyIssues sdd ud 1 aCopy ∧ ud.puts = [] ∧ ud.setup = DSetup.none := by
  unfold Running CopyIssues; decide +kernel

/-- The copy in flight: not started, started, and with its element written. -/
def copyOp (started : Bool) (at_ : Option Int) (next : Nat) : DOp :=
  { desc := aCopy, startAt := at_, started := started, next := next, block := none, lfsr := none, fill := false, refill := false }
def flight (x : DOp) : Op := { busyOp with str := .d, body := .d x }
def uf (x : DOp) : Machine.Unit := { ud with ops := [flight x], cpl := { ud.cpl with issued := ud.cpl.issued.set .d 1 } }
def sfl (x : DOp) : State := { sdd with units := sdd.units.put 0 (uf x) }

/-- One granule of the copy moves, or is held at a sync object's line or a push that D may not make: its reads, its batch of writes and its destination, or its
elements, as the statement names them. -/
def granuleMoves (s : State) (u : Machine.Unit) (o : Op) (x : DOp) (sync : Bool := false) (wrong : Bool := false) : Bool :=
  let g := geoOf s 0 u x.desc
  let grp := groupFrom g.zd g.pd x.next
  let es := range' x.next (x.next + grp.length)
  let src := (sourceElems g x es).map fun e => g.ps.getD e 0
  mayWrite s 0 u o x g && !holdsBack u x.desc.bind (settled g.zd grp (g.pd[x.next + grp.length]?)).length (x.next + grp.length = g.pd.length) &&
  match moveGrans 0 u g.src (granSpans g.zs src) s with
  | (s1, .inr (gs, mk)) =>
    let b := es.foldl (batchElem g x.desc gs mk) (charge s1 (groveOf 0) (if g.raw then 0 else scaleGrans g.src src), Batch.empty (genOf u x) x.block)
    match x.desc.red with
    | none => match reachDest 0 u g x.desc.mask (leastByte (b.2.ws.map (·.bit))) (granSpans g.zd (b.2.ws.map (·.bit))) b.1 with
      | (s3, .inr ((gr, .at key a :: ds) :: l)) => ds.isEmpty && l.isEmpty && (remoteTakes s3 u.ctx [(gr, [.at key a])]).2 &&
          destSync s3 [(gr, [.at key a])] == sync && wrongPush u x.desc.bind == wrong
      | _ => false
    | some (rop, id) => match applyAll 0 u g o.num rop id b.2.mark (List.zip es b.2.ws) (noteServed b.1 128 (reduceBanks s 0 u x g)) with
      | (_, n, _, none) => n == 1 && !sync
      | (_, n, _, some (.sync _)) => n == 0 && sync && ((0, genOf u x) :: b.2.trail)[n]?.isSome
      | _ => false
  | _ => false

/-- The same copy into stream register 2, and the same as a sum at the destination. -/
def boundCopy : DOp := { copyOp true none 0 with desc := { aCopy with bind := some 2 } }
def sumCopy : DOp := { copyOp true none 0 with desc := { aCopy with red := some (0, 7) } }

/-- The destination's line is a sync object's; stream register 2 has another producer; no port reaches the other module. -/
def copyPa : Nat := 0x20000
def overSync (x : DOp) : State := { sfl x with syncs := [(copyPa / 64)] }
def othersSq (u : Machine.Unit) : Machine.Unit := u.setSq 2 { SqReg.empty with entries := [1], producer := some (.vs false) }

def noPort : State := { sc with ctxs := sc.ctxs.upd 0 fun r => { r with body := { r.body with emask := 0 } } }

theorem witness_CopyRefused : remoteTakes noPort 0 [(0, [.remote 5 0x100])] = (noPort, false) := by decide +kernel

/-- The tick of a copy that has none has come; that of one at tick 8 has not at tick 0. -/
theorem witness_TickCome : TickCome sdd ud none ∧ TickCome sdd ud (some (-3)) ∧ ¬ TickCome sdd ud (some 8) :=
  ⟨⟨fun _ h => (Option.some_ne_none _ h.symm).elim, fun _ _ h => (Option.some_ne_none _ h.symm).elim⟩,
    ⟨fun t h => by cases h; decide, fun _ _ h => (Option.some_ne_none _ h.symm).elim⟩, fun h => absurd (h.1 8 rfl) (by decide)⟩

theorem witness_CopyCourse : CopyInFlight (sfl (copyOp false none 0)) ⟨0, false⟩ 1 (uf (copyOp false none 0)) (flight (copyOp false none 0)) (copyOp false none 0) ∧
    (uf (copyOp false none 0)).ladle = none ∧ (uf (copyOp false none 0)).inh = false ∧ (uf (copyOp false none 0)).cause = none ∧
    (uf (copyOp false none 0)).served = none ∧ (uf (copyOp false none 0)).roll = none ∧
    ({ uf (copyOp false none 0) with cause := some aCause } : Machine.Unit).cause.isSome = true ∧
    mayWrite (sfl (copyOp false none 0)) 0 (uf (copyOp false none 0)) (flight (copyOp false none 0)) (copyOp false none 0) (geoOf sdd 0 ud aCopy) = false ∧
    granuleMoves (sfl (copyOp true none 0)) (uf (copyOp true none 0)) (flight (copyOp true none 0)) (copyOp true none 0) = true ∧
    granuleMoves (sfl boundCopy) (uf boundCopy) (flight boundCopy) boundCopy = true ∧
    granuleMoves (sfl sumCopy) (uf sumCopy) (flight sumCopy) sumCopy = true ∧
    granuleMoves (overSync (copyOp true none 0)) (uf (copyOp true none 0)) (flight (copyOp true none 0)) (copyOp true none 0) true = true ∧
    granuleMoves (overSync sumCopy) (uf sumCopy) (flight sumCopy) sumCopy true = true ∧
    granuleMoves (sfl boundCopy) (othersSq (uf boundCopy)) (flight boundCopy) boundCopy false true = true ∧
    aCopy.red = none ∧ aCopy.bind = none ∧ aCopy.stamp = none ∧ prodExt aCopy.srcDims ≤ (copyOp true none 1).next := by
  refine ⟨⟨rfl, by decide +kernel, rfl⟩, ?_⟩; decide +kernel

/-- A stamp at 0xF8 of object 0. -/
def stamped : DOp := { copyOp true none 1 with desc := { aCopy with stamp := some (cap 0 0x7F 0 2 0xF8, 0xF8) } }

theorem witness_stamp : stamped.desc.stamp = some (cap 0 0x7F 0 2 0xF8, 0xF8) ∧ spent (sfl stamped) 0 = false ∧
    (match reachTo (sfl stamped) 0 (uf stamped) 0 0xF8 0xFF true with
      | (s, .at key pa) => decide (key = 0 ∧ pa = 0x200F8) && !isSync s pa && !isTwice s (uf stamped)
      | _ => false) = true ∧ (copyOp true none 1).refill = false ∧ ∀ q ∈ (uf stamped).ops, q.str = .d → 1 ≤ q.num := by
  decide +kernel

/-! ## Witnesses: booking, leases, launches and tickets -/

/-- A descriptor of one step at 0x100 of object 0: Sieve 0 for one slot (Table 12.3); with `cls` 9 it is malformed. -/
def sb (cls : Byte) : State := { sc with mem := ((sc.mem.put 0x20110 cls).put 0x20112 1).put 0x20118 1 }
/-- What a Sieve step reads as. -/
def aDesc : List Nat := [0, 0, 0x10002, 1, 0, 0]

/-- The conditions of DescriptorRead, in bits that compute. -/
def descriptorOk (s : State) (u : Machine.Unit) (cp : Cap) (steps : Nat) (ds : List Nat) : Bool :=
  u.replay.isEmpty && !spent s (groveOf s.cur.1) && (accCheck s u cp (rR + rW) cp.cursor 16 16 [0, 1]).isNone &&
  match spanReach (hearthOf s.cur.1) u.ctx cp.oid false [cp.cursor] s with
  | (s1, .inr [(c, key, pa)]) => c = cp.cursor && nbits (leNat (viewBytes s1 key pa 8)) 2 0 + 1 = steps &&
    (accCheck s1 u cp (rR + rW) cp.cursor (16 + 32 * steps) 16 [0, 1]).isNone &&
    (match spanReach (hearthOf s.cur.1) u.ctx cp.oid false ((List.range (1 + 2 * steps)).map fun i => cp.cursor + 16 * i) s1 with
      | (s2, .inr ps) => ps.all (fun p => !isSync s2 p.2.2) &&
        (match spanRead ps (charge s2 (groveOf s.cur.1) (descGrans cp.cursor steps)) with
          | (_, bs, none) => (doublesOf bs (2 + 4 * steps)).map BitVec.toNat = ds
          | _ => false)
      | _ => false)
  | _ => false

theorem descriptorRead {s : State} {u : Machine.Unit} {cp : Cap} {steps : Nat} {ds : List Nat} (h : descriptorOk s u cp steps ds = true) :
    ∃ s', DescriptorRead s s' u cp steps ds := by
  unfold descriptorOk at h
  simp only [Bool.and_eq_true, List.isEmpty_iff, Bool.not_eq_true', Option.isNone_iff_eq_none] at h
  obtain ⟨⟨⟨h1, h2⟩, h3⟩, h⟩ := h
  split at h
  case h_2 => cases h
  case h_1 s1 c key pa e1 =>
    simp only [Bool.and_eq_true, decide_eq_true_eq, Option.isNone_iff_eq_none] at h
    obtain ⟨⟨⟨hc, h4⟩, h5⟩, h⟩ := h
    subst hc
    split at h
    case h_2 => cases h
    case h_1 s2 ps e2 =>
      simp only [Bool.and_eq_true, List.all_eq_true, Bool.not_eq_true'] at h
      obtain ⟨h6, h⟩ := h
      split at h
      case h_2 => cases h
      case h_1 s3 bs e3 =>
        exact ⟨s3, fun p hp => absurd (h1 ▸ hp) List.not_mem_nil, h2, h3, s1, key, pa, s2, ps, bs, e1, h4, h5, e2, h6, e3, of_decide_eq_true h⟩

/-- A request that is placed, one refused as malformed, and one for which a bound beyond the horizon leaves no slot. -/
theorem witness_BookingResults : (∃ s', DescriptorRead (sb 2) s' uc (uc.creg 1) 1 aDesc) ∧ (∃ s', DescriptorRead (sb 9) s' uc (uc.creg 1) 1 [0, 0, 0x10009, 1, 0, 0]) ∧
    (∀ b ∈ [false, true], (descOf b uc.ctx 0 uc.who [0, 0, 0x10009, 1, 0, 0]).allowed (sb 9) = none ∧
      ((descOf b uc.ctx 0 uc.who aDesc).allowed (sb 2)).isSome = true ∧
      (((descOf b uc.ctx 0 uc.who aDesc).allowed (sb 2)).map fun w => (search (sb 2) w 5 b).2.1.isSome) = some true ∧
      (((descOf b uc.ctx 0 uc.who aDesc).allowed (sb 2)).map fun w => (search (sb 2) w 5000 b).2.1.isSome) = some false) ∧
    (match (spanReach 0 uc.ctx 0 true ((List.range 3).map fun i => 0x100 + 16 * i) (sb 2)).2 with
      | .inr ps => decide (ps.length = 3)
      | _ => false) = true ∧
    (({ uc.setS 1 (resultWord 0x12 0 0) with sealed := true } : Machine.Unit).next 1 (actOf .seq)).isSome = true :=
  ⟨descriptorRead (by decide +kernel), descriptorRead (by decide +kernel), by decide +kernel⟩

/-- The chain that the search places for the descriptor, held or committed, the state that holds it, and s7 naming it. -/
def aChain (reserve : Bool) : Chain :=
  (((descOf reserve uc.ctx 0 uc.who aDesc).allowed (sb 2)).bind fun w => (search (sb 2) w 5 reserve).2.1).getD (descOf reserve uc.ctx 0 uc.who aDesc).chain
def uk (reserve : Bool) : Machine.Unit := uc.setS 7 (BitVec.ofNat 64 (aChain reserve).handle.toNat)
def sk (reserve : Bool) : State := let s := enterChain (sb 2) (aChain reserve); { s with units := s.units.put 0 (uk reserve) }

theorem witness_NoDoubleBooking : ∀ b ∈ [false, true], ((descOf b uc.ctx 0 uc.who aDesc).allowed (sb 2)).map (fun w => decide (w.g < 16 ∧
    search (sb 2) w 5 b = (if b then 0x01 else 0x00, some (aChain b), []))) = some true ∧
    ∃ st ∈ (aChain b).steps, st.rem = false ∧ st.at 5 = true ∧ st.cls < 6 := by decide +kernel

/-- A hold in time, one that has expired and one whose slot has come; and a handle of no chain. -/
theorem witness_HoldResults : NamesChain (sk true) (uk true) 7 (aChain true) ∧ (aChain true).isHeld = true ∧
    (∀ st ∈ (aChain true).steps, st.expired (curSlot (sk true)) = false ∧ curSlot (sk true) < st.start - st.pfx) ∧
    (∃ st ∈ (aChain true).steps, st.expired (curSlot { sk true with time := 64 * 256 }) = true) ∧
    (∃ st ∈ (aChain true).steps, st.start - st.pfx ≤ curSlot { sk true with time := 64 * 5 }) ∧
    (∀ st ∈ (aChain true).steps, st.expired (curSlot { sk true with time := 64 * 5 }) = false) ∧
    ((releaseHolds (putUnit (sk true) 0 { uk true with sealed := true }) (aChain true)).units.get? 0).isSome = true ∧
    ((abandonChain (putUnit (sk false) 0 { uk false with sealed := true }) (aChain false).handle).units.get? 0).isSome = true ∧
    chainAt (sk true) (((uk true).sreg 2).truncate 32) = none ∧ ((uk true).sreg 2).toNat < 2 ^ 32 ∧ 2 ^ 32 ≤ ((uc.setS 7 (2 ^ 32)).sreg 7).toNat ∧
    (aChain false).isHeld = false := by unfold NamesChain; decide +kernel

/-- A committed step on its way to slot 1; a granted and a new open lease; a slot to give back. -/
def anOpen : OpenReq := { g := 0, cls := 2, key := 0, ls := 1, prio := 0, emask := 1, maxd := 1, tick := 0, order := 0, granted := some (eng0 .sieve, 0) }

/-- A booked step of the Ladle of hearth 0. -/
def ladleChain : Chain :=
  let d := descOf false uc.ctx 0 uc.who [0, 0, 0x10006, 1, 0, 0]
  ((d.allowed (sb 6)).bind fun w => (search (sb 6) { w with steps := w.steps.map fun st => { st with cmask := 1 } } 5 false).2.1).getD d.chain
def ladleStep : BStep := ladleChain.steps.getD 0 (stepOf 0 0 0)
def sLadle : State := { sc with books := [(chainKey ladleChain.handle, ladleChain)] }

theorem witness_LadleLease : NamesStep sLadle (uc.setS 7 (BitVec.ofNat 64 ladleChain.handle.toNat)) 7 ladleChain 0 0 ladleStep ∧ ladleStep.cls = 6 ∧
    ladleStep.ridx = hearthOf sLadle.cur.1 % 8 ∧ ladleChain.g = groveOf sLadle.cur.1 ∧ uc.ladle = none ∧ ladleStep.lease = none ∧
    (stepAt sLadle ladleChain.handle 0).map (fun st => decide (st.st ≠ .frozen ∧ 64 * ((st.rmd.map (·.start)).getD st.start) ≤ 64 * 5)) = some true := by
  unfold NamesStep; decide +kernel

theorem witness_LeaseResults :
    NamesStep (sk false) ((uk false).setS 7 (BitVec.ofNat 64 ((aChain false).handle.toNat + 2 ^ 40))) 7 (aChain false) 0 1 ((aChain false).steps.getD 0 (stepOf 0 0 0)) ∧
    clsOf ((aChain false).steps.getD 0 (stepOf 0 0 0)).cls = some .sieve ∧ (aChain false).g = groveOf (sk false).cur.1 ∧ slotTaken uc 1 = false ∧
    ((aChain false).steps.getD 0 (stepOf 0 0 0)).lease = none ∧ ((aChain false).steps.getD 0 (stepOf 0 0 0)).runs = false ∧
    slotTaken (ue .sieve true []) 0 = true ∧
    ({ se .sieve true [] 3 with openReqs := [anOpen] } : State).openReqs.find? (fun r => r.key = 0) = some anOpen ∧
    (engAt (se .sieve true [] 3) (eng0 .sieve)).power = .awake ∧ sc.openReqs.find? (fun r => r.key = 0) = none ∧
    ((uc.setS 7 (BitVec.ofNat 64 (2 + 0 * 2 ^ 4 + 1 * 2 ^ 8 + 1 * 2 ^ 24 + 4095 * 2 ^ 32))).sreg 7).toNat = 2 + 0 * 2 ^ 4 + 1 * 2 ^ 8 + 1 * 2 ^ 24 + 4095 * 2 ^ 32 ∧
    1 < 2 ^ classCount 2 ∧ classUnits 2 ≤ powerLimit sc 0 ∧ classUnits 2 ≤ grantUnits sc 0 ∧
    (ue .sieve true []).leases.toList.getD 0 none = some (lease0 .sieve) ∧
    (onBank { ue .sieve true [] with seqr := uc.seqr } |>.units.get? 0).map (·.streamBusy .m) = some false ∧
    (∀ ret ∈ [false, true], ((unleaseSlot (se .sieve true [] 3) 0 0 (lease0 .sieve) ret).units.get? 0).isSome = true) := by
  unfold NamesStep; decide +kernel

/-- The conditions of DoublesRead, in bits that compute. -/
def doublesOk (s : State) (u : Machine.Unit) (cp : Cap) (n : Nat) (ds : List Double) (f : State → Bool) : Bool :=
  u.replay.isEmpty && !spent s (groveOf s.cur.1) &&
  match spanReach (hearthOf s.cur.1) u.ctx cp.oid false ((List.range (n / 2)).map fun i => cp.cursor + 16 * i) s with
  | (s1, .inr ps) =>
    (match spanRead ps (charge s1 (groveOf s.cur.1) (n / 8)) with
      | (s2, bs, none) => doublesOf bs n = ds && f s2
      | _ => false)
  | _ => false

theorem doublesRead {s : State} {u : Machine.Unit} {cp : Cap} {n : Nat} {ds : List Double} {f : State → Bool} (h : doublesOk s u cp n ds f = true) :
    ∃ s', DoublesRead s s' u cp n ds ∧ f s' = true := by
  unfold doublesOk at h
  simp only [Bool.and_eq_true, List.isEmpty_iff, Bool.not_eq_true'] at h
  obtain ⟨⟨h1, h2⟩, h⟩ := h
  split at h
  case h_2 => cases h
  case h_1 s1 ps e1 =>
    split at h
    case h_2 => cases h
    case h_1 s2 bs e2 =>
      simp only [Bool.and_eq_true, decide_eq_true_eq] at h
      exact ⟨s2, ⟨h1, h2, s1, ps, bs, e1, e2, h.1⟩, h.2⟩

/-- Queue 0 of context 0; a packet and a ticket of zeros at 0x100 of object 0. -/
def aQueue : Queue := { ctx := 0, depth := 1, oid := 0, off := 0, resident := true, head := 0, entries := [] }
def sl : State := { sd with queues := [(0, aQueue)] }
def ticketMeets (s : State) : Bool :=
  !ticketBad s uc (List.replicate 8 0) && match affinity s 0 0 0 with
    | (s4, tr) => tr != .stall && groveOfPlace s4 0 tr == some (4 * (0x20000 / (48 * 2 ^ 30) / 3) + nbits 0x20000 13 12) && s4.tickets.length < 65536

/-- The counter of a parked POST, at 0x40 of object 1, is reached after the ticket was read and its Rail chosen. -/
def parkMeets (s : State) : Bool :=
  ticketMeets s &&
  (let s4 := (affinity s 0 0 0).1
   !parkedOn s4 uc 1 0x40 && !spent s4 (s4.cur.1 / 16) && match translate s4 (s4.cur.1 / 2) uc.ctx 1 0x40 true with
     | (s1, .phys key pa) => key == 0 && pa == clrBase + 0x40 && !isSync s1 pa && !s1.poison.has (pa / 64) && s1.arms.isEmpty
     | _ => false)
def deadLaunch : Launch := { newLaunch ⟨uc.lid, [], [], 0⟩ 0 0 0 [] with failed := true }

theorem witness_LaunchResults : isTwice sl uc = false ∧ accCheck sl uc (uc.creg 1) rR (uc.creg 1).cursor 128 1 [0, 1] = none ∧ (uc.creg 1).cursor % 64 = 0 ∧
    (∃ s', DoublesRead sl s' uc (uc.creg 1) 16 (List.replicate 16 0) ∧ decide (acceptCode s' 0 (List.replicate 16 0) 0 false false = 0) = true) ∧
    (∃ s', DoublesRead sd s' uc (uc.creg 1) 16 (List.replicate 16 0) ∧ decide (acceptCode s' 0 (List.replicate 16 0) 0 false false ≠ 0) = true) ∧
    sl.queues.get? 0 = some aQueue ∧ aQueue.resident = true ∧ accCheck sl uc (uc.creg 1) rR (uc.creg 1).cursor 64 64 [0, 1] = none ∧
    (∃ s', DoublesRead sl s' uc (uc.creg 1) 8 (List.replicate 8 0) ∧ ticketMeets s' = true) ∧
    (∃ s', DoublesRead sl s' uc (uc.creg 1) 8 (List.replicate 8 0) ∧ parkMeets s' = true) ∧
    (∃ s', DoublesRead { sl with mem := sl.mem.put 0x20107 0x80 } s' uc (uc.creg 1) 8 ((2 ^ 63 : Double) :: List.replicate 7 0) ∧
      ticketBad s' uc ((2 ^ 63 : Double) :: List.replicate 7 0) = true) ∧
    isTwice sTwice uc = true ∧ (launchAt { sl with launches := [(uc.slot, deadLaunch)] } uc.slot).map (·.failed) = some true :=
  ⟨by decide +kernel, by decide +kernel, by decide +kernel, doublesRead (by decide +kernel), doublesRead (by decide +kernel), by decide +kernel, by decide +kernel,
    by decide +kernel, doublesRead (by decide +kernel), doublesRead (by decide +kernel), doublesRead (f := fun s' => ticketBad s' uc ((2 ^ 63 : Double) :: List.replicate 7 0)) (by decide +kernel), by decide +kernel⟩

theorem witness_PostParked : Permitted sl uc (uc.creg 2) rA (uc.creg 2).cursor 8 [1] := by unfold Permitted; decide +kernel

/-- A counter of 5 at 0x40 of object 1: s2 (5) reaches zero, s6 (6) exceeds it; an amount of 0; launch 0 of queue 0 and a launch of another context. -/
def sn5 : State := { sc with mem := sc.mem.put (clrBase + 0x40) 5 }
def sOwn : State := { sl with graphs := [(0, ⟨0, 0, 0⟩)], phases := [(0, ⟨0, 0, 0⟩)], jobs := [(0, ⟨0, 0, 0⟩)], queues := [(0, { aQueue with entries := [⟨0, [], [], 0⟩] })] }

theorem witness_CounterAndCancelResults : Permitted sn5 uc (uc.creg 2) rA (uc.creg 2).cursor 8 [1] ∧
    Reached sn5 uc 1 0x40 true (translate sn5 0 0 1 0x40 true).1 0 (clrBase + 0x40) ∧
    NoPoison (releaseBound (charge (translate sn5 0 0 1 0x40 true).1 0 1) 0 1 0x40) (clrBase + 0x40) 8 ∧ isSync (translate sn5 0 0 1 0x40 true).1 (clrBase + 0x40) = false ∧
    isSync sn5 (clrBase + 0x40) = false ∧
    leNat (viewBytes (releaseBound (charge (translate sn5 0 0 1 0x40 true).1 0 1) 0 1 0x40) 0 (clrBase + 0x40) 8) = (uc.sreg 2).toNat ∧ ((uc.setS 6 6).sreg 6).toNat = 6 ∧
    meetsSync sn5 0 uc (uc.creg 2) 0x40 = false ∧ uc.sreg 0 = 0 ∧
    (∀ e ∈ cancelWords, ownsId sOwn 0 e.2.1 0 = true ∧ ownsId sl 0 e.2.1 0 = false ∧ (cancelScope sOwn (inScope 0 e.2.1 0)).2 < 2 ^ 32 ∧
      ((cancelScope sOwn (inScope 0 e.2.1 0)).1.units.get? 0).isSome = true) :=
  ⟨by unfold Permitted; decide +kernel, reached (s := sn5) (by decide +kernel) (by decide +kernel) (by decide +kernel), ⟨by decide +kernel, by decide +kernel⟩,
    by decide +kernel⟩

/-! ## Witnesses: operations in flight, strands, the ends of units, causes and errors -/

/-- A unit in a state, the vector accesses in flight on object 0 at 0x100, on an unmapped page of object 1, and one parked store. -/
def with0 (u : Machine.Unit) : State := { sc with units := sc.units.put 0 u }
def vlAt (oid off : Nat) : VlOp :=
  { cap := cap oid 0x7F 0 2 0, code := 0, els := [⟨0, 8 * off, 32, false⟩], row := 6, ety := 0, mask := 1, value := none }
def vsAt : VsOp := { cap := cap 0 0x7F 0 2 0, writes := [⟨false, 0x800, 32, 7⟩] }
def uAt (oid off : Nat) : Machine.Unit := { uc with ops := [{ busyOp with body := .vl (vlAt oid off) }] }
def uVs : Machine.Unit := { uc with ops := [{ busyOp with str := .vs, body := .vs vsAt }] }
def uPark : Machine.Unit := { uc with replay := [{ parked with page := 0, writes := [⟨false, 0x800, 8, 7⟩] }] }

theorem witness_AccessesPerformed : (∀ e ∈ [(0, 0x100), (1, 0x4000)], InFlight (with0 (uAt e.1 e.2)) ⟨0, false⟩ .vl 1 (uAt e.1 e.2) { busyOp with body := .vl (vlAt e.1 e.2) } ∧
      ((vlAt e.1 e.2).els.head?.map (·.w)).getD 8 = 32 ∧ spent (with0 (uAt e.1 e.2)) 0 = false ∧
      (∀ g ∈ granules 32 ((vlAt e.1 e.2).els.map (·.bit)), parkedOn (with0 (uAt e.1 e.2)) (uAt e.1 e.2) e.1 (64 * g) = false) ∧
      (match (gather 0 (uAt e.1 e.2) e.1 (granSpans 32 ((vlAt e.1 e.2).els.map (·.bit))) (with0 (uAt e.1 e.2))).2 with
        | .ok _ _ => e.1 = 0
        | .fault off kind => e.1 = 1 ∧ off = 0x4000 ∧ kind = 5
        | .remote _ | .stall => False)) ∧
    InFlight (with0 uVs) ⟨0, false⟩ .vs 1 uVs { busyOp with str := .vs, body := .vs vsAt } ∧ vsAt.writes ≠ [] ∧
    (performRuns 0 { busyOp with str := .vs, body := .vs vsAt } 0 vsAt.cap (byPage (with0 uVs) uVs 0 vsAt.writes) (with0 uVs)).2.2 = none ∧
    uPark.replay ≠ [] ∧ Quiet uPark ∧ (replayAll 0 uPark.replay [] (with0 uPark) none).2 = none := by
  refine ⟨?_, ⟨rfl, rfl, rfl⟩, by decide, by decide +kernel, by decide, by unfold Quiet; decide +kernel, by decide +kernel⟩
  intro e h
  rcases List.mem_cons.mp h with rfl | h
  · exact ⟨⟨rfl, rfl, rfl⟩, by decide +kernel, by decide +kernel, by decide +kernel, rfl⟩
  · rcases List.mem_cons.mp h with rfl | h
    · exact ⟨⟨rfl, rfl, rfl⟩, by decide +kernel, by decide +kernel, by decide +kernel, rfl, rfl, rfl⟩
    · cases h

/-- A dispatch record at the head of a queue; a strand at its end, with and without an entry of its own in the segment table. -/
def recOf : DispRec := { start := 0, len := 1, counts := [], push := 0, caps := uc.r.c }
def uQueue : Machine.Unit := { uc with seqr := uc.seqr.set .va { Seqr.idle with queue := [recOf] } }
def uEnd : Machine.Unit := { uc with seqr := uc.seqr.set .va { Seqr.idle with run := some { benchStrand [0] with seg := true }, ending := true } }
def segEntry : SegmentEntry := { stream := streamCode .va, levels := 0, len := 1, start := 0, eOut := 0, e2 := 0, e1 := 0, e0 := 1, sig := 0 }
def sEnd (segs : List SegmentEntry) : State := { with0 uEnd with codes := [(0, { benchCode 1 with segments := segs })] }

/-- An M strand at its end, with a command of slot 0 in flight; its Griddle has an open run, or none. -/
def uEndM : Machine.Unit :=
  let u := ue .griddle true []
  { u with ops := [cmdOp (.mprom 3) .griddle], seqr := u.seqr.set .m { Seqr.idle with run := some { benchStrand [0] with seg := false }, ending := true } }
def sEndM (run : Option Run) : State :=
  let s := se .griddle true [] 3
  { s with units := s.units.put 0 uEndM, engines := s.engines.put (engKey (eng0 .griddle)) { awake0 with mem := { awake0.mem with run := run } } }
def uEndM0 : Machine.Unit := { uc with seqr := uEndM.seqr }
def aRun : Run := { acc := 0, rows := 1, int := false, blocks := 1, vals := [5], wins := [] }

/-- The slot idle, with an integer run. -/
def uPlain : Machine.Unit := { uEndM with ops := [] }
def sPlain (run : Option Run) : State :=
  let s := sEndM (some { run.getD aRun with int := true })
  { s with units := s.units.put 0 uPlain }

theorem witness_MStrandEnd : ∀ run ∈ [none, some aRun], (sEndM run).units.get? 0 = some uEndM ∧ (uEndM.seqr.get .m).ending = true ∧
    (uEndM.seqr.get .m).run.map (·.seg) = some false ∧ plainRuns (sEndM run) 0 uEndM = [] ∧ runSlots (closeSlots (sEndM run) 0 []) 0 uEndM = [0] ∧ uEndM.closing = [] ∧
    (uEndM.ops.filter fun o => o.str = .m).map (·.num) = [1] ∧
    (with0 uEndM0).units.get? 0 = some uEndM0 ∧ (uEndM0.seqr.get .m).ending = true ∧ runSlots (with0 uEndM0) 0 uEndM0 = [] ∧
    plainRuns (sPlain run) 0 uPlain = [0] ∧ uPlain.slotIdle 0 = true ∧ (engAt (sPlain run) (eng0 .griddle)).key = some (0, 0) := by decide +kernel

theorem witness_StrandCourse : AtWork (with0 uQueue) ⟨0, false⟩ uQueue ∧ (uQueue.seqr.get .va).queue = recOf :: [] ∧ (uQueue.seqr.get .va).run = none ∧
    (codeWords uQueue .va ((List.range recOf.len).map (recOf.start + ·)) (with0 uQueue)).2.2 = none ∧
    (with0 uEnd).units.get? 0 = some uEnd ∧ (uEnd.seqr.get .va).ending = true ∧ ((uEnd.seqr.get .va).run).map (·.seg) = some true ∧
    segmentAt (with0 uEnd) uEnd .va 0 = none ∧ segmentAt (sEnd [segEntry]) uEnd .va 0 = some segEntry ∧ (sEnd [segEntry]).arms = [] ∧
    expectedCount segEntry [] = 1 ∧ crc32End (((benchStrand [0]).store.map (·.1)).foldl crc32Word crc32Start) ≠ segEntry.sig ∧
    crc32End (((benchStrand [0]).store.map (·.1)).foldl crc32Word crc32Start) = 0x2144DF1C := by unfold AtWork; decide +kernel

/-- A unit that has executed HALT; units that wait for a token, before an instruction beyond the slip depth, and cancelled in a wait. -/
def uHalt : Machine.Unit := { uc with halting := true }
def uStuck : Machine.Unit := { uc with waits := uc.waits.set .c (some .token) }
def uSlip : Machine.Unit :=
  { uc with waits := uc.waits.set .vl (some .tile), seqr := uc.seqr.set .va { Seqr.idle with run := some (strand [(8, 1)]) }, pos := uc.pos.set .vl 1 }

/-- A control segment of HALT alone, whose signature is not that of its word. -/
def haltEntry : SegmentEntry := { segEntry with stream := streamCode .c }
def sHaltSeg : State := { with0 uHalt with codes := [(0, { benchCode 1 with segments := [haltEntry] })] }
/-- A copy stopped at a full stream register. -/
def uFull : Machine.Unit :=
  { uf boundCopy with sq := vmodify uc.sq 2 fun _ => { entries := [1, 2, 3, 4], part := [], producer := some .d }, waits := uc.waits.set .c (some .token) }

theorem witness_UnitEnds : (with0 uHalt).units.get? 0 = some uHalt ∧ uHalt.halting = true ∧ AtRest uHalt ∧ Quiet uHalt ∧ (with0 uHalt).disp.holding = false ∧
    (with0 uHalt).books = [] ∧ (with0 uHalt).closing = [] ∧ (with0 uHalt).openReqs = [] ∧ Tab.risingFrom none (with0 uHalt).units = true ∧
    (∀ l ∈ uHalt.leases.toList, l = none) ∧ uHalt.ladle = none ∧ (with0 uHalt).launches.get? uHalt.slot = none ∧ uc.halting = false ∧
    (with0 uHalt).arms = [] ∧ haltSegment (with0 uHalt) uHalt = none ∧ uHalt.sealed = false ∧ uHalt.retry ≠ 3 ∧
    (haltSegment sHaltSeg uHalt).map (·.2) = some haltEntry ∧ (haltSegment sHaltSeg uHalt).map (fun e => decide (crc32End e.1.crc = e.2.sig)) = some false ∧
    (∃ t ∈ engineStreams, ({ uHalt with ops := [busyOp] } : Machine.Unit).streamBusy t = true) := by unfold AtRest Quiet; decide +kernel

theorem witness_stall : uStuck.progress + 2 ^ 22 ≤ ({ with0 uStuck with time := 2 ^ 22 } : State).time ∧ uStuck.ops = [] ∧ uStuck.replay = [] ∧ Quiet uStuck ∧
    (∀ o ∈ uFull.ops, stoppedCopy { sdd with units := sdd.units.put 0 uFull } 0 uFull o = true) ∧ uFull.ops ≠ [] ∧
    stuckStream { sdd with units := sdd.units.put 0 { uFull with waits := Six.all none } } 0 { uFull with waits := Six.all none } = some .d ∧ stoppedCopy sc 0 uc busyOp = false ∧
    (∀ r ∈ allStreams, uStuck.waits.get r ≠ some .issueTick ∧ uStuck.waits.get r ≠ some .memory) ∧ stuckStream (with0 uStuck) 0 uStuck = some .c ∧ slippedStream uStuck = none ∧
    (∀ r ∈ allStreams, uSlip.waits.get r ≠ some .issueTick ∧ uSlip.waits.get r ≠ some .memory) ∧ stuckStream (with0 uSlip) 0 uSlip = some .vl ∧ slippedStream uSlip = some .vl ∧
    (with0 uStuck).time < uStuck.progress + 2 ^ 22 ∧ uStuck.killed = none ∧ ({ uStuck with cancelled := true } : Machine.Unit).waits.get .c = some .token ∧
    (copyOp false (some 8) 0).started = false ∧ (flight (copyOp false (some 8) 0)).held = false ∧
    ({ with0 uHalt with disp := { sc.disp with holding := true, held := List.replicate 4096 (0, ⟨0, 0, 0, 0⟩, false) } } : State).disp.held.length = 4096 ∧ uHalt.haltDone = true := by
  unfold Quiet; decide +kernel

/-- Drained causes: an operand-range trap, a translation fault; with and without a handler and a ring. -/
def uCause (code : Nat) (u : Machine.Unit) : Machine.Unit := { u with cause := some { aCause with code := code } }
def sRing (logn : Nat) (open_ : List (Nat × Nat)) (u : Machine.Unit) : State :=
  { with0 u with ring := { sc.ring with fring := BitVec.ofNat 64 (clrBase + logn * 2 ^ 48), open_ := open_ } }

theorem witness_CauseDelivery : (∀ u ∈ [uh, uc, ui], Drained (with0 (uCause 0x07 u)) ⟨0, false⟩ (uCause 0x07 u) { aCause with code := 0x07 }) ∧
    classOf 0x07 = .u ∧ (uCause 0x07 uh).inh = false ∧ (uCause 0x07 uh).r.tvec.getLsbD 24 = true ∧ (uCause 0x07 ui).inh = true ∧
    (uCause 0x07 uc).r.tvec.getLsbD 24 = false ∧
    (∀ l ∈ [0, 1], ∀ o ∈ [[], [(1, 2), (2, 4)]], Drained (sRing l o (uCause 0x20 uc)) ⟨0, false⟩ (uCause 0x20 uc) { aCause with code := 0x20 }) ∧
    classOf 0x20 = .s ∧ (sRing 1 [] (uCause 0x20 uc)).ring.fring.toNat = clrBase + 1 * 2 ^ 48 ∧ clrBase < 2 ^ 48 ∧
    (sRing 0 [] (uCause 0x20 uc)).ring.fring.toNat / 2 ^ 48 % 16 = 0 ∧ 2 ^ 1 ≤ (sRing 1 [(1, 2), (2, 4)] (uCause 0x20 uc)).ring.open_.length ∧
    2 ^ ((sRing 1 [(1, 2), (2, 4)] (uCause 0x20 uc)).ring.fring.toNat / 2 ^ 48 % 16) ≤ (sRing 1 [(1, 2), (2, 4)] (uCause 0x20 uc)).ring.open_.length := by
  unfold Drained; decide +kernel

/-- Rollbacks: not started, with a fill to issue again, and at their end; and causes of a phase. -/
def uRoll (running : Bool) (refills : List CopyDesc) : Machine.Unit :=
  { uc with roll := some { cause := { aCause with code := 0x30 }, refills := refills, running := running } }

theorem witness_RollbackCourse : (∀ b ∈ [false, true], ∀ l ∈ [[], [aCopy]], RollingBack (with0 (uRoll b l)) ⟨0, false⟩ (uRoll b l)
      { cause := { aCause with code := 0x30 }, refills := l, running := b }) ∧
    drainDone (with0 (uRoll false [])) 0 (uRoll false []) = true ∧ (uRoll true [aCopy]).ops = [] ∧ (uRoll true []).cause2 = none ∧ (uRoll true []).owed = [] ∧
    classOf 0x30 = .p ∧ Quiet uc ∧ uc.sealed = false ∧ uc.retry ≠ 3 ∧ ({ uc with sealed := true } : Machine.Unit).sealed = true ∧
    ({ uc with retry := 3 } : Machine.Unit).retry = 3 := by unfold RollingBack Quiet; decide +kernel

/-- Two events on record, 2^26 − 1 and 2^26 ticks before now. -/
def sTwo (t : Nat) : State := { sc with time := t, fuEvents := [(fuKey (.hearth 0), [9, 8])] }

theorem witness_ErrorResults : (Tab.getD [] sc.fuEvents (fuKey (.hearth 0))).length < 2 ∧ Tab.getD [] (sTwo 0).fuEvents (fuKey (.hearth 0)) = [9, 8] ∧
    (sTwo (8 + 2 ^ 26 - 1)).time < 8 + 2 ^ 26 ∧ isRetired (sTwo (8 + 2 ^ 26 - 1)) (.hearth 0) = false ∧ 8 + 2 ^ 26 ≤ (sTwo (8 + 2 ^ 26)).time := by
  decide +kernel

/-! ## Witnesses: the dispatcher -/

/-- Launch 5 of a zero packet (one unit, one row), on no bank yet; a queue with its packet. -/
def aLaunch : Launch :=
  { lid := 5, ctx := 0, pkt := List.replicate 16 0, hov := [], tick := 0, queue := 0, headIdx := 0, jstate := .placing, next := 0, placed := 0, retired := 0,
    ticketsOpen := 0, allPlaced := false, failed := false, cancelled := false, sigs := [], groves := 0 }
def entry5 : QEntry := { lid := 5, pkt := List.replicate 16 0, hov := [], tick := 0 }
def sq0 (serve : Option Nat) (head : Nat) (ls : Tab Launch) : State :=
  { sl with units := [], launches := ls, queues := [(0, { aQueue with head := head, entries := [entry5] })], kicks := [(0, 3)], partitions := []
            disp := { sl.disp with serve := serve } }
def taking : Launch := { aLaunch with jstate := .taking }

/-- Three queues with a packet of one priority, kicked at given ticks. -/
def threeKicks (a b : Nat) : State :=
  let s := sq0 none 0 []
  { s with queues := [0, 1, 2].map fun q => (q, Tab.getD aQueue s.queues 0), kicks := [(0, a), (1, b), (2, b)] }

theorem witness_ServingOrder : CoreActs (sq0 none 0 []) ∧ (sq0 none 0 []).disp.serve = none ∧ nextQueue (sq0 none 0 []) = some 0 ∧ nextQueue (threeKicks 3 3) = some 0 ∧ nextQueue (threeKicks 4 3) = some 1 ∧
    takingSlot (sq0 (some 0) 0 []) 0 = none ∧ freeSlot (sq0 (some 0) 0 []) = some 0 ∧ takingSlot (sq0 (some 0) 0 [(0, taking)]) 0 = some (0, taking) ∧
    (sq0 (some 0) 1 [(0, taking)]).queues.get? 0 = some { aQueue with head := 1, entries := [entry5] } ∧ 1 ≠ taking.headIdx ∧
    CoreActs (sq0 (some 0) 1 [(0, taking)]) := by unfold CoreActs; decide +kernel

theorem witness_QueueResidencyResults : (sq0 none 0 []).queues.get? 0 = some { aQueue with entries := [entry5] } ∧
    (let s : State := { sl with queues := [(0, { aQueue with resident := false, entries := [entry5] })] }
     ∀ e ∈ ([entry5].mapIdx fun i e => { e with pkt := ringPacket s { aQueue with resident := false, entries := [entry5] } (0 + i) }),
       acceptCode s 0 e.pkt 0 false true = 0) ∧ sd.queues.get? 0 = none := by decide +kernel

/-- Placing: before and after NEXT, with every unit placed, a run-twice launch, a ticket of the launch, and a partition of a launch that is gone. -/
def twice : Launch := { aLaunch with pkt := 0x200000 :: List.replicate 15 0, next := 1 }
def aTicket : Ticket := { slot := 0, index := 0, entry := 0, prio := 0, xs := List.replicate 6 0, home := 0, syncs := [], tick := 0 }
def spl (l : Launch) : State := { sl with units := [], partitions := [], launches := [(0, l)] }

/-- A grove whose partition banks another launch holds. -/
def fullGrove (g : Nat) (s : State) : State := { s with partitions := [(0, { lid := 99, ctx := 1, grove := g, banks := List.range 64, bfr := [] })] }

theorem witness_PlacingResults : CoreActs (spl aLaunch) ∧ launchAt (spl aLaunch) 0 = some aLaunch ∧ aLaunch.placing = true ∧ aLaunch.placed ≠ pktUnits aLaunch.pkt ∧
    bankFor (spl aLaunch) 0 = some (0, .launch 0) ∧ pktTwice aLaunch.pkt = false ∧
    bankFor (spl { aLaunch with next := 1 }) 0 = some (0, .launch 0) ∧ canAllot (spl { aLaunch with next := 1 }) { aLaunch with next := 1 } 0 = true ∧
    pktTwice twice.pkt = true ∧ bankFor (spl twice) 0 = some (0, .launch 0) ∧ canAllot (spl twice) twice 0 = true ∧ (twinBank (spl twice) twice 0).isSome = true ∧
    (∀ g < 2, bankFor (fullGrove g (spl twice)) 0 = some (0, .launch 0) ∧ (twinBank (fullGrove g (spl twice)) twice 0).map (· / 16) = some 1 ∧
      canAllot (fullGrove g (spl twice)) twice g = false) ∧
    ({ aLaunch with placed := 1 } : Launch).placing = true ∧ ({ aLaunch with placed := 1 } : Launch).placed = pktUnits aLaunch.pkt ∧
    ((spl aLaunch).codes.get? 0).isSome = true ∧ (ctxRec? (spl aLaunch) 0).isSome = true ∧
    sd.partitions.has 0 = true ∧ (∀ e ∈ sd.launches, e.2.lid ≠ uc.lid) ∧ (∀ e ∈ (spl aLaunch).units, e.2.lid ≠ uc.lid) := by unfold CoreActs; decide +kernel

/-- A ticket ready in grove 0, and a bank that it wins. -/
def stk : State := { spl { aLaunch with jstate := .allPlaced, allPlaced := true, placed := 1 } with tickets := [(0, aTicket)], ready := [(0, [0])] }

theorem witness_ticket : CoreActs stk ∧ readyHead stk 0 = some (0, aTicket) ∧ (launchAt stk 0).isSome = true ∧
    (((List.range 16).map (16 * 0 + ·)).find? fun k => !stk.units.has k && ((winner stk k).map (·.work)) = some (.ticket 0)) = some 0 ∧
    ((launchAt stk 0).map fun l => canAllot stk l 0) = some true := by unfold CoreActs; decide +kernel

/-- A launch whose unit has retired, with and without a completion write of object 0 at 0; two signatures of a unit, equal and not. -/
def done5 : Launch := { aLaunch with jstate := .allPlaced, allPlaced := true, placed := 1, retired := 1 }
def written5 : Launch := { done5 with pkt := List.replicate 6 0 ++ [0x1000000] ++ List.replicate 9 0 }
def lost5 : Launch := { done5 with pkt := List.replicate 6 0 ++ [0x1000002] ++ List.replicate 9 0 }
def sig5 (copy : Nat) (v : Double) : CopySig := { index := 0, copy := copy, sig := v, hearth := copy }
def sDone (l : Launch) : State := { spl l with graphs := [(0, ⟨0, 0, 0⟩)], phases := [(0, ⟨0, 0, 0⟩)], jobs := [(0, ⟨0, 0, 0⟩)] }
def twinned (v : Double) : Launch := { aLaunch with jstate := .allPlaced, allPlaced := true, placed := 2, sigs := [sig5 0 7, sig5 1 v] }

/-- Object 0 in migration. -/
def migrating (s : State) : State := wr8 s (entryAddr s 0 0) (rd8 s (entryAddr s 0 0) / 4 * 4 + 2)

theorem witness_CompletionResults : launchAt (sDone done5) 0 = some done5 ∧ done5.allPlaced = true ∧ done5.outstanding = 0 ∧ done5.failed = false ∧
    done5.cancelled = false ∧ pf done5.pkt 6 24 24 = 0 ∧ (aLaunch.allPlaced = false ∨ aLaunch.outstanding ≠ 0) ∧
    ((objValid sc 0 0).map fun e => decide (e.lvl ≤ 1 ∧ 8 ≤ e.size)) = some true ∧ pf written5.pkt 6 24 24 = 1 ∧ written5.outstanding = 0 ∧
    (match completionWrite (sDone written5) written5 with
      | .made _ => true
      | .dropped | .waits => false) = true ∧ completionWrite (migrating (sDone written5)) written5 = .waits ∧
    (objMem (migrating (sDone written5)) 0 0).map (·.st) = some 2 ∧ pf lost5.pkt 6 24 24 = 1 ∧ ((objValid sc 0 2).map (·.lvl)) = some 2 ∧ pf lost5.pkt 6 23 0 = 2 ∧
    completionWrite (sDone lost5) lost5 = .dropped ∧ (hostTranslate sc 0 0 0 true).2 = .phys 0 0x20000 ∧
    isSync (hostTranslate sc 0 0 0 true).1 0x20000 = false ∧
    CoreActs (sDone (twinned 7)) ∧ launchAt (sDone (twinned 7)) 0 = some (twinned 7) ∧ (twinned 8).sigs.find? (fun c => c.index = 0 && c.copy = 0) = some (sig5 0 7) ∧
    (twinned 8).sigs.find? (fun c => c.index = 0 && c.copy = 1) = some (sig5 1 8) ∧ (sig5 0 7).sig ≠ (sig5 1 8).sig ∧ 1 < (twinned 8).outstanding ∧
    (∀ e ∈ (sDone (twinned 8)).tickets, e.2.slot ≠ 0) := by unfold CoreActs; decide +kernel

/-- The standby core in charge with a journal: a queue being served, a launch that it was taking. -/
def sTake (serve : Option Nat) (ls : Tab Launch) (head : Nat) : State :=
  { sq0 serve head ls with kicks := [], disp := { sl.disp with standby := true, holding := true, held := [], serve := serve } }

theorem witness_TakeOverResults : sc.disp.standby = false ∧ (sTake none [] 0).disp.standby = true ∧ (sTake none [] 0).disp.holding = true ∧
    (sTake none [] 0).launches = [] ∧ (sTake none [] 0).disp.held = [] ∧ (sTake (some 0) [] 0).disp.serve = some 0 ∧ (sTake (some 0) [] 0).kicks.has 0 = false ∧
    (sTake none [(0, taking)] 0).launches = [(0, taking)] ∧ taking.jstate = .taking ∧
    (((sTake none [(0, taking)] 0).queues.get? 0).map (·.head)) = some taking.headIdx ∧
    (((sTake none [(0, taking)] 1).queues.get? 0).map (·.head)) ≠ some taking.headIdx := by decide +kernel

/-! ## Witnesses: booked steps, open leases and boundaries -/

/-- Handle 0's chain of one step (of class `cls`, one slot at slot 5) in slot `t`. -/
def step5 (cls : Nat) : BStep := { stepOf (cls + 2 ^ 16) 1 0 with start := 5 }
def chain5 (st : BStep) : Chain := { (descOf false uc.ctx 0 uc.who aDesc).chain with steps := [st] }
def at5 (st : BStep) (t : Nat) : State := { sc with books := [(chainKey 0, chain5 st)], time := 64 * t }

theorem stepOf5 (st : BStep) (t : Nat) : StepOf (at5 st t) 0 0 (chain5 st) st := ⟨rfl, rfl⟩

/-- The Ladle before and at its slot; an engine with a prefix of 2 slots before and at the prefix; a reservation in its slot and after it. -/
theorem witness_StepStarts : (step5 6).st = .committed ∧ (step5 6).rem = false ∧ (step5 6).start ≤ curSlot (at5 (step5 6) 5) ∧ curSlot (at5 (step5 6) 4) < (step5 6).start ∧
    engOf (chain5 { step5 2 with pfx := 2 }) { step5 2 with pfx := 2 } = some (eng0 .sieve) ∧
    curSlot (at5 { step5 2 with pfx := 2 } 3) + 2 = 5 ∧ curSlot (at5 { step5 2 with pfx := 2 } 2) + 2 < 5 ∧ 7 ≤ (step5 7).cls ∧
    (step5 7).start ≤ curSlot (at5 (step5 7) 5) ∧ curSlot (at5 (step5 7) 5) ≤ (step5 7).last ∧ (step5 7).last < curSlot (at5 (step5 7) 6) := by decide +kernel

/-- A hold that has expired and one that has not; a step that ended early; a late step with its next slot free and taken; one that owes a slip event. -/
def early : BStep := { step5 2 with dur := 4, st := .ended, endSlot := some 6 }
def runs5 : BStep := { step5 2 with st := .running }
def slips5 : BStep := { step5 2 with st := .ended, endSlot := some 6, intr := [1, 0, 0, 0, 0, 0], ext := [6] }
def taken5 : State := { at5 runs5 6 with books := [(chainKey 0, chain5 runs5), (chainKey 1, { chain5 { step5 2 with start := 6 } with handle := 1 })] }

theorem witness_StepEndings : (chain5 { step5 2 with st := .held }).isHeld = true ∧ (chain5 (step5 2)).remote = none ∧
    (step5 2).heldAt + 256 ≤ curSlot (at5 (step5 2) 256) ∧ curSlot (at5 (step5 2) 255) < (step5 2).heldAt + 256 ∧ 6 < early.last ∧ 6 < curSlot (at5 early 7) ∧
    early.giveBack 6 ≠ early ∧ early.start ≤ 6 ∧ early.rmd = none ∧ early.ext = [] ∧ runs5.overdue 6 = true ∧
    extends_ (freeze (at5 runs5 6) 0 0) 0 0 (chain5 runs5) runs5 6 = true ∧ extends_ (freeze taken5 0 0) 0 0 (chain5 runs5) runs5 6 = false := by decide +kernel

theorem witness_StepEndings_next : StepOf taken5 0 0 (chain5 runs5) runs5 ∧ (at5 early 7).closing = [] ∧ slips5.slipOwed = true ∧ slipDue (at5 slips5 7) slips5 = true ∧
    slipDue (at5 (step5 2) 6) (step5 2) = false ∧ Stays (chain5 (step5 2)) 0 (step5 2) :=
  ⟨⟨rfl, rfl⟩, by decide +kernel, by decide +kernel, by decide +kernel, by decide +kernel, .inl (by decide +kernel)⟩

/-- Suspended steps with a remainder from slot 9: an engine's with its prefix and reload from slot 6, and the Ladle's. -/
def susp (cls : Nat) : BStep := { step5 cls with st := .suspended, rmd := some { pfx := 2, reload := 1, start := 9, dur := 1 } }

def sAwake5 : State := { at5 (susp 2) 6 with engines := [(engKey (eng0 .sieve), { awake0 with key := none })] }

theorem witness_RemainderStarts : (susp 2).st = .suspended ∧ engOf (chain5 (susp 2)) (susp 2) = some (eng0 .sieve) ∧ curSlot (at5 (susp 2) 6) = 9 - 1 - 2 ∧
    curSlot (at5 (susp 2) 6) < 9 ∧ (engAt (at5 (susp 2) 6) (eng0 .sieve)).isWaking = false ∧
    openLeaseOf (at5 (susp 2) 6) (eng0 .sieve) = none ∧ openLeaseOf sAwake5 (eng0 .sieve) = none ∧ (engAt sAwake5 (eng0 .sieve)).power = .awake ∧
    (engAt sAwake5 (eng0 .sieve)).ctx = some (chain5 (susp 2)).ctx ∧ curSlot (at5 (susp 2) 5) < 9 - 1 - 2 ∧ (susp 6).cls = 6 ∧ (susp 6).lease = none ∧
    9 ≤ curSlot (at5 (susp 6) 9) ∧ (step5 2).st ≠ .suspended ∧ owesReload (at5 (step5 2) 5) (chain5 (step5 2)) (step5 2) = false := by decide +kernel

/-- A remainder that runs and has still to reload, its grove's budget spent. -/
def again5 : BStep := { susp 2 with st := .running, lease := some (0, 0) }
def uLoaded : Machine.Unit := let u := ue .sieve true []; { u with leases := vmodify u.leases 0 fun l => l.map fun l => { l with load := some Cap.none } }
def sReload : State :=
  { at5 again5 9 with units := [(0, uLoaded)], groves := [(0, { Grove.initial with used := 2 ^ 32 })], engines := [(engKey (eng0 .sieve), { awake0 with key := none })] }

theorem witness_reload : StepOf sReload 0 0 (chain5 again5) again5 ∧ owesReload sReload (chain5 again5) again5 = true ∧ again5.lease = some (0, 0) ∧ again5.cls ≠ 6 ∧
    (serveLease sReload (chain5 again5) again5).units.get? 0 = some uLoaded ∧
    (uLoaded.leases.toList.getD 0 none).any (fun l => l.load.isSome) = true ∧ spent sReload (groveOf 0) = true ∧ (lease0 .sieve).load = none :=
  ⟨⟨rfl, rfl⟩, by decide +kernel⟩

/-- An open lease at its end and none; a request that is granted; an engine on its way to being awake; a grove at rest, at work, and in retention. -/
def sOpen (t : Nat) : State := { se .sieve true [] 3 with time := 64 * t }
def aReq : OpenReq := { anOpen with granted := none }
def sWake (keep : Bool) (t : Nat) : State := { sc with time := t, engines := [(engKey (eng0 .sieve), { awake0 with power := .waking 64 keep, scan := keep })] }

/-- Its context's grant gives no units any more. -/
def sPoor : State := { sOpen 0 with ctxs := sc.ctxs.map fun e => (e.1, { e.2 with grant := { e.2.grant with units := 0 } }) }

theorem witness_OpenLeaseCourse : openLeaseOf (sOpen 4096) (eng0 .sieve) = some (0, 0, lease0 .sieve) ∧ expelled (sOpen 4096) (eng0 .sieve) (lease0 .sieve) = true ∧
    openLeaseOf (sOpen 0) (eng0 .sieve) = some (0, 0, lease0 .sieve) ∧ expelled (sOpen 0) (eng0 .sieve) (lease0 .sieve) = false ∧
    powerVictim (sOpen 0) 0 = none ∧ expelled sPoor (eng0 .sieve) (lease0 .sieve) = false ∧ powerVictim sPoor 0 = some (eng0 .sieve) ∧
    openLeaseOf sc (eng0 .sieve) = none ∧ Tab.risingFrom none (sOpen 0).engines = true ∧ (sOpen 0).units.get? 0 = some (ue .sieve true []) ∧
    (ue .sieve true []).leases.toList.getD 0 none = some (lease0 .sieve) ∧ (lease0 .sieve).evicted = false ∧
    (engAt (sOpen 0) (lease0 .sieve).eng).key = some (0, 0) ∧
    chooseEngine { sc with openReqs := [aReq] } aReq = some (eng0 .sieve) ∧
    (engAt (sWake true 63) (eng0 .sieve)).power = .waking 64 true ∧ (engAt (sWake false 64) (eng0 .sieve)).power = .waking 64 false ∧ (sWake true 64).arms = [] ∧
    (engAt (sWake true 64) (eng0 .sieve)).scan = true ∧ (engAt (sWake false 64) (eng0 .sieve)).scan = false ∧
    groveIdle { sc with units := [] } 1 = true ∧ groveIdle sc 0 = false ∧
    (groveAt { sc with groves := [(1, { Grove.initial with retention := true })] } 1).retention = true ∧ (∀ e ∈ sc.engines, e.2.power ≠ .retention) := by
  decide +kernel

/-- A Ladle step of BKU 0 whose slot has come. -/
def sSlot : State := at5 { step5 6 with start := 5 } 5

theorem witness_BoundaryWork : Tab.risingFrom none sc.groves = true ∧ sc.books = [] ∧ sc.closing = [] ∧ sc.openReqs = [] ∧ sc.engines = [] ∧
    sSlot.books = [(chainKey 0, chain5 (step5 6))] ∧ (chain5 (step5 6)).handle = 0 ∧ bits (0 : BitVec 32) 31 27 = 0 ∧ sSlot.closing = [] ∧ sSlot.openReqs = [] ∧
    sSlot.engines = [] ∧ (step5 6).st = .committed ∧ (step5 6).rem = false ∧ (step5 6).pfx = 0 ∧ (step5 6).start = curSlot sSlot ∧
    (chain5 (step5 6)).isHeld = false ∧ (step5 6).slipOwed = false ∧ sc.time % 64 = 0 ∧ ({ sc with lowSupply := true } : State).lowSupply = true ∧
    (groveAt { sc with groves := [(0, { Grove.initial with safe := true })] } 0).safe = true ∧ sc.lowSupply = false ∧ (groveAt sc 0).safe = false ∧
    (groveAt sc 0).hot = false := by decide +kernel

/-! ## Witnesses: the Forester and management -/

/-- A temperature sensor out of range, one in range, and a voltage sensor whose reading jumps; a grove at the safe frequency. -/
theorem witness_SensorResults : sc.arms = [] ∧ (sensorAt sc 0).perm = false ∧ (sensorAt sc 0).susp = false ∧ Caught 0 (sensorAt sc 0) 501 none ∧
    ¬ Caught 0 (sensorAt sc 0) 500 none ∧ Caught 3 { sensorAt sc 3 with hist := [(0, none)] } 201 none ∧
    Caught 0 { sensorAt sc 0 with hist := List.replicate 1024 (5, some 0) } 5 (some 3) ∧ isRetired sc (.sensor 0 0) = false ∧
    ({ sc with time := 2 ^ 26 } : State).time % 64 = 0 ∧
    median [3, 1, 2] = some 2 ∧ ([3, 1, 2] : List Int).length % 2 = 1 ∧
    (groveAt { sc with groves := [(0, { Grove.initial with safe := true, calmSince := some 0 })] } 0).calmSince = some 0 ∧ Tab.risingFrom none sc.groves = true := by
  refine ⟨by decide +kernel, by decide +kernel, by decide +kernel, .inl (by decide), ?_, .inr (.inr (.inr (.inl ⟨0, none, [], rfl, .inr (by decide)⟩))),
    .inr (.inr (.inl ⟨3, 5, 0, rfl, by decide +kernel, by decide +kernel, .inl (by decide)⟩)), by decide +kernel⟩
  rintro (h | h | ⟨m, p, m0, h, -⟩ | ⟨p, m, r, h, -⟩ | ⟨m, h, -⟩)
  · revert h; decide
  · revert h; decide
  · cases h
  · have : (sensorAt sc 0).hist = [] := by decide +kernel
    rw [this] at h; cases h
  · cases h

theorem witness_SupplyLifeAndReset : Tab.risingFrom none sc.life = true ∧ Tab.risingFrom none sc.lifeFlash = true ∧ (∀ e ∈ sc.life, e.1 < 2 ^ 16 ∧ e.2 ≠ 0) ∧
    sc.trip = false ∧ ({ sc with trip := true } : State).trip = true := by decide +kernel

/-- The first slots free for grove 0's window, and none free when a Ladle step of the grove fills every slot that a window may begin in. -/
def sFull : State := { sc with books := [(chainKey 0, chain5 { step5 6 with dur := 4095, start := 1 })] }
def sWin (t w : Nat) : State := { sc with time := 64 * t, groves := [(0, { Grove.initial with window := some w })] }

theorem witness_InFieldTest : windowFree { sc with testNext := 1 } 0 1 = true ∧ curSlot sc < 1 ∧ 1 ≤ curSlot sc + 3904 ∧
    (∀ st ∈ [({ step5 6 with dur := 4095, start := 1 } : BStep)], ∀ w ∈ [1, 1000, 3904], st.start ≤ w ∧ w < st.start + st.dur) ∧
    windowFree { sFull with testNext := 1 } 0 1 = false ∧ windowFree { sFull with testNext := 1 } 0 3904 = false ∧
    inWindow (sWin 5 5) 0 (curSlot (sWin 5 5)) = true ∧ inWindow (sWin 4 5) 0 (curSlot (sWin 4 5)) = false ∧ (groveAt (sWin 196 5) 0).window = some 5 ∧
    5 + 192 ≤ curSlot (sWin 196 5) + 1 ∧ curSlot (sWin 195 5) + 1 < 5 + 192 ∧ Tab.risingFrom none (sWin 5 5).engines = true ∧
    ({ sWin 5 5 with units := [] } : State).units = [] := by decide +kernel

/-- Every slot a window may begin in is taken. -/
theorem witness_noWindow : ∀ w, curSlot sFull < w → w ≤ curSlot sFull + 3904 → windowFree { sFull with testNext := 1 } 0 w = false := by
  intro w h1 h2
  have e : curSlot sFull = 0 := by decide +kernel
  rw [e] at h1 h2
  have hc : chainsOf { sFull with testNext := 1 } = [chain5 { step5 6 with dur := 4095, start := 1 }] := by decide +kernel
  have hg : ((chain5 { step5 6 with dur := 4095, start := 1 }).g != 0) = false := by decide +kernel
  have hp : (chain5 { step5 6 with dur := 4095, start := 1 }).steps = [{ step5 6 with dur := 4095, start := 1 }] := rfl
  have hs : ({ step5 6 with dur := 4095, start := 1 } : BStep).spans = [(1, 4096)] := by decide +kernel
  have hk : ({ step5 6 with dur := 4095, start := 1 } : BStep).cls = 6 ∧ ({ step5 6 with dur := 4095, start := 1 } : BStep).rem = false := by decide +kernel
  unfold windowFree
  rw [hc, List.all_cons, hg, hp, List.all_cons, hs, hk.1, hk.2]
  simp
  omega

/-- A retired Hearth 0; records posted and none free to release. -/
theorem witness_ManagementRegisters : isRetired { sc with retired := [fuKey (.hearth 0)] } (.hearth 0) = true ∧ isRetired sc (.hearth 0) = false ∧
    fuIndex (.hearth 0) < 2 ^ 11 ∧ NSet.risingFrom none [fuKey (.hearth 0)] = true ∧ (BitVec.ofNat 64 (fuClass (.hearth 0) + fuIndex (.hearth 0) * 2 ^ 8)).toNat =
      fuClass (.hearth 0) + fuIndex (.hearth 0) * 2 ^ 8 ∧ sc.mailbox.cons ≤ (0 : Double).toNat ∧ (0 : Double).toNat ≤ sc.mailbox.prod ∧ sc.mailbox.prod < 2 ^ 32 ∧
    sc.mailbox.prod < (1 : Double).toNat ∧ sc.time = 0 ∧ ({ sc with time := 1 } : State).time ≠ 0 := by decide +kernel

theorem witness_MailboxPosts : ({ sc with time := 5 } : State).mailbox.tick ≠ 5 ∧ sc.mailbox.prod < 2 ^ 32 ∧ sc.mailbox.cons < 2 ^ 32 ∧
    (sc.mailbox.prod + 2 ^ 32 - sc.mailbox.cons) % 2 ^ 32 < 1024 ∧ ({ sc.mailbox with prod := 1024 }.prod + 2 ^ 32 - sc.mailbox.cons) % 2 ^ 32 = 1024 := by decide +kernel

/-! ## Witnesses: the host interface and Ebith -/

/-- Queue pair 0 of context 0 and queue pair 1 of the management; heaps begin behind the object table and its tables. -/
def sx : State := { sc with qpairs := [(0, { bound := some 0, port := false, mtu := 1024 }), (1, { bound := none, port := false, mtu := 1024 })] }
def hd (qp ctx : Nat) : CmdHeader := { qp := qp, tag := 0, ctx := ctx }
def rec0 : CtxRec := ((ctxRec? sx 0).getD { quiescing := none, body := (benchCtx 0).body, key := 0, grant := (benchCtx 0).grant, bb := 0, areas := (benchCtx 0).areas })

theorem fromContext : FromContext sx (hd 0 0) rec0 := ⟨{ bound := some 0, port := false, mtu := 1024 }, by decide +kernel⟩
theorem fromManagement (c : Nat) : FromManagement sx (hd 1 c) := ⟨{ bound := none, port := false, mtu := 1024 }, rfl, rfl⟩

theorem witness_QueuePairRules : sx.qpairs.get? 8191 = none ∧ (ctxRec? sx 0).isSome = true ∧ (sx.qpairs.get? 1).map (·.bound) = some none ∧
    (sx.qpairs.get? 0).map (·.bound) = some (some 0) ∧ (some 0 : Option Nat) ≠ some 1 ∧
    (({ rec0 with quiescing := some 1 } : CtxRec).quiescing.isSome = true) ∧ sx.qpairs.get? 2 = none ∧ 3 ∉ [1024, 2048, 4096] ∧ ctxRec? sx 7 = none ∧ ContextCommand (hd 1 0) (.destroyObj (hd 1 0) 0) 0x07 ∧
    ManagementCommand (hd 0 0) (.destroyCtx (hd 0 0)) 0x02 :=
  ⟨by decide +kernel, by decide +kernel, by decide +kernel, by decide +kernel, by decide, rfl, by decide +kernel, by decide, by decide +kernel, .inr (.inr (.inr (.inl ⟨0, rfl, rfl⟩))), .inr (.inl ⟨rfl, rfl⟩)⟩

/-- A context record within its limits; a context being destroyed; a grant; an object of context 0 for context 1, and its grant. -/
def body1 : CtxBody := { (benchCtx 0).body with ctx := 1, otbase := 2 ^ 20 }
def sDest : State := { sx with part := some 0, ctxs := sx.ctxs.put 0 { rec0 with quiescing := some 1 } }
def sTwoCtx : State := { sx with ctxs := sx.ctxs.put 1 { rec0 with body := { body1 with otlen := 4 } } }

theorem witness_ManagementCommands : ctxBodyOk body1 = true ∧ sx.ctxs.get? 1 = none ∧ ctxBodyOk { body1 with otlen := 0 } = false ∧ sx.ctxs.has 0 = true ∧
    (sDest.ctxs.get? 0).map (·.quiescing) = some (some 1) ∧ ctxQuiet sDest 0 = false ∧ ctxQuiet { sDest with units := [] } 0 = true ∧
    (∀ us ∈ [[], sx.units], ctxQuiet (cancelScope { sx with part := none, units := us, ctxs := sx.ctxs.put 0 { rec0 with quiescing := some 1 } }
      fun _ c _ => c = 0).1 0 = decide (us = [])) ∧ ctxRec? sx 7 = none ∧ sx.ctxs.has 7 = false ∧ (objValid sx 0 9).isNone = true ∧
    Tab.risingFrom none sx.ctxs = true ∧ grantOk (benchCtx 0).grant = true ∧ grantOk { (benchCtx 0).grant with bb := 0 } = false ∧
    (objValid sTwoCtx 0 0).isSome = true ∧ sTwoCtx.ctxs.has 1 = true ∧ nextOid sTwoCtx 1 = some 0 ∧
    ((objValid sTwoCtx 0 0).map fun e => (makeSynonym sTwoCtx 1 0 e).isSome) = some true ∧ assigned 0x20000 = true ∧ assigned (0x21000 - 1) = true ∧
    physLvl 0x20000 = physLvl (0x21000 - 1) := by decide +kernel

/-- A context with no place for an object; a grant of object 1 to context 1, on which nothing was granted; a range over two levels, and a right that none has. -/
theorem witness_ManagementRefusals : nextOid { sTwoCtx with ctxs := sTwoCtx.ctxs.upd 1 fun r => { r with body := { r.body with otlen := 0 } } } 1 = none ∧
    (∃ g ∈ [({ owner := 0, oid := 1, recipient := 1, roid := 0, rights := 3 } : GrantRec)], g.recipient = 1 ∧ g.roid = 0) ∧
    (∀ g ∈ [({ owner := 0, oid := 1, recipient := 1, roid := 0, rights := 3 } : GrantRec)], ¬ (g.owner = 1 ∧ g.oid = 0)) ∧
    0x20000 < clrBase + 64 ∧ assigned (clrBase + 64 - 1) = true ∧ physLvl 0x20000 ≠ physLvl (clrBase + 64 - 1) ∧
    (0x80 : BitVec 8).toNat &&& (rR + rW + rA) ≠ (0x80 : BitVec 8).toNat := by decide +kernel

/-- An image that is refused by its magic, and the least image that a signature admits. -/
def anImage (magic : Word) : CodeImage :=
  { magic := magic, version := 1, flags := 0, slip := 16, entry := 0, sections := [⟨[0], [0]⟩], consts := [], buffers := [], segments := [], relocs := [],
    template := none, reserved := [], signature := [] }
def sLoad : State := { sx with ctxs := sx.ctxs.upd 0 fun r => { r with areas := Six.all { r.areas.c with oid := 2 } } }
/-- The request for an object of 64 KiB in HBM (Table 10.4: FMT 1; SIZE). -/
def anEntry : List Double := [0x10, 0x10000, 0, 0, 0, 0, 0, 0]
/-- A code object with a buffer whose id a CAPSLOT record writes into its words. -/
def sPatch (us : Tab Machine.Unit) : State :=
  { sx with
    units := us
    codes := [(0, { benchCode 4 with
      buffers := [({ name := [], size := 0x10000, psc := 0, fmt := 1, level := 0, phase := 0, partner := 0xFFFF, flags := 0 }, 0)]
      relocs := [{ kind := 1, stream := 5, aux := 0, site := 0, value := 3 }] })] }
def sRoom : State := { sx with ctxs := sx.ctxs.upd 0 fun r => { r with body := { r.body with otlen := 64 } } }

theorem witness_ContextCommands : (loadCheck sx rec0 0 (anImage 0)).1 ≠ 0 ∧ (install sLoad 0 (anImage 0x314F435A) (Six.all 0)).isSome = true ∧
    (sx.codes.get? 0).map (·.ctx) = some 0 ∧ codeUsed sOwn 0 0 = true ∧ codeUsed sx 0 0 = false ∧ objRequestOk rec0 (objOf anEntry) = true ∧
    (nextOid sRoom 0).isSome = true ∧ (((nextOid sRoom 0).bind fun n => makeObject sRoom 0 n { objOf anEntry with key := 0 }).isSome = true) ∧
    (objValid sx 0 1).isSome = true ∧ isCodeArea sx 0 1 = false ∧ ringOk sx 0 16 1 0x100 = true ∧ sx.queues.get? 0 = none ∧
    acceptCode { sl with qpairs := sx.qpairs } 0 (List.replicate 16 0) 0 false false = 0 ∧ acceptCode sx 0 (List.replicate 16 0) 0 false false ≠ 0 ∧
    aQueue.entries = [] ∧ takingSlot sl 0 = none ∧ releaseTarget sx 0 1 = some clrBase ∧
    (∀ l ∈ [0, 1, 2], ownsId { sOwn with queues := [] } 0 l 0 = true ∧ idUsed { sOwn with queues := [] } 0 l 0 = false) ∧
    (takingSlot { sl with launches := [(0, taking)] } 0).isSome = true ∧ (∀ g ∈ sx.grants, ¬ (g.owner = 0 ∧ g.oid = 1)) ∧
    (objValid sx 0 0).isSome = true ∧ ((sPatch []).codes.get? 0).map (·.buffers.length) = some 1 ∧ (∀ u ∈ (sPatch []).units, u.2.code ≠ 0) ∧
    ∃ u ∈ (sPatch sx.units).units, u.2.code = 0 := by decide +kernel

theorem witness_ContextRefusals : (∀ c ∈ sx.codes.get? 9, c.ctx ≠ 0) ∧ objRequestOk rec0 (objOf []) = false ∧
    nextOid { sx with ctxs := sx.ctxs.upd 0 fun r => { r with body := { r.body with otlen := 3 } } } 0 = none ∧ objValid sx 0 9 = none ∧
    (objValid sLoad 0 2).isSome = true ∧ isCodeArea sLoad 0 2 = true ∧ ringOk sx 0 15 1 0x100 = false ∧ sl.queues.has 0 = true ∧ ringOk sl 0 16 1 0x100 = true ∧
    (∀ qu ∈ sx.queues.get? 9, qu.ctx ≠ 0) ∧ releaseTarget sx 0 9 = none ∧ ownsId sx 0 0 9 = false ∧ ownsId sOwn 0 0 0 = true ∧
    idUsed sOwn 0 0 0 = true ∧ objRequestOk rec0 (objOf [0x10, 0xFFFFFFFFFF, 0, 0, 0, 0, 0, 0]) = true ∧
    (∀ n ∈ nextOid sRoom 0, makeObject sRoom 0 n { objOf [0x10, 0xFFFFFFFFFF, 0, 0, 0, 0, 0, 0] with key := 0 } = none) := by decide +kernel

/-- Whether a signature verifies is an opaque constant: given that it does, the least image passes every check. -/
theorem witness_loadPasses (h : Config.sigVerifies 1 (imageBody (anImage 0x314F435A)) [] = true) :
    ∃ bases, loadCheck sx { rec0 with body := { rec0.body with sigkeys := [1, 0, 0, 0] } } 0 (anImage 0x314F435A) = (0, bases) := by
  have hf : ([1, 0, 0, 0] : List (BitVec 384)).filter (· != 0) = [1] := by decide +kernel
  unfold loadCheck
  dsimp only
  rw [if_neg (by decide +kernel), if_neg (by rw [hf, List.any_cons]; simp [anImage] at h ⊢; exact h)]
  exact ⟨⟨0, 0, 0, 0, 0, 16384⟩, by decide +kernel⟩

/-- A window on the first 64 KiB of object 0, and one write and one read within it. -/
def sWindow : State := { sx with windows := [(1, { ctx := 0, oid := 0, lo := 0, hi := 0x10000, rights := 3 })] }

theorem witness_RemoteDirectAccess : ((objValid sx 0 0).map fun e => decide (e.lvl ≠ 2 ∧ 0x10000 ≤ e.size)) = some true ∧ ((rR + rW) &&& rightsLimit sx 0 0) &&& (3 : BitVec 8).toNat = (3 : BitVec 8).toNat ∧
    InWindow sWindow 0 1 0x100 8 rW { ctx := 0, oid := 0, lo := 0, hi := 0x10000, rights := 3 } ∧
    InWindow sWindow 0 1 0x100 8 rR { ctx := 0, oid := 0, lo := 0, hi := 0x10000, rights := 3 } ∧ sWindow.part = none ∧
    (hostTranslate sWindow 0 0 0x100 true).2 = .phys 0 0x20100 ∧ (hostTranslate sWindow 0 0 0x100 false).2 = .phys 0 0x20100 ∧
    isSync (hostTranslate sWindow 0 0 0x100 true).1 0x20100 = false ∧ (readIn (hostTranslate sWindow 0 0 0x100 false).1 0 0x20100 8).2.2 = none ∧
    0x100 % 64 + 8 ≤ 64 ∧ sx.windows.get? 1 = none ∧ (List.replicate 32 (0 : Byte)).length = 32 := by
  refine ⟨by decide +kernel, by decide, ⟨{ bound := some 0, port := false, mtu := 1024 }, ?_⟩, ⟨{ bound := some 0, port := false, mtu := 1024 }, ?_⟩, ?_⟩ <;>
    decide +kernel

/-- Port 0 with 15 failures behind it or none; an entry that allows every access to one granule; a flag of sequence 5 seen. -/
def aPort (fails : Nat) : Port := { down := false, seq := 4, fails := fails }
def sPort (fails : Nat) : State := { sx with ports := sx.ports.put 0 (aPort fails) }
def src9 : RemoteSource := { dev := 9, ctx := 3, port := 2 }
def sIn : State := { sx with remoteIn := [{ ctx := 0, dev := 9, rctx := 3, lo := 0x20100, hi := 0x20140, rights := 0x7F }] }

/-- The same table for the line of a sync object; a granule that holds poison. -/
def sInSync : State := { sx with remoteIn := [{ ctx := 0, dev := 9, rctx := 3, lo := clrBase, hi := clrBase + 64, rights := 0x7F }] }

theorem witness_EbithResults : (∀ n ∈ [0, 16], portAt (sPort n) 0 = aPort n ∧ (aPort n).down = false) ∧ (aPort 0).seq = 4 ∧ (sPort 0).arms = [] ∧ 5 ≠ (aPort 0).seq ∧
    (∃ x ∈ sIn.remoteIn, x.dev = src9.dev ∧ x.rctx = src9.ctx ∧ x.rights.toNat &&& (rR + rW + rA) = rR + rW + rA ∧ x.lo ≤ 0x20100 ∧ 0x20100 + 8 ≤ x.hi) ∧
    (remoteRead sIn 0x20100 8).2.2 = false ∧ (remoteRead { sIn with poison := [(0x20100 / 64, (.hearth 0, false))] } 0x20100 8).2.2 = true ∧
    (∀ i < 8, isSync sIn (0x20100 + i) = false) ∧ (∃ x ∈ sInSync.remoteIn, x.lo ≤ clrBase ∧ clrBase + 8 ≤ x.hi) ∧ isSync sInSync (clrBase + 0) = true ∧ (∀ x ∈ sIn.remoteIn, ¬ 0x20140 + 8 ≤ x.hi) ∧
    lastFlag sIn src9 7 = none ∧
    lastFlag { sIn with flagsIn := [(9, 3, 7, 5)] } src9 7 = some 5 := by decide +kernel

/-- An element that adds 1 to an INT32 at 0x20100; its watermark once applied, and freed; a hold of class 8. -/
def anElement : ReduceElement := { id := 7, sequence := 0, addr := 0x20100, fmt := 13, rop := 0, v := 1, poisoned := false }
def aMark (doneAt : Option Nat) : WMark := { target := reduceTarget sIn 0x20100 2, dev := 9, ctx := 3, id := 7, seq := 0, doneAt := doneAt }
def aHold : HoldReq := { cls := 8, cmask := 2, lanes := 1, start := 5, dur := 2, handle := 77 }
def held9 : Chain :=
  { chain5 { step5 8 with st := .held, handleRem := 77 } with remote := some 9 }

theorem witness_RemoteReduceAndHolds : (Fmt.ofCode anElement.fmt.toNat).width / 8 = 4 ∧ sIn.part = none ∧ sIn.watermarks = [] ∧ isSync sIn 0x20100 = false ∧
    bankAt sIn 0x20100 = none ∧ reduceSeen sIn 0x20100 2 9 3 7 0 = false ∧ reduceSeen { sIn with watermarks := [aMark none] } 0x20100 2 9 3 7 1 = false ∧
    wmSame (reduceTarget sIn 0x20100 2) 9 3 7 (aMark none) = true ∧
    (bankAt sIn (clrBase + 0x1000)).map (fun b => mayServe { sIn with lastServed := [(b, (serveCycle sIn b, 300))] } (256 + 2) b) = some false ∧
    sIn.misaligned = false ∧ holdOk aHold = true ∧ (List.range 48).find? (spanFree sIn aHold) = some 1 ∧
    (freeIndex sIn 16).isSome = true ∧ holdOk { aHold with dur := 0 } = false ∧
    ({ sIn with books := [(chainKey 0, held9)] } : State).books = [(chainKey held9.handle, held9)] ∧ held9.remote = some src9.dev ∧ sIn.closing = [] ∧
    held9.steps = [{ step5 8 with st := .held, handleRem := 77 }] ∧
    ({ sIn with watermarks := [aMark none] } : State).watermarks.find? (wmIs (reduceTarget sIn 0x20100 2) 9 3 7) = some (aMark none) := by decide +kernel

/-! ## Witnesses: decoding and stepping -/

/-- The words of a control section at a pc, and the strand's words on VA, next on the agenda. -/
def sWord (pc : Nat) (plain : Bool) (ws : List Word) : State :=
  let s := placeBench State.reset .c ws
  { s with units := s.units.upd 0 fun u => { u with r := { u.r with pc := pc, plain := plain } } }
def uWord (pc : Nat) (plain : Bool) : Machine.Unit := { u0 with r := { u0.r with pc := pc, plain := plain } }
def sStrand (ws : List Word) : State := placeBench State.reset .va ws
def uStrand (ws : List Word) : Machine.Unit := benchUnit State.reset .va ws

/-- The conditions of ControlAt and StrandAt, in bits that compute. -/
def controlAt (s : State) (u : Machine.Unit) (ws : Words) : Bool :=
  let s0 := { s with agenda := [] }
  mayIssueC s0 0 u && (u.served.isNone && !u.doomed s0) && s.agenda == [.issue 0 false .c] && s0.units.get? 0 == some u &&
  match controlWord s0 u u.r.pc with
  | (s', x, none) =>
    (match controlWords u (if x.2 = 0 then trailing .c x.1 else 0) (u.r.pc + 1) s' with
      | (_, r, none) => ws == x :: r
      | _ => false)
  | _ => false

theorem controlAt_of {s : State} {u : Machine.Unit} {ws : Words} (h : controlAt s u ws = true) : ∃ s1, ControlAt s { s with agenda := [] } s1 0 u ws := by
  unfold controlAt at h
  simp only [Bool.and_eq_true, Option.isNone_iff_eq_none, beq_iff_eq, Bool.not_eq_true'] at h
  obtain ⟨⟨⟨⟨h1, h2, hd⟩, h3⟩, h4⟩, h⟩ := h
  split at h
  case h_2 => cases h
  case h_1 s' x e1 =>
    split at h
    case h_2 => cases h
    case h_1 s1 r e2 => exact ⟨s1, ⟨0, false, [], h3, rfl, rfl, h4⟩, h1, h2, hd, x, r, s', e1, e2, eq_of_beq h⟩

theorem witness_StepRunsDecodedInstruction : (∃ s1, ControlAt (sWord 0 false [0x0308CCA0]) { sWord 0 false [0x0308CCA0] with agenda := [] } s1 0 (uWord 0 false) [(0x0308CCA0, 0)]) ∧
    KindsOf [(0x0308CCA0, 0)] ∧
    (∃ r x, ((uStrand [0xD8C00000]).seqr.get .va).run = some r ∧ (r.store.drop r.off).head? = some x ∧
      [(0xD8C00000, 0)] = (r.store.drop r.off).take (if x.2 = 0 then 1 + trailing .va x.1 else 1)) ∧
    TurnOf (sStrand [0xD8C00000]) { sStrand [0xD8C00000] with agenda := [] } .va 0 (uStrand [0xD8C00000]) ∧
    mayIssueE { sStrand [0xD8C00000] with agenda := [] } 0 (uStrand [0xD8C00000]) .va = true ∧ (uStrand [0xD8C00000]).outstanding .va = false ∧
    (uStrand [0xD8C00000]).doomed { sStrand [0xD8C00000] with agenda := [] } = false ∧
    eventAct .supplyUndervoltage sc = .next { sc with lowSupply := true } ∧
    ({ sc with agenda := [.event .supplyUndervoltage] } : State).waiting = [] ∧
    (step { sc with agenda := [.event .supplyUndervoltage] } = .next { sc with lowSupply := true }) :=
  ⟨controlAt_of (by decide +kernel), ⟨_, [], rfl, by simp⟩, ⟨_, _, rfl, rfl, by decide +kernel⟩, ⟨0, false, [], by decide +kernel, rfl, by decide +kernel⟩,
    by decide +kernel, by decide +kernel, by decide +kernel, rfl, by decide +kernel, rfl⟩

/-- A BOOK whose booking unit has served hearth 9 in this cycle has to wait for the next; a word with no such resource never has. -/
def sBook : State := let s := sWord 0 false [0x0382E720]; { s with lastServed := [(1024, (serveCycle s 1024, 9))] }

theorem witness_OutOfOrder : (∃ s1, ControlAt sBook { sBook with agenda := [] } s1 0 (uWord 0 false) [(0x0382E720, 0)]) ∧ decode .c [0x0382E720] = .ok (.book .seq 11 9 25) ∧
    inOrder sBook 0 (uWord 0 false) (.book .seq 11 9 25) = false ∧ inOrder (sWord 0 false [0x0382E720]) 0 (uWord 0 false) (.book .seq 11 9 25) = true ∧
    resourcesOf 0 (uWord 0 false) (.cinc .seq 3 3 5) = [] := ⟨controlAt_of (by decide +kernel), rfl, by decide +kernel, by decide +kernel, rfl⟩

/-- A turn of hearth 0 that has touched the Clearing's first granule, after hearth 9 was served there in the same tick or an earlier one; a pop of
stream register 2 by VL after VS has popped it; events of a unit, of a port and of another agent. -/
def sServed (c : Nat) : State := { sc with touched := [clrBase / 64], lastServed := [(sc.clrBank clrBase, (c, 9))] }
def uSq (l : List Row) : State := onBank (uc.setSq 2 { SqReg.empty with entries := l })

theorem witness_TurnsInOrder : (sc.touched = [] ∧ privileged sc { uc with ctx := 9 } = false ∧ popped (uSq [7]) (uSq [7]) 0 = []) ∧
    ((sServed 0).touched.flatMap fun g => (bankAt (sServed 0) (64 * g)).toList) = [sc.clrBank clrBase] ∧ mayServe (sServed 0) 0 (sc.clrBank clrBase) = false ∧
    mayServe (sServed 1) 0 (sc.clrBank clrBase) = true ∧ popped (uSq [7]) (uSq []) 0 = [2] ∧ mayServe (uSq [7]) (streamCode .vl) (sqPort 0 2) = true ∧
    mayServe { uSq [7] with lastServed := [(sqPort 0 2, (0, streamCode .vs))] } (streamCode .vl) (sqPort 0 2) = false ∧
    eventStream (.copyStart ⟨0, true⟩ 4) = some (1, .d) ∧ eventStream .supplyUndervoltage = none ∧ eventPort .supplyUndervoltage = none ∧
    eventStream (.remoteAccess ⟨9, 3, 2⟩ (.read clrBase 8)) = none ∧ eventPort (.remoteAccess ⟨9, 3, 2⟩ (.read clrBase 8)) = some 2 := by decide +kernel

/-- A trailing word at the pc; a jump in plain mode; an opcode that no row assigns, and a reserved field that is not zero; the same on VA. -/
theorem witness_WordChecks : (∃ s1, ControlAt (sWord 1 false [0, 0]) { sWord 1 false [0, 0] with agenda := [] } s1 0 (uWord 1 false) [(0, 1)]) ∧
    badKind [(0, 1)] = some (0, 1) ∧
    (∃ s1, ControlAt (sWord 0 true [0xC308CCA0]) { sWord 0 true [0xC308CCA0] with agenda := [] } s1 0 (uWord 0 true) [(0xC308CCA0, 0)]) ∧
    (0xC308CCA0 : Word).toNat / 2 ^ 30 ≠ 0 ∧
    (∃ s1, ControlAt (sWord 0 false [0x1C000000]) { sWord 0 false [0x1C000000] with agenda := [] } s1 0 (uWord 0 false) [(0x1C000000, 0)]) ∧
    decode .c [0x1C000000] = .error .illegal ∧
    (∃ s1, ControlAt (sWord 0 false [0x01D80001]) { sWord 0 false [0x01D80001] with agenda := [] } s1 0 (uWord 0 false) [(0x01D80001, 0)]) ∧
    decode .c [0x01D80001] = .error .reserved ∧
    (∃ r x, ((uStrand [0xFC000000]).seqr.get .va).run = some r ∧ (r.store.drop r.off).head? = some x ∧
      [(0xFC000000, 0)] = (r.store.drop r.off).take (if x.2 = 0 then 1 + trailing .va x.1 else 1)) ∧
    (∃ r x, ((uStrand [0xD8C00001]).seqr.get .va).run = some r ∧ (r.store.drop r.off).head? = some x ∧
      [(0xD8C00001, 0)] = (r.store.drop r.off).take (if x.2 = 0 then 1 + trailing .va x.1 else 1)) ∧
    decode .va [0xFC000000] = .error .illegal ∧ decode .va [0xD8C00001] = .error .reserved ∧ KindsOf [(0xC308CCA0, 0)] :=
  ⟨controlAt_of (by decide +kernel), by decide +kernel, controlAt_of (by decide +kernel), by decide +kernel, controlAt_of (by decide +kernel), rfl,
    controlAt_of (by decide +kernel), rfl, ⟨_, _, rfl, rfl, by decide +kernel⟩, ⟨_, _, rfl, rfl, by decide +kernel⟩, rfl, rfl, ⟨_, [], rfl, by simp⟩⟩

/-- An M strand whose store holds given words: a literal where an instruction should be; MPERT with an instruction as its trailing word, and at the
strand's end. -/
def uStore (l : Words) : Machine.Unit :=
  let u := benchUnit State.reset .m [0]
  { u with seqr := u.seqr.set .m { u.seqr.get .m with run := (u.seqr.get .m).run.map fun r => { r with store := l } } }
def sStore (l : Words) : State := let s := placeBench State.reset .m [0]; { s with units := s.units.put 0 (uStore l) }
def perturbWord : Word := ((encode (.mpert 0 1 2 5)).headD 0)

theorem witness_StrandWords : ∀ l ∈ [[(0, 1)], [(perturbWord, 0), (5, 0)], [(perturbWord, 0)]], StrandAt (sStore l) { sStore l with agenda := [] } .m 0 (uStore l) l ∧
    trailing .m perturbWord = 1 ∧ badKind [(0, 1)] = some (0, 1) ∧ badKind [(perturbWord, 0), (5, 0)] = some (1, 0) ∧ badKind [(perturbWord, 0)] = none := by
  intro l h
  refine ⟨⟨⟨0, false, [], ?_, rfl, rfl, ?_⟩, by decide, ?_, ?_, ?_, ?_⟩, by decide +kernel, by decide +kernel, by decide +kernel, by decide +kernel⟩
  case refine_6 =>
    rcases List.mem_cons.mp h with rfl | h
    · exact ⟨_, _, rfl, rfl, by decide +kernel⟩
    · rcases List.mem_cons.mp h with rfl | h
      · exact ⟨_, _, rfl, rfl, by decide +kernel⟩
      · rcases List.mem_cons.mp h with rfl | h
        · exact ⟨_, _, rfl, rfl, by decide +kernel⟩
        · cases h
  all_goals revert l h; decide +kernel

theorem witness_EncodeThenDecode : (Instr.mpert 3 127 127 0xFFFFFFFF).wf = true ∧ (Instr.mpert 3 127 127 0xFFFFFFFF).stream = some .m ∧
    trailing .va 0xD8C00000 = ([] : List Word).length ∧ decode .va [0xD8C00000] = .ok (.tokPutVa 3 0) := ⟨by decide +kernel, by decide +kernel, by decide +kernel, rfl⟩

theorem witness_StepKeepsSound : (sWord 0 false [0x0308CCA0]).sound ∧ (match step (sWord 0 false [0x0308CCA0]) with
    | .next t => decide ((t.units.get? 0).map (·.r.pc) = some 1)
    | _ => false) = true := by decide +kernel

theorem witness_StepAnswers : (∀ i, Turn.event i ∉ (sWord 0 false [0]).agenda) ∧ (sWord 0 false [0]).waiting = [] ∧
    exec (.cinc .seq 3 3 5) State.reset = .fault .noIssuer ∧ ({ sc with agenda := [.tick] } : State).agenda = .tick :: [] ∧
    exec .supplyUndervoltage sc = .next { sc with lowSupply := true } :=
  ⟨by intro i; have h : (sWord 0 false [0]).agenda = [.issue 0 false .c] := by decide +kernel
      rw [h]; simp, by decide +kernel, rfl, rfl, rfl⟩

theorem witness_HardwiredRegisters : (sWord 0 false [0]).units.get? 0 = some (uWord 0 false) := by decide +kernel

/-! ## Ill-formed terms: one for each check of WellFormed -/

theorem test_refused_next : (Instr.add (.call 7) 1 2 (.reg 3 0)).wf = false ∧ (Instr.add (.endLoop 3) 1 2 (.reg 3 0)).wf = false ∧
    (Instr.fadd (.seq 5) 1 2 (.reg 3 0)).wf = false ∧ (Instr.fadd (.call 7) 1 2 (.reg 3 0)).wf = false ∧ (Instr.fadd (.endLoop 3) 1 2 (.reg 3 0)).wf = false := by
  decide

theorem test_refused_control : (Instr.loop .seq 3 5).wf = false ∧ (Instr.loopRegister .seq 3 5).wf = false ∧ (Instr.aadd .seq 1 2 3 0 1 false).wf = false ∧
    (Instr.afadd .seq 1 2 3 0 1).wf = false ∧ (Instr.tlwait .seq 1 5).wf = false ∧ (Instr.cnarrow .seq 1 2 3 2).wf = false ∧ (Instr.cget .seq 1 2 10).wf = false ∧
    (Instr.ctst .seq 1 2 0 3).wf = false ∧ (Instr.ctst .seq 1 2 3 0).wf = false ∧ (Instr.disp .seq 5 1 0 []).wf = false ∧
    (Instr.disp .seq 0 1 0 [0, 0, 0, 0]).wf = false ∧ (Instr.disp .seq 0 1 0 [0x80000020]).wf = false ∧ (Instr.dispRegister .seq 0 1 2 [0x01000000]).wf = false ∧
    (Instr.cfg .seq 5 0 0 1).wf = false ∧ (Instr.cfg .seq 0 1 0 1).wf = false ∧ (Instr.remap .seq 1 2 1 3).wf = false ∧ (Instr.trap .seq 0).wf = false := by decide

theorem test_refused_engine : (Instr.vlG 1 0 0 (.latch 1) 0).wf = false ∧ (Instr.vadd false 1 (.sq 0) (.v 1) 0 true false).wf = false ∧
    (Instr.vadd false 1 (.v 1) (.sq 0) 0 false true).wf = false ∧ (Instr.vcvt false 1 (.v 1) 0 0 0 false).wf = false ∧
    (Instr.vcvt false 1 (.v 1) 1 6 0 false).wf = false ∧ (Instr.vst 0 0 (.latch 1) 0).wf = false ∧ (Instr.vstS 0 0 (.v 1) (.latch 1) 0).wf = false ∧
    (Instr.vpush 0 0 (.latch 1) 0).wf = false ∧ (Instr.dset 10 false 0 none).wf = false ∧ (Instr.dgo 0 1 10 0 0).wf = false ∧ (Instr.dred 6 0).wf = false ∧
    (Instr.dcvt 6 false).wf = false := by decide

/-! ## Words of every family, from the fields of spec/opcode_table.json -/

def decodesTo (s : Stream) (e : List Word × Instr) : Bool := match decode s e.1 with
  | .ok i => decide (i = e.2)
  | .error _ => false

theorem test_words_integer : ([
    ([0x5402F35D], .add (.jump 5) 11 25 (.const 87)), ([0x880AF206, 0x40490FDB], .sub (.call 2) 11 25 (.lit 0x40490FDB 1)),
    ([0x9C12F3E7], .mul .ret 11 25 (.imm 30 1)), ([0xC41AF358], .mulh (.endLoop 1) 11 25 (.reg 21 2)), ([0x0022F35D], .mulhU .seq 11 25 (.const 87)),
    ([0x542AF206, 0x40490FDB], .div (.jump 5) 11 25 (.lit 0x40490FDB 1)), ([0x8832F3E7], .divU (.call 2) 11 25 (.imm 30 1)),
    ([0x9C3AF358], .rem .ret 11 25 (.reg 21 2)), ([0xC442F35D], .remU (.endLoop 1) 11 25 (.const 87)),
    ([0x004AF206, 0x40490FDB], .and .seq 11 25 (.lit 0x40490FDB 1)), ([0x5452F3E7], .or (.jump 5) 11 25 (.imm 30 1)),
    ([0x885AF358], .xor (.call 2) 11 25 (.reg 21 2)), ([0x9C62F35D], .andn .ret 11 25 (.const 87)),
    ([0xC46AF206, 0x40490FDB], .shl (.endLoop 1) 11 25 (.lit 0x40490FDB 1)), ([0x0072F3E7], .shr .seq 11 25 (.imm 30 1)),
    ([0x547AF358], .sar (.jump 5) 11 25 (.reg 21 2)), ([0x8882F35D], .min (.call 2) 11 25 (.const 87)),
    ([0x9C8AF206, 0x40490FDB], .max .ret 11 25 (.lit 0x40490FDB 1)), ([0xC492F3E7], .minU (.endLoop 1) 11 25 (.imm 30 1)),
    ([0x009AF358], .maxU .seq 11 25 (.reg 21 2)), ([0x54A2F208], .clz (.jump 5) 2 11 25), ([0x88AAF208], .popc (.call 2) 2 11 25),
    ([0x9CB2F3E7], .addw .ret 11 25 (.imm 30 1)), ([0xC4BAF358], .bfx (.endLoop 1) 11 25 (.reg 21 2))] : List (List Word × Instr)).all (decodesTo .c) = true := by decide +kernel

theorem test_words_float : ([
    ([0x0CC2F35D], .fadd (.seq 3) 11 25 (.const 87)), ([0x50CAF206, 0x40490FDB], .fsub (.jump 4) 11 25 (.lit 0x40490FDB 1)),
    ([0x98D2F3E7], .fmul (.call 6) 11 25 (.imm 30 1)), ([0x9CDAF358], .fdiv .ret 11 25 (.reg 21 2)),
    ([0xC8E2F35D], .fma (.endLoop 2) 11 25 (.const 87)), ([0x0CEAF206, 0x40490FDB], .fnma (.seq 3) 11 25 (.lit 0x40490FDB 1)),
    ([0x50F2F3E7], .fmin (.jump 4) 11 25 (.imm 30 1)), ([0x98FAF358], .fmax (.call 6) 11 25 (.reg 21 2)), ([0x9D02F208], .fsqrt .ret 2 11 25),
    ([0xC90AF208], .fabs (.endLoop 2) 2 11 25), ([0x0D12F208], .fneg (.seq 3) 2 11 25), ([0x511AF208], .fcvtFi (.jump 4) 2 11 25),
    ([0x9922F208], .fcvtIf (.call 6) 2 11 25), ([0x9D2AF208], .fclass .ret 2 11 25)] : List (List Word × Instr)).all (decodesTo .c) = true := by decide +kernel

theorem test_words_compare : ([
    ([0xC541B3E7], .ceq (.endLoop 1) 6 25 (.imm 30 1)), ([0x0149B358], .cne .seq 6 25 (.reg 21 2)), ([0x5551B35D], .clt (.jump 5) 6 25 (.const 87)),
    ([0x8959B206, 0x40490FDB], .cle (.call 2) 6 25 (.lit 0x40490FDB 1)), ([0x9D61B3E7], .cltU .ret 6 25 (.imm 30 1)),
    ([0xC569B358], .cleU (.endLoop 1) 6 25 (.reg 21 2)), ([0x0D71B35D], .fceq (.seq 3) 6 25 (.const 87)),
    ([0x5179B206, 0x40490FDB], .fclt (.jump 4) 6 25 (.lit 0x40490FDB 1)), ([0x9981B3E7], .fcle (.call 6) 6 25 (.imm 30 1)),
    ([0x9D89B358], .fcun .ret 6 25 (.reg 21 2)), ([0xC5918658], .pand (.endLoop 1) 2 6 3 5), ([0x01998658], .por .seq 2 6 3 5),
    ([0x55A18658], .pxor (.jump 5) 2 6 3 5), ([0x89A98658], .pandn (.call 2) 2 6 3 5), ([0x9DB2F35D], .sel .ret 11 25 (.const 87)),
    ([0xC5B9B208], .pset (.endLoop 1) 2 6 25)] : List (List Word × Instr)).all (decodesTo .c) = true := by decide +kernel

theorem test_words_immediate : ([
    ([0xE177DDEA], .fset .endInner 11 0xbeef5), ([0x2577DDEA], .faddImm .seq 11 0xbeef5), ([0x6977DDEA], .fmulImm .jump 11 0xbeef5),
    ([0xAD77DDEA], .fmaxImm .ret 11 0xbeef5), ([0xF177DDEA], .iset .endInner 11 0xbeef5), ([0x3577DDEA], .iadd .seq 11 0xbeef5),
    ([0x7977DDEA], .iand .jump 11 0xbeef5), ([0xBD77DDEA], .ishi .ret 11 0xbeef5)] : List (List Word × Instr)).all (decodesTo .c) = true := by decide +kernel

theorem test_words_sequencing : ([
    ([0x9DC6A000, 0xFFFFFFFE], .pbr .ret 6 5 false 0xFFFFFFFE), ([0xC5C6BE40], .pbrRegister (.endLoop 1) 6 5 true 25), ([0x01CEB000], .brx 6 5 true),
    ([0x55D49C30], .loop (.jump 5) 2 0x9c3), ([0x89D5C800], .loopRegister (.call 2) 2 25), ([0x01D80000], .halt), ([0xC5E00000], .ifsync (.endLoop 1))] : List (List Word × Instr)).all (decodesTo .c) = true := by decide +kernel

theorem test_words_memory : ([
    ([0x0202E402, 0xFFFFFFF0], .ldb .seq 11 9 (.lit 0xFFFFFFF0)), ([0x560AE4F3], .ldbz (.jump 5) 11 9 (.post 0x3C)),
    ([0x8A12E694], .ldh (.call 2) 11 9 (.off 0xA5)), ([0x9E1AE44D], .ldhz .ret 11 9 (.idx 19)),
    ([0xC622E402, 0xFFFFFFF0], .ldw (.endLoop 1) 11 9 (.lit 0xFFFFFFF0)), ([0x022AE4F3], .ldwz .seq 11 9 (.post 0x3C)),
    ([0x5632E694], .ldd (.jump 5) 11 9 (.off 0xA5)), ([0x8A3AE44D], .ldc (.call 2) 11 9 (.idx 19)),
    ([0x9E42E402, 0xFFFFFFF0], .stb .ret 11 9 (.lit 0xFFFFFFF0)), ([0xC64AE4F3], .sth (.endLoop 1) 11 9 (.post 0x3C)),
    ([0x0252E694], .stw .seq 11 9 (.off 0xA5)), ([0x565AE44D], .std (.jump 5) 11 9 (.idx 19)),
    ([0x8A62E402, 0xFFFFFFF0], .stc (.call 2) 11 9 (.lit 0xFFFFFFF0))] : List (List Word × Instr)).all (decodesTo .c) = true := by decide +kernel

theorem test_words_atomic : ([
    ([0x9E82F337], .aadd .ret 11 25 9 2 3 true), ([0xC68AF336], .aand (.endLoop 1) 11 25 9 2 3 false), ([0x0292F337], .aor .seq 11 25 9 2 3 true),
    ([0x569AF336], .axor (.jump 5) 11 25 9 2 3 false), ([0x8AA2F337], .amin (.call 2) 11 25 9 2 3 true),
    ([0x9EAAF336], .amax .ret 11 25 9 2 3 false), ([0xC6B2F337], .aswap (.endLoop 1) 11 25 9 2 3 true), ([0x02BAF336], .acas .seq 11 25 9 2 3 false),
    ([0x56C2F337], .afadd (.jump 5) 11 25 9 2 3), ([0x8AC80126], .acq (.call 2) 9 3), ([0x9ED00126], .rel .ret 9 3),
    ([0xC6DAB326], .bind (.endLoop 1) 10 25 9 3), ([0x02E00006], .fence .seq 3), ([0x56EAC800], .tlwait (.jump 5) 11 4),
    ([0x8AF2F320], .mwait (.call 2) 11 25 9)] : List (List Word × Instr)).all (decodesTo .c) = true := by decide +kernel

theorem test_words_capability : ([
    ([0x9F035C00], .cmov .ret 13 7), ([0xC70B5F20], .cinc (.endLoop 1) 13 7 25), ([0x03135F20], .cset .seq 13 7 25),
    ([0x571B5F22], .cnarrow (.jump 5) 13 7 25 1), ([0x8B235F34], .cdrop (.call 2) 13 7 25 10), ([0x9F2B5C12], .cget .ret 13 7 9),
    ([0xC7311F24], .ctst (.endLoop 1) 4 7 25 2)] : List (List Word × Instr)).all (decodesTo .c) = true := by decide +kernel

theorem test_words_dispatch : ([
    ([0x0344BC00, 0x0A000123, 0x00FFFFFF, 0x8000000D], .disp .seq 4 23 0x0A000123 [0x00FFFFFF, 0x8000000D]),
    ([0x5744BD88, 0x00FFFFFF, 0x8000000D], .dispRegister (.jump 5) 4 23 17 [0x00FFFFFF, 0x8000000D]), ([0x8B4B6472], .cfg (.call 2) 3 1 145 25),
    ([0x9F55F380], .tokPut .ret 11 231), ([0xC75DF380], .tokGet (.endLoop 1) 11 231), ([0x03600000], .phase .seq),
    ([0x576B4800], .tile (.jump 5) 6 9 false)] : List (List Word × Instr)).all (decodesTo .c) = true := by decide +kernel

theorem test_words_booking : ([
    ([0x8B82E720], .book (.call 2) 11 9 25), ([0x9F8AE720], .reserve .ret 11 9 25), ([0xC78AC324], .confirm (.endLoop 1) 11 25),
    ([0x038AC328], .abandon .seq 11 25), ([0x5792C320], .lease (.jump 5) 11 25), ([0x8B92C324], .leaseOpen (.call 2) 11 25),
    ([0x9F9AC320], .unlease .ret 11 25), ([0xC79AC324], .unleaseRet (.endLoop 1) 11 25), ([0x03A2E720], .launch .seq 11 9 25),
    ([0x57AAE400], .postQueued (.jump 5) 11 9), ([0x8BAAE740], .postParked (.call 2) 11 9 10), ([0x9FB2E720], .depdec .ret 11 9 25),
    ([0xC7BAC320], .cancelGraph (.endLoop 1) 11 25), ([0x03BAC324], .cancelPhase .seq 11 25), ([0x57BAC328], .cancelJob (.jump 5) 11 25),
    ([0x8BBAC32C], .cancelLaunch (.call 2) 11 25)] : List (List Word × Instr)).all (decodesTo .c) = true := by decide +kernel

theorem test_words_system : ([
    ([0x9FC00300], .tfenceW .ret 3), ([0xC7CCE770], .tlbinv (.endLoop 1) 9 25 3 14), ([0x03D4E770], .shoot .seq 9 25 3 14),
    ([0x57DCE770], .remap (.jump 5) 9 25 3 14), ([0x8BE2EA30], .gets (.call 2) 11 0x2a3), ([0x9FEE6A30], .sets .ret 25 0x2a3),
    ([0xC7F62800], .trap (.endLoop 1) 197), ([0x03F00000], .trapResume), ([0x57FE5C00], .inject (.jump 5) 25 14)] : List (List Word × Instr)).all (decodesTo .c) = true := by decide +kernel

theorem test_words_vectorLoad : ([
    ([0x016D3018], .vl 45 5 3 6), ([0x056D3E18], .vlG 45 5 3 .zero 6), ([0x096D3018], .vlT 45 5 3 6), ([0x0D6D301A], .vlBf 45 5 3 6 2),
    ([0x116D3018], .vlBc 45 5 3 6), ([0x156D3018], .vlPop 45 5 3 6), ([0x1AF9C000], .tokPutVl 11 231), ([0x1EF9C000], .tokGetVl 11 231)] : List (List Word × Instr)).all (decodesTo .vl) = true := by decide +kernel

theorem test_words_vector : ([
    ([0x436F1859], .vadd true 45 .one (.latch 2) 6 false true), ([0x456F2ABA], .vsub false 45 .lane (.sq 5) 6 true false),
    ([0x4B696C19], .vmul true 45 (.v 22) .pushed 6 false true), ([0x4D6C2E1A], .vfma false 45 (.latch 2) .zero 6 true false),
    ([0x536D5E39], .vfnma true 45 (.sq 5) .one 6 false true), ([0x556E0E5A], .vmin false 45 .pushed .lane 6 true false),
    ([0x5B6F02D9], .vmax true 45 .zero (.v 22) 6 false true), ([0x5D6F1018], .vabs false 45 .one 6 false),
    ([0x636F2AB8], .vand true 45 .lane (.sq 5) 6 false false), ([0x65696C1A], .vor false 45 (.v 22) .pushed 6 true false),
    ([0x6B6C2E19], .vxor true 45 (.latch 2) .zero 6 false true), ([0x6D6D5E38], .vshl false 45 (.sq 5) .one 6 false false),
    ([0x736E0E59], .vshr true 45 .pushed .lane 6 false true), ([0x743702DA], .vceq false 6 .zero (.v 22) 6 true false),
    ([0x7A371859], .vclt true 6 .one (.latch 2) 6 false true), ([0x7C372ABA], .vcle false 6 .lane (.sq 5) 6 true false),
    ([0x83696C19], .vsel true 45 (.v 22) .pushed 6 false true), ([0x856C2338], .vcvt false 45 (.latch 2) 3 1 6 false),
    ([0x8B6D5018], .vexp2 true 45 (.sq 5) 6 false), ([0x8D6E0018], .vlog2 false 45 .pushed 6 false), ([0x936F001A], .vrcp true 45 .zero 6 true),
    ([0x956F1018], .vrsq false 45 .one 6 false), ([0x9B6F201A], .vrsum true 45 .lane 6 true), ([0x9D696018], .vrmax false 45 (.v 22) 6 false),
    ([0xA36C201A], .vrmin true 45 (.latch 2) 6 true), ([0xA56D5018], .vscan false 45 (.sq 5) 6 false),
    ([0xAB6E0E59], .vperm true 45 .pushed .lane 6 false true), ([0xAD6F0018], .vtopk false 45 .zero 6 false), ([0xB36991C0], .vtopkm true 45 25 14),
    ([0xB56F2ABA], .vqres false 45 .lane (.sq 5) 6 true false), ([0xBB69601A], .vbstat true 45 (.v 22) 6 true),
    ([0xBD6C2018], .vmov false 45 (.latch 2) 6 false), ([0xC36D5E39], .vclamp true 45 (.sq 5) .one 6 false true), ([0xDAF9C000], .tokPutVa 11 231),
    ([0xDEF9C000], .tokGetVa 11 231)] : List (List Word × Instr)).all (decodesTo .va) = true := by decide +kernel

theorem test_words_vectorStore : ([
    ([0xE2996018], .vst 5 3 (.v 22) 6), ([0xE69D5E38], .vstS 5 3 (.sq 5) .one 6), ([0xEA9E0018], .vpush 5 3 .pushed 6),
    ([0xEE999018], .vsta 5 3 25 6), ([0xFAF9C000], .tokPutVs 11 231), ([0xFEF9C000], .tokGetVs 11 231)] : List (List Word × Instr)).all (decodesTo .vs) = true := by decide +kernel

theorem test_words_engine : ([
    ([0x0002ABCD], .matAt 0x2abcd), ([0x05000C00], .mlb 1 12), ([0x099A002B], .mza 1 154 43), ([0x0D9A902B], .mla 1 154 9 43),
    ([0x119A902B], .mmul 1 154 9 43), ([0x159A902B], .mmac 1 154 9 43), ([0x1900002B], .mprom 1 43),
    ([0x1DAAB000, 0xBF800000], .mpert 1 85 44 0xBF800000), ([0x21000C00], .wld 1 12), ([0x259A902B], .wmul 1 154 9 43),
    ([0x299A902B], .wmac 1 154 9 43), ([0x2D009C2B], .svscore 1 9 12 43), ([0x31000C2B], .svtopk 1 12 43), ([0x35009C00], .svgath 1 9 12),
    ([0x399A902B], .ktexp 1 154 9 43), ([0x3D9A902B], .ktsmax 1 154 9 43), ([0x41009C04], .gtqnt 1 9 12 4), ([0x45009C2B], .gtsum 1 9 12 43),
    ([0x49009C02], .spred 1 9 12 2), ([0x4D00902B], .spbc 1 9 43), ([0x52F9C000], .tokPutM 11 231), ([0x56F9C000], .tokGetM 11 231)] : List (List Word × Instr)).all (decodesTo .m) = true := by decide +kernel

theorem test_words_copy : ([
    ([0x01BABCDE, 0xFFFFF000], .dset 6 true 0xabcde (some 0xFFFFF000)), ([0x05E73800], .dgo 3 6 7 3 8),
    ([0x08000000, 0x12345678], .cpyAt 0x12345678), ([0x0C00A00F], .dmask 0xa00f), ([0x10800000, 0xCAFE0001], .dred 2 0xCAFE0001),
    ([0x16D00000], .dbind 5 5), ([0x1A800000], .dstamp 5), ([0x1C000000], .dfill), ([0x20000000], .dcancel), ([0x24800000], .dcvt 1 false),
    ([0x2AF9C000], .tokPutD 11 231), ([0x2EF9C000], .tokGetD 11 231)] : List (List Word × Instr)).all (decodesTo .d) = true := by decide +kernel


/-! ## Single steps with results from the spec's worked examples and tables -/

/-- The value that a control word leaves in a scalar register, and the flags. -/
def leaves (u : Machine.Unit) (i : Instr) (d : SReg) : Option (Double × Double) := match exec i (onBank u) with
  | .next t => (t.units.get? 0).map fun w => (w.sreg d, w.r.flags)
  | _ => none

/-- Example 5.1: the registers of Table 5.9, and s5, s6 as the words before leave them. -/
def ex51 : Machine.Unit := ((((withS 2 0x3F800800).setS 3 0x3F800800).setS 4 0xBF801000).setS 5 0x3F801000).setS 6 0

theorem test_fmul_example_5_1 : leaves ex51 (.fmul (.seq 0) 5 3 (.reg 2 0)) 5 = some (0x3F801000, 1) := by decide +kernel
theorem test_fadd_example_5_1 : leaves ex51 (.fadd (.seq 0) 6 5 (.reg 4 0)) 6 = some (0, 0) ∧ leaves ex51 (.fadd (.seq 2) 7 5 (.reg 4 0)) 7 = some (0x80000000, 0) := by
  decide +kernel
theorem test_fma_example_5_1 : leaves ex51 (.fma (.seq 0) 3 2 (.reg 4 0)) 3 = some (0x33800000, 0) := by decide +kernel
theorem test_fclt_sel_example_5_1 : (match exec (.fclt (.seq 0) 2 6 (.reg 3 0)) (onBank (ex51.setS 3 0x33800000)) with
      | .next t => (t.units.get? 0).map (·.preg 2)
      | _ => none) = some true ∧
    leaves ((ex51.setS 3 0x33800000).setP 2 true) (.sel .seq 8 3 (.reg 6 2)) 8 = some (0x33800000, 0) := by decide +kernel

/-- The step after Table 4.5. -/
theorem test_lfsr : lfsrN 1 0xE0000000 = 0xC0000001 := by decide +kernel

/-- Example 4.1: Table 4.13, and the .sr copy. -/
def ex41 : List Val := ([0x40540000, 0x447A0000, 0xBA83126F, 0x3F400000] ++ List.replicate 44 0).map fp32.decode

theorem test_b48_example_4_1 : b48Encode 4 [] ex41 .rne [] = ([0x3D, 0x7E, 0x80, 0x2C] ++ List.replicate 44 0, 0x80, 7) ∧
    (b48Encode 4 [] ex41 .sr (lfsrs 48 0xE0000000)).1.headD 0 = 0x3E := by decide +kernel

/-- Example 6.2: Table 6.6's v0 and v6, and Table 6.8. -/
def v0Lanes : List Nat := [0x4B800000, 0x3F800000, 0x3F800000, 0xCB800000, 0x40400000, 0x40400000, 0x80000000, 0x3F000000]
def ex62 : VaIn := { et := 0, cfg := [], mask := 0xFF, rows := [rowOf 32 v0Lanes], lfsr := 1 }

theorem test_vrsum_example_6_2 : ((reduceForm VaIn.plus fun _ => 0).f ex62).lo = List.replicate 128 0x40F00000 ∧
    ((reduceForm VaIn.plus fun _ => 0).f ex62).fl = 1 := by decide +kernel
theorem test_vtopk_example_6_2 : (let o := topK ex62 ((List.range 128).filterMap fun i => if ex62.on i then some (ex62.at 0 i, i) else none)
    o.lo = [0x4B800000, 0x40400000, 0x40400000, 0x3F800000] ++ List.replicate 124 0x7FC00000 ∧
    o.hi = some ([0, 4, 5, 1] ++ List.replicate 124 0xFFFFFFFF)) := by decide +kernel

/-- vfma v10, v0, v6 with 1.0 in v10: the lanes of the result that Table 6.8 gives. -/
def sFma : State := { sv .va [] with rows := [(0, rowOf 32 v0Lanes), (6, rowOf 32 (List.replicate 128 0x3E800000)), (10, rowOf 32 (List.replicate 128 0x3F800000))] }

theorem test_vfma_example_6_2 : (match exec (.vfma false 10 (.v 0) (.v 6) 0 false false) sFma with
    | .next t => (t.units.get? 0).map fun w => (w.ops.map fun o => match o.body with
        | .va x => x.rows.map fun r => (r.1, (List.range 9).map (laneOf r.2.1 32))
        | _ => [], w.ops.map (·.flags))
    | _ => none) =
    some ([[(10, [0x4A800002, 0x3FA00000, 0x3FA00000, 0xCA7FFFFC, 0x3FE00000, 0x3FE00000, 0x3F800000, 0x3F900000, 0x3F800000])]], [0]) := by decide +kernel

/-- Example 7.1: one A row and the first two columns of B, in blocks with their scales; Table 7.11. -/
def blk (sc : Nat) (first : Nat) : Blk := blkOf (List.replicate 48 sc) ((first :: List.replicate 47 0).map fun c => (4, c))
def a71 : List Blk := [blk 0x87 0x78, blk 0x7F 0x38, blk 0x7F 0x38, blk 0x7F 0x34] ++ List.replicate 4 (blk 0x7F 0)
def b71 : List (List Blk) :=
  [[blk 0x7F 0x78, blk 0x7F 0x38, blk 0x7F 0x38, blk 0x7F 0x38] ++ List.replicate 4 (blk 0x7F 0),
   [blk 0x6F 0x38, blk 0x7F 0x78] ++ List.replicate 6 (blk 0x7F 0)]
def run71 : Run := { acc := 0, rows := 1, int := false, blocks := 0, vals := [0], wins := [] }

theorem test_mmul_interval_1_example_7_1 : ((multiply 1 run71 [a71] b71).1.vals.map fun r => (laneOf r 32 0, laneOf r 32 1)) = [(0x4B800000, 0x43808000)] ∧
    (multiply 1 run71 [a71] b71).2 = (1, false) := by decide +kernel
theorem test_mmul_interval_4_example_7_1 : ((multiply 4 run71 [a71] b71).1.vals.map fun r => (laneOf r 32 0, laneOf r 32 1)) = [(0x4B800001, 0x43000000)] ∧
    (multiply 4 run71 [a71] b71).2 = (1, true) := by decide +kernel

/-! ## Cryptography: the examples of the standards that the spec names -/

/-- FIPS 197, appendix C.3: bytes 00 to 1F as key, 00 11 22 … FF as block, both ways. -/
theorem test_aes256_example :
    let ks := roundKeys ((List.range 32).map (BitVec.ofNat 8))
    let block := (List.range 16).map fun i => BitVec.ofNat 8 (17 * i)
    leNat (aesEncrypt ks block).reverse = 0x8ea2b7ca516745bfeafc49904b496089 ∧ aesDecrypt ks (aesEncrypt ks block) = block := by decide +kernel

/-- IEEE 1619, vector 10: data unit 0xFF under keys of the digits of e and pi; the first block. -/
theorem test_xts_vector :
    let key := (leBytes 32 0x2718281828459045235360287471352662497757247093699959574966967627).reverse ++
      (leBytes 32 0x3141592653589793238462643383279502884197169399375105820974944592).reverse
    leNat ((xtsEncrypt key 0xFF ((List.range 64).map (BitVec.ofNat 8))).take 16).reverse =
      0x1c3b3a102f770386e4836c99e370cf9b := by decide +kernel

/-- FIPS 180-4's example "abc". -/
theorem test_sha256_abc : sha256 [0x61, 0x62, 0x63] = 0xba7816bf8f01cfea414140de5dae2223b00361a396177a9cb410ff61f20015ad := by decide +kernel

end Sys2Proof.Tests
end

section
/-! SUPPORT. The commands of a context (O58): what each answers, outcome by outcome, for a command that `FromContext` lets through. -/

namespace Sys2Proof.Machine.ContextCommands
open Sys2Proof.Claims

variable {s t : State} {hd : CmdHeader} {r : CtxRec}

/-! ## The course of a command -/

/-- The model's answer and the statements' word for it are one state. -/
@[simp] theorem answerCmd_eq_answered (s : State) (hd : CmdHeader) (cmd status : Nat) (result : List Nat) :
    answerCmd s hd cmd status result = answered s hd cmd status result := rfl

/-- A command that `FromContext` lets through passes the checks of R359 and R363 and comes to its own effect. -/
theorem ctxCommand_fromContext (h : FromContext s hd r) (cmd : Nat) (f : Nat → CtxRec → State) :
    ctxCommand hd cmd s f = .next (f hd.ctx r) := by
  obtain ⟨q, hq, hbound, hrec, hstays⟩ := h
  simp [ctxCommand, onQp, hq, hbound, hrec, hstays]

/-! ## LOAD and UNLOAD (R87, R364) -/

theorem load_refused {img : CodeImage} {code : Nat} {bases : Six Nat} (h : FromContext s hd r)
    (hcheck : loadCheck s r hd.ctx img = (code, bases)) (hcode : code ≠ 0) :
    exec (.load hd img) s = .next (answered s hd 0x04 code []) := by
  change execLoad hd img s = _
  rw [execLoad, ctxCommand_fromContext h, hcheck]
  cases code with
  | zero => exact absurd rfl hcode
  | succ n => rfl

theorem load_installed {img : CodeImage} {bases : Six Nat} {k : Nat} (h : FromContext s hd r)
    (hcheck : loadCheck s r hd.ctx img = (0, bases)) (hplace : install s hd.ctx img bases = some (t, k)) :
    exec (.load hd img) s = .next (answered t hd 0x04 0 [k, bases.c, bases.vl, bases.va, bases.vs, bases.m, bases.d]) := by
  change execLoad hd img s = _
  simp only [execLoad, ctxCommand_fromContext h, hcheck, hplace]
  rfl

theorem load_noSpace {img : CodeImage} {bases : Six Nat} (h : FromContext s hd r)
    (hcheck : loadCheck s r hd.ctx img = (0, bases)) (hplace : install s hd.ctx img bases = none) :
    exec (.load hd img) s = .next (answered s hd 0x04 0x34 []) := by
  change execLoad hd img s = _
  simp only [execLoad, ctxCommand_fromContext h, hcheck, hplace, answerCmd_eq_answered]

theorem unload_unused {code : Nat} {c : Code} (h : FromContext s hd r) (hc : s.codes.get? code = some c) (hown : c.ctx = hd.ctx)
    (hused : codeUsed s hd.ctx code = false) :
    exec (.unload hd code) s = .next (answered (syncRetire { s with codes := s.codes.del code } c.sync) hd 0x05 0 []) := by
  change execUnload hd code s = _
  simp [execUnload, ctxCommand_fromContext h, hc, hown, hused]

theorem unload_busy {code : Nat} {c : Code} (h : FromContext s hd r) (hc : s.codes.get? code = some c) (hown : c.ctx = hd.ctx)
    (hused : codeUsed s hd.ctx code = true) : exec (.unload hd code) s = .next (answered s hd 0x05 0x33 []) := by
  change execUnload hd code s = _
  simp [execUnload, ctxCommand_fromContext h, hc, hown, hused]

theorem unload_notOwn {code : Nat} (h : FromContext s hd r) (hown : ∀ c, s.codes.get? code = some c → c.ctx ≠ hd.ctx) :
    exec (.unload hd code) s = .next (answered s hd 0x05 0x32 []) := by
  change execUnload hd code s = _
  rw [execUnload, ctxCommand_fromContext h]
  cases hc : s.codes.get? code with
  | none => rfl
  | some c => simp [hown c hc]

/-! ## CREATE_OBJ and DESTROY_OBJ (R364) -/

theorem createObj_badArg {entry : List Double} (h : FromContext s hd r) (hok : objRequestOk r (objOf entry) = false) :
    exec (.createObj hd entry) s = .next (answered s hd 0x06 0x32 []) := by
  change execCreateObj hd entry s = _
  simp [execCreateObj, ctxCommand_fromContext h, hok]

theorem createObj_noSpace {entry : List Double} (h : FromContext s hd r) (hok : objRequestOk r (objOf entry) = true)
    (hfull : nextOid s hd.ctx = none ∨
      ∃ oid, nextOid s hd.ctx = some oid ∧ makeObject s hd.ctx oid { objOf entry with key := hd.ctx } = none) :
    exec (.createObj hd entry) s = .next (answered s hd 0x06 0x34 []) := by
  change execCreateObj hd entry s = _
  rcases hfull with hid | ⟨oid, hid, hmake⟩
  · simp [execCreateObj, ctxCommand_fromContext h, hok, hid]
  · simp [execCreateObj, ctxCommand_fromContext h, hok, hid, hmake]

theorem createObj_made {entry : List Double} {oid : Nat} (h : FromContext s hd r) (hok : objRequestOk r (objOf entry) = true)
    (hid : nextOid s hd.ctx = some oid) (hmake : makeObject s hd.ctx oid { objOf entry with key := hd.ctx } = some t) :
    exec (.createObj hd entry) s = .next (answered t hd 0x06 0 [oid]) := by
  change execCreateObj hd entry s = _
  simp [execCreateObj, ctxCommand_fromContext h, hok, hid, hmake]

theorem destroyObj_none {oid : Nat} (h : FromContext s hd r) (hobj : objValid s hd.ctx oid = none) :
    exec (.destroyObj hd oid) s = .next (answered s hd 0x07 0x32 []) := by
  change execDestroyObj hd oid s = _
  simp [execDestroyObj, ctxCommand_fromContext h, hobj]

theorem destroyObj_codeArea {oid : Nat} (h : FromContext s hd r) (hobj : (objValid s hd.ctx oid).isSome = true)
    (harea : isCodeArea s hd.ctx oid = true) : exec (.destroyObj hd oid) s = .next (answered s hd 0x07 0x33 []) := by
  obtain ⟨e, he⟩ := Option.isSome_iff_exists.mp hobj
  change execDestroyObj hd oid s = _
  simp [execDestroyObj, ctxCommand_fromContext h, he, harea]

theorem destroyObj_removed {oid : Nat} {e : ObjE} (h : FromContext s hd r) (hobj : objValid s hd.ctx oid = some e)
    (harea : isCodeArea s hd.ctx oid = false) (hgrants : retireGrants s.grants.length s hd.ctx oid = t) :
    exec (.destroyObj hd oid) s = .next (answered (removeObject { t with grants := t.grants.filter fun g =>
      !(g.recipient = hd.ctx && g.roid = oid) } hd.ctx oid e) hd 0x07 0 []) := by
  subst hgrants
  change execDestroyObj hd oid s = _
  simp only [execDestroyObj, ctxCommand_fromContext h, hobj, harea, answerCmd_eq_answered]
  rfl

/-- With no grant of the object, retiring its grants leaves the machine as it is. -/
theorem retireGrants_of_none {ctx oid : Nat} (n : Nat) (hg : ∀ g ∈ s.grants, ¬ (g.owner = ctx ∧ g.oid = oid)) :
    retireGrants n s ctx oid = s := by
  cases n with
  | zero => rfl
  | succ n =>
    have hnone : (s.grants.filter fun g => g.owner = ctx && g.oid = oid) = [] := by
      simpa [List.filter_eq_nil_iff] using hg
    rw [retireGrants, hnone, List.foldl_nil]

/-! ## Queues and launches (R331 to R333) -/

theorem createQueue_badArg {q depth oid off : Nat} (h : FromContext s hd r)
    (hbad : 2 ^ 16 ≤ q ∨ ringOk s hd.ctx depth oid off = false) :
    exec (.createQueue hd q depth oid off) s = .next (answered s hd 0x08 0x32 []) := by
  have hrefused : (decide (2 ^ 16 ≤ q) || !ringOk s hd.ctx depth oid off) = true := by simpa using hbad
  change execCreateQueue hd q depth oid off s = _
  simp only [execCreateQueue, ctxCommand_fromContext h, hrefused, if_true, answerCmd_eq_answered]

theorem createQueue_busy {q depth oid off : Nat} (h : FromContext s hd r) (hq : q < 2 ^ 16)
    (hring : ringOk s hd.ctx depth oid off = true) (htaken : s.queues.has q = true) :
    exec (.createQueue hd q depth oid off) s = .next (answered s hd 0x08 0x33 []) := by
  have hallowed : (decide (2 ^ 16 ≤ q) || !ringOk s hd.ctx depth oid off) = false := by simpa [hring] using hq
  change execCreateQueue hd q depth oid off s = _
  simp only [execCreateQueue, ctxCommand_fromContext h, hallowed, htaken, Bool.false_eq_true, if_false, if_true, answerCmd_eq_answered]

theorem createQueue_made {q depth oid off : Nat} {qu : Queue} (h : FromContext s hd r) (hq : q < 2 ^ 16)
    (hring : ringOk s hd.ctx depth oid off = true) (hfree : s.queues.get? q = none)
    (hqu : qu = { ctx := hd.ctx, depth := depth, oid := oid, off := off, resident := r.body.hmask != 0, head := 0, entries := [] }) :
    exec (.createQueue hd q depth oid off) s =
      .next (answered { objWrite s hd.ctx oid off (List.replicate 64 0) with queues := s.queues.put q qu } hd 0x08 0 []) := by
  have hallowed : (decide (2 ^ 16 ≤ q) || !ringOk s hd.ctx depth oid off) = false := by simpa [hring] using hq
  have hnew : s.queues.has q = false := by simp [Tab.has, hfree]
  subst hqu
  change execCreateQueue hd q depth oid off s = _
  simp only [execCreateQueue, ctxCommand_fromContext h, hallowed, hnew, Bool.false_eq_true, if_false, answerCmd_eq_answered]

theorem deleteQueue_notOwn {q : Nat} (h : FromContext s hd r) (hown : ∀ qu, s.queues.get? q = some qu → qu.ctx ≠ hd.ctx) :
    exec (.deleteQueue hd q) s = .next (answered s hd 0x09 0x32 []) := by
  change execDeleteQueue hd q s = _
  rw [execDeleteQueue, ctxCommand_fromContext h]
  cases hqu : s.queues.get? q with
  | none => rfl
  | some qu => simp [hown qu hqu]

theorem deleteQueue_unused {q : Nat} {qu : Queue} (h : FromContext s hd r) (hqu : s.queues.get? q = some qu) (hown : qu.ctx = hd.ctx)
    (hempty : qu.entries = []) (htaking : takingSlot s q = none) :
    exec (.deleteQueue hd q) s = .next (answered { s with
      nextOrder := s.nextOrder + 1, queues := s.queues.del q, kicks := s.kicks.del q
      launches := s.launches.map fun e => (e.1, if e.2.queue = q then { e.2 with queue := q + 2 ^ 16 * (s.nextOrder + 1) } else e.2) }
      hd 0x09 0 []) := by
  change execDeleteQueue hd q s = _
  simp [execDeleteQueue, ctxCommand_fromContext h, hqu, hown, hempty, htaking]

/-- A queue with packets, or one from which a packet is being taken, is in use (log 37). -/
theorem deleteQueue_busy {q : Nat} {qu : Queue} (h : FromContext s hd r) (hqu : s.queues.get? q = some qu) (hown : qu.ctx = hd.ctx)
    (huse : qu.entries ≠ [] ∨ (takingSlot s q).isSome = true) :
    exec (.deleteQueue hd q) s = .next (answered s hd 0x09 0x33 []) := by
  have hbusy : (!qu.entries.isEmpty || (takingSlot s q).isSome) = true := by simpa using huse
  change execDeleteQueue hd q s = _
  simp only [execDeleteQueue, ctxCommand_fromContext h, hqu, hown, hbusy, bne_self_eq_false, Bool.false_eq_true, if_false, if_true,
    answerCmd_eq_answered]

theorem launchCommand_accepted {q : Nat} {pkt : List Double} (h : FromContext s hd r)
    (haccept : acceptCode s hd.ctx pkt q false false = 0) :
    exec (.launchCommand hd q pkt) s = .next (answered (pushPacket s hd.ctx pkt q).1 hd 0x0A 0 [s.nextLid]) := by
  change execLaunchCommand hd q pkt s = _
  simp only [execLaunchCommand, ctxCommand_fromContext h, haccept, if_true]
  rfl

theorem launchCommand_refused {q : Nat} {pkt : List Double} (h : FromContext s hd r)
    (hrefuse : acceptCode s hd.ctx pkt q false false ≠ 0) :
    exec (.launchCommand hd q pkt) s = .next (answered s hd 0x0A (acceptCode s hd.ctx pkt q false false) [0]) := by
  change execLaunchCommand hd q pkt s = _
  simp only [execLaunchCommand, ctxCommand_fromContext h, hrefuse, if_false, answerCmd_eq_answered]

/-! ## Releases and identifiers (R356, R363) -/

theorem release_badArg {b : Double} (h : FromContext s hd r) (htarget : releaseTarget s hd.ctx b = none) :
    exec (.release hd b) s = .next (answered s hd 0x0B 0x32 []) := by
  change execRelease hd b s = _
  simp [execRelease, ctxCommand_fromContext h, htarget]

theorem release_done {b : Double} {pa : Nat} (h : FromContext s hd r) (htarget : releaseTarget s hd.ctx b = some pa) :
    exec (.release hd b) s = .next (answered (syncRelease s pa) hd 0x0B 0 [syncRseq (syncRelease s pa) (pa / 64 * 64)]) := by
  change execRelease hd b s = _
  simp [execRelease, ctxCommand_fromContext h, htarget]

theorem releaseIds_badArg {lv : BitVec 2} {id : Nat} (h : FromContext s hd r)
    (hbad : lv = 3 ∨ ownsId s hd.ctx lv.toNat id = false) :
    exec (.releaseIds hd lv id) s = .next (answered s hd 0x0F 0x32 []) := by
  have hrefused : (decide (lv = 3) || !ownsId s hd.ctx lv.toNat id) = true := by simpa using hbad
  change execReleaseIds hd lv id s = _
  simp only [execReleaseIds, ctxCommand_fromContext h, hrefused, if_true, answerCmd_eq_answered]

theorem releaseIds_busy {lv : BitVec 2} {id : Nat} (h : FromContext s hd r) (hlv : lv ≠ 3)
    (hown : ownsId s hd.ctx lv.toNat id = true) (hused : idUsed s hd.ctx lv.toNat id = true) :
    exec (.releaseIds hd lv id) s = .next (answered s hd 0x0F 0x33 []) := by
  have hallowed : (decide (lv = 3) || !ownsId s hd.ctx lv.toNat id) = false := by simpa [hown] using hlv
  change execReleaseIds hd lv id s = _
  simp only [execReleaseIds, ctxCommand_fromContext h, hallowed, hused, Bool.false_eq_true, if_false, if_true, answerCmd_eq_answered]

/-- An identifier that nothing names leaves the table of its level: 0 graphs, 1 phases, 2 jobs. -/
theorem releaseIds_unused {lv : BitVec 2} {id : Nat} (h : FromContext s hd r) (hlv : lv ≠ 3)
    (hown : ownsId s hd.ctx lv.toNat id = true) (hused : idUsed s hd.ctx lv.toNat id = false) :
    exec (.releaseIds hd lv id) s = .next (answered (if lv = 0 then { s with graphs := s.graphs.del id }
      else if lv = 1 then { s with phases := s.phases.del id } else { s with jobs := s.jobs.del id }) hd 0x0F 0 []) := by
  have hallowed : (decide (lv = 3) || !ownsId s hd.ctx lv.toNat id) = false := by simpa [hown] using hlv
  change execReleaseIds hd lv id s = _
  simp only [execReleaseIds, ctxCommand_fromContext h, hallowed, hused, Bool.false_eq_true, if_false, answerCmd_eq_answered]

/-! ## Re-patching (R89) -/

section
variable {code buf newOid : Nat} {c c' : Code} {e : ObjE} {b : BufferEntry × Nat}

/-- With no unit of the code object, its words are patched, the buffer takes its new object and the code's sync object is released. -/
theorem rePatch_patched (hc : s.codes.get? code = some c) (hb : c.buffers[buf]? = some b) (hobj : objValid s c.ctx newOid = some e)
    (hpatch : (c.relocs.filter fun r => (r.kind = 1 || r.kind = 4) && r.aux = buf).foldl
      (relocate c.ctx c.bases (c.buffers.mapIdx fun i b => if i = buf then (newOid, e.size) else (b.2, b.1.size))) { s with part := none } = t)
    (hidle : ∀ u ∈ s.units, u.2.code ≠ code)
    (hc' : c' = { c with buffers := c.buffers.mapIdx fun i b => if i = buf then (b.1, newOid) else b }) :
    exec (.rePatch code buf newOid) s = .next (syncRelease { t with codes := t.codes.put code c' } c.sync) := by
  have hno : (s.units.any fun u => u.2.code = code) = false := by simpa using hidle
  subst hpatch hc'
  change execRePatch code buf newOid s = _
  simp only [execRePatch, hc, hb, hobj, hno]
  rfl

/-- A re-patch waits while a unit of the code object stands (log 80). -/
theorem rePatch_waits (hc : s.codes.get? code = some c) (hb : c.buffers[buf]? = some b) (hobj : objValid s c.ctx newOid = some e)
    (hruns : ∃ u ∈ s.units, u.2.code = code) : exec (.rePatch code buf newOid) s = .next { s with part := some 0 } := by
  have hyes : (s.units.any fun u => u.2.code = code) = true := by simpa using hruns
  change execRePatch code buf newOid s = _
  simp only [execRePatch, hc, hb, hobj, hyes, if_true]

end

/-! ## The statement -/

/-- Settles O58: each clause is the outcome of one command that the lemmas above give. -/
theorem contextCommands : Obligations.ContextCommands := by
  refine ⟨?load, ?unload, ?unloadNotOwn, ?createObjRefused, ?destroyObjRefused, ?queueRefused, ?releaseRefused, ?idsRefused, ?createObj,
    ?destroyObj, ?createQueue, ?deleteQueue, ?launch, ?release, ?ids, ?rePatch⟩
  case load =>
    intro s hd r img h
    exact ⟨fun _ _ => load_refused h, fun _ _ _ => load_installed h, fun _ => load_noSpace h⟩
  case unload =>
    intro s hd r code c h hc hown
    exact ⟨unload_unused h hc hown, unload_busy h hc hown⟩
  case unloadNotOwn => exact fun _ _ _ _ => unload_notOwn
  case createObjRefused =>
    intro s hd r entry h
    exact ⟨createObj_badArg h, createObj_noSpace h⟩
  case destroyObjRefused =>
    intro s hd r oid h
    exact ⟨destroyObj_none h, destroyObj_codeArea h⟩
  case queueRefused =>
    intro s hd r q depth oid off h
    exact ⟨createQueue_badArg h, createQueue_busy h, deleteQueue_notOwn h⟩
  case releaseRefused => exact fun _ _ _ _ => release_badArg
  case idsRefused =>
    intro s hd r lv id h
    exact ⟨releaseIds_badArg h, releaseIds_busy h⟩
  case createObj => exact fun _ _ _ _ _ _ => createObj_made
  case destroyObj =>
    intro s t hd r oid e h hobj harea hgrants
    exact ⟨destroyObj_removed h hobj harea hgrants, fun hg => hgrants.symm.trans (retireGrants_of_none _ hg)⟩
  case createQueue => exact fun _ _ _ _ _ _ _ _ => createQueue_made
  case deleteQueue =>
    intro s hd r q qu h hqu hown
    exact ⟨deleteQueue_unused h hqu hown, deleteQueue_busy h hqu hown⟩
  case launch =>
    intro s hd r q pkt h
    exact ⟨launchCommand_accepted h, launchCommand_refused h⟩
  case release => exact fun _ _ _ _ _ => release_done
  case ids =>
    intro s hd r id h
    exact ⟨releaseIds_unused (lv := 0) h (by decide), releaseIds_unused (lv := 1) h (by decide), releaseIds_unused (lv := 2) h (by decide)⟩
  case rePatch =>
    intro s t code buf newOid c e b hc hb hobj hpatch
    exact ⟨fun hidle => ⟨_, rfl, rePatch_patched hc hb hobj hpatch hidle rfl⟩, rePatch_waits hc hb hobj⟩

end Sys2Proof.Machine.ContextCommands
end

section
/-! SUPPORT. The refutation of O47: the end of an M strand also closes a run that an engine other than a Griddle holds, and that
close writes rows. -/

namespace Sys2Proof.Machine.StrandEnds
open Sys2Proof.Claims

/-! ## A unit whose M strand ends while it leases a Kettle with an open run -/

def kettle : EngineId := { g := 0, cls := .kettle, i := 0 }

/-- A floating-point run of one row, which holds 1.0 in lane 0 and a block since its last promotion. -/
def openRun : Run := { acc := 0, rows := 1, int := false, blocks := 1, vals := [0x3F800000], wins := [] }

def kettleLease : LeaseSlot :=
  { eng := kettle, handle := 0, step := 0, isOpen := true, evicted := false, start := 0, ends := 4096, prio := 0, order := 0, load := none }

/-- The strand at its end, whose segment is abandoned: no comparison follows. -/
def endedStrand : Strand := { benchStrand [0] with seg := false }

/-- No command is in flight; slot 0 has the lease. -/
def kettleUnit : Unit :=
  let u := benchUnit State.reset .c []
  { u with leases := vmodify u.leases 0 fun _ => some kettleLease
           seqr := u.seqr.set .m { queue := [], run := some endedStrand, ending := true } }

def kettleState : State :=
  { State.reset with
    units := [(0, kettleUnit)]
    engines := [(engKey kettle, { Engine.off with power := .awake, key := some (0, 0), mem := { EngMem.empty with run := some openRun } })] }

/-! ## What the model does with it -/

/-- The slot counts among those whose run a close does not promote, as only a Griddle's counts among the others. -/
theorem plainRuns_kettle : plainRuns kettleState 0 kettleUnit = [0] := by decide +kernel

/-- Once that run is closed, no slot has a run whose close would wait for a command. -/
theorem runSlots_kettle : runSlots (closeSlots kettleState 0 (plainRuns kettleState 0 kettleUnit)) 0 kettleUnit = [] := by decide +kernel

theorem exec_strandEnd_kettle :
    exec (.strandEnd ⟨0, false⟩ .m 0) kettleState = .next (endStrand kettleState 0 kettleUnit .m endedStrand 0) := rfl

/-- The close promotes the run: row 0 takes its values. -/
theorem rows_endStrand_kettle : (endStrand kettleState 0 kettleUnit .m endedStrand 0).rows = [(0, 0x3F800000)] := by decide +kernel

/-- Refutes O47: the clause of the M strand's end says that nothing but the units and the engines changes. In `kettleState` the ended
strand's unit leases a Kettle that holds an open floating-point run; `plainRuns` takes it for a run without promotion (`runSlots` asks for a
Griddle), `closeRun` promotes it all the same, and row 0 of the hearth changes. The clause lacks the premise that only a Griddle holds a
run (R189). -/
theorem not_accessesAndStrands : ¬ Obligations.AccessesAndStrands := by
  rintro ⟨-, -, -, hEnd, -⟩
  have hruns : ((runSlots (closeSlots kettleState 0 (plainRuns kettleState 0 kettleUnit)) 0 kettleUnit).filter fun i =>
      !kettleUnit.closing.any fun c => c.2.elem i) = [] := by rw [runSlots_kettle, List.filter_nil]
  obtain ⟨t, -, hstep, hframe, -⟩ :=
    hEnd kettleState ⟨0, false⟩ kettleUnit endedStrand 0 rfl rfl rfl (.inl rfl) (.inl hruns)
  have hrows : t.rows = [] := congrArg State.rows hframe
  rw [exec_strandEnd_kettle] at hstep
  injection hstep with ht
  rw [← ht, rows_endStrand_kettle] at hrows
  exact absurd hrows (by simp)

end Sys2Proof.Machine.StrandEnds
end

section
/-! SUPPORT. Rounding (O14): what `quant` answers in each mode, and that the value of a finite code lies on the grid that its rounding
takes it to. -/

namespace Sys2Proof.Machine.Rounding
open Sys2Proof.Claims

/-! ## `quant` by mode (R101)

To a multiple of 2^(e + k), m × 2^e is m / 2^k units and a remainder of m % 2^k parts in 2^k. -/

section
variable (sg : Bool) {m k : Nat} (e : Int) (mode : Rnd) (r : Nat)

theorem quant_self : quant sg m e e mode r = (m, false) := by
  simp only [quant, Int.le_refl, if_true, Int.sub_self, Int.toNat_zero, Nat.shiftLeft_zero]

theorem ne_zero_of_mod_two_pow_ne_zero (h : m % 2 ^ k ≠ 0) : k ≠ 0 := by
  rintro rfl
  exact h (Nat.mod_one m)

theorem not_add_le_self (hk : k ≠ 0) : ¬ e + k ≤ e := by omega

theorem toNat_add_sub_self (k : Nat) : (e + k - e).toNat = k := by omega

theorem quant_of_exact (h : m % 2 ^ k = 0) : quant sg m e (e + k) mode r = (m / 2 ^ k, false) := by
  by_cases hk : k = 0
  · subst hk
    simp only [Int.natCast_zero, Int.add_zero, quant_self, Nat.pow_zero, Nat.div_one]
  · simp only [quant, not_add_le_self e hk, toNat_add_sub_self, h, if_true, if_false, Nat.shiftRight_eq_div_pow]

variable (m k)

theorem quant_snd : (quant sg m e (e + k) mode r).2 = decide (m % 2 ^ k ≠ 0) := by
  by_cases h : m % 2 ^ k = 0
  · rw [quant_of_exact sg e mode r h, h]
    rfl
  · have hk := not_add_le_self e (ne_zero_of_mod_two_pow_ne_zero h)
    simp only [quant, hk, toNat_add_sub_self, h, if_false, ne_eq, not_false_eq_true, decide_true]

theorem quant_rtz : (quant sg m e (e + k) .rtz r).1 = m / 2 ^ k := by
  by_cases h : m % 2 ^ k = 0
  · rw [quant_of_exact sg e .rtz r h]
  · have hk := not_add_le_self e (ne_zero_of_mod_two_pow_ne_zero h)
    simp only [quant, hk, toNat_add_sub_self, h, if_false, Bool.false_eq_true, Nat.shiftRight_eq_div_pow]

theorem quant_rdn :
    (quant sg m e (e + k) .rdn r).1 = m / 2 ^ k + if sg = true ∧ m % 2 ^ k ≠ 0 then 1 else 0 := by
  by_cases h : m % 2 ^ k = 0
  · rw [quant_of_exact sg e .rdn r h, if_neg fun hup => hup.2 h, Nat.add_zero]
  · have hk := not_add_le_self e (ne_zero_of_mod_two_pow_ne_zero h)
    simp only [quant, hk, toNat_add_sub_self, h, if_false, ne_eq, not_false_eq_true, and_true, Nat.shiftRight_eq_div_pow]
    split <;> rfl

/-- Rounding up is rounding down with the sign turned. -/
theorem quant_rup : quant sg m e (e + k) .rup r = quant (!sg) m e (e + k) .rdn r := rfl

/-- The half unit that `quant` compares the remainder with. -/
theorem two_mul_half (h : m % 2 ^ k ≠ 0) : 2 * 2 ^ (k - 1) = 2 ^ k := by
  obtain ⟨j, rfl⟩ := Nat.exists_eq_succ_of_ne_zero (ne_zero_of_mod_two_pow_ne_zero h)
  rw [Nat.succ_sub_one, Nat.pow_succ, Nat.mul_comm]

theorem quant_rna :
    (quant sg m e (e + k) .rna r).1 = m / 2 ^ k + if m % 2 ^ k ≠ 0 ∧ 2 ^ k ≤ 2 * (m % 2 ^ k) then 1 else 0 := by
  by_cases h : m % 2 ^ k = 0
  · rw [quant_of_exact sg e .rna r h, if_neg fun hup => hup.1 h, Nat.add_zero]
  · have hk := not_add_le_self e (ne_zero_of_mod_two_pow_ne_zero h)
    have hle : 2 ^ k ≤ 2 * (m % 2 ^ k) ↔ 2 ^ (k - 1) ≤ m % 2 ^ k := by have := two_mul_half m k h; omega
    simp only [quant, hk, toNat_add_sub_self, h, hle, if_false, ne_eq, not_false_eq_true, true_and, ge_iff_le, decide_eq_true_eq,
      Nat.shiftRight_eq_div_pow]
    split <;> rfl

theorem quant_rne :
    (quant sg m e (e + k) .rne r).1 =
      m / 2 ^ k + if 2 ^ k < 2 * (m % 2 ^ k) ∨ 2 * (m % 2 ^ k) = 2 ^ k ∧ m / 2 ^ k % 2 = 1 then 1 else 0 := by
  by_cases h : m % 2 ^ k = 0
  · have hpow := Nat.two_pow_pos k
    rw [quant_of_exact sg e .rne r h, if_neg (by omega), Nat.add_zero]
  · have hk := not_add_le_self e (ne_zero_of_mod_two_pow_ne_zero h)
    have hlt : 2 ^ k < 2 * (m % 2 ^ k) ↔ 2 ^ (k - 1) < m % 2 ^ k := by have := two_mul_half m k h; omega
    have htie : 2 * (m % 2 ^ k) = 2 ^ k ↔ m % 2 ^ k = 2 ^ (k - 1) := by have := two_mul_half m k h; omega
    simp only [quant, hk, toNat_add_sub_self, h, hlt, htie, if_false, gt_iff_lt, Bool.or_eq_true, Bool.and_eq_true, decide_eq_true_eq,
      beq_iff_eq, Nat.shiftRight_eq_div_pow]
    split <;> rfl

/-! ## Where the result lies -/

theorem quant_rtz_floor :
    (quant sg m e (e + k) .rtz r).1 * 2 ^ k ≤ m ∧ m < ((quant sg m e (e + k) .rtz r).1 + 1) * 2 ^ k := by
  rw [quant_rtz]
  exact ⟨Nat.div_mul_le_self m _, Nat.lt_mul_of_div_lt (Nat.lt_succ_self _) (Nat.two_pow_pos k)⟩

theorem quant_rdn_of_neg :
    m ≤ (quant true m e (e + k) .rdn r).1 * 2 ^ k ∧ (quant true m e (e + k) .rdn r).1 * 2 ^ k < m + 2 ^ k := by
  have hm := Nat.div_add_mod' m (2 ^ k)
  have hlt := Nat.mod_lt m (Nat.two_pow_pos k)
  rw [quant_rdn]
  simp only [true_and]
  split <;> simp only [Nat.add_mul] <;> omega

theorem quant_rna_nearest :
    2 * (quant sg m e (e + k) .rna r).1 * 2 ^ k ≤ 2 * m + 2 ^ k ∧ 2 * m < 2 * (quant sg m e (e + k) .rna r).1 * 2 ^ k + 2 ^ k := by
  have hm := Nat.div_add_mod' m (2 ^ k)
  have hlt := Nat.mod_lt m (Nat.two_pow_pos k)
  rw [quant_rna]
  split <;> simp only [Nat.mul_assoc, Nat.add_mul] <;> omega

theorem quant_rne_nearest :
    2 * (quant sg m e (e + k) .rne r).1 * 2 ^ k ≤ 2 * m + 2 ^ k ∧ 2 * m ≤ 2 * (quant sg m e (e + k) .rne r).1 * 2 ^ k + 2 ^ k := by
  have hm := Nat.div_add_mod' m (2 ^ k)
  have hlt := Nat.mod_lt m (Nat.two_pow_pos k)
  rw [quant_rne]
  split <;> simp only [Nat.mul_assoc, Nat.add_mul] <;> omega

theorem quant_rne_tie_even
    (h : 2 * (quant sg m e (e + k) .rne r).1 * 2 ^ k = 2 * m + 2 ^ k ∨
      2 * m = 2 * (quant sg m e (e + k) .rne r).1 * 2 ^ k + 2 ^ k) : (quant sg m e (e + k) .rne r).1 % 2 = 0 := by
  have hm := Nat.div_add_mod' m (2 ^ k)
  have hlt := Nat.mod_lt m (Nat.two_pow_pos k)
  have hq := quant_rne sg m k e r
  generalize (quant sg m e (e + k) .rne r).1 = n at h hq ⊢
  split at hq <;> subst hq <;> simp only [Nat.mul_assoc, Nat.add_mul] at h <;> omega

theorem roundingIsCorrect : RoundingIsCorrect := by
  intro sg m k e r
  obtain ⟨hneLe, hneGe⟩ := quant_rne_nearest sg m k e r
  obtain ⟨htzLe, htzLt⟩ := quant_rtz_floor sg m k e r
  obtain ⟨hnaLe, hnaLt⟩ := quant_rna_nearest sg m k e r
  refine ⟨hneLe, hneGe, fun h => .inl (quant_rne_tie_even sg m k e r h), htzLe, htzLt, hnaLe, hnaLt, ?_, ?_, ?_, ?_,
    fun mode => quant_snd sg m k e mode r⟩
  · rintro rfl
    simp only [quant_rdn, quant_rtz, Bool.false_eq_true, false_and, if_false, Nat.add_zero]
  · rintro rfl
    simp only [quant_rup, quant_rdn, quant_rtz, Bool.not_true, Bool.false_eq_true, false_and, if_false, Nat.add_zero]
  · rintro rfl
    exact quant_rdn_of_neg m k e r
  · rintro rfl
    simpa only [quant_rup, Bool.not_false] using quant_rdn_of_neg m k e r

end

/-! ## The formats (R93, R94) -/

/-- A format whose greatest exponent holds a NaN beside normal values has the fields of E4M3 (R94), whose NaN code and greatest code
the model writes as numerals. -/
def Regular (f : FFmt) : Prop := f.e4m3 = true → f.e = 4 ∧ f.m = 3

theorem regular_of_mem : ∀ f ∈ [fp32, fp16, bf16, e4m3, e5m2, e2m3, e3m2, e2m1], Regular f := by
  unfold Regular; decide

/-- The sign bit S of a code (R93). -/
def signOf (f : FFmt) (x : Nat) : Bool := x.testBit (f.e + f.m)
/-- The exponent field E. -/
def expOf (f : FFmt) (x : Nat) : Nat := (x >>> f.m) % 2 ^ f.e
/-- The fraction field M. -/
def fracOf (f : FFmt) (x : Nat) : Nat := x % 2 ^ f.m
/-- The code without its sign. -/
def magOf (f : FFmt) (x : Nat) : Nat := x % 2 ^ (f.e + f.m)

section
variable {f : FFmt} {x : Nat}

theorem expOf_lt : expOf f x < 2 ^ f.e := Nat.mod_lt _ (Nat.two_pow_pos _)
theorem fracOf_lt : fracOf f x < 2 ^ f.m := Nat.mod_lt _ (Nat.two_pow_pos _)

theorem magOf_eq : magOf f x = expOf f x * 2 ^ f.m + fracOf f x := by
  rw [magOf, expOf, fracOf, Nat.add_comm f.e, Nat.pow_add, Nat.mod_mul, Nat.shiftRight_eq_div_pow, Nat.mul_comm, Nat.add_comm]

theorem signBit_add_magOf (h : x < 2 ^ f.width) : f.signBit (signOf f x) + magOf f x = x := by
  have hwidth : f.width = f.e + f.m + 1 := by unfold FFmt.width; omega
  have hx : x = x % 2 ^ (f.e + f.m) + 2 ^ (f.e + f.m) * (signOf f x).toNat := by
    rw [signOf, Nat.toNat_testBit, ← Nat.mod_pow_succ, ← hwidth, Nat.mod_eq_of_lt h]
  rw [FFmt.signBit, magOf]
  cases hs : signOf f x with
  | false =>
    simp only [hs, Bool.toNat_false, Nat.mul_zero, Nat.add_zero] at hx
    rw [if_neg Bool.false_ne_true, Nat.zero_add, ← hx]
  | true =>
    simp only [hs, Bool.toNat_true, Nat.mul_one] at hx
    rw [if_pos rfl, Nat.add_comm, ← hx]

/-- `decode` by the three fields. -/
theorem decode_eq : f.decode x =
    if f.ieee = true ∧ expOf f x = f.maxE then (if fracOf f x = 0 then .inf (signOf f x) else .nan)
    else if f.e4m3 = true ∧ expOf f x = 15 ∧ fracOf f x = 7 then .nan
    else if expOf f x = 0 then .fin (signOf f x) (fracOf f x) (1 - (f.bias : Int) - f.m)
    else .fin (signOf f x) (fracOf f x + 2 ^ f.m) ((expOf f x : Int) - f.bias - f.m) := by
  simp only [FFmt.decode, signOf, expOf, fracOf, Bool.and_eq_true, beq_iff_eq, and_assoc]
  -- The sides differ in the instances that decide the conditions.
  congr

/-- A code that is no NaN and no infinity lies at or below the greatest one (Table 4.1). -/
theorem magOf_le_large (hf : Regular f) (hinf : ¬ (f.ieee = true ∧ expOf f x = f.maxE))
    (hnan : ¬ (f.e4m3 = true ∧ expOf f x = 15 ∧ fracOf f x = 7)) : magOf f x ≤ f.large := by
  have hex := expOf_lt (f := f) (x := x)
  have hfr := fracOf_lt (f := f) (x := x)
  unfold FFmt.large
  split
  case isTrue h =>
    have hle : expOf f x ≤ f.maxE - 1 := by
      have : expOf f x ≠ f.maxE := fun he => hinf ⟨h, he⟩
      unfold FFmt.maxE at *
      omega
    have := Nat.mul_le_mul_right (2 ^ f.m) hle
    rw [magOf_eq]
    omega
  case isFalse =>
    split
    case isTrue h =>
      obtain ⟨he, hm⟩ := hf h
      rw [magOf_eq]
      rw [he] at hex
      rw [hm] at hfr ⊢
      have hne : ¬ (expOf f x = 15 ∧ fracOf f x = 7) := fun hx => hnan ⟨h, hx⟩
      omega
    case isFalse => exact Nat.le_sub_one_of_lt (Nat.mod_lt _ (Nat.two_pow_pos _))

/-- A value whose exponent is that of the unit to which its magnitude is rounded is rounded to itself; `c` is its code without the sign. -/
theorem round_of_on_grid {s : Bool} {n c : Nat} {e : Int} {mode : Rnd} {sat : Bool} {r : Nat} (hn : n ≠ 0) (hlt : n < 2 ^ (f.m + 1))
    (hunit : (if (n.log2 : Int) + e < 1 - (f.bias : Int) then 1 - (f.bias : Int) else (n.log2 : Int) + e) - f.m = e)
    (hc : (if n < 2 ^ f.m then n else (e + f.m + f.bias).toNat * 2 ^ f.m + (n - 2 ^ f.m)) = c) (hlarge : c ≤ f.large) :
    f.round s n e mode sat r = (f.signBit s + c, 0) := by
  have hno : ¬ 2 ^ (f.m + 1) ≤ n := by omega
  have hover : ¬ f.large < c := by omega
  simp only [FFmt.round, hn, hunit, quant_self, hno, hc, hover, if_false, Fl.only, Bool.false_and, Bool.false_eq_true]
  rfl

/-- A subnormal value: its unit is that of the least normal exponent. -/
theorem round_subnormal {s : Bool} {n : Nat} {mode : Rnd} {sat : Bool} {r : Nat} (hlt : n < 2 ^ f.m) (hlarge : n ≤ f.large) :
    f.round s n (1 - (f.bias : Int) - f.m) mode sat r = (f.signBit s + n, 0) := by
  by_cases hn : n = 0
  · subst hn
    rfl
  · have hlog : n.log2 < f.m := (Nat.log2_lt hn).mpr hlt
    have hpow : 2 ^ f.m < 2 ^ (f.m + 1) := Nat.pow_lt_pow_right (by decide) (Nat.lt_succ_self _)
    refine round_of_on_grid hn (Nat.lt_trans hlt hpow) ?_ (if_pos hlt) hlarge
    rw [if_pos (by omega)]

/-- A normal value: its leading one has the exponent of its code. -/
theorem round_normal {s : Bool} {ex fr : Nat} {mode : Rnd} {sat : Bool} {r : Nat} (hex : ex ≠ 0) (hfr : fr < 2 ^ f.m)
    (hlarge : ex * 2 ^ f.m + fr ≤ f.large) :
    f.round s (fr + 2 ^ f.m) ((ex : Int) - f.bias - f.m) mode sat r = (f.signBit s + (ex * 2 ^ f.m + fr), 0) := by
  have hpow : 2 ^ (f.m + 1) = 2 ^ f.m + 2 ^ f.m := by rw [Nat.pow_succ, Nat.mul_two]
  have hn : fr + 2 ^ f.m ≠ 0 := by have := Nat.two_pow_pos f.m; omega
  have hlog : (fr + 2 ^ f.m).log2 = f.m := (Nat.log2_eq_iff hn).mpr ⟨by omega, by omega⟩
  refine round_of_on_grid hn (by omega) ?_ ?_ hlarge
  · rw [hlog, if_neg (by omega)]
    omega
  · have hexp : ((ex : Int) - f.bias - f.m + f.m + f.bias).toNat = ex := by omega
    rw [if_neg (by omega), hexp, Nat.add_sub_cancel]

/-- A finite value of a code, rounded to the code's format. -/
theorem round_decode {s : Bool} {n : Nat} {e : Int} (hf : Regular f) (hx : x < 2 ^ f.width) (h : f.decode x = .fin s n e)
    (mode : Rnd) (sat : Bool) (r : Nat) : f.round s n e mode sat r = (x, 0) := by
  rw [decode_eq] at h
  split at h
  case isTrue => split at h <;> cases h
  case isFalse hinf =>
    split at h
    case isTrue => cases h
    case isFalse hnan =>
      have hlarge := magOf_le_large hf hinf hnan
      have hcode := signBit_add_magOf hx
      rw [magOf_eq] at hlarge hcode
      split at h
      case isTrue hex =>
        injection h with hs hn he
        subst hs hn he
        simp only [hex, Nat.zero_mul, Nat.zero_add] at hlarge hcode
        rw [round_subnormal fracOf_lt hlarge, hcode]
      case isFalse hex =>
        injection h with hs hn he
        subst hs hn he
        rw [round_normal hex fracOf_lt hlarge, hcode]

/-- An infinity's code. -/
theorem infCode_of_decode {s : Bool} (hx : x < 2 ^ f.width) (h : f.decode x = .inf s) :
    f.ieee = true ∧ f.signBit s + f.infCode = x := by
  rw [decode_eq] at h
  split at h
  case isTrue hinf =>
    obtain ⟨hieee, hex⟩ := hinf
    split at h
    case isTrue hfr =>
      injection h with hs
      have hcode := signBit_add_magOf hx
      rw [magOf_eq, hex, hfr, hs] at hcode
      exact ⟨hieee, hcode⟩
    case isFalse => cases h
  case isFalse =>
    split at h
    · cases h
    · split at h <;> cases h

end

theorem everyCodeRoundsToItself : EveryCodeRoundsToItself := by
  intro f hf x mode sat r hx hnan
  cases h : f.decode x with
  | nan => rw [h] at hnan; cases hnan
  | inf s =>
    obtain ⟨hieee, hcode⟩ := infCode_of_decode hx h
    cases sat with
    | false => simp only [FFmt.encode, hieee, hcode, Bool.not_false, Bool.and_self, if_true, Bool.false_eq_true, if_false]
    | true => simp only [FFmt.encode, hieee, Bool.not_true, Bool.and_false, Bool.false_eq_true, if_false, if_true]
  | fin s n e => exact round_decode (regular_of_mem f hf) hx h mode sat r

/-- Settles O14: a code's value lies on the grid of its own format, and `quant` takes the neighbour that each mode asks for. -/
theorem roundingResults : Obligations.RoundingResults := ⟨everyCodeRoundsToItself, roundingIsCorrect⟩

end Sys2Proof.Machine.Rounding
end
